-- ==== Sys2Proof/Word.lean ====
section
/-!
DEFINITION. The word types of the ZN416 (spec/00 section 1.5, spec/12 R200): bytes, 16-bit words, 32-bit
local time, station numbers and station masks.
-/

namespace Sys2Proof

/-- One byte of a frame, a command or a response. -/
abbrev Byte := BitVec 8

/-- A 16-bit unsigned word: a data word, a version, an interval (R200). -/
abbrev Word := BitVec 16

/-- Local time: a 32-bit count of milliseconds that wraps (R92). -/
abbrev Time := BitVec 32

/-- A station number 0–15 (R92). -/
abbrev Station := BitVec 4

/-- A set of stations: bit n stands for station n (R200). -/
abbrev StationMask := BitVec 16

end Sys2Proof
end

