-- ==== Sys2Proof/Syntax.lean ====
section
/-!
DEFINITION. The commands of the node: one constructor for each row of spec/opcode_table.json, with the
operands the event brings from outside.
-/

namespace Sys2Proof

/-- The state of a slot; the owner stands with OWNED, since it is present exactly there (R21, R22). -/
inductive SlotState where
  | unlearned
  | free
  | owned (owner : Station)
  | orphaned
  deriving DecidableEq, Repr

/-- The condition of this node's copy of a slot's words (R23). -/
inductive Health where
  | good
  | damaged
  | unknown
  | failed
  deriving DecidableEq, Repr

/-- One of the two lines of the peer bus. -/
inductive Line where
  | pck
  | pdt
  deriving DecidableEq, Repr

/-- What ends a frame before its veto slot (R14). -/
inductive TruncationCause where
  | idle
  | stop
  | start
  deriving DecidableEq, Repr

/-- What the pins hold at a reset: the straps (R92) and the levels of the bus lines (R16, R20). -/
structure ResetPins where
  station : Station
  rate    : BitVec 2
  pckLow  : Bool
  pdtLow  : Bool
  deriving DecidableEq, Repr

/-- The contents a disturbance leaves in the fields of a directory entry (R29, R39). -/
structure EntryBits where
  state      : SlotState
  version    : Word
  length     : Fin 17
  health     : Health
  wanted     : Bool
  unresolved : Bool
  deriving DecidableEq, Repr

/-- What a disturbance strikes. The first two are the row's own; the last two are the other structures
whose parity the fault checkers test (R108; log entry 8). -/
inductive Target where
  /-- Flips the bits `flips` of the code word at a position of a row (R27, R29). -/
  | cell (row position : Nat) (flips : BitVec 22)
  /-- Changes a directory entry, whose parity then mismatches (R39). -/
  | entry (slot : Byte) (bits : EntryBits)
  /-- Makes the parity of a membership entry mismatch (R108). -/
  | member (station : Station)
  /-- Makes the parity of the configuration mismatch (R108). -/
  | config
  deriving DecidableEq, Repr

/-- What the transaction that NSEL's fall begins has come to when the next command of the queue comes about. -/
inductive Transaction where
  /-- It is in progress, with these whole bytes collected so far (R190). -/
  | inProgress (bytes : List Byte)
  /-- NSEL has risen again, and no whole byte was collected: no command is taken (R190). -/
  | withoutByte
  deriving DecidableEq, Repr

/-- The rows of the table. A local-port command carries the argument bytes of its transaction, those after
the command code, as received (R190, R202); it is taken at the NSEL rising edge. -/
inductive Instr where
  | hardReset (pins : ResetPins) (nselLow : Bool)
  | pfailEdge
  | pfailWaitExpiry
  /-- With no operand named, NSEL has fallen and no whole byte has been collected yet. -/
  | nselFall (transaction : Transaction := .inProgress [])
  | repeatResponse
  | status
  | configure (args : List Byte)
  | join
  | leave
  | read (args : List Byte)
  | stage (args : List Byte)
  | discard
  | publish
  | claim (args : List Byte)
  | yieldSlot (args : List Byte)
  | takeNotice
  | peekLog
  | takeLog
  | takeCount
  | members
  | watch (args : List Byte)
  | unwatch (args : List Byte)
  | reset (pins : ResetPins)
  | illegalCommand (code : Byte)
  | commandInHandGranted
  /-- `startSeen`: another node's start condition was seen before this node could give its own (R5). -/
  | busFree (startSeen : Bool)
  /-- `header`: the header byte received of a frame that this start condition cuts short, if any (R14). -/
  | startCondition (header : Option Byte)
  /-- `bit`: the number of the losing bit in the frame, the header's bits being 0 to 7 (R6, R17). -/
  | arbitrationLost (bit : Nat)
  /-- `body`: the whole bytes received before the pause; `extraBits`: the bits after them that fill no
  byte (R8). -/
  | checkPause (body : List Byte) (extraBits : Nat)
  | frameCheck
  /-- Whether another node pulls the heard slot, and the veto slot (R10). -/
  | vetoSlot (heard veto : Bool)
  /-- `header` as for `startCondition`, for a stop condition inside a frame (R3). -/
  | stopCondition (header : Option Byte)
  | truncation (cause : TruncationCause) (header : Option Byte)
  | busStuck (line : Line)
  | stuckEpisodeEnd
  | listenDeadline
  | deadlinePasses (station : Station)
  | decision
  | beatRequest
  | answerWaitExpiry
  | giveUp
  | scrubTurn
  | scrubStep
  | ageExpiry (index : Fin 4)
  | nrstHeldLow
  | disturbance (target : Target)
  | faultCheckerAlarm
  deriving DecidableEq, Repr

end Sys2Proof
end

