-- ==== Sys2Proof/Config.lean ====
section
/-!
DEFINITION. The fixed sizes of the part, and the one value the manual leaves open.
-/

namespace Sys2Proof.Config

/-- Places in the notice queue (R178). -/
abbrev noticeRoom : Nat := 16

/-- Places in the error log (R184). -/
abbrev logRoom : Nat := 6

/-- The error counter saturates here (R185). -/
abbrev counterMax : Nat := 255

/-- An entry is removed at this many failed attempts (R137). -/
abbrev maxAttempts : Nat := 8

/-- Drafts the draft buffer holds (R155). -/
abbrev draftRoom : Nat := 4

/-- Words of one row (R27). -/
abbrev rowWords : Nat := 16

/-- Rows of the data store, home and spare (R27). -/
abbrev rowCount : Nat := 260

/-- The spare rows in ascending order (R31). -/
abbrev spareRows : List Nat := [256, 257, 258, 259]

/-- Bit times at which a held line is stuck, and at which the PFAIL wait ends (R16, R107). -/
abbrev stuckBits : Nat := 2048

/-- Bit times of idle after which the bus is free for an unflagged node (R4). -/
abbrev freeBits : Nat := 12

/-- Bit times of idle after which the bus is free for a flagged node (R4). -/
abbrev flaggedFreeBits : Nat := 20

/-- Bytes of a transaction that the local port keeps after the command code (R190). -/
abbrev argRoom : Nat := 47

/-- FREE VALUE (log entry 6). How the store decodes a code word with three or more disturbed bits, from
the word written there and the disturbed bits: `none` is the uncorrectable outcome, `some p` the corrected
outcome reported at position p. R29 gives either outcome and any position, and no check-bit equations. -/
opaque multiBitOutcome : Word → BitVec 22 → Option (Fin 22)

end Sys2Proof.Config
end

