-- ==== Sys2Proof/Machine/State.lean ====
section
/-!
DEFINITION. The state of the node, block by block as spec/00 Table 1 lists them, the reasons a step can
stop, and the state after a hard reset.
-/

namespace Sys2Proof.Machine

/-- The nine node states (R91). -/
inductive NodeState where
  | config
  | idle
  | listening
  | announcing
  | catchup
  | member
  | leaving
  | isolated
  | halted
  deriving DecidableEq, Repr

/-- What the node controller is in the middle of (spec/05 Table 5-1). -/
inductive Phase where
  | none
  | joining
  | leaving
  | pfailLeave
  deriving DecidableEq, Repr

inductive IsolationCause where
  | dropped
  | noQuorum
  deriving DecidableEq, Repr

inductive HaltCause where
  | pfail
  | internalFault
  | duplicateStation
  deriving DecidableEq, Repr

/-- The frame kinds (R18, Table 1-2). -/
inductive FrameKind where
  | leave
  | drop
  | hello
  | claim
  | yield
  | post
  | sync
  | ask
  | beat
  deriving DecidableEq, Repr

/-- The shared parameters as a HELLO or BEAT carries them (R19, R201). -/
structure WireParams where
  rate     : BitVec 2
  slotCode : BitVec 2
  silence  : BitVec 4
  beat     : Word
  deriving DecidableEq, Repr

/-- One item of a POST; its length field is the number of its words (R19). -/
structure Item where
  slot    : Byte
  version : Word
  words   : List Word
  deriving DecidableEq, Repr

/-- One record of a SYNC, its state code and owner as received (R19, R201). -/
structure Record where
  slot      : Byte
  stateCode : BitVec 4
  owner     : BitVec 4
  version   : Word
  words     : List Word
  deriving DecidableEq, Repr

/-- What a frame carries after its header (R19, Table 12-2). The count of a POST or SYNC is the number of
its items or records. -/
inductive Payload where
  | leave
  | drop (mask : StationMask)
  | hello (params : WireParams)
  | claim (slot : Byte) (version : Word)
  | yield (slot : Byte) (version : Word)
  | post (items : List Item)
  | sync (records : List Record)
  | ask (first : Byte) (mode : BitVec 3) (count : BitVec 5)
  | beat (mask : StationMask) (params : WireParams)
  deriving DecidableEq, Repr

/-- A frame: its sender and its payload. -/
structure Frame where
  sender  : Station
  payload : Payload
  deriving DecidableEq, Repr

/-- The configuration of CONFIGURE (R93), with its parity (R108). -/
structure NodeConfig where
  beat       : Nat
  silence    : Nat
  slotCode   : Nat
  scrub      : Nat
  enableHigh : Bool
  enableLow  : Bool
  parityGood : Bool
  deriving DecidableEq, Repr

/-- The node controller (spec/05 Table 5-1). `subBits` counts the bit times of the running millisecond
(log entry 1). -/
structure Nct where
  node           : NodeState
  station        : Station
  rate           : BitVec 2
  config         : Option NodeConfig
  now            : Time
  subBits        : Nat
  listenDeadline : Option Time
  phase          : Phase
  isolationCause : Option IsolationCause
  haltCause      : Option HaltCause
  pfailLatch     : Bool
  pfailWait      : Option Nat
  nrstLow        : Bool
  deriving DecidableEq, Repr

/-- Where this node stands in the frame on the bus (R3, R8, R9, R13). -/
inductive Shift where
  /-- No frame is in progress. -/
  | idle
  /-- A frame of another node, from its start condition to its check pause. -/
  | receiving
  /-- A frame of another node, from its check pause to its veto slot. -/
  | paused
  /-- The node's own frame, from its start condition to its check pause. -/
  | sending (frame : Frame)
  /-- The node's own frame, from its check pause to its veto slot. -/
  | sendingPaused (frame : Frame)
  /-- The veto slot is sampled and the stop condition is awaited; `own`: the kind, if the frame is this
  node's. -/
  | slotsDone (own : Option FrameKind)
  deriving DecidableEq, Repr

/-- The bus lines between two events (R4, R16; log entry 20). -/
inductive Lines where
  /-- Both lines are high. -/
  | high
  /-- The bits of a frame pass: neither line keeps a level. -/
  | active
  /-- The named lines are held low. -/
  | low (pck pdt : Bool)
  deriving DecidableEq, Repr

/-- The peer bus interface. -/
structure Pbi where
  shift        : Shift
  lines        : Lines
  holdPck      : Bool
  pullHeard    : Bool
  pullVeto     : Bool
  busFreeTimer : Nat
  lastSender   : Bool
  stuckPck     : Nat
  stuckPdt     : Nat
  stuckEpisode : Bool
  deriving DecidableEq, Repr

/-- The frame checker's decision (R43). -/
inductive Verdict where
  | pass
  | veto
  deriving DecidableEq, Repr

/-- The inbound frame under check; no verdict yet while the check waits for its grant. -/
structure Inbound where
  frame   : Frame
  verdict : Option Verdict
  deriving DecidableEq, Repr

/-- What the frame checker waits for or holds the store for (Table 2-4). -/
inductive Purpose where
  | check
  | ownFrame
  | build
  | giveUp
  deriving DecidableEq, Repr

/-- The frame checker. -/
structure Fck where
  inbound : Option Inbound
  purpose : Option Purpose
  deriving DecidableEq, Repr

/-- A directory entry (Table 2-2). -/
structure DirEntry where
  state      : SlotState
  version    : Word
  length     : Nat
  health     : Health
  wanted     : Bool
  unresolved : Bool
  parityGood : Bool
  deriving DecidableEq, Repr

/-- A word position of a row: the word last written with its check bits, and the bits of the 22-bit code
word disturbed since (R27, R29). -/
structure Cell where
  word  : Word
  flips : BitVec 22
  deriving DecidableEq, Repr

/-- The data store: the rows as a sparse list from 16 × row + position to cell, the row map as pairs of
slot and spare row, the spare pool, and the rows that carry a strike or a retired mark (R27, R30–R32). -/
structure Dst where
  cells   : List (Nat × Cell)
  rowMap  : List (Nat × Nat)
  spares  : List Nat
  struck  : List Nat
  retired : List Nat
  deriving DecidableEq, Repr

/-- The three claimants, in their rank (R34). -/
inductive Claimant where
  | fck
  | lpt
  | scb
  deriving DecidableEq, Repr

/-- The store arbiter. -/
structure Sar where
  grant    : Option Claimant
  fckWaits : Bool
  lptWaits : Bool
  scbWaits : Bool
  deriving DecidableEq, Repr

inductive MemberState where
  | absent
  | present
  | suspect
  deriving DecidableEq, Repr

/-- A membership entry (Table 4-2), with its parity (R108). -/
structure MemberEntry where
  state        : MemberState
  deadline     : Option Time
  suspectSince : Option Time
  parityGood   : Bool
  deriving DecidableEq, Repr

/-- The membership unit (Table 4-1). The table is a sparse list from station number to entry; a station
not listed is ABSENT. `beatAsked`: the BEAT of the present reference has been asked for (R85). -/
structure Mbu where
  table       : List (Nat × MemberEntry)
  decision    : Option Time
  beatRef     : Option Time
  beatAsked   : Bool
  provisional : StationMask
  deriving DecidableEq, Repr

/-- The references of an outbound entry (Table 7-2). -/
inductive EntryRef where
  | none
  | operation
  | dropMask (original : StationMask)
  | askTry (try_ : Nat)
  deriving DecidableEq, Repr

/-- An outbound entry (Table 7-2). -/
structure OutEntry where
  kind     : FrameKind
  ref      : EntryRef
  attempts : Nat
  queued   : Time
  deriving DecidableEq, Repr

/-- The outbound scheduler (Table 7-1). -/
structure Obs where
  queue : List OutEntry
  build : Option Frame
  deriving DecidableEq, Repr

inductive CyclePhase where
  | queued
  | waiting
  deriving DecidableEq, Repr

/-- The ASK cycle record (Table 6-2). -/
structure AskCycle where
  first    : Nat
  last     : Nat
  try_     : Nat
  phase    : CyclePhase
  sent     : Option (Nat × Nat)
  deadline : Option Time
  asked    : List Nat
  deriving DecidableEq, Repr

/-- A due give-up (R122). `takenOver`: a check or build has taken over its access, so it is made at the
start of that access. -/
structure DueGiveUp where
  slots     : List Nat
  takenOver : Bool
  deriving DecidableEq, Repr

/-- The repair engine (Table 6-1). The wanted set is its own list, in ascending order, and the unresolved count
its own count: both follow every change of the directory's flags that the node makes (R112, R114). -/
structure Rpe where
  wanted     : List Nat
  cycle      : Option AskCycle
  answers    : List Nat
  due        : Option DueGiveUp
  unresolved : Nat
  deriving DecidableEq, Repr

inductive OpKind where
  | claim (slot : Nat)
  | yield (slot : Nat)
  | publish
  deriving DecidableEq, Repr

/-- The pending-operation record (R140); `onBus` is its state ON_BUS, otherwise it is QUEUED. -/
structure PendingOp where
  kind  : OpKind
  onBus : Bool
  deriving DecidableEq, Repr

/-- A draft; its length is the number of its words (R155). -/
structure Draft where
  slot  : Nat
  words : List Word
  deriving DecidableEq, Repr

/-- The operation unit (Table 7-1). -/
structure Opu where
  op     : Option PendingOp
  drafts : List Draft
  deriving DecidableEq, Repr

/-- The scrubber (Table 8-1). `turn` holds the count of slots passed over in the turn in progress. -/
structure Scb where
  pointer : Nat
  timer   : Option Nat
  turn    : Option Nat
  deriving DecidableEq, Repr

/-- The limit part of a watch; `outside` is its limit state OUTSIDE (Table 9-1). -/
structure LimitPart where
  word    : Nat
  low     : Word
  high    : Word
  outside : Bool
  deriving DecidableEq, Repr

/-- The age part of a watch (Table 9-1). -/
structure AgePart where
  period   : Nat
  deadline : Time
  fired    : Bool
  deriving DecidableEq, Repr

/-- A watch entry in use (Table 9-1). -/
structure Watch where
  slot  : Nat
  age   : Option AgePart
  limit : Option LimitPart
  deriving DecidableEq, Repr

inductive Severity where
  | critical
  | high
  | low
  deriving DecidableEq, Repr

/-- The operations an OP_DONE can report (Table 10-2). -/
inductive DoneKind where
  | claim
  | yield
  | publish
  | join
  | leave
  deriving DecidableEq, Repr

inductive DoneResult where
  | ok
  | taken
  | refused
  | unheard
  | aborted
  | mismatch
  deriving DecidableEq, Repr

inductive ChangeCause where
  | posted
  | claimed
  | yielded
  | repaired
  deriving DecidableEq, Repr

inductive LimitDirection where
  | left
  | returned
  deriving DecidableEq, Repr

/-- A notice: its kind with its fields (Table 10-2). -/
inductive Notice where
  | halted (cause : HaltCause)
  | isolated (cause : IsolationCause)
  | opDone (kind : DoneKind) (result : DoneResult) (slot : Option Nat)
  | stale (index slot : Nat)
  | limit (index slot : Nat) (direction : LimitDirection) (value : Word)
  | slotUnresolved (slot : Nat)
  | slotFailed (slot : Nat)
  | busStuck
  | recordChanged (slot : Nat) (cause : ChangeCause)
  | memberChanged (station : Nat) (state : MemberState)
  | catchupDone (unresolved : Nat)
  deriving DecidableEq, Repr

/-- The notice queue, in arrival order, oldest first (R178). -/
structure Ntq where
  notices : List Notice
  lost    : Bool
  deriving DecidableEq, Repr

inductive ErrorKind where
  | eccCorrected
  | eccUncorrectable
  | rowRetired
  | sparesExhausted
  | frameCrc
  | frameFormat
  | frameTruncated
  | nonmemberFrame
  | configMismatch
  | frameRefused
  | frameUnheard
  | busStuck
  | duplicateStation
  | internalFault
  deriving DecidableEq, Repr

/-- What a report carries beside its kind (R184). -/
structure ErrorFields where
  slot    : Option Nat
  station : Option Nat
  word    : Option Nat
  bit     : Option Nat
  deriving DecidableEq, Repr

/-- An entry of the error log (R184). -/
structure LogEntry where
  kind   : ErrorKind
  time   : Time
  fields : ErrorFields
  deriving DecidableEq, Repr

/-- The error log, in detection order, oldest first, and its counter (R184, R185). -/
structure Elg where
  entries : List LogEntry
  counter : Nat
  deriving DecidableEq, Repr

/-- The result codes (Table 11-2). -/
inductive ResultCode where
  | ok
  | illegal
  | badLength
  | wrongState
  | range
  | busy
  | full
  | empty
  | notOwner
  | notFree
  | notReady
  | damaged
  | failed
  deriving DecidableEq, Repr

/-- The response buffer (R191): the code answered, the response number, the result and the command's own
fields in the layouts of Table 12-4. -/
structure Response where
  code   : Byte
  number : Byte
  result : ResultCode
  fields : List Byte
  deriving DecidableEq, Repr

/-- The command in hand (R194), its arguments read. -/
inductive InHand where
  | read (slot : Nat) (draftView : Bool)
  | stage (slot : Nat) (words : List Word)
  | claim (slot : Nat)
  | yield (slot : Nat)
  deriving DecidableEq, Repr

/-- The select input (R190, R199). -/
inductive Nsel where
  | high
  /-- Low, with no falling edge since the reset: its rise takes no command (R199). -/
  | lowSinceReset
  /-- Low in a transaction, with the copy of the response buffer that goes out on SDO. -/
  | low (copy : List Byte)
  deriving DecidableEq, Repr

/-- The local port (Table 11-1). -/
structure Lpt where
  response : Response
  inHand   : Option InHand
  nsel     : Nsel
  received : List Byte
  deriving DecidableEq, Repr

/-- Why the machine stops with a fault. -/
inductive Fault where
  /-- Raised by DISTURBANCE when it names a row or a position the data store does not have (R27). Safe: no
  such cell exists, so no hardware goes on from there. -/
  | noSuchCell (row position : Nat)
  deriving DecidableEq, Repr

/-- Why the machine refuses a command. -/
inductive Refusal where
  /-- Raised by exec for a row that has no meaning yet. Safe: nothing can be proved of it. -/
  | notModelled (mnemonic : String)
  deriving DecidableEq, Repr

/-- The state of the node, one field for each block of spec/00 Table 1, and the commands waiting. -/
structure State where
  nct     : Nct
  pbi     : Pbi
  fck     : Fck
  dir     : List (Nat × DirEntry)
  dst     : Dst
  sar     : Sar
  mbu     : Mbu
  obs     : Obs
  rpe     : Rpe
  opu     : Opu
  scb     : Scb
  wch     : List (Option Watch)
  ntq     : Ntq
  elg     : Elg
  lpt     : Lpt
  pending : List Instr
  deriving DecidableEq, Repr

/-- The node right after a hard reset (Tables 2-6, 5-3; R20, R74, R133, R139, R156, R168, R178, R184,
R191), with straps for station 0 at 125 kbit/s, both bus lines high and NSEL high (DESIGN CHOICE, log entry
5). -/
def State.reset : State where
  nct := { node := .config, station := 0, rate := 0, config := none, now := 0, subBits := 0,
           listenDeadline := none, phase := .none, isolationCause := none, haltCause := none,
           pfailLatch := false, pfailWait := none, nrstLow := false }
  pbi := { shift := .idle, lines := .high, holdPck := false, pullHeard := false, pullVeto := false,
           busFreeTimer := 0, lastSender := false, stuckPck := 0, stuckPdt := 0, stuckEpisode := false }
  fck := { inbound := none, purpose := none }
  dir := []
  dst := { cells := [], rowMap := [], spares := Config.spareRows, struck := [], retired := [] }
  sar := { grant := none, fckWaits := false, lptWaits := false, scbWaits := false }
  mbu := { table := [], decision := none, beatRef := none, beatAsked := false, provisional := 0 }
  obs := { queue := [], build := none }
  rpe := { wanted := [], cycle := none, answers := [], due := none, unresolved := 0 }
  opu := { op := none, drafts := [] }
  scb := { pointer := 0, timer := none, turn := none }
  wch := [none, none, none, none]
  ntq := { notices := [], lost := false }
  elg := { entries := [], counter := 0 }
  lpt := { response := { code := 0x3C, number := 0, result := .ok, fields := [] }, inHand := none,
           nsel := .high, received := [] }
  pending := []

end Sys2Proof.Machine
end

