-- ==== Sys2Proof/Machine/Sparse.lean ====
section
/-!
DEFINITION. Sparse storage in one canonical form: a list of (key, value) pairs with keys strictly rising and
no value equal to the one an unlisted key reads as. The data store, the directory and the membership table
are kept so.
-/

namespace Sys2Proof.Machine

/-- What key `n` reads as: its listed value, or `d` where it is not listed. -/
def sparseGet {α : Type} (d : α) : List (Nat × α) → Nat → α
  | [], _ => d
  | (k, v) :: rest, n => if k = n then v else sparseGet d rest n

/-- Writes `v` at key `n`; writing what an unlisted key reads as removes the pair. -/
def sparsePut {α : Type} [DecidableEq α] (d : α) : List (Nat × α) → Nat → α → List (Nat × α)
  | [], n, v => if v = d then [] else [(n, v)]
  | (k, w) :: rest, n, v =>
    if n < k then (if v = d then (k, w) :: rest else (n, v) :: (k, w) :: rest)
    else if n = k then (if v = d then rest else (n, v) :: rest)
    else (k, w) :: sparsePut d rest n v

/-- Rewrites every listed value. It rewrites every key when `f` leaves `d` as it is. -/
def sparseMap {α : Type} [DecidableEq α] (d : α) (f : α → α) (l : List (Nat × α)) : List (Nat × α) :=
  l.filterMap fun p => if f p.2 = d then none else some (p.1, f p.2)

/-- The canonical form. -/
abbrev sparseWf {α : Type} (d : α) (l : List (Nat × α)) : Prop :=
  l.Pairwise (fun p q => p.1 < q.1) ∧ ∀ p ∈ l, p.2 ≠ d

/-- The cell of a row at reset: zero with valid check bits (Table 2-6). -/
def Cell.blank : Cell := { word := 0, flips := 0 }

/-- The directory entry of a slot after reset (Table 2-6). -/
def DirEntry.blank : DirEntry :=
  { state := .unlearned, version := 0, length := 0, health := .unknown, wanted := false,
    unresolved := false, parityGood := true }

/-- The membership entry of an ABSENT station (R74). -/
def MemberEntry.absent : MemberEntry :=
  { state := .absent, deadline := none, suspectSince := none, parityGood := true }

/-- The data store's cells are in canonical form. -/
abbrev Memory.wf (cells : List (Nat × Cell)) : Prop := sparseWf Cell.blank cells

/-- Where a position of a row stands in the store. -/
def cellAddress (row position : Nat) : Nat := Config.rowWords * row + position

/-- The cell at a position of a row. -/
def Dst.cell (d : Dst) (row position : Nat) : Cell :=
  sparseGet Cell.blank d.cells (cellAddress row position)

/-- Writes one cell. -/
def Dst.putCell (d : Dst) (row position : Nat) (c : Cell) : Dst :=
  { d with cells := sparsePut Cell.blank d.cells (cellAddress row position) c }

/-- Writes words at positions `position`, `position + 1`, … of a row, with fresh check bits (R28). -/
def Dst.putWords (d : Dst) (row position : Nat) : List Word → Dst
  | [] => d
  | w :: ws => (d.putCell row position { word := w, flips := 0 }).putWords row (position + 1) ws

/-- The directory entry of a slot. -/
def State.entry (s : State) (slot : Nat) : DirEntry := sparseGet DirEntry.blank s.dir slot

/-- Writes a directory entry; its parity is computed afresh (R39). -/
def State.putEntry (s : State) (slot : Nat) (e : DirEntry) : State :=
  { s with dir := sparsePut DirEntry.blank s.dir slot { e with parityGood := true } }

/-- The membership entry of a station. -/
def Mbu.entry (m : Mbu) (station : Nat) : MemberEntry := sparseGet MemberEntry.absent m.table station

/-- Writes a membership entry, with fresh parity. -/
def Mbu.putEntry (m : Mbu) (station : Nat) (e : MemberEntry) : Mbu :=
  { m with table := sparsePut MemberEntry.absent m.table station { e with parityGood := true } }

end Sys2Proof.Machine
end

