-- ==== Sys2Proof/Machine/Ops.lean ====
section
/-!
DEFINITION. The shared operations: serial arithmetic, local time, error reports, notices, the outbound
queue, the store arbiter, and what a halted node no longer does.
-/

namespace Sys2Proof.Machine

/-! ### Serial arithmetic (spec/00 section 1.5, R25, R92) -/

/-- Version v is newer than u when (v − u) mod 65536 lies in 1–32767. -/
def newer (v u : Word) : Bool := decide (1 ≤ (v - u).toNat) && decide ((v - u).toNat ≤ 32767)

/-- Local time `now` has reached the deadline. -/
def reached (now deadline : Time) : Bool := decide ((now - deadline).toNat < 2147483648)

/-- A time so many milliseconds after another. -/
def after (t : Time) (ms : Nat) : Time := t + BitVec.ofNat 32 ms

/-! ### Sets of stations -/

def Station.mask (n : Station) : StationMask := (1 : StationMask) <<< n.toNat

def StationMask.has (m : StationMask) (n : Nat) : Bool := m.getLsbD n

/-- The stations of a mask in ascending order. -/
def StationMask.stations (m : StationMask) : List Nat := (List.range 16).filter fun n => m.getLsbD n

/-- The mask of a list of stations. -/
def maskOf (l : List Nat) : StationMask := l.foldl (fun m n => m ||| ((1 : StationMask) <<< n)) 0

/-! ### Ascending lists of slots or rows -/

/-- Inserts into an ascending list without duplicates. -/
def insertSorted (n : Nat) : List Nat → List Nat
  | [] => [n]
  | m :: rest => if n < m then n :: m :: rest else if n = m then m :: rest else m :: insertSorted n rest

/-! ### The flags of a slot (R112, R114) -/

/-- The repair engine's list and count after the flags of a slot were written over the old ones. -/
def Rpe.follow (r : Rpe) (slot : Nat) (old new : DirEntry) : Rpe :=
  { r with
    wanted := if new.wanted then insertSorted slot r.wanted else r.wanted.filter fun n => !(n == slot),
    unresolved := r.unresolved - old.unresolved.toNat + new.unresolved.toNat }

/-- Writes a directory entry whose flags may change: the repair engine follows in the same access (R112). -/
def State.putFlags (s : State) (slot : Nat) (e : DirEntry) : State :=
  { s.putEntry slot e with rpe := s.rpe.follow slot (s.entry slot) e }

/-! ### Node states -/

/-- The participating states (R91). -/
def NodeState.participating : NodeState → Bool
  | .catchup | .member | .leaving => true
  | _ => false

/-- The states whose receivers report bus errors (R8, R14, R17). -/
def NodeState.taking : NodeState → Bool
  | .listening | .announcing | .catchup | .member | .leaving => true
  | _ => false

/-- The states in which the provisional member set is kept (R70). -/
def NodeState.joining : NodeState → Bool
  | .listening | .announcing => true
  | _ => false

/-- Participating, and no power-fail edge has stopped the units (R89, R107, R175). -/
def State.active (s : State) : Bool := s.nct.node.participating && !s.nct.pfailLatch

/-- Goes on with `k` unless the node has halted meanwhile: a halt ends the event it falls in (R35, R108). -/
def State.andThen (s : State) (k : State → State) : State :=
  if s.nct.node = .halted then s else k s

/-- Does an event, unless NRST holds the node in reset (R110; log entry 21). -/
def State.live (s : State) (k : State → State) : State := if s.nct.nrstLow then s else k s

/-! ### The error log and the notice queue -/

def ErrorFields.none : ErrorFields := { slot := .none, station := .none, word := .none, bit := .none }

def ErrorFields.ofSlot (slot : Nat) : ErrorFields := { ErrorFields.none with slot := some slot }

def ErrorFields.ofStation (station : Nat) : ErrorFields := { ErrorFields.none with station := some station }

/-- The log takes one report (R185). -/
def Elg.take (l : Elg) (e : LogEntry) : Elg :=
  if l.counter < Config.counterMax then
    { entries := if l.entries.length < Config.logRoom then l.entries ++ [e] else l.entries,
      counter := l.counter + 1 }
  else l

/-- A block reports an error; the entry carries the local time of this moment (R184, R185). -/
def State.report (s : State) (kind : ErrorKind) (fields : ErrorFields) : State :=
  { s with elg := s.elg.take { kind := kind, time := s.nct.now, fields := fields } }

/-- The severity a notice's kind fixes (Table 10-2). -/
def Notice.severity : Notice → Severity
  | .halted _ | .isolated _ => .critical
  | .opDone _ _ _ | .stale _ _ | .limit _ _ _ _ | .slotUnresolved _ | .slotFailed _ | .busStuck => .high
  | .recordChanged _ _ | .memberChanged _ _ | .catchupDone _ => .low

/-- The arriving notice `n` is coalesced with the standing notice `o` (R179). -/
def Notice.coalesces (n o : Notice) : Bool :=
  match n, o with
  | .recordChanged a _, .recordChanged b _ => a == b
  | .memberChanged a _, .memberChanged b _ => a == b
  | _, _ => false

def Notice.hasSeverity (v : Severity) (n : Notice) : Bool := decide (n.severity = v)

/-- Removes the youngest notice of a severity: the one nearest the end (R180). -/
def removeYoungest (v : Severity) (l : List Notice) : List Notice :=
  (l.reverse.eraseP (Notice.hasSeverity v)).reverse

/-- A notice arrives: coalesced (R179), added, displacing, or dropped (R180). -/
def Ntq.arrive (q : Ntq) (n : Notice) : Ntq :=
  if q.notices.any n.coalesces then
    { q with notices := q.notices.map fun o => if n.coalesces o then n else o }
  else if q.notices.length < Config.noticeRoom then { q with notices := q.notices ++ [n] }
  else if n.severity ≠ .low && q.notices.any (Notice.hasSeverity .low) then
    { notices := removeYoungest .low q.notices ++ [n], lost := true }
  else if n.severity = .critical && q.notices.any (Notice.hasSeverity .high) then
    { notices := removeYoungest .high q.notices ++ [n], lost := true }
  else { q with lost := true }

/-- A block raises a notice. -/
def State.notify (s : State) (n : Notice) : State := { s with ntq := s.ntq.arrive n }

/-- Notices that one event raises in a stated order (R178). -/
def State.notifyAll (s : State) (l : List Notice) : State := l.foldl State.notify s

/-- The highest severity present, or none in an empty queue. -/
def Ntq.highest (q : Ntq) : Option Severity :=
  if q.notices.any (Notice.hasSeverity .critical) then some .critical
  else if q.notices.any (Notice.hasSeverity .high) then some .high
  else if q.notices.any (Notice.hasSeverity .low) then some .low
  else none

/-- The oldest notice of the highest severity present, and the queue without it (R181). -/
def Ntq.takeNotice (q : Ntq) : Option (Notice × Ntq) :=
  match q.highest with
  | none => none
  | some v =>
    match q.notices.find? (Notice.hasSeverity v) with
    | none => none
    | some n => some (n, { q with notices := q.notices.eraseP (Notice.hasSeverity v) })

/-! ### The outbound queue (R134, R138) -/

def FrameKind.code : FrameKind → Nat
  | .leave => 1
  | .drop => 2
  | .hello => 3
  | .claim => 4
  | .yield => 5
  | .post => 6
  | .sync => 7
  | .ask => 8
  | .beat => 9

def Payload.kind : Payload → FrameKind
  | .leave => .leave
  | .drop _ => .drop
  | .hello _ => .hello
  | .claim _ _ => .claim
  | .yield _ _ => .yield
  | .post _ => .post
  | .sync _ => .sync
  | .ask _ _ _ => .ask
  | .beat _ _ => .beat

def Frame.kind (f : Frame) : FrameKind := f.payload.kind

/-- The kinds of the operation unit's entries. -/
def FrameKind.isOperation : FrameKind → Bool
  | .claim | .yield | .post => true
  | _ => false

def OutEntry.isKind (k : FrameKind) (e : OutEntry) : Bool := decide (e.kind = k)

/-- The entry of a kind stands in the queue. -/
def Obs.holds (o : Obs) (k : FrameKind) : Bool := o.queue.any (OutEntry.isKind k)

/-- The standing entry of a kind. -/
def Obs.find (o : Obs) (k : FrameKind) : Option OutEntry := o.queue.find? (OutEntry.isKind k)

/-- Entries of which at most one stands: the same kind, or both of the operation unit (R134). -/
def FrameKind.clashes (k j : FrameKind) : Bool := decide (k = j) || (k.isOperation && j.isOperation)

/-- A block asks for an entry; where one of its kind stands, the request is passed over (R134). -/
def State.place (s : State) (k : FrameKind) (r : EntryRef) : State :=
  if s.obs.queue.any (fun e => k.clashes e.kind) then s
  else { s with obs := { s.obs with
    queue := s.obs.queue ++ [{ kind := k, ref := r, attempts := 0, queued := s.nct.now }] } }

/-- Removes the entry of a kind, and a build in hand of that kind (R136, R138). -/
def State.removeEntry (s : State) (k : FrameKind) : State :=
  { s with obs := {
      queue := s.obs.queue.filter fun e => !OutEntry.isKind k e,
      build := match s.obs.build with
        | some f => if f.kind = k then none else some f
        | none => none } }

/-- Sets the attempt count of the entry of a kind. -/
def State.setAttempts (s : State) (k : FrameKind) (n : Nat) : State :=
  { s with obs := { s.obs with
    queue := s.obs.queue.map fun e => if OutEntry.isKind k e then { e with attempts := n } else e } }

/-- Empties the queue, with any build in hand (R138). -/
def State.emptyQueue (s : State) : State := { s with obs := { queue := [], build := none } }

/-! ### The store arbiter (R33, R34) -/

/-- No grant and no request. -/
def Sar.idle : Sar := { grant := none, fckWaits := false, lptWaits := false, scbWaits := false }

/-- A claimant asks: granted at once where the store is free and nobody waits, otherwise it waits. -/
def Sar.request (a : Sar) (c : Claimant) : Sar :=
  if a.grant = some c then a
  else if a.grant = none && !(a.fckWaits || a.lptWaits || a.scbWaits) then { a with grant := some c }
  else match c with
    | .fck => { a with fckWaits := true }
    | .lpt => { a with lptWaits := true }
    | .scb => { a with scbWaits := true }

/-- Grants the first of the waiting claimants in their rank: frame checker, local port, scrubber. -/
def Sar.handOver (a : Sar) : Sar :=
  if a.fckWaits then { a with grant := some .fck, fckWaits := false }
  else if a.lptWaits then { a with grant := some .lpt, lptWaits := false }
  else if a.scbWaits then { a with grant := some .scb, scbWaits := false }
  else { a with grant := none }

/-- A claimant's access ends, or its waiting request is withdrawn. -/
def Sar.letGo (a : Sar) (c : Claimant) : Sar :=
  if a.grant = some c then a.handOver
  else match c with
    | .fck => { a with fckWaits := false }
    | .lpt => { a with lptWaits := false }
    | .scb => { a with scbWaits := false }

def State.requestStore (s : State) (c : Claimant) : State := { s with sar := s.sar.request c }

def State.letGoStore (s : State) (c : Claimant) : State := { s with sar := s.sar.letGo c }

/-- The claimant holds the store. -/
def State.granted (s : State) (c : Claimant) : Bool := decide (s.sar.grant = some c)

/-! ### The bus lines and time (R2, R4, R16, R92; log entries 1, 2 and 20) -/

/-- Bit times in one millisecond at a bit-rate code (R2). -/
def bitsPerMs (rate : BitVec 2) : Nat := 125 * 2 ^ rate.toNat

/-- Both lines go high: every timer of a low line ends, an episode ends (R16), the idle count begins (R4). -/
def Pbi.goHigh (p : Pbi) : Pbi :=
  { p with lines := .high, busFreeTimer := 0, stuckPck := 0, stuckPdt := 0, stuckEpisode := false }

/-- The bits of a frame pass on the lines. -/
def Pbi.goActive (p : Pbi) : Pbi :=
  { p with lines := .active, busFreeTimer := 0, stuckPck := 0, stuckPdt := 0 }

/-- PCK is held low in the check pause (R8). -/
def Pbi.goPause (p : Pbi) : Pbi :=
  { p with lines := .low true false, busFreeTimer := 0, stuckPck := 0, stuckPdt := 0 }

/-- Bit times pass on the lines as they stand; the last-sender flag clears at 20 of idle (R4). -/
def Pbi.elapse (p : Pbi) (bits : Nat) : Pbi :=
  match p.lines with
  | .high =>
    { p with busFreeTimer := p.busFreeTimer + bits,
             lastSender := p.lastSender && decide (p.busFreeTimer + bits < Config.flaggedFreeBits) }
  | .active => p
  | .low pck pdt =>
    { p with stuckPck := if pck then p.stuckPck + bits else p.stuckPck,
             stuckPdt := if pdt then p.stuckPdt + bits else p.stuckPdt }

/-- So many bit times pass. Local time runs in every node state (R92); PBI's timers and the PFAIL wait stop
in HALTED (R109); the scrub timer counts milliseconds while it runs (R157). -/
def State.elapse (s : State) (bits : Nat) : State :=
  if s.nct.nrstLow then s
  else
    let total := s.nct.subBits + bits
    let ms := total / bitsPerMs s.nct.rate
    { s with
      nct := { s.nct with
        now := after s.nct.now ms,
        subBits := total % bitsPerMs s.nct.rate,
        pfailWait := if s.nct.node = .halted then s.nct.pfailWait else s.nct.pfailWait.map (· + bits) },
      pbi := if s.nct.node = .halted then s.pbi else s.pbi.elapse bits,
      scb := { s.scb with timer := s.scb.timer.map (· + ms) } }

/-- Milliseconds pass, to the beginning of a millisecond. -/
def State.elapseMs (s : State) (ms : Nat) : State :=
  if ms = 0 then s else s.elapse (ms * bitsPerMs s.nct.rate - s.nct.subBits)

/-- Time passes until local time reaches the deadline; none passes where it has (log entry 2). -/
def State.reach (s : State) (deadline : Time) : State :=
  if reached s.nct.now deadline then s else s.elapseMs (deadline - s.nct.now).toNat

end Sys2Proof.Machine
end

