-- ==== Sys2Proof/Machine/Frames.lean ====
section
/-!
DEFINITION. Frames as bytes: the CRC, the layouts of Table 12-2, how a sender builds a body and how a
receiver classifies one (spec/01 sections 1.4 and 1.8, spec/12 section 12.1).
-/

namespace Sys2Proof.Machine

/-! ### Byte order (R200) -/

def Word.bytes (w : Word) : List Byte := [(w >>> 8).setWidth 8, w.setWidth 8]

def wordOf (hi lo : Byte) : Word := hi ++ lo

def wordsBytes (ws : List Word) : List Byte := ws.flatMap Word.bytes

/-! ### The CRC (R7) -/

/-- One bit enters the CRC: generator x^16 + x^12 + x^5 + 1. -/
def crcBit (crc : Word) (bit : Bool) : Word :=
  if crc.msb = bit then crc <<< 1 else (crc <<< 1) ^^^ 0x1021

/-- One byte enters the CRC, most significant bit first. -/
def crcByte (crc : Word) (b : Byte) : Word :=
  [7, 6, 5, 4, 3, 2, 1, 0].foldl (fun c n => crcBit c (b.getLsbD n)) crc

/-- The CRC of a run of bytes, from initial value 0xFFFF. -/
def crcOf (bytes : List Byte) : Word := bytes.foldl crcByte 0xFFFF

/-! ### Building a body (R201) -/

def headerByte (kind : BitVec 4) (station : Station) : Byte := kind ++ station

def WireParams.byte (p : WireParams) : Byte := (p.rate ++ p.slotCode ++ p.silence : BitVec 8)

def WireParams.bytes (p : WireParams) : List Byte := p.byte :: Word.bytes p.beat

def Item.bytes (i : Item) : List Byte :=
  i.slot :: Word.bytes i.version ++ BitVec.ofNat 8 i.words.length :: wordsBytes i.words

def Record.bytes (r : Record) : List Byte :=
  r.slot :: (r.stateCode ++ r.owner : BitVec 8) ::
    (Word.bytes r.version ++ BitVec.ofNat 8 r.words.length :: wordsBytes r.words)

def Payload.bytes : Payload → List Byte
  | .leave => []
  | .drop mask => Word.bytes mask
  | .hello p => p.bytes
  | .claim slot version => slot :: Word.bytes version
  | .yield slot version => slot :: Word.bytes version
  | .post items => BitVec.ofNat 8 items.length :: items.flatMap Item.bytes
  | .sync records => BitVec.ofNat 8 records.length :: records.flatMap Record.bytes
  | .ask first mode count => [first, (mode ++ count : BitVec 8)]
  | .beat mask p => Word.bytes mask ++ p.bytes

/-- The header and the payload. -/
def Frame.covered (f : Frame) : List Byte :=
  headerByte (BitVec.ofNat 4 f.kind.code) f.sender :: f.payload.bytes

/-- The whole body as it goes on the bus, CRC included. -/
def Frame.body (f : Frame) : List Byte := f.covered ++ Word.bytes (crcOf f.covered)

/-! ### Reading a payload (R19) -/

def takeWord : List Byte → Option (Word × List Byte)
  | hi :: lo :: rest => some (wordOf hi lo, rest)
  | _ => none

def takeWords : Nat → List Byte → Option (List Word × List Byte)
  | 0, bytes => some ([], bytes)
  | n + 1, hi :: lo :: rest =>
    match takeWords n rest with
    | some (ws, rest) => some (wordOf hi lo :: ws, rest)
    | none => none
  | _ + 1, _ => none

def takeParams : List Byte → Option (WireParams × List Byte)
  | p :: hi :: lo :: rest =>
    some ({ rate := (p >>> 6).setWidth 2, slotCode := (p >>> 4).setWidth 2, silence := p.setWidth 4,
            beat := wordOf hi lo }, rest)
  | _ => none

def takeItem : List Byte → Option (Item × List Byte)
  | slot :: vhi :: vlo :: len :: rest =>
    match takeWords len.toNat rest with
    | some (ws, rest) => some ({ slot := slot, version := wordOf vhi vlo, words := ws }, rest)
    | none => none
  | _ => none

def takeRecord : List Byte → Option (Record × List Byte)
  | slot :: so :: vhi :: vlo :: len :: rest =>
    match takeWords len.toNat rest with
    | some (ws, rest) =>
      some ({ slot := slot, stateCode := (so >>> 4).setWidth 4, owner := so.setWidth 4,
              version := wordOf vhi vlo, words := ws }, rest)
    | none => none
  | _ => none

def takeItems : Nat → List Byte → Option (List Item × List Byte)
  | 0, bytes => some ([], bytes)
  | n + 1, bytes =>
    match takeItem bytes with
    | none => none
    | some (i, rest) =>
      match takeItems n rest with
      | some (is, rest) => some (i :: is, rest)
      | none => none

def takeRecords : Nat → List Byte → Option (List Record × List Byte)
  | 0, bytes => some ([], bytes)
  | n + 1, bytes =>
    match takeRecord bytes with
    | none => none
    | some (r, rest) =>
      match takeRecords n rest with
      | some (rs, rest) => some (r :: rs, rest)
      | none => none

/-- The payload of a kind code, where the bytes are exactly those the kind and its fields call for. -/
def readPayload (kind : Nat) (bytes : List Byte) : Option Payload :=
  match kind, bytes with
  | 1, [] => some .leave
  | 2, [hi, lo] => some (.drop (wordOf hi lo))
  | 3, bytes =>
    match takeParams bytes with
    | some (p, []) => some (.hello p)
    | _ => none
  | 4, [slot, hi, lo] => some (.claim slot (wordOf hi lo))
  | 5, [slot, hi, lo] => some (.yield slot (wordOf hi lo))
  | 6, count :: bytes =>
    match takeItems count.toNat bytes with
    | some (items, []) => some (.post items)
    | _ => none
  | 7, count :: bytes =>
    match takeRecords count.toNat bytes with
    | some (records, []) => some (.sync records)
    | _ => none
  | 8, [first, mc] => some (.ask first ((mc >>> 5).setWidth 3) (mc.setWidth 5))
  | 9, hi :: lo :: bytes =>
    match takeParams bytes with
    | some (p, []) => some (.beat (wordOf hi lo) p)
    | _ => none
  | _, _ => none

/-! ### Classifying a received body (R8) -/

inductive BodyClass where
  | noHeader
  | formatError (station : Station)
  | crcError (station : Station)
  | intact (frame : Frame)
  deriving DecidableEq, Repr

def headerStation (h : Byte) : Station := h.setWidth 4

def headerKind (h : Byte) : Nat := (h >>> 4).toNat

/-- The frame that a header and the payload bytes after it make. -/
def readFrame (header : Byte) (payload : List Byte) : Option Frame :=
  match readPayload (headerKind header) payload with
  | some p => some { sender := headerStation header, payload := p }
  | none => none

/-- The five checks of R8 in their order. -/
def classify (body : List Byte) (extraBits : Nat) : BodyClass :=
  match body with
  | [] => .noHeader
  | header :: rest =>
    if extraBits ≠ 0 || body.length < 3 || 152 < body.length then .formatError (headerStation header)
    else if body.drop (body.length - 2) ≠ Word.bytes (crcOf (body.take (body.length - 2))) then
      .crcError (headerStation header)
    else
      match readFrame header (rest.take (rest.length - 2)) with
      | some f => .intact f
      | none => .formatError (headerStation header)

end Sys2Proof.Machine
end

