-- ==== Sys2Proof/Machine/Flags.lean ====
section
/-!
DEFINITION. Flags, sets and lines that are computed from the state: the wanted set and the unresolved
count, the member and live sets and quorum, the notice line, and the timing quantities.
-/

namespace Sys2Proof.Machine

/-! ### Configured quantities (R76, R93) -/

/-- The active slot count. -/
def NodeConfig.activeSlots (c : NodeConfig) : Nat := 64 * 2 ^ c.slotCode

def NodeConfig.silenceTimeout (c : NodeConfig) : Nat := c.beat * c.silence

def NodeConfig.grace (c : NodeConfig) : Nat := c.beat

def NodeConfig.listenPeriod (c : NodeConfig) : Nat := c.silenceTimeout + c.beat

def NodeConfig.answerWait (c : NodeConfig) : Nat := 2 * c.beat

/-- The stagger of a station's first BEAT (R86). -/
def NodeConfig.stagger (c : NodeConfig) (station : Station) : Nat := (station.toNat + 1) * c.beat / 16

/-- The shared parameters the node sends and compares with (R46, R87). -/
def NodeConfig.wire (c : NodeConfig) (rate : BitVec 2) : WireParams :=
  { rate := rate, slotCode := BitVec.ofNat 2 c.slotCode, silence := BitVec.ofNat 4 c.silence,
    beat := BitVec.ofNat 16 c.beat }

/-- The scrub walk is configured and its state and phase admit it (R156). -/
def State.walks (s : State) : Bool :=
  s.nct.node.participating && decide (s.nct.phase ≠ .pfailLeave) &&
    match s.nct.config with
    | some c => decide (c.scrub ≠ 0)
    | none => false

/-! ### The wanted set (R112) -/

/-- The wanted slots of a window of slots. -/
def State.wantedWithin (s : State) (first last : Nat) : List Nat :=
  s.rpe.wanted.filter fun n => decide (first ≤ n) && decide (n ≤ last)

/-! ### Membership (R73, R79) -/

/-- The state of a station's membership entry. -/
def State.memberState (s : State) (n : Nat) : MemberState := (s.mbu.entry n).state

def State.isMember (s : State) (n : Nat) : Bool := decide (s.memberState n ≠ .absent)

/-- The member set G in ascending order. -/
def State.memberSet (s : State) : List Nat := (List.range 16).filter s.isMember

/-- The live set S in ascending order. -/
def State.liveSet (s : State) : List Nat :=
  (List.range 16).filter fun n => n == s.nct.station.toNat || decide (s.memberState n = .present)

/-- The SUSPECT stations in ascending order. -/
def State.suspects (s : State) : List Nat :=
  (List.range 16).filter fun n => decide (s.memberState n = .suspect)

/-- The member mask (R73). -/
def State.memberMask (s : State) : StationMask := maskOf s.memberSet

/-- The node has quorum (R79). -/
def State.quorum (s : State) : Bool :=
  decide (s.memberSet.length < 2 * s.liveSet.length) ||
    (decide (2 * s.liveSet.length = s.memberSet.length) &&
      match s.memberSet.head? with
      | some lowest => s.liveSet.contains lowest
      | none => false)

/-- The first membership entry whose parity mismatches (R108). -/
def State.badMember (s : State) : Option Nat := (List.range 16).find? fun n => !(s.mbu.entry n).parityGood

/-! ### The notice line (R183) -/

/-- A notice calls: CRITICAL always, HIGH and LOW as the configuration enables them. -/
def State.calls (s : State) (n : Notice) : Bool :=
  match n.severity with
  | .critical => true
  | .high => match s.nct.config with
    | some c => c.enableHigh
    | none => false
  | .low => match s.nct.config with
    | some c => c.enableLow
    | none => false

/-- NIRQ is driven low: a calling notice stands, and NRST is not held low (R110, R183). -/
def State.nirqLow (s : State) : Bool := !s.nct.nrstLow && s.ntq.notices.any s.calls

/-! ### The bus interface -/

/-- The frame this node sends, before its veto slot is sampled. -/
def Shift.ownFrame : Shift → Option Frame
  | .sending f | .sendingPaused f => some f
  | _ => none

/-- A frame of this node is being transmitted: from its start condition to its stop condition (R5). -/
def Shift.transmitting : Shift → Bool
  | .sending _ | .sendingPaused _ | .slotsDone (some _) => true
  | _ => false

/-- A frame is in progress and its veto slot has not been sampled (R3). -/
def Shift.inFrame : Shift → Bool
  | .receiving | .paused | .sending _ | .sendingPaused _ => true
  | _ => false

/-- The entry of this kind is being transmitted, up to the stop condition (R5; log entry 44). Once the veto slot is
sampled, the standing entry is the one that was sent if it carries a failed attempt; a fresh one was placed since. -/
def State.transmittingKind (s : State) (k : FrameKind) : Bool :=
  match s.pbi.shift with
  | .sending f | .sendingPaused f => decide (f.kind = k)
  | .slotsDone (some j) => decide (j = k) && s.obs.queue.any fun e => e.isKind k && decide (e.attempts ≠ 0)
  | _ => false

end Sys2Proof.Machine
end

