-- ==== Sys2Proof/Machine/Life.lean ====
section
/-!
DEFINITION. Ends of work: the end of an operation, the halt, internal faults, isolation, the end of a JOIN
and of a leave, and what the blocks do at each (spec/05).
-/

namespace Sys2Proof.Machine

/-! ### Blocks emptied together -/

def Fck.idle : Fck := { inbound := none, purpose := none }

def Rpe.empty : Rpe := { wanted := [], cycle := none, answers := [], due := none, unresolved := 0 }

/-- The ASK cycle with its due give-up is abandoned, and the answer set is cleared; the wanted set and the
unresolved count stay, since no flag changes (R101, R107, R109, R123). -/
def Rpe.stop (r : Rpe) : Rpe := { r with cycle := none, answers := [], due := none }

/-- Four empty watch entries (R168). -/
def emptyWatches : List (Option Watch) := [none, none, none, none]

/-- The membership unit's timers stop (Table 4-3). -/
def Mbu.stop (m : Mbu) : Mbu := { m with decision := none, beatRef := none, beatAsked := false }

/-- The scrub walk stops: the pointer is kept (R156). -/
def Scb.stop (c : Scb) : Scb := { c with timer := none, turn := none }

/-- PBI stops driving as a receiver: the stretch and both slots are released (R1, R48). -/
def Pbi.releaseReceiver (p : Pbi) : Pbi := { p with holdPck := false, pullHeard := false, pullVeto := false }

/-- PBI stops sending: a frame of this node ends where it stands, its stop condition withheld (R15, R105). Another
node may hold a line low, so the lines and their timers stand until a row says that the lines are high (log entry 42).
A frame of another sender that goes on after an abort in the header is not received (log entry 43). -/
def Pbi.abortOwn (p : Pbi) : Pbi := if p.shift.transmitting then { p with shift := .idle } else p

/-- The scrubber's waiting request is withdrawn; a granted step runs on (R156, R159). -/
def Sar.withdrawScb (a : Sar) : Sar := { a with scbWaits := false }

/-- The flags of an entry are cleared and its parity computed afresh (R35, R39). -/
def DirEntry.clearFlags (e : DirEntry) : DirEntry :=
  { e with wanted := false, unresolved := false, parityGood := true }

/-- The wanted and unresolved flags of every slot are cleared (R103, R104). -/
def State.clearFlags (s : State) : State := { s with dir := sparseMap DirEntry.blank DirEntry.clearFlags s.dir }

/-! ### The end of an operation (R141) -/

def OpKind.done : OpKind → DoneKind
  | .claim _ => .claim
  | .yield _ => .yield
  | .publish => .publish

def OpKind.slot? : OpKind → Option Nat
  | .claim n => some n
  | .yield n => some n
  | .publish => none

/-- The frame kind of an operation's entry. -/
def OpKind.frame : OpKind → FrameKind
  | .claim _ => .claim
  | .yield _ => .yield
  | .publish => .post

/-- The pending operation ends with a result: its record goes and OP_DONE is raised. Where there is no
record nothing happens (R143). -/
def State.endOp (s : State) (r : DoneResult) : State :=
  match s.opu.op with
  | none => s
  | some op => { s with opu := { s.opu with op := none } }.notify (.opDone op.kind.done r op.kind.slot?)

/-- The record's state becomes ON_BUS or returns to QUEUED (R140). -/
def State.setOnBus (s : State) (b : Bool) : State :=
  { s with opu := { s.opu with op := s.opu.op.map fun o => { o with onBus := b } } }

/-! ### Halting (R109) -/

/-- A JOIN in progress, or a leave begun by LEAVE, ends ABORTED (R104, R107, R109). -/
def State.abortJoin (s : State) : State :=
  if s.nct.phase = .joining then s.notify (.opDone .join .aborted none) else s

def State.abortLeave (s : State) : State :=
  if s.nct.phase = .leaving then s.notify (.opDone .leave .aborted none) else s

/-- The lines, the store and the command in hand are let go at a halt (R15, R34, R196). -/
def State.haltRelease (s : State) : State :=
  { s with
    pbi := { s.pbi.abortOwn.releaseReceiver with shift := .idle },
    fck := Fck.idle,
    sar := Sar.idle,
    lpt := { s.lpt with inHand := none } }

/-- The node's work is emptied and its timers stop at a halt (R109). -/
def State.haltEmpty (s : State) : State :=
  { s with
    obs := { queue := [], build := none },
    opu := { op := none, drafts := [] },
    wch := emptyWatches,
    rpe := s.rpe.stop,
    mbu := s.mbu.stop,
    scb := s.scb.stop }

/-- The node halts. A cause that reaches a halted node changes nothing. -/
def State.halt (s : State) (cause : HaltCause) : State :=
  s.andThen fun s =>
    let s := s.haltRelease.endOp .aborted
    let s := s.abortJoin.abortLeave.haltEmpty
    let s := { s with nct := { s.nct with node := .halted, haltCause := some cause } }
    s.notify (.halted cause)

/-- A fault checker finds an internal fault: it is reported, and the node halts (R108, R188). -/
def State.internalFault (s : State) (fields : ErrorFields) : State :=
  (s.report .internalFault fields).halt .internalFault

/-- A duplicate of this station is found (R17). -/
def State.duplicate (s : State) : State :=
  (s.report .duplicateStation (.ofStation s.nct.station.toNat)).halt .duplicateStation

/-! ### Parity checks (R39, R108) -/

/-- Examines a directory entry in an access: a mismatch is an internal fault with the slot (R39). -/
def State.examine (s : State) (slot : Nat) (k : DirEntry → State) : State :=
  if (s.entry slot).parityGood then k (s.entry slot) else s.internalFault (.ofSlot slot)

/-- Uses a configured value: a mismatch is an internal fault without fields (R108). A command whose own test meets
it forms no response (log entry 35). -/
def State.useConfig (s : State) (k : NodeConfig → State) : State :=
  match s.nct.config with
  | none => s
  | some c => if c.parityGood then k c else s.internalFault .none

/-- Reads one membership entry: a mismatch is an internal fault with the station (R108). -/
def State.useMember (s : State) (n : Nat) (k : MemberEntry → State) : State :=
  if (s.mbu.entry n).parityGood then k (s.mbu.entry n) else s.internalFault (.ofStation n)

/-- Reads the whole membership table; MEMBERS that meets a mismatch forms no response (log entry 35). -/
def State.useMembers (s : State) (k : State) : State :=
  match s.badMember with
  | none => k
  | some n => s.internalFault (.ofStation n)

/-! ### The notice line (R183) -/

/-- The call of this notice is an enable's to decide. -/
def Notice.byEnable (n : Notice) : Bool := decide (n.severity ≠ .critical)

/-- NIRQ is driven from the queue that an event leaves, where the event has changed it: the enables are used if a HIGH
or LOW notice stands, and a parity mismatch of the configuration is then found. `before`: the notices before the event.
A HALTED node makes no test (log entry 19). -/
def State.driveNirq (s : State) (before : List Notice) : State :=
  if s.ntq.notices = before || decide (s.nct.node = .halted) || !s.ntq.notices.any Notice.byEnable then s
  else s.useConfig fun _ => s

/-! ### Leaving the bus -/

/-- The frame checker lets its request or grant go, its inbound frame dropped (R9, R34, R48). -/
def State.dropFck (s : State) : State := { s with fck := Fck.idle, sar := s.sar.letGo .fck }

/-- The node leaves participation at the bus: its own frame is aborted, a frame under check is dropped, and
the scrubber's waiting request is withdrawn (R48, R105, R156). An access for a build or a give-up is let go with them
(log entry 53). -/
def State.leaveBus (s : State) : State :=
  { s with pbi := s.pbi.abortOwn.releaseReceiver, sar := s.sar.withdrawScb }.dropFck

/-! ### Isolation (R104) -/

/-- The steps of R104 from the emptying of the queue to the end of the timers. -/
def State.isolateEmpty (s : State) : State :=
  let s := { s with
    obs := { queue := [], build := none },
    opu := { op := none, drafts := [] },
    wch := emptyWatches,
    rpe := Rpe.empty,
    mbu := s.mbu.stop,
    scb := s.scb.stop }
  s.clearFlags

/-- A participating node becomes ISOLATED; in any other state the cause has no effect. -/
def State.isolate (s : State) (cause : IsolationCause) : State :=
  if s.nct.node.participating then
    let s := s.leaveBus.endOp .aborted
    let s := s.abortLeave.isolateEmpty
    let s := { s with nct := { s.nct with node := .isolated, isolationCause := some cause, phase := .none } }
    s.notify (.isolated cause)
  else s

/-! ### The end of a JOIN and of a leave (R96, R97, R103) -/

/-- A JOIN fails: the HELLO entry goes and the node returns to IDLE. -/
def State.endJoin (s : State) (r : DoneResult) : State :=
  let s := s.removeEntry .hello
  let s := { s with nct := { s.nct with node := .idle, phase := .none, listenDeadline := none } }
  s.notify (.opDone .join r none)

/-- A leave ends: every piece of local work is emptied and the node goes to IDLE. -/
def State.endLeave (s : State) (r : DoneResult) : State :=
  let s := { s with
    obs := { queue := [], build := none },
    opu := { s.opu with drafts := [] },
    wch := emptyWatches,
    rpe := Rpe.empty,
    mbu := { s.mbu.stop with table := [] },
    scb := s.scb.stop,
    sar := s.sar.withdrawScb }
  let s := s.clearFlags
  let s := { s with nct := { s.nct with node := .idle, phase := .none } }
  s.notify (.opDone .leave r none)

end Sys2Proof.Machine
end

