-- ==== Sys2Proof/Machine/Check.lean ====
section
/-!
DEFINITION. The frame checker's four groups of tests on an inbound frame (spec/03 sections 3.1 and 3.4 to
3.7). The tests read the state and change nothing.
-/

namespace Sys2Proof.Machine

/-- The end of a test: passed, vetoed with the report it makes (if any), or an internal fault found in what
it read. -/
inductive CheckResult where
  | pass
  | veto (report : Option ErrorKind)
  | fault (fields : ErrorFields)
  deriving DecidableEq, Repr

/-- The next test is made where this one passed (R43). -/
def CheckResult.andNext (r : CheckResult) (next : CheckResult) : CheckResult :=
  match r with
  | .pass => next
  | r => r

/-- A condition of group 4, whose veto is not logged at the receiver (R43). -/
def CheckResult.require (b : Bool) : CheckResult := if b then .pass else .veto none

/-- A test that reads a directory entry (R39). -/
def State.checkEntry (s : State) (slot : Nat) (k : DirEntry → CheckResult) : CheckResult :=
  if (s.entry slot).parityGood then k (s.entry slot) else .fault (.ofSlot slot)

/-- A test that reads a membership entry (R108). -/
def State.checkMember (s : State) (n : Nat) (k : MemberEntry → CheckResult) : CheckResult :=
  if (s.mbu.entry n).parityGood then k (s.mbu.entry n) else .fault (.ofStation n)

/-- A test that reads a configured value (R108). -/
def State.checkConfig (s : State) (k : NodeConfig → CheckResult) : CheckResult :=
  match s.nct.config with
  | none => .veto none
  | some c => if c.parityGood then k c else .fault .none

/-! ### Group 1: sender membership (R44) -/

def State.senderTest (s : State) (f : Frame) : CheckResult :=
  match f.payload with
  | .hello _ => .pass
  | _ => s.checkMember f.sender.toNat fun e =>
    if e.state = .absent then .veto (some .nonmemberFrame) else .pass

/-! ### Group 2: format (R45, Table 3-2) -/

/-- Two of the slots are the same. -/
def repeatsSlot (slots : List Byte) : Bool := !decide slots.Nodup

/-- The slots and word lists of a POST or SYNC lie in their ranges. -/
def listFormat (activeSlots : Nat) (slots : List Byte) (words : List (List Word)) : Bool :=
  decide (1 ≤ slots.length) && decide (slots.length ≤ 4) &&
    slots.all (fun n => decide (n.toNat < activeSlots)) &&
    words.all (fun w => decide (w.length ≤ Config.rowWords)) && !repeatsSlot slots

/-- The fields of a frame lie in the ranges of Table 3-2, for an active slot count. -/
def formatGood (activeSlots : Nat) (f : Frame) : Bool :=
  match f.payload with
  | .leave | .hello _ => true
  | .drop mask => decide (mask ≠ 0) && !StationMask.has mask f.sender.toNat
  | .claim slot _ | .yield slot _ => decide (slot.toNat < activeSlots)
  | .post items => listFormat activeSlots (items.map Item.slot) (items.map Item.words)
  | .sync records =>
    listFormat activeSlots (records.map Record.slot) (records.map Record.words) &&
      records.all fun r => decide (1 ≤ r.stateCode.toNat) && decide (r.stateCode.toNat ≤ 3)
  | .ask first mode count =>
    decide (1 ≤ count.toNat) && decide (count.toNat ≤ 16) &&
      decide (first.toNat + count.toNat ≤ activeSlots) && decide (mode.toNat ≤ 1)
  | .beat mask _ => StationMask.has mask f.sender.toNat

/-- The kinds whose format test reads the active slot count. -/
def FrameKind.namesSlots : FrameKind → Bool
  | .claim | .yield | .post | .sync | .ask => true
  | _ => false

/-- The ranges of the kind. A kind that names slots uses the configuration before any of its ranges is tested, whose
order Table 3-2 leaves open (log entry 46). -/
def State.formatTest (s : State) (f : Frame) : CheckResult :=
  let judge := fun n => if formatGood n f then CheckResult.pass else .veto (some .frameFormat)
  if f.kind.namesSlots then s.checkConfig fun c => judge c.activeSlots else judge 0

/-! ### Group 3: parameters (R46) -/

def State.paramTest (s : State) (f : Frame) : CheckResult :=
  let judge := fun p => s.checkConfig fun c =>
    if p = c.wire s.nct.rate then CheckResult.pass else .veto (some .configMismatch)
  match f.payload with
  | .hello p | .beat _ p => judge p
  | _ => .pass

/-! ### Group 4: state -/

/-- A known slot must be OWNED by the sender at an older version; an UNLEARNED one passes (R61, R63). -/
def State.ownerTest (s : State) (sender : Station) (slot : Nat) (version : Word) : CheckResult :=
  s.checkEntry slot fun e =>
    match e.state with
    | .unlearned => .pass
    | st => .require (decide (st = .owned sender) && newer version e.version)

/-- A known slot must have no owner and an older version; an UNLEARNED one passes (R59). -/
def State.claimTest (s : State) (slot : Nat) (version : Word) : CheckResult :=
  s.checkEntry slot fun e =>
    match e.state with
    | .unlearned => .pass
    | .owned _ => .veto none
    | _ => .require (newer version e.version)

/-- The owner of an OWNED record must be a member here (R65). -/
def State.recordTest (s : State) (r : Record) : CheckResult :=
  if r.stateCode = 2 then s.checkMember r.owner.toNat fun e => .require (decide (e.state ≠ .absent))
  else .pass

/-- The state conditions of the kind. Items and records are tested in frame order, and the first that fails ends the
test (log entry 47). -/
def State.stateTest (s : State) (f : Frame) : CheckResult :=
  match f.payload with
  | .hello _ => s.checkMember f.sender.toNat fun e => .require (decide (e.state = .absent))
  | .claim slot version => s.claimTest slot.toNat version
  | .yield slot version => s.ownerTest f.sender slot.toNat version
  | .post items =>
    items.foldr (fun i r => (s.ownerTest f.sender i.slot.toNat i.version).andNext r) .pass
  | .sync records => records.foldr (fun r rest => (s.recordTest r).andNext rest) .pass
  | .leave | .drop _ | .ask _ _ _ | .beat _ _ => .pass

/-- The four groups in their order; the first test that fails decides (R43). -/
def State.checkFrame (s : State) (f : Frame) : CheckResult :=
  (s.senderTest f).andNext ((s.formatTest f).andNext ((s.paramTest f).andNext (s.stateTest f)))

end Sys2Proof.Machine
end

