-- ==== Sys2Proof/Machine/Repair.lean ====
section
/-!
DEFINITION. The repair engine's ASK cycle and answer set, and the frame checker's accesses with the
give-up that is made in them (spec/06).
-/

namespace Sys2Proof.Machine

/-! ### The ASK cycle (R113, R115, R120, R131) -/

/-- The last slot of a window (R115). -/
def windowLast (first activeSlots : Nat) : Nat := min (first + 15) (activeSlots - 1)

/-- The record of a new cycle (R115). -/
def AskCycle.fresh (first last : Nat) : AskCycle :=
  { first := first, last := last, try_ := 1, phase := .queued, sent := none, deadline := none, asked := [] }

/-- A cycle starts where none runs, a slot is wanted, and the node is in CATCHUP or MEMBER (R115). -/
def State.startCycle (s : State) : State :=
  if (s.nct.node = .catchup || s.nct.node = .member) && s.rpe.cycle.isNone then
    match s.rpe.wanted with
    | [] => s
    | first :: _ => s.useConfig fun c =>
      { s with rpe := { s.rpe with cycle := some (.fresh first (windowLast first c.activeSlots)) } }.place
        .ask (.askTry 1)
  else s

/-- A cycle whose window holds no wanted slot ends, and its entry leaves the queue (R120). -/
def State.endFilledCycle (s : State) : State :=
  match s.rpe.cycle with
  | none => s
  | some c =>
    if s.wantedWithin c.first c.last = [] then
      { s with rpe := { s.rpe with cycle := none } }.removeEntry .ask
    else s

/-- A CATCHUP node whose wanted set is empty becomes a MEMBER (R100, R131). -/
def State.finishCatchup (s : State) : State :=
  if s.nct.node = .catchup && decide (s.rpe.wanted = []) then
    { s with nct := { s.nct with node := .member } }.notify (.catchupDone s.rpe.unresolved)
  else s

/-- The repair engine's steps after the wanted set has changed, in the order of R113. While a give-up is due
they wait for it: it ends the cycle in the same event (R122; log entry 22). A mismatch of the configuration found at
the start of a cycle leaves the steps before it made (log entry 55). -/
def State.settle (s : State) : State :=
  if s.active && s.rpe.due.isNone then s.endFilledCycle.finishCatchup.startCycle else s

/-! ### The give-up (R121, R122) -/

/-- One slot is given up, after the examination of its entry: wanted clear, unresolved set. -/
def State.giveUpSlot (s : State) (slot : Nat) : State :=
  s.andThen fun s => s.examine slot fun e => s.putFlags slot { e with wanted := false, unresolved := true }

/-- The due give-up is made: its slots that are still wanted become unresolved, each with its notice, and
the cycle ends. The slots are examined and written one by one in ascending order, and the notices follow the last
write, an order that R39 and R121 leave open: at a mismatch the slots below it are unresolved without a notice (log
entry 51). -/
def State.makeGiveUp (s : State) : State :=
  match s.rpe.due with
  | none => s
  | some d =>
    let slots := d.slots.filter s.rpe.wanted.contains
    (slots.foldl State.giveUpSlot s).andThen fun s =>
      let s := s.notifyAll (slots.map Notice.slotUnresolved)
      { s with rpe := { s.rpe with cycle := none, due := none } }.settle

/-! ### The frame checker's accesses (R33, R34, R122) -/

/-- The frame checker asks for an access, or takes over a give-up access it waits for or holds. -/
def State.askFck (s : State) (p : Purpose) : State :=
  match s.fck.purpose with
  | some .giveUp =>
    { s with
      fck := { s.fck with purpose := some p },
      rpe := { s.rpe with due := s.rpe.due.map fun d => { d with takenOver := true } } }
  | some _ => s
  | none => { s with fck := { s.fck with purpose := some p } }.requestStore .fck

/-- At the start of an access that took a give-up access over, the give-up is made first. -/
def State.openAccess (s : State) : State :=
  match s.rpe.due with
  | some d => if d.takenOver then s.makeGiveUp else s
  | none => s

/-- The end of an access: a give-up that has fallen due is made, then the grant is released. -/
def State.endAccess (s : State) : State :=
  if s.fck.purpose.isSome then
    s.makeGiveUp.andThen fun s =>
      { s with fck := { s.fck with purpose := none } }.letGoStore .fck
  else s

/-- A give-up falls due: its slots are recorded, and the frame checker asks for an access of its own unless
it holds or awaits one. -/
def State.giveUpDue (s : State) (slots : List Nat) : State :=
  let s := { s with rpe := { s.rpe with due := some { slots := slots, takenOver := false } } }
  if s.fck.purpose.isNone then s.askFck .giveUp else s

/-- A check or build ends early: a held access ends, a waiting request is withdrawn, and a give-up still due
is then asked for on its own. -/
def State.cutAccess (s : State) : State :=
  match s.fck.purpose with
  | none => s
  | some .giveUp => s
  | some _ =>
    if s.granted .fck then s.endAccess
    else
      let s := { s with fck := { s.fck with purpose := none } }.letGoStore .fck
      match s.rpe.due with
      | some d => s.giveUpDue d.slots
      | none => s

/-! ### The answer set (R126) -/

/-- The answer set becomes `l`; an empty set loses its SYNC entry. -/
def State.setAnswers (s : State) (l : List Nat) : State :=
  let s := { s with rpe := { s.rpe with answers := l } }
  if l = [] then s.removeEntry .sync else s

/-- Slots join the answer set; a set that was empty places a SYNC entry (R125). -/
def State.addAnswers (s : State) (slots : List Nat) : State :=
  if slots = [] then s
  else
    { s with rpe := { s.rpe with answers := slots.foldl (fun l n => insertSorted n l) s.rpe.answers } }.place
      .sync .none

end Sys2Proof.Machine
end

