-- ==== Sys2Proof/Machine/Store.lean ====
section
/-!
DEFINITION. Rows: the row in use, reads with correction, damage handling, and the write of a slot's words
(spec/02 sections 2.3 to 2.6, spec/08 section 8.2).
-/

namespace Sys2Proof.Machine

/-- The row in use for a slot (R30). -/
def Dst.rowInUse (d : Dst) (slot : Nat) : Option Nat :=
  match d.rowMap.find? fun p => p.1 == slot with
  | some p => some p.2
  | none => if d.retired.contains slot then none else some slot

/-! ### Decoding a code word (R29) -/

inductive WordRead where
  | clean (word : Word)
  | corrected (word : Word) (bit : Nat)
  | uncorrectable
  deriving DecidableEq, Repr

/-- The disturbed bit positions of a code word. -/
def flippedBits (flips : BitVec 22) : List Nat := (List.range 22).filter fun n => flips.getLsbD n

/-- The word that a correction of the bit at `bit` delivers from the stored bits; a check bit leaves the
stored word as it is. -/
def Cell.correctedAt (c : Cell) (bit : Nat) : Word :=
  c.word ^^^ (c.flips.setWidth 16) ^^^ (if bit < 16 then (1 : Word) <<< bit else 0)

/-- One word is read. Three or more disturbed bits give the free value's outcome; a word so corrected is not
the one written (R29). -/
def Cell.decode (c : Cell) : WordRead :=
  match flippedBits c.flips with
  | [] => .clean c.word
  | [bit] => .corrected (c.correctedAt bit) bit
  | [_, _] => .uncorrectable
  | _ =>
    match Config.multiBitOutcome c.word c.flips with
    | none => .uncorrectable
    | some bit =>
      if c.correctedAt bit.val = c.word then .uncorrectable
      else .corrected (c.correctedAt bit.val) bit.val

/-! ### Damage handling (R160–R163) -/

/-- The slot's copy becomes DAMAGED; it is wanted at a participating node, and the unresolved flag is
cleared (R160). -/
def State.markDamaged (s : State) (slot : Nat) : State :=
  s.putFlags slot { s.entry slot with
    health := .damaged, wanted := s.nct.node.participating, unresolved := false }

/-- A row gets its retired mark. -/
def Dst.retire (d : Dst) (slot row : Nat) : Dst :=
  { d with retired := insertSorted row d.retired, rowMap := d.rowMap.filter fun p => !(p.1 == slot) }

/-- The first free spare is assigned to a slot: strike 0, sixteen zeros (R31). -/
def Dst.assignSpare (d : Dst) (slot spare : Nat) (rest : List Nat) : Dst :=
  { d with
    spares := rest,
    rowMap := d.rowMap ++ [(slot, spare)],
    struck := d.struck.filter fun r => !(r == spare) }.putWords spare 0
      (List.replicate Config.rowWords 0)

/-- First strike (R161). -/
def State.strike (s : State) (slot row : Nat) : State :=
  { s with dst := { s.dst with struck := insertSorted row s.dst.struck } }.markDamaged slot

/-- Second strike (R162, R163). -/
def State.retireRow (s : State) (slot row : Nat) : State :=
  let s := { s with dst := s.dst.retire slot row }.report .rowRetired (.ofSlot slot)
  match s.dst.spares with
  | spare :: rest => { s with dst := s.dst.assignSpare slot spare rest }.markDamaged slot
  | [] =>
    let s := s.putFlags slot { s.entry slot with health := .failed, wanted := false, unresolved := false }
    (s.report .sparesExhausted (.ofSlot slot)).notify (.slotFailed slot)

/-- The damage handling of one access (R160), after which the repair engine seeks the slot (R115). -/
def State.damage (s : State) (slot row position : Nat) : State :=
  let s := s.report .eccUncorrectable { ErrorFields.ofSlot slot with word := some position }
  (if s.dst.struck.contains row then s.retireRow slot row else s.strike slot row).settle

/-! ### Reading a slot's words (R36, R37) -/

/-- A corrected word is written back and logged (R36). -/
def State.writeBack (s : State) (slot row position : Nat) (w : Word) (bit : Nat) : State :=
  { s with dst := s.dst.putCell row position { word := w, flips := 0 } }.report .eccCorrected
    { ErrorFields.ofSlot slot with word := some position, bit := some bit }

/-- Reads `n` words of a row from `position` on, in ascending position: the state after the write-backs, the
words, and the lowest position whose outcome was uncorrectable. -/
def State.readWords (slot row : Nat) : Nat → Nat → State → State × List Word × Option Nat
  | 0, _, s => (s, [], none)
  | n + 1, position, s =>
    match (s.dst.cell row position).decode with
    | .clean w =>
      let r := State.readWords slot row n (position + 1) s
      (r.1, w :: r.2.1, r.2.2)
    | .corrected w bit =>
      let r := State.readWords slot row n (position + 1) (s.writeBack slot row position w bit)
      (r.1, w :: r.2.1, r.2.2)
    | .uncorrectable =>
      let r := State.readWords slot row n (position + 1) s
      (r.1, 0 :: r.2.1, some position)

/-- Reads every word in use of a slot, with the damage handling of an uncorrectable read (R37). The words
are none where the copy is damaged, or where the slot has no row. -/
def State.readSlot (s : State) (slot : Nat) : State × Option (List Word) :=
  match s.dst.rowInUse slot with
  | none => (s, none)
  | some row =>
    match State.readWords slot row (s.entry slot).length 0 s with
    | (s, words, none) => (s, some words)
    | (s, _, some position) => (s.damage slot row position, none)

/-! ### Writing a slot's words (R28) -/

/-- A frame's words are written: state, version and length; GOOD with the words in the row in use, or FAILED
where the slot has no row; both flags cleared. -/
def State.writeSlot (s : State) (slot : Nat) (state : SlotState) (version : Word) (words : List Word) :
    State :=
  let e : DirEntry := { state := state, version := version, length := words.length, health := .good,
                        wanted := false, unresolved := false, parityGood := true }
  match s.dst.rowInUse slot with
  | some row => { s with dst := s.dst.putWords row 0 words }.putFlags slot e
  | none => s.putFlags slot { e with health := .failed }

end Sys2Proof.Machine
end

