-- ==== Sys2Proof/Machine/Watches.lean ====
section
/-!
DEFINITION. The watch unit's data changes and limit comparisons (spec/09).
-/

namespace Sys2Proof.Machine

/-- The word lies inside the band, both ends included, as unsigned numbers (R173). -/
def LimitPart.holds (l : LimitPart) (w : Word) : Bool := decide (l.low ≤ w) && decide (w ≤ l.high)

/-- The comparison of Table 9-2, for the entry `index` on `slot`, with the words of the data change. -/
def LimitPart.compare (l : LimitPart) (index slot : Nat) (words : List Word) : LimitPart × List Notice :=
  match words[l.word]? with
  | none => (l, [])
  | some w =>
    if l.holds w then
      ({ l with outside := false }, if l.outside then [.limit index slot .returned w] else [])
    else
      ({ l with outside := true }, if l.outside then [] else [.limit index slot .left w])

/-- The age starts anew (R172). -/
def AgePart.restart (a : AgePart) (now : Time) : AgePart :=
  { a with deadline := after now a.period, fired := false }

/-- One entry in use takes a data change of its slot (R172). -/
def Watch.change (w : Watch) (now : Time) (index : Nat) (words : List Word) : Watch × List Notice :=
  match w.limit with
  | none => ({ w with age := w.age.map fun a => a.restart now }, [])
  | some l =>
    let r := l.compare index w.slot words
    ({ w with age := w.age.map fun a => a.restart now, limit := some r.1 }, r.2)

/-- The entries from `index` on take a data change, in ascending index order. -/
def changeWatches (now : Time) (slot : Nat) (words : List Word) :
    Nat → List (Option Watch) → List (Option Watch) × List Notice
  | _, [] => ([], [])
  | index, none :: rest =>
    let r := changeWatches now slot words (index + 1) rest
    (none :: r.1, r.2)
  | index, some w :: rest =>
    let r := changeWatches now slot words (index + 1) rest
    if w.slot = slot then
      let c := w.change now index words
      (some c.1 :: r.1, c.2 ++ r.2)
    else (some w :: r.1, r.2)

/-- A data change for a slot reaches the watch unit, with the words the frame carries (R172). -/
def State.dataChange (s : State) (slot : Nat) (words : List Word) : State :=
  let r := changeWatches s.nct.now slot words 0 s.wch
  { s with wch := r.1 }.notifyAll r.2

/-- The data changes of one application, slot by slot in frame order (R172, R176). -/
def State.dataChanges (s : State) (l : List (Nat × List Word)) : State :=
  l.foldl (fun s p => s.dataChange p.1 p.2) s

end Sys2Proof.Machine
end

