-- ==== Sys2Proof/Machine/Apply.lean ====
section
/-!
DEFINITION. What a frame changes at this node: the hearing of its sender, its application at a receiver and at
its sender, the entry to CATCHUP and the founding of a group, and what a joining node takes from it (spec/03
sections 3.2 to 3.9, R98, R99). An application that a parity mismatch interrupts leaves its earlier writes and
makes nothing further (R108; log entry 18).
-/

namespace Sys2Proof.Machine

/-- The station is this node's own. -/
def State.isOwn (s : State) (n : Station) : Bool := decide (n = s.nct.station)

/-! ### Membership changes -/

/-- A PRESENT entry heard now (R47, R54). -/
def MemberEntry.heard (now : Time) (c : NodeConfig) : MemberEntry :=
  { state := .present, deadline := some (after now c.silenceTimeout), suspectSince := none, parityGood := true }

/-- The decision timer stops where no station is SUSPECT any more (R78). -/
def State.stopIfNoSuspect (s : State) : State :=
  if s.suspects = [] then { s with mbu := { s.mbu with decision := none } } else s

def State.setMember (s : State) (n : Nat) (e : MemberEntry) : State := { s with mbu := s.mbu.putEntry n e }

/-- A hearing of a frame's sender (R47). The own entry carries no deadline and stays as it is (R73; log entry
14). A SUSPECT station's return reads the whole table, for the decision timer, and tests it before the configuration,
an order that R47 and R108 leave open (log entry 49). -/
def State.hear (s : State) (n : Nat) : State :=
  s.useMember n fun e =>
    if n = s.nct.station.toNat then s
    else
      match e.state with
      | .absent => s
      | .present => s.useConfig fun c => s.setMember n (.heard s.nct.now c)
      | .suspect => s.useMembers <| s.useConfig fun c =>
        ((s.setMember n (.heard s.nct.now c)).stopIfNoSuspect).notify (.memberChanged n .present)

/-- Stations become PRESENT, each with its notice, in ascending order (R52, R54). The whole membership table is tested
before the configuration, an order that R54 and R108 leave open (log entry 49). The configuration is tested also where
no station is added, which R52 and R108 leave open (log entry 52). -/
def State.addStations (s : State) (ns : List Nat) : State :=
  s.useMembers <| s.useConfig fun c =>
    (ns.foldl (fun s n => s.setMember n (.heard s.nct.now c)) s).notifyAll
      (ns.map fun n => .memberChanged n .present)

/-- One entry of the scan of R56: a slot OWNED by one of the stations becomes ORPHANED. -/
def State.orphanSlot (ns : List Nat) (s : State) (slot : Nat) : State :=
  s.andThen fun s => s.examine slot fun e =>
    match e.state with
    | .owned o => if ns.contains o.toNat then s.putEntry slot { e with state := .orphaned } else s
    | _ => s

/-- Stations become ABSENT: their slots are orphaned in a scan of the whole directory, then their entries
change, each with its notice, in ascending order (R55, R56, R58, R78). Nothing is scanned where no station is
removed. The scan examines and writes slot by slot in ascending order, which R39 and R56 leave open: the lowest
mismatching slot is reported, and the slots below it are ORPHANED by then. A mismatch in the scan leaves the stations
members. The whole membership table is tested before the scan, an order that R39, R56 and R108 leave open: where both
mismatch the station is reported and no slot is ORPHANED (log entry 33). -/
def State.removeStations (s : State) (ns : List Nat) : State :=
  s.useMembers <|
    if ns = [] then s
    else ((s.dir.map Prod.fst).foldl (State.orphanSlot ns) s).andThen fun s =>
      ((ns.foldl (fun s n => s.setMember n .absent) s).stopIfNoSuspect).notifyAll
        (ns.map fun n => .memberChanged n .absent)

/-- The other stations of a mask that this node holds as members (R58). -/
def State.maskedMembers (s : State) (mask : StationMask) : List Nat :=
  (StationMask.stations mask).filter fun n => !(n == s.nct.station.toNat) && s.isMember n

/-! ### Ownership frames -/

/-- A slot that was known raises RECORD_CHANGED at nodes other than the sender (R49). -/
def State.notifyChange (s : State) (sender : Station) (before : SlotState) (slot : Nat) (c : ChangeCause) :
    State :=
  if s.isOwn sender || decide (before = .unlearned) then s else s.notify (.recordChanged slot c)

/-- The overheard recheck: another station's CLAIM ends a pending CLAIM for the same slot (R146). -/
def State.overheard (s : State) (sender : Station) (slot : Nat) : State :=
  if s.isOwn sender then s
  else
    match s.opu.op with
    | some { kind := .claim n, .. } => if n = slot then (s.removeEntry .claim).endOp .taken else s
    | _ => s

/-- An applied CLAIM (R60). -/
def State.applyClaim (s : State) (sender : Station) (slot : Nat) (version : Word) : State :=
  s.examine slot fun e =>
    ((s.putEntry slot { e with state := .owned sender, version := version }).notifyChange sender e.state
      slot .claimed).overheard sender slot

/-- The draft of a slot leaves the draft buffer; the others keep their order (R155). -/
def State.removeDraft (s : State) (slot : Nat) : State :=
  { s with opu := { s.opu with drafts := s.opu.drafts.filter fun d => !(d.slot == slot) } }

/-- An applied YIELD (R62). -/
def State.applyYield (s : State) (sender : Station) (slot : Nat) (version : Word) : State :=
  s.examine slot fun e =>
    let s' := (s.putEntry slot { e with state := .free, version := version }).notifyChange sender e.state
      slot .yielded
    if s.isOwn sender then s'.removeDraft slot else s'

/-! ### Data frames -/

def State.applyItem (sender : Station) (s : State) (i : Item) : State :=
  s.andThen fun s => s.examine i.slot.toNat fun _ =>
    s.writeSlot i.slot.toNat (.owned sender) i.version i.words

/-- An applied POST (R64): the writes, the notices of slots that were known, then the hand-offs to the watch
unit and the repair engine. The items are examined and written one by one in frame order, which R64 leaves open (log
entry 54). -/
def State.applyPost (s : State) (sender : Station) (items : List Item) : State :=
  let known := items.filter fun i =>
    !s.isOwn sender && decide ((s.entry i.slot.toNat).state ≠ .unlearned)
  (items.foldl (State.applyItem sender) s).andThen fun s =>
    ((s.notifyAll (known.map fun i => .recordChanged i.slot.toNat .posted)).dataChanges
      (items.map fun i => (i.slot.toNat, i.words))).settle

/-- The state a SYNC record carries; only codes 1 to 3 reach an application (R45, R204). -/
def Record.slotState (r : Record) : SlotState :=
  if r.stateCode = 1 then .free else if r.stateCode = 2 then .owned r.owner else .orphaned

/-- Table 3-4: the record is applied, and with the notice REPAIRED. -/
inductive SyncDecision where
  | passedOver
  | learned
  | repaired
  deriving DecidableEq, Repr

/-- The decision of Table 3-4 on versions and health. -/
def syncTable (e : DirEntry) (version : Word) : SyncDecision :=
  let news := newer version e.version
  let notOlder := news || decide (version = e.version)
  match e.state, e.health with
  | .unlearned, _ => .learned
  | _, .unknown => if notOlder then .learned else .passedOver
  | _, .damaged => if notOlder then .repaired else .passedOver
  | _, .good => if news then .repaired else .passedOver
  | _, .failed => if news then .repaired else .passedOver

/-- Table 3-4, and the condition on a record that names the receiver's own station as owner (R66). -/
def syncDecision (own : Station) (e : DirEntry) (r : Record) : SyncDecision :=
  if r.slotState = .owned own ∧ e.state ≠ .owned own then .passedOver else syncTable e r.version

def State.decideRecord (s : State) (r : Record) : SyncDecision :=
  syncDecision s.nct.station (s.entry r.slot.toNat) r

def State.applyRecord (s : State) (r : Record) : State :=
  s.andThen fun s => s.examine r.slot.toNat fun e =>
    if syncDecision s.nct.station e r = .passedOver then s
    else s.writeSlot r.slot.toNat r.slotState r.version r.words

/-- The slots of a SYNC of another station whose record is equal to or newer than the local version (R129). -/
def State.prunable (s : State) (records : List Record) : List Nat :=
  (records.filter fun r =>
    decide (r.version = (s.entry r.slot.toNat).version) || newer r.version (s.entry r.slot.toNat).version).map
    fun r => r.slot.toNat

/-- The answer set loses the slots that another station has answered (R129). -/
def State.prune (s : State) (slots : List Nat) : State :=
  if slots = [] then s else s.setAnswers (s.rpe.answers.filter fun n => !slots.contains n)

/-- An applied SYNC (R66, R67): the decisions and the pruning look at the entries as they stood before it. -/
def State.applySync (s : State) (sender : Station) (records : List Record) : State :=
  let applied := records.filter fun r => decide (s.decideRecord r ≠ .passedOver)
  let repaired := records.filter fun r => !s.isOwn sender && decide (s.decideRecord r = .repaired)
  let covered := if s.isOwn sender then [] else s.prunable records
  (records.foldl State.applyRecord s).andThen fun s =>
    (((s.notifyAll (repaired.map fun r => .recordChanged r.slot.toNat .repaired)).prune covered).dataChanges
      (applied.map fun r => (r.slot.toNat, r.words))).settle

/-! ### ASK (R124, R125) -/

/-- The designated answerer of a slot for an asker. -/
def State.designated (s : State) (asker : Station) (slot : Nat) : Option Nat :=
  let lowest := (s.memberSet.filter fun n => !(n == asker.toNat)).head?
  match (s.entry slot).state with
  | .owned o => if o = asker then lowest else some o.toNat
  | _ => lowest

/-- This node agrees to answer a slot. -/
def State.answersFor (s : State) (asker : Station) (mode : BitVec 3) (slot : Nat) : Bool :=
  (decide (mode = 1) || decide (s.designated asker slot = some s.nct.station.toNat)) &&
    decide ((s.entry slot).state ≠ .unlearned) && decide ((s.entry slot).health = .good)

/-- The slots an ASK names. -/
def askRange (first count : Nat) : List Nat := (List.range count).map (first + ·)

/-- Examines entries in order; the first mismatch is an internal fault (R39; log entry 45). -/
def State.examineAll (s : State) (slots : List Nat) (k : State) : State :=
  match slots.find? fun n => !(s.entry n).parityGood with
  | some n => s.internalFault (.ofSlot n)
  | none => k

/-- An applied ASK of another station (R125). A node in LEAVING adds nothing (R102). In mode DESIGNATED the membership
table is tested before the entries of the range (log entry 45). -/
def State.applyAsk (s : State) (asker : Station) (first : Byte) (mode : BitVec 3) (count : BitVec 5) : State :=
  if s.nct.node = .catchup || s.nct.node = .member then
    let range := askRange first.toNat count.toNat
    let take := s.examineAll range (s.addAnswers (range.filter (s.answersFor asker mode)))
    if mode = 1 then take else s.useMembers take
  else s

/-! ### Membership frames -/

/-- An applied BEAT (R52). In CATCHUP the configuration is tested also where no station is added (log entry 52). -/
def State.applyBeat (s : State) (mask : StationMask) : State :=
  if !StationMask.has mask s.nct.station.toNat then s.isolate .dropped
  else if s.nct.node = .catchup then
    s.addStations ((StationMask.stations mask).filter fun n => !s.isMember n)
  else s

/-- An applied DROP at a receiver (R58): the other masked members go, and a receiver named in the mask isolates
itself. -/
def State.applyDrop (s : State) (mask : StationMask) : State :=
  (s.removeStations (s.maskedMembers mask)).andThen fun s =>
    if StationMask.has mask s.nct.station.toNat then s.isolate .dropped else s

/-- A receiver applies a frame of another station (R49). -/
def State.applyReceived (s : State) (f : Frame) : State :=
  match f.payload with
  | .leave => s.removeStations ((StationMask.stations (Station.mask f.sender)).filter s.isMember)
  | .drop mask => s.applyDrop mask
  | .hello _ => s.addStations [f.sender.toNat]
  | .claim slot version => s.applyClaim f.sender slot.toNat version
  | .yield slot version => s.applyYield f.sender slot.toNat version
  | .post items => s.applyPost f.sender items
  | .sync records => s.applySync f.sender records
  | .ask first mode count => s.applyAsk f.sender first mode count
  | .beat mask _ => s.applyBeat mask

/-- The sender applies its own frame to the directory and the membership table (R69, Table 3-5). What a HELLO
or a LEAVE does there is the node controller's, at the outcome (R98, R99, R103). -/
def State.applyOwn (s : State) (f : Frame) : State :=
  match f.payload with
  | .drop mask => s.removeStations (s.maskedMembers mask)
  | .claim slot version => s.applyClaim f.sender slot.toNat version
  | .yield slot version => s.applyYield f.sender slot.toNat version
  | .post items => s.applyPost f.sender items
  | .sync records => s.applySync f.sender records
  | .leave | .hello _ | .ask _ _ _ | .beat _ _ => s

/-! ### Entry to CATCHUP and founding (R75, R86, R98, R99) -/

/-- Every slot below `n` takes an entry; the others stay. -/
def fillSlots (n : Nat) (f : Nat → DirEntry) (dir : List (Nat × DirEntry)) : List (Nat × DirEntry) :=
  ((List.range n).map fun slot => (slot, f slot)) ++ dir.filter fun p => decide (n ≤ p.1)

/-- What the wanted set holds of the slots from `n` on, whose entries stay. -/
def Rpe.beyond (r : Rpe) (n : Nat) : List Nat := r.wanted.filter fun m => decide (n ≤ m)

/-- A PRESENT entry without a deadline: the node's own (R73). -/
def MemberEntry.own : MemberEntry :=
  { state := .present, deadline := none, suspectSince := none, parityGood := true }

/-- The membership table after the node's own HELLO: itself and the stations of a set (Table 4-3). -/
def freshTable (own : Station) (set : StationMask) (e : MemberEntry) : List (Nat × MemberEntry) :=
  (List.range 16).filterMap fun n =>
    if n = own.toNat then some (n, MemberEntry.own)
    else if set.getLsbD n then some (n, e) else none

/-- The membership unit at the acceptance of the node's own HELLO, with the stagger of R86. -/
def State.startMembership (s : State) (c : NodeConfig) (set : StationMask) : Mbu :=
  { s.mbu with
    table := freshTable s.nct.station set (.heard s.nct.now c),
    decision := none,
    beatRef := some (after (s.nct.now - BitVec.ofNat 32 c.beat) (c.stagger s.nct.station)),
    beatAsked := false }

/-- The scrubber at the start of participation (R156). -/
def Scb.start (c : NodeConfig) : Scb :=
  { pointer := 0, timer := if c.scrub = 0 then none else some 0, turn := none }

/-- The node enters CATCHUP, and its first ASK cycle starts (R98, R115). The configuration is used before anything
changes (log entry 55). -/
def State.enterCatchup (s : State) : State :=
  s.useConfig fun c =>
    ({ s with
        dir := fillSlots c.activeSlots (fun _ => { DirEntry.blank with wanted := true }) s.dir,
        mbu := s.startMembership c s.mbu.provisional,
        rpe := { s.rpe with wanted := List.range c.activeSlots ++ s.rpe.beyond c.activeSlots, unresolved := 0 },
        scb := .start c,
        nct := { s.nct with node := .catchup, phase := .none } }.notify (.opDone .join .ok none)).settle

/-- The entry of a slot at founding: FREE and GOOD, or FAILED where the slot has no row (R99). -/
def foundedEntry (d : Dst) (slot : Nat) : DirEntry :=
  { DirEntry.blank with state := .free, health := if (d.rowInUse slot).isSome then .good else .failed }

/-- The node founds a group (R99). The configuration is used before anything changes (log entry 55). -/
def State.found (s : State) : State :=
  s.useConfig fun c =>
    { s with
      dir := fillSlots c.activeSlots (foundedEntry s.dst) s.dir,
      mbu := s.startMembership c 0,
      rpe := { s.rpe with wanted := s.rpe.beyond c.activeSlots, unresolved := 0 },
      scb := .start c,
      nct := { s.nct with node := .member, phase := .none } }.notifyAll
        [.opDone .join .ok none, .catchupDone 0]

/-! ### Frames heard while joining (R71, R72) -/

/-- The provisional member set after a frame (R71). -/
def provisionalAfter (own : Station) (set : StationMask) (f : Frame) : StationMask :=
  let set := match f.payload with
    | .beat mask _ => mask &&& ~~~(Station.mask own)
    | _ => set
  let set := set ||| Station.mask f.sender
  match f.payload with
  | .leave => set &&& ~~~(Station.mask f.sender)
  | .drop mask => set &&& ~~~mask
  | _ => set

/-- A joining node takes a frame into its provisional member set; a BEAT with other parameters ends the JOIN
(R71, R72). The set is updated before the parameters are compared (log entry 55). -/
def State.hearJoining (s : State) (f : Frame) : State :=
  let s := { s with mbu := { s.mbu with provisional := provisionalAfter s.nct.station s.mbu.provisional f } }
  match f.payload with
  | .beat _ p => s.useConfig fun c => if p = c.wire s.nct.rate then s else s.endJoin .mismatch
  | _ => s

end Sys2Proof.Machine
end

