-- ==== Sys2Proof/Machine/Outcome.lean ====
section
/-!
DEFINITION. The decision of the membership unit, the outcome of the node's own frame, and what the block that
placed its entry does with each outcome or report (spec/04 sections 4.4 and 4.5, spec/07 section 7.2, R11, R79,
R80, R83, R87, R97, R103, R117–R119, R128, R137, R149, R150, R154).
-/

namespace Sys2Proof.Machine

/-! ### The decision (R79, R80) -/

/-- The decision timer runs out: it stops, and the node drops its suspects or isolates itself (R79). -/
def State.takeDecision (s : State) : State :=
  s.useMembers <|
    let s := { s with mbu := { s.mbu with decision := none } }
    if s.quorum then
      if s.suspects = [] then s else s.place .drop (.dropMask (maskOf s.suspects))
    else s.isolate .noQuorum

/-- The earlier of two times, in serial arithmetic. -/
def earlier (a b : Time) : Time := if reached b a then a else b

/-- The earliest suspect-since of the SUSPECT stations. -/
def State.earliestSuspect (s : State) : Option Time :=
  match s.suspects.filterMap fun n => (s.mbu.entry n).suspectSince with
  | [] => none
  | t :: rest => some (rest.foldl earlier t)

/-- The decision timer after a DROP entry was accepted, or removed at its build (R80). A time already past
runs out in this same event (log entry 26). The membership table is read before the grace (log entry 49). -/
def State.restartDecision (s : State) : State :=
  s.useMembers <|
    match s.earliestSuspect with
    | none => s
    | some t => s.useConfig fun c =>
      if reached s.nct.now (after t c.grace) then s.takeDecision
      else { s with mbu := { s.mbu with decision := some (after t c.grace) } }

/-- The decision timer after a DROP entry's eighth failure (R80, R83). -/
def State.delayDecision (s : State) : State :=
  s.useConfig fun c => { s with mbu := { s.mbu with decision := some (after s.nct.now c.grace) } }

/-! ### The outcome (R11) -/

inductive FrameOutcome where
  | accepted
  | alone
  | refused
  | unheard
  deriving DecidableEq, Repr

/-- The stations other than this node in the member set after the frame's own effect (R11). -/
def State.othersAfter (s : State) (f : Frame) : List Nat :=
  match f.payload with
  | .hello _ => StationMask.stations s.mbu.provisional
  | .drop mask => s.memberSet.filter fun n => !(n == s.nct.station.toNat) && !StationMask.has mask n
  | _ => s.memberSet.filter fun n => !(n == s.nct.station.toNat)

/-- The sender classifies its frame from the slots it sampled (Table 1-1). -/
def State.outcome (s : State) (f : Frame) (heard veto : Bool) : FrameOutcome :=
  if veto then .refused
  else if heard then .accepted
  else if s.othersAfter f = [] then .alone
  else .unheard

/-- A refused or unheard frame is logged with the own station and the kind code (R11). -/
def State.logOutcome (s : State) (f : Frame) (o : FrameOutcome) : State :=
  let fields := { ErrorFields.ofStation s.nct.station.toNat with word := some f.kind.code }
  match o with
  | .refused => s.report .frameRefused fields
  | .unheard => s.report .frameUnheard fields
  | _ => s

/-! ### The repair engine's tries (R117–R119) -/

/-- The next try of the cycle is placed (R119). -/
def State.nextTry (s : State) (c : AskCycle) : State :=
  { s with rpe := { s.rpe with cycle := some { c with
      try_ := c.try_ + 1, phase := .queued, deadline := none } } }.place .ask (.askTry (c.try_ + 1))

/-- A try ends without an answer: the next try, or after try 3 the give-up falls due (R119, R121). Where no asked slot
is still wanted the give-up falls due all the same, empty, and the cycle ends with it: a point that R121 and R122 leave
open (log entry 50). -/
def State.tryEnds (s : State) (c : AskCycle) : State :=
  if c.try_ < 3 then s.nextTry c
  else s.giveUpDue (c.asked.filter s.rpe.wanted.contains)

/-- The slots of the sent range that are wanted now (R117). -/
def State.wantedSent (s : State) (c : AskCycle) : List Nat :=
  match c.sent with
  | some (first, count) => s.wantedWithin first (first + count - 1)
  | none => []

/-- An accepted ASK starts the answer wait (R117). -/
def State.askAccepted (s : State) : State :=
  match s.rpe.cycle with
  | none => s
  | some c => s.useConfig fun cfg =>
    { s with rpe := { s.rpe with cycle := some { c with
        phase := .waiting, deadline := some (after s.nct.now cfg.answerWait), asked := s.wantedSent c } } }

/-- The eighth failure of an ASK ends its try (R118). -/
def State.askFailed (s : State) : State :=
  match s.rpe.cycle with
  | none => s
  | some c =>
    let c := { c with asked := s.wantedWithin c.first c.last }
    { s with rpe := { s.rpe with cycle := some c } }.tryEnds c

/-! ### Accepted and alone-accepted frames -/

/-- The slots a SYNC carried leave the answer set; a set that is not empty has a new entry placed (R128). -/
def State.syncSent (s : State) (records : List Record) : State :=
  let s := s.setAnswers (s.rpe.answers.filter fun n => !records.any fun r => r.slot.toNat == n)
  if s.rpe.answers = [] then s else s.place .sync .none

/-- The handler of an accepted or alone-accepted frame, whose entry is removed (R137). An entry no longer in
the queue is passed over (R138). -/
def State.ownAccepted (s : State) (f : Frame) (alone : Bool) : State :=
  if s.obs.holds f.kind then
    let s := s.removeEntry f.kind
    match f.payload with
    | .leave => s.endLeave .ok
    | .drop _ => s.restartDecision
    | .hello _ => if alone then s.found else s.enterCatchup
    | .claim _ _ | .yield _ _ => s.endOp .ok
    | .post _ => { s with opu := { s.opu with drafts := [] } }.endOp .ok
    | .sync records => s.syncSent records
    | .ask _ _ _ => s.askAccepted
    | .beat _ _ => s
  else s

/-! ### Refused and unheard frames -/

/-- The result that the last failure gives. -/
def failedResult (refused : Bool) : DoneResult := if refused then .refused else .unheard

/-- A kind whose entry goes at its first failure: a BEAT (R87), and in LEAVING the operation's frame that was on
the bus when LEAVE was taken (R101, R137). -/
def State.goesAtOnce (s : State) (k : FrameKind) : Bool :=
  decide (k = .beat) || (decide (s.nct.node = .leaving) && k.isOperation)

/-- What follows where an entry goes before its eighth failure. -/
def State.goneAtOnce (s : State) (k : FrameKind) : State :=
  let s := s.removeEntry k
  if k.isOperation then s.endOp .aborted else s

/-- What follows an eighth failure; the entry is removed (R83, R97, R103, R118, R128, R149, R154). -/
def State.eighthFailure (s : State) (k : FrameKind) (refused : Bool) : State :=
  let s := s.removeEntry k
  match k with
  | .leave => s.endLeave (failedResult refused)
  | .drop => s.delayDecision
  | .hello => s.endJoin (failedResult refused)
  | .claim | .yield | .post => s.endOp (failedResult refused)
  | .sync => s.setAnswers []
  | .ask => s.askFailed
  | .beat => s

/-- An operation's frame has left the bus and its entry stays (R140). -/
def State.backToQueue (s : State) (k : FrameKind) : State := if k.isOperation then s.setOnBus false else s

/-- The handler of a refused or unheard frame (R137). -/
def State.ownFailed (s : State) (f : Frame) (refused : Bool) : State :=
  match s.obs.find f.kind with
  | none => s
  | some e =>
    if s.goesAtOnce f.kind then s.goneAtOnce f.kind
    else if e.attempts + 1 < Config.maxAttempts then
      (s.setAttempts f.kind (e.attempts + 1)).backToQueue f.kind
    else s.eighthFailure f.kind refused

/-- The sender's outcome: an accepted frame is applied and then handled (R12, R69). -/
def State.ownOutcome (s : State) (f : Frame) (o : FrameOutcome) : State :=
  match o with
  | .accepted => (s.applyOwn f).andThen fun s => s.ownAccepted f false
  | .alone => (s.applyOwn f).andThen fun s => s.ownAccepted f true
  | .refused => s.ownFailed f true
  | .unheard => s.ownFailed f false

/-! ### Arbitration losses and truncations (R6, R137) -/

/-- The report of an arbitration loss, or of a truncation by another cause, to the scheduler: the entry stays
with its count, except in LEAVING for what was on the bus when LEAVE was taken (R101). -/
def State.ownCut (s : State) (k : FrameKind) : State :=
  if s.obs.holds k then
    if decide (k ≠ .beat) && s.goesAtOnce k then s.goneAtOnce k else s.backToQueue k
  else s

/-- The LEAVE of a power-fail leave has ended otherwise than by an arbitration loss (R107). -/
def State.pfailEnd (s : State) : State := (s.removeEntry .leave).halt .pfail

end Sys2Proof.Machine
end

