-- ==== Sys2Proof/Machine/Build.lean ====
section
/-!
DEFINITION. The build of each frame kind from current state, with its recheck, and the offer of the scheduler's
entries in kind-code order (R82, R87, R97, R116, R127, R135, R136, R144, R145, R154). A build answers the state
and the payload, or no payload where the entry was removed or the node halted.
-/

namespace Sys2Proof.Machine

/-! ### Parity in builds (R39, R108) -/

/-- A build that uses the configuration. -/
def State.buildConfig (s : State) (k : NodeConfig → State × Option Payload) : State × Option Payload :=
  match s.nct.config with
  | none => (s, none)
  | some c => if c.parityGood then k c else (s.internalFault .none, none)

/-- A build that reads the membership table. -/
def State.buildMembers (s : State) (k : State × Option Payload) : State × Option Payload :=
  match s.badMember with
  | none => k
  | some n => (s.internalFault (.ofStation n), none)

/-- A build that reads a directory entry. -/
def State.buildEntry (s : State) (slot : Nat) (k : DirEntry → State × Option Payload) :
    State × Option Payload :=
  if (s.entry slot).parityGood then k (s.entry slot) else (s.internalFault (.ofSlot slot), none)

/-! ### The builds without an access -/

/-- The DROP's mask, rebuilt from the stations of the original mask that are SUSPECT (R82). -/
def State.buildDrop (s : State) : State × Option Payload :=
  s.buildMembers <|
    let original := match s.obs.find .drop with
      | some { ref := .dropMask m, .. } => m
      | _ => 0
    let mask := maskOf (s.suspects.filter (StationMask.has original))
    if mask = 0 then ((s.removeEntry .drop).restartDecision, none) else (s, some (.drop mask))

/-- The HELLO (R97). -/
def State.buildHello (s : State) : State × Option Payload :=
  s.buildConfig fun c => (s, some (.hello (c.wire s.nct.rate)))

/-- The BEAT: the member mask and the shared parameters (R87), read in this order (log entry 49). -/
def State.buildBeat (s : State) : State × Option Payload :=
  s.buildMembers <| s.buildConfig fun c => (s, some (.beat s.memberMask (c.wire s.nct.rate)))

/-- The mode code of an ASK: DESIGNATED for try 1, ANY after it (R116). -/
def askMode (try_ : Nat) : BitVec 3 := if try_ = 1 then 0 else 1

/-- The ASK: its range is rebuilt from the wanted slots of the window (R116). -/
def State.buildAsk (s : State) : State × Option Payload :=
  match s.rpe.cycle with
  | none => (s.removeEntry .ask, none)
  | some c =>
    match s.wantedWithin c.first c.last with
    | [] => (s.removeEntry .ask, none)
    | first :: _ =>
      let count := c.last - first + 1
      ({ s with rpe := { s.rpe with cycle := some { c with sent := some (first, count) } } },
        some (.ask (BitVec.ofNat 8 first) (askMode c.try_) (BitVec.ofNat 5 count)))

/-! ### The builds in a build access -/

/-- The CLAIM, after its recheck (R144). -/
def State.buildClaim (s : State) : State × Option Payload :=
  match s.opu.op with
  | some { kind := .claim slot, .. } =>
    s.buildEntry slot fun e =>
      match e.state with
      | .free | .orphaned => (s, some (.claim (BitVec.ofNat 8 slot) (e.version + 1)))
      | _ => ((s.removeEntry .claim).endOp .taken, none)
  | _ => (s.removeEntry .claim, none)

/-- The YIELD, after its recheck (R145). -/
def State.buildYield (s : State) : State × Option Payload :=
  match s.opu.op with
  | some { kind := .yield slot, .. } =>
    s.buildEntry slot fun e =>
      if e.state = .owned s.nct.station then (s, some (.yield (BitVec.ofNat 8 slot) (e.version + 1)))
      else ((s.removeEntry .yield).endOp .aborted, none)
  | _ => (s.removeEntry .yield, none)

/-- The slot is OWNED by this station. -/
def State.owns (s : State) (slot : Nat) : Bool := decide ((s.entry slot).state = .owned s.nct.station)

/-- The POST, after its recheck: an item for each draft, in draft order (R145, R154). -/
def State.buildPost (s : State) : State × Option Payload :=
  match s.opu.drafts.find? fun d => !(s.entry d.slot).parityGood with
  | some d => (s.internalFault (.ofSlot d.slot), none)
  | none =>
    if s.opu.drafts.all fun d => s.owns d.slot then
      (s, some (.post (s.opu.drafts.map fun d =>
        { slot := BitVec.ofNat 8 d.slot, version := (s.entry d.slot).version + 1, words := d.words })))
    else
      let s := { s with opu := { s.opu with drafts := s.opu.drafts.filter fun d => s.owns d.slot } }
      ((s.removeEntry .post).endOp .aborted, none)

/-- A slot leaves the answer set at a build (R127); its entry is dealt with at the end of the build. -/
def State.dropAnswer (s : State) (slot : Nat) : State :=
  { s with rpe := { s.rpe with answers := s.rpe.answers.filter fun n => !(n == slot) } }

/-- The record of a slot from its entry and words (R127, R201). -/
def recordOf (slot : Nat) (e : DirEntry) (words : List Word) : Record :=
  { slot := BitVec.ofNat 8 slot,
    stateCode := match e.state with
      | .owned _ => 2
      | .orphaned => 3
      | _ => 1,
    owner := match e.state with
      | .owned o => o
      | _ => 0,
    version := e.version,
    words := words }

/-- Records for up to `room` of the slots, in their order; slots that cannot be sent leave the answer set
(R127). -/
def State.gather : Nat → List Nat → State → State × List Record
  | _, [], s => (s, [])
  | room, slot :: rest, s =>
    if room = 0 || decide (s.nct.node = .halted) then (s, [])
    else if !(s.entry slot).parityGood then (s.internalFault (.ofSlot slot), [])
    else if (s.entry slot).health ≠ .good then State.gather room rest (s.dropAnswer slot)
    else
      match s.readSlot slot with
      | (t, some words) =>
        let r := State.gather (room - 1) rest t
        (r.1, recordOf slot (s.entry slot) words :: r.2)
      | (t, none) => State.gather room rest (t.dropAnswer slot)

/-- The SYNC: up to four records from the answer set in ascending order (R127). -/
def State.buildSync (s : State) : State × Option Payload :=
  match State.gather 4 s.rpe.answers s with
  | (t, records) =>
    if t.nct.node = .halted then (t, none)
    else if records = [] then (t.setAnswers [], none)
    else (t, some (.sync records))

/-- The build of each kind (R136). -/
def State.buildKind (s : State) (k : FrameKind) : State × Option Payload :=
  match k with
  | .leave => (s, some .leave)
  | .drop => s.buildDrop
  | .hello => s.buildHello
  | .claim => s.buildClaim
  | .yield => s.buildYield
  | .post => s.buildPost
  | .sync => s.buildSync
  | .ask => s.buildAsk
  | .beat => s.buildBeat

/-! ### The offer (R135, R136) -/

/-- The kinds in the order of their codes. DROP stands twice: a decision taken at the removal of a DROP entry in
its build can place a new one, which is then the standing entry of lowest code (R80, R135; log entry 30). -/
def kindOrder : List FrameKind := [.leave, .drop, .drop, .hello, .claim, .yield, .post, .sync, .ask, .beat]

/-- The node may send an entry of this kind in its state (R135). -/
def State.maySend (s : State) (k : FrameKind) : Bool :=
  match s.nct.node with
  | .announcing => decide (k = .hello)
  | .catchup | .member | .leaving =>
    if s.nct.phase = .pfailLeave then decide (k = .leave) else decide (k ≠ .hello)
  | _ => false

/-- The kinds that are built in a build access (R136). -/
def FrameKind.needsStore : FrameKind → Bool
  | .claim | .yield | .post | .sync => true
  | _ => false

/-- A build access asked for earlier is let go where no build needs it any more (R34). -/
def State.cutBuild (s : State) : State := if s.fck.purpose = some .build then s.cutAccess else s

/-- One offer, with the grant where the kind needs one: the build, and the end of its access. -/
def State.offerOne (s : State) (k : FrameKind) : State × Option Payload :=
  if k.needsStore then
    let s := s.openAccess
    if s.nct.node = .halted then (s, none)
    else
      match s.buildKind k with
      | (s, p) =>
        let s := s.andThen State.endAccess
        (s, if s.nct.node = .halted then none else p)
  else
    let s := s.cutBuild
    if s.nct.node = .halted then (s, none) else s.buildKind k

/-- The standing entries are offered in kind-code order until one is built, or until one waits for the store
(R135; log entry 10). -/
def State.offer : List FrameKind → State → State × Option Payload
  | [], s => (s.cutBuild, none)
  | k :: rest, s =>
    if s.obs.holds k && s.maySend k then
      let s := if k.needsStore then s.askFck .build else s
      if k.needsStore && !s.granted .fck then (s, none)
      else
        match s.offerOne k with
        | (s, some p) => (s, some p)
        | (s, none) => State.offer rest s
    else State.offer rest s

/-- The start condition of a built frame is given (R5, R140). -/
def State.giveStart (s : State) (f : Frame) : State :=
  let s := { s with
    obs := { s.obs with build := none },
    pbi := { s.pbi.goActive with shift := .sending f } }
  if f.kind.isOperation then s.setOnBus true else s

/-- The scheduler's frame for a free moment becomes the build in hand (R136). -/
def State.buildFrame (s : State) : State :=
  match State.offer kindOrder s with
  | (s, some p) => { s with obs := { s.obs with build := some { sender := s.nct.station, payload := p } } }
  | (s, none) => s

end Sys2Proof.Machine
end

