-- ==== Sys2Proof/Machine/Pins.lean ====
section
/-!
DEFINITION. The meanings of the rows of the pins, of the store's disturbances and of the fault checkers:
HARD_RESET, NRST_HELD_LOW, PFAIL_EDGE, PFAIL_WAIT_EXPIRY, DISTURBANCE, FAULT_CHECKER_ALARM (spec/05 sections 5.6
to 5.8, R29, R108). The soft reset of RESET stands here too.
-/

namespace Sys2Proof.Machine

/-- What a meaning answers. -/
abbrev Answer := Host.Outcome State Fault Refusal

/-- The answer of a row that can raise or take notices: NIRQ is driven from the queue that its event leaves (R183). -/
def State.driving (s t : State) : Answer := .next (t.driveNirq s.ntq.notices)

/-! ### Resets (R20, R92, R110, R111) -/

/-- The bus lines as a reset finds them (log entry 28). -/
def ResetPins.lines (p : ResetPins) : Lines := if p.pckLow || p.pdtLow then .low p.pckLow p.pdtLow else .high

/-- Every block at its hard-reset value, the straps and the lines as sampled. -/
def State.atReset (p : ResetPins) (nsel : Nsel) (pending : List Instr) : State :=
  { State.reset with
    nct := { State.reset.nct with station := p.station, rate := p.rate },
    pbi := { State.reset.pbi with lines := ResetPins.lines p },
    lpt := { State.reset.lpt with nsel := nsel },
    pending := pending }

/-- A hard reset. -/
def State.hardReset (s : State) (p : ResetPins) (nselLow : Bool) : State :=
  State.atReset p (if nselLow then .lowSinceReset else .high) s.pending

/-- The data store after a soft reset: retired rows keep their contents, and the row map, the spare pool and
the marks are kept (Table 2-6, R167). -/
def Dst.softReset (d : Dst) : Dst :=
  { d with cells := d.cells.filter fun c => d.retired.contains (c.1 / Config.rowWords) }

/-- A soft reset, at the NSEL rising edge of RESET (R111). -/
def State.softReset (s : State) (p : ResetPins) : State :=
  { State.atReset p .high s.pending with dst := s.dst.softReset, elg := s.elg }

/-- NRST falls: the lines are released, the frame, the transaction and the command in hand are abandoned, and
nothing happens until the reset (R110, R190, R196; log entry 21). -/
def State.holdReset (s : State) : State :=
  { s with
    nct := { s.nct with nrstLow := true },
    pbi := { s.pbi.abortOwn.releaseReceiver with shift := .idle },
    fck := Fck.idle,
    sar := Sar.idle,
    obs := { s.obs with build := none },
    lpt := { s.lpt with
      inHand := none,
      received := [],
      nsel := match s.lpt.nsel with
        | .high => .high
        | _ => .lowSinceReset } }

/-! ### Power fail (R106, R107) -/

/-- The steps of R107 at the edge: the bus, the operation and a leave in progress, the queue, the units. -/
def State.startPfailLeave (s : State) : State :=
  let s := (s.leaveBus.endOp .aborted).abortLeave
  let s := s.emptyQueue.place .leave .none
  { s with
    mbu := s.mbu.stop,
    rpe := s.rpe.stop,
    scb := s.scb.stop,
    nct := { s.nct with phase := .pfailLeave, pfailWait := some 0 } }

/-- A falling edge on PFAIL. -/
def State.pfailEdge (s : State) : State :=
  if s.nct.node = .halted || s.nct.pfailLatch then s
  else
    let s := { s with nct := { s.nct with pfailLatch := true } }
    if s.nct.node.participating then s.startPfailLeave else s.halt .pfail

/-- The PFAIL wait reaches 2048 bit times while the node is not transmitting (R107). A wait
that passed 2048 during a transmission that an arbitration loss ended halts the node at this row (log entry 36). -/
def State.pfailExpiry (s : State) : State :=
  match s.nct.pfailWait with
  | none => s
  | some n =>
    if s.nct.node = .halted || s.pbi.shift.transmitting then s
    else (s.elapse (Config.stuckBits - n)).halt .pfail

/-! ### Disturbances (R29, R39, R108) -/

/-- Flips stored bits of one code word. -/
def State.disturbCell (s : State) (row position : Nat) (flips : BitVec 22) : State :=
  let c := s.dst.cell row position
  { s with dst := s.dst.putCell row position { c with flips := c.flips ^^^ flips } }

/-- Changes the stored fields of a directory entry, whose parity then mismatches (log entry 7). -/
def State.disturbEntry (s : State) (slot : Nat) (b : EntryBits) : State :=
  let e : DirEntry := { state := b.state, version := b.version, length := b.length.val, health := b.health,
                        wanted := b.wanted, unresolved := b.unresolved, parityGood := false }
  { s with dir := sparsePut DirEntry.blank s.dir slot e }

/-- Makes the parity of a membership entry mismatch (log entry 8). -/
def State.disturbMember (s : State) (n : Nat) : State :=
  let e := { s.mbu.entry n with parityGood := false }
  { s with mbu := { s.mbu with table := sparsePut MemberEntry.absent s.mbu.table n e } }

/-- Makes the parity of the configuration mismatch (log entry 8). -/
def State.disturbConfig (s : State) : State :=
  { s with nct := { s.nct with config := s.nct.config.map fun c => { c with parityGood := false } } }

/-- A disturbance of what `t` names; a cell the store does not have is a fault of the model. -/
def State.disturb (s : State) (t : Target) : Answer :=
  match t with
  | .cell row position flips =>
    if row < Config.rowCount ∧ position < Config.rowWords then .next (s.disturbCell row position flips)
    else .fault (.noSuchCell row position)
  | .entry slot bits => .next (s.disturbEntry slot.toNat bits)
  | .member n => .next (s.disturbMember n.toNat)
  | .config => .next s.disturbConfig

/-! ### The rows -/

/-- HARD_RESET (R110): power-up ends, or NRST rises. -/
def execHardReset (pins : ResetPins) (nselLow : Bool) (s : State) : Answer := .next (s.hardReset pins nselLow)

/-- NRST_HELD_LOW (R110). -/
def execNrstHeldLow (s : State) : Answer := .next s.holdReset

/-- PFAIL_EDGE (R106, R107). -/
def execPfailEdge (s : State) : Answer := s.driving (s.live State.pfailEdge)

/-- PFAIL_WAIT_EXPIRY (R107). -/
def execPfailWaitExpiry (s : State) : Answer := .next (s.live State.pfailExpiry)

/-- DISTURBANCE (R29, R39). -/
def execDisturbance (target : Target) (s : State) : Answer := s.disturb target

/-- FAULT_CHECKER_ALARM (R108): a node state or a PBI shift state that names nothing; the report carries no fields
(Table 10-3). -/
def execFaultCheckerAlarm (s : State) : Answer := .next (s.live fun s => s.internalFault .none)

end Sys2Proof.Machine
end

