-- ==== Sys2Proof/Machine/Bus.lean ====
section
/-!
DEFINITION. The meanings of the rows of the peer bus: BUS_FREE, START_CONDITION, ARBITRATION_LOST, CHECK_PAUSE,
FRAME_CHECK, VETO_SLOT, STOP_CONDITION, TRUNCATION, BUS_STUCK, STUCK_EPISODE_END (spec/01, spec/03).
-/

namespace Sys2Proof.Machine

/-- PBI works in every node state but HALTED (R3, R16, R20). -/
def State.onBus (s : State) (k : State → State) : State := s.live fun s => s.andThen k

/-- The bytes of the frame this node is sending, as they go on the bus (R201). -/
def State.txBody (s : State) : Option (List Byte) := s.pbi.shift.ownFrame.map Frame.body

def State.setShift (s : State) (x : Shift) : State := { s with pbi := { s.pbi with shift := x } }

/-! ### Bus free (R4, R5) -/

/-- Both lines stay high for `bits` bit times: they are high from now if they were not, and time passes until
the idle count is there. -/
def State.idleFor (s : State) (bits : Nat) : State :=
  let s := if s.pbi.lines = .high then s else { s with pbi := s.pbi.goHigh }
  s.elapse (bits - s.pbi.busFreeTimer)

/-- The idle count at which the bus is free for this node (R4). -/
def Pbi.freeCount (p : Pbi) : Nat := if p.lastSender then Config.flaggedFreeBits else Config.freeBits

/-- The lines may be idle outside a frame: no frame is in progress, or a frame of another node is complete
whose stop condition does not follow (R13). Lines that were low have gone high by then. -/
def Pbi.mayIdle (p : Pbi) : Bool :=
  decide (p.shift = .idle) || decide (p.shift = .slotsDone none)

/-- A frame is built unless one is in hand, and its start condition is given unless another node's was seen
(R5, R136). -/
def State.startFrame (s : State) (startSeen : Bool) : State :=
  let s := if s.obs.build.isSome then s else s.buildFrame
  match s.obs.build with
  | some f => if startSeen then s else s.giveStart f
  | none => s

/-- The bus is free for the node. -/
def State.busFree (s : State) (startSeen : Bool) : State :=
  if s.pbi.mayIdle then
    ((s.idleFor s.pbi.freeCount).setShift .idle).startFrame startSeen
  else s

/-! ### The end of a frame (R3, R13, R14) -/

/-- The fields of a report about a frame whose header may have been received. -/
def headerFields (header : Option Byte) : ErrorFields :=
  match header with
  | some h => .ofStation (headerStation h).toNat
  | none => .none

/-- What the truncation of its own frame does at the sender (R101, R107, R137). -/
def State.ownTruncated (s : State) (own : Option Frame) : State :=
  match own with
  | none => s
  | some f => if s.nct.phase = .pfailLeave then s.pfailEnd else s.ownCut f.kind

/-- A frame in progress is truncated: logged in the states of R14, discarded, its store access let go (R9, R14). -/
def State.truncate (s : State) (header : Option Byte) : State :=
  let own := s.pbi.shift.ownFrame
  let s := if s.nct.node.taking then s.report .frameTruncated (headerFields header) else s
  let s := { s with
    pbi := { s.pbi.releaseReceiver with shift := .idle },
    fck := { s.fck with inbound := none } }
  s.cutAccess.andThen fun s => s.ownTruncated own

/-- The sender's stop condition: the last-sender flag and the beat reference move; a power-fail leave halts
(R4, R13, R85, R107). The stop condition of the HELLO that ended the JOIN leaves the reference that R86 set for the
stagger (log entry 12). A node that the veto slot of its frame moved to IDLE gives its stop condition too, and its flag
is set, where R1 against R13 leaves both open (log entry 57). -/
def State.ownStop (s : State) (kind : FrameKind) : State :=
  let s := { s with pbi := { s.pbi with lastSender := true } }
  if s.nct.phase = .pfailLeave then s.halt .pfail
  else if s.active && decide (kind ≠ .hello) then
    { s with mbu := { s.mbu with beatRef := some s.nct.now, beatAsked := false } }
  else s

/-- A stop condition: it completes a frame whose slots are done, and truncates any other. It is the own one also where
the veto slot of the own frame has moved this node to IDLE (log entry 57). -/
def State.stop (s : State) (header : Option Byte) : State :=
  match s.pbi.shift with
  | .slotsDone own =>
    let s := { s with pbi := { s.pbi.goHigh with shift := .idle } }
    match own with
    | some kind => s.ownStop kind
    | none => s
  | .idle => { s with pbi := s.pbi.goHigh }
  | _ => { s with pbi := s.pbi.goHigh }.truncate header

/-- The stop condition of a power-fail LEAVE does not come: its transmission has ended all the same (R107). -/
def State.missedStop (s : State) : State :=
  match s.pbi.shift with
  | .slotsDone (some _) => if s.nct.phase = .pfailLeave then s.halt .pfail else s
  | _ => s

/-- A start condition of another node: it truncates a frame in progress, discards a built frame, and begins a
frame that this node receives (R3, R5). -/
def State.start (s : State) (header : Option Byte) : State :=
  let s := if s.pbi.shift.inFrame then s.truncate header else s.missedStop
  s.andThen fun s =>
    let s := { s with obs := { s.obs with build := none } }.cutBuild
    s.andThen fun s => { s with pbi := { s.pbi.goActive with shift := .receiving } }

/-- Both lines stay high for 12 bit times: a frame in progress is truncated; after the slots of another node's
frame nothing is logged (R13, R14). -/
def State.idleEnd (s : State) (header : Option Byte) : State :=
  if s.pbi.shift.inFrame then (s.idleFor Config.freeBits).truncate header
  else if s.pbi.shift = .slotsDone none then (s.idleFor Config.freeBits).setShift .idle
  else s

/-- The end of a frame by its cause. -/
def State.frameEnds (s : State) (cause : TruncationCause) (header : Option Byte) : State :=
  match cause with
  | .idle => s.idleEnd header
  | .stop => s.stop header
  | .start => s.start header

/-! ### Arbitration (R6, R17) -/

/-- The losing bit lies in the header: the node receives the winning frame from there on. After the header it
has met a duplicate. -/
def State.loseArbitration (s : State) (bit : Nat) : State :=
  match s.pbi.shift with
  | .sending f => if bit < 8 then (s.setShift .receiving).ownCut f.kind else s.duplicate
  | _ => s

/-! ### The check pause (R8, R9, R17, R47) -/

/-- The sender reaches the pause: it holds PCK until its frame checker holds the store; a power-fail leave
needs no grant (R9, R107). -/
def State.senderPause (s : State) (f : Frame) : State :=
  let s := { s with pbi := { s.pbi.goPause with shift := .sendingPaused f } }
  if s.nct.phase = .pfailLeave then s
  else
    let s := s.askFck .ownFrame
    if s.granted .fck then s.openAccess else s

/-- A body that is not intact is reported, and vetoed by a participating receiver if it has a header (R8,
R10). -/
def State.badBody (s : State) (kind : ErrorKind) (station : Option Station) : State :=
  let fields := match station with
    | some n => ErrorFields.ofStation n.toNat
    | none => ErrorFields.none
  { s.report kind fields with pbi := { s.pbi with
      pullVeto := s.nct.node.participating && station.isSome } }

/-- An intact frame: a duplicate halts the node; a participating node hears the sender, stretches and asks for
the store; a joining node keeps the frame (R9, R17, R47, R71). The hearing tests the parity of the sender's entry before
the duplicate is found, an order that R17, R47 and R108 leave open: where the own entry mismatches, a frame of the own
station halts the node by INTERNAL_FAULT, and DUPLICATE_STATION is not logged (log entry 56). -/
def State.intactFrame (s : State) (f : Frame) : State :=
  let s := if s.nct.node.participating then s.hear f.sender.toNat else s
  s.andThen fun s =>
    if s.isOwn f.sender then s.duplicate
    else
      let s := { s with fck := { s.fck with inbound := some { frame := f, verdict := none } } }
      if s.nct.node.participating then
        { s with pbi := { s.pbi with holdPck := true } }.askFck .check
      else s

/-- A receiver reaches the pause and classifies the body (R8). A node that does not take frames keeps none, so a JOIN
taken before the veto slot makes no update from it (log entry 32). With the PFAIL latch set none is classified, and so
no duplicate of R17 is found in one (log entry 17). -/
def State.receiverPause (s : State) (body : List Byte) (extraBits : Nat) : State :=
  let s := { s with pbi := { s.pbi.goPause with shift := .paused } }
  if s.nct.node.taking && !s.nct.pfailLatch then
    match classify body extraBits with
    | .noHeader => s.badBody .frameFormat none
    | .formatError n => s.badBody .frameFormat (some n)
    | .crcError n => s.badBody .frameCrc (some n)
    | .intact f => s.intactFrame f
  else s

/-- The check pause. -/
def State.checkPause (s : State) (body : List Byte) (extraBits : Nat) : State :=
  match s.pbi.shift with
  | .sending f => s.senderPause f
  | .receiving => s.receiverPause body extraBits
  | _ => s

/-! ### The frame check (R43) -/

/-- The decision is carried into the slots, and the stretch ends (R9, R10). -/
def State.carryVerdict (s : State) (f : Frame) (v : Verdict) : State :=
  { s with
    fck := { s.fck with inbound := some { frame := f, verdict := some v } },
    pbi := { s.pbi with holdPck := false, pullHeard := true, pullVeto := v = .veto } }

/-- The frame under check is tested. -/
def State.judge (s : State) (f : Frame) : State :=
  match s.checkFrame f with
  | .pass => s.carryVerdict f .pass
  | .veto none => s.carryVerdict f .veto
  | .veto (some kind) => (s.report kind (.ofStation f.sender.toNat)).carryVerdict f .veto
  | .fault fields => s.internalFault fields

/-- The check runs once the frame checker holds the store for it. -/
def State.runCheck (s : State) : State :=
  match s.fck.inbound with
  | some { frame := f, verdict := none } =>
    if s.active && decide (s.fck.purpose = some .check) && s.granted .fck then
      s.openAccess.andThen fun s => s.judge f
    else s
  | _ => s

/-! ### The veto slot (R11, R12, R71) -/

/-- The slots of another node's frame are done; this node releases PDT. -/
def State.slotsPast (s : State) (own : Option FrameKind) : State :=
  { s with pbi := { s.pbi.releaseReceiver.goActive with shift := .slotsDone own } }

/-- A receiver at the veto slot: it applies what it passed, or takes the frame into its provisional member
set, where nobody pulled. -/
def State.receiverSlots (s : State) (veto : Bool) : State :=
  if s.pbi.holdPck then s
  else
    let pulled := veto || s.pbi.pullVeto
    let inbound := s.fck.inbound
    let s := { s.slotsPast none with fck := { s.fck with inbound := none } }
    match inbound with
    | none => s
    | some i =>
      if s.nct.node.joining then (if pulled then s else s.hearJoining i.frame)
      else if s.active then
        (if decide (i.verdict = some .pass) && !pulled then s.applyReceived i.frame else s).andThen
          State.endAccess
      else s

/-- The classification of a frame other than a HELLO reads the membership table where neither slot was pulled
(R11, R108). -/
def State.classed (s : State) (f : Frame) (heard veto : Bool) (k : State) : State :=
  if heard || veto || decide (f.kind = .hello) then k else s.useMembers k

/-- The sender at the veto slot of its frame. A power-fail LEAVE is not applied: its outcome is logged and its
entry removed, and the halt follows the stop condition (R107). Any other frame's give-up that this access took over
is made here, where the access is known to be held (log entry 37), and one that fell due is made after the outcome
(log entry 11). -/
def State.senderSlots (s : State) (f : Frame) (heard veto : Bool) : State :=
  if s.nct.phase = .pfailLeave then
    s.classed f heard veto <|
      ((s.slotsPast (some f.kind)).logOutcome f (s.outcome f heard veto)).removeEntry .leave
  else if decide (s.fck.purpose = some .ownFrame) && s.granted .fck then
    (s.slotsPast (some f.kind)).openAccess.andThen fun s =>
      s.classed f heard veto <|
        let o := s.outcome f heard veto
        ((s.logOutcome f o).ownOutcome f o).andThen State.endAccess
  else s

/-- The veto slot. -/
def State.vetoSlot (s : State) (heard veto : Bool) : State :=
  match s.pbi.shift with
  | .paused => s.receiverSlots veto
  | .sendingPaused f => s.senderSlots f heard veto
  | _ => s

/-! ### Stuck lines (R16) -/

/-- The line is held low from now, if it was not. -/
def Pbi.hold (p : Pbi) (l : Line) : Pbi :=
  match l, p.lines with
  | .pck, .low _ pdt => { p with lines := .low true pdt }
  | .pdt, .low pck _ => { p with lines := .low pck true }
  | .pck, _ => { p with lines := .low true false, busFreeTimer := 0 }
  | .pdt, _ => { p with lines := .low false true, busFreeTimer := 0 }

/-- A line's stuck timer. -/
def Pbi.stuckTimer (p : Pbi) : Line → Nat
  | .pck => p.stuckPck
  | .pdt => p.stuckPdt

/-- The line has been low for 2048 bit times: the first such event begins a stuck episode. -/
def State.stuck (s : State) (l : Line) : State :=
  if s.pbi.stuckEpisode then s
  else
    let s := { s with pbi := s.pbi.hold l }
    let s := s.elapse (Config.stuckBits - s.pbi.stuckTimer l)
    let s := { s with pbi := { s.pbi with stuckEpisode := true } }
    (s.report .busStuck .none).notify .busStuck

/-- Both lines are high at once: an episode ends, and so does a low level that a reset found. -/
def State.episodeEnds (s : State) : State :=
  if s.pbi.stuckEpisode || (decide (s.pbi.shift = .idle) && decide (s.pbi.lines ≠ .high)) then
    { s with pbi := s.pbi.goHigh }
  else s

/-! ### The rows -/

/-- BUS_FREE (R4, R5, R135, R136). -/
def execBusFree (startSeen : Bool) (s : State) : Answer := s.driving (s.onBus fun s => s.busFree startSeen)

/-- START_CONDITION (R3, R5). -/
def execStartCondition (header : Option Byte) (s : State) : Answer := s.driving (s.onBus fun s => s.start header)

/-- ARBITRATION_LOST (R6, R17). -/
def execArbitrationLost (bit : Nat) (s : State) : Answer := s.driving (s.onBus fun s => s.loseArbitration bit)

/-- CHECK_PAUSE (R8, R9). -/
def execCheckPause (body : List Byte) (extraBits : Nat) (s : State) : Answer :=
  s.driving (s.onBus fun s => s.checkPause body extraBits)

/-- FRAME_CHECK (R43). -/
def execFrameCheck (s : State) : Answer := s.driving (s.onBus State.runCheck)

/-- VETO_SLOT (R11, R12). -/
def execVetoSlot (heard veto : Bool) (s : State) : Answer := s.driving (s.onBus fun s => s.vetoSlot heard veto)

/-- STOP_CONDITION (R13). -/
def execStopCondition (header : Option Byte) (s : State) : Answer := s.driving (s.onBus fun s => s.stop header)

/-- TRUNCATION (R14). -/
def execTruncation (cause : TruncationCause) (header : Option Byte) (s : State) : Answer :=
  s.driving (s.onBus fun s => s.frameEnds cause header)

/-- BUS_STUCK (R16). -/
def execBusStuck (line : Line) (s : State) : Answer := s.driving (s.onBus fun s => s.stuck line)

/-- STUCK_EPISODE_END (R16). -/
def execStuckEpisodeEnd (s : State) : Answer := .next (s.onBus State.episodeEnds)

end Sys2Proof.Machine
end

