-- ==== Sys2Proof/Machine/Operands.lean ====
section
/-!
DEFINITION. What the local port reads and writes: command codes and the states that admit them (Table 11-3),
argument layouts (Table 12-3), and the layouts and codes of responses and records (Tables 12-4 to 12-8).
-/

namespace Sys2Proof.Machine

/-! ### Commands (Table 11-3) -/

inductive Command where
  | repeatResponse
  | status
  | configure
  | join
  | leave
  | read
  | stage
  | discard
  | publish
  | claim
  | yieldSlot
  | takeNotice
  | peekLog
  | takeLog
  | takeCount
  | members
  | watch
  | unwatch
  | reset
  deriving DecidableEq, Repr

def Command.code : Command → Byte
  | .repeatResponse => 0x00
  | .status => 0x01
  | .configure => 0x02
  | .join => 0x03
  | .leave => 0x04
  | .read => 0x05
  | .stage => 0x06
  | .discard => 0x07
  | .publish => 0x08
  | .claim => 0x09
  | .yieldSlot => 0x0A
  | .takeNotice => 0x0B
  | .peekLog => 0x0C
  | .takeLog => 0x0D
  | .takeCount => 0x0E
  | .members => 0x0F
  | .watch => 0x10
  | .unwatch => 0x11
  | .reset => 0x3C

/-- The code names a command (R197). -/
def knownCode (code : Byte) : Bool := decide (code ≤ 0x11#8) || decide (code = 0x3C#8)

/-- The commands of the HALTED column (R197), taken in every node state and with the PFAIL latch set. -/
def Command.always : Command → Bool
  | .repeatResponse | .status | .takeNotice | .peekLog | .takeLog | .takeCount | .reset => true
  | _ => false

/-- The states in which a command is taken; LEAVE in LEAVING is taken and ends with BUSY (Table 11-3). -/
def Command.takenIn (c : Command) (n : NodeState) : Bool :=
  c.always || match c with
    | .configure => decide (n = .config)
    | .join => decide (n = .idle) || decide (n = .isolated)
    | .leave => n.participating
    | .read | .members => n.participating || decide (n = .isolated)
    | .stage | .discard | .publish | .claim | .yieldSlot => decide (n = .member)
    | .watch | .unwatch => decide (n = .catchup) || decide (n = .member)
    | _ => false

/-- The commands taken while a command is in hand (R195). -/
def Command.alongside (c : Command) : Bool := c.always || decide (c = .members)

/-- The node's present state and PFAIL latch admit a command (test 3 of R193, R194). -/
def State.admits (s : State) (c : Command) : Bool :=
  c.takenIn s.nct.node && (!s.nct.pfailLatch || c.always)

/-! ### Arguments (Table 12-3) -/

/-- The argument bytes the local port keeps: the first 48 bytes of a transaction less the code (R190). -/
def keptArgs (args : List Byte) : List Byte := args.take Config.argRoom

/-- The arguments of CONFIGURE. -/
structure ConfigureArgs where
  beat     : Nat
  silence  : Nat
  slotCode : Nat
  scrub    : Nat
  enables  : Byte
  deriving DecidableEq, Repr

def readConfigure : List Byte → Option ConfigureArgs
  | bhi :: blo :: silence :: slotCode :: scrub :: enables :: _ =>
    some { beat := (wordOf bhi blo).toNat, silence := silence.toNat, slotCode := slotCode.toNat,
           scrub := scrub.toNat, enables := enables }
  | _ => none

/-- The slot and the view code of READ. -/
def readRead : List Byte → Option (Nat × Nat)
  | slot :: view :: _ => some (slot.toNat, view.toNat)
  | _ => none

/-- The slot and the words of STAGE: as many as the count announces. -/
def readStage : List Byte → Option (Nat × List Word)
  | slot :: count :: rest =>
    match takeWords count.toNat rest with
    | some (ws, _) => some (slot.toNat, ws)
    | none => none
  | _ => none

/-- The one argument byte of CLAIM, YIELD and UNWATCH. -/
def readOne : List Byte → Option Nat
  | b :: _ => some b.toNat
  | [] => none

/-- The arguments of WATCH; the limit is none where the indicator is 0 (R202). -/
structure WatchArgs where
  index  : Nat
  slot   : Nat
  period : Nat
  limit  : Option (Nat × Word × Word)
  deriving DecidableEq, Repr

def readWatch : List Byte → Option WatchArgs
  | index :: slot :: phi :: plo :: indicator :: rest =>
    let period := (wordOf phi plo).toNat
    if indicator = 0 then
      some { index := index.toNat, slot := slot.toNat, period := period, limit := none }
    else
      match rest with
      | word :: lhi :: llo :: hhi :: hlo :: _ =>
        some { index := index.toNat, slot := slot.toNat, period := period,
               limit := some (word.toNat, wordOf lhi llo, wordOf hhi hlo) }
      | _ => none
  | _ => none

/-! ### Codes (R204) -/

def ResultCode.code : ResultCode → Byte
  | .ok => 0x00
  | .illegal => 0x01
  | .badLength => 0x02
  | .wrongState => 0x03
  | .range => 0x04
  | .busy => 0x05
  | .full => 0x06
  | .empty => 0x07
  | .notOwner => 0x08
  | .notFree => 0x09
  | .notReady => 0x0A
  | .damaged => 0x0B
  | .failed => 0x0C

def NodeState.code : NodeState → Byte
  | .config => 0
  | .idle => 1
  | .listening => 2
  | .announcing => 3
  | .catchup => 4
  | .member => 5
  | .leaving => 6
  | .isolated => 7
  | .halted => 8

/-- A slot state code; a SYNC carries codes 1 to 3 (R204). -/
def slotStateCode : SlotState → Nat
  | .unlearned => 0
  | .free => 1
  | .owned _ => 2
  | .orphaned => 3

def healthCode : Health → Byte
  | .good => 0
  | .damaged => 1
  | .unknown => 2
  | .failed => 3

def MemberState.code : MemberState → Byte
  | .absent => 0
  | .present => 1
  | .suspect => 2

def Phase.code : Phase → Byte
  | .none => 0
  | .joining => 1
  | .leaving => 2
  | .pfailLeave => 3

def HaltCause.code : HaltCause → Byte
  | .pfail => 1
  | .internalFault => 2
  | .duplicateStation => 3

def IsolationCause.code : IsolationCause → Byte
  | .dropped => 1
  | .noQuorum => 2

def OpKind.code : OpKind → Byte
  | .claim _ => 1
  | .yield _ => 2
  | .publish => 3

def DoneKind.code : DoneKind → Byte
  | .claim => 1
  | .yield => 2
  | .publish => 3
  | .join => 4
  | .leave => 5

def DoneResult.code : DoneResult → Byte
  | .ok => 0
  | .taken => 1
  | .refused => 2
  | .unheard => 3
  | .aborted => 4
  | .mismatch => 5

def ChangeCause.code : ChangeCause → Byte
  | .posted => 1
  | .claimed => 2
  | .yielded => 3
  | .repaired => 4

def LimitDirection.code : LimitDirection → Byte
  | .left => 0
  | .returned => 1

def ErrorKind.code : ErrorKind → Byte
  | .eccCorrected => 1
  | .eccUncorrectable => 2
  | .rowRetired => 3
  | .sparesExhausted => 4
  | .frameCrc => 5
  | .frameFormat => 6
  | .frameTruncated => 7
  | .nonmemberFrame => 8
  | .configMismatch => 9
  | .frameRefused => 10
  | .frameUnheard => 11
  | .busStuck => 12
  | .duplicateStation => 13
  | .internalFault => 14

def byteOf (n : Nat) : Byte := BitVec.ofNat 8 n

def wordOfNat (n : Nat) : List Byte := Word.bytes (BitVec.ofNat 16 n)

def flagBit (b : Bool) (n : Nat) : Byte := if b then (1 : Byte) <<< n else 0

/-! ### Records (R203) -/

/-- A notice record: kind, A, B, C, value (Table 12-6). -/
def Notice.bytes : Notice → List Byte
  | .halted c => [1, c.code, 0, 0, 0, 0]
  | .isolated c => [2, c.code, 0, 0, 0, 0]
  | .opDone k r slot => [3, k.code, r.code, byteOf (slot.getD 0), 0, 0]
  | .stale i slot => [4, byteOf i, 0, byteOf slot, 0, 0]
  | .limit i slot d w => [5, byteOf i, d.code, byteOf slot] ++ Word.bytes w
  | .slotUnresolved slot => [6, 0, 0, byteOf slot, 0, 0]
  | .slotFailed slot => [7, 0, 0, byteOf slot, 0, 0]
  | .busStuck => [8, 0, 0, 0, 0, 0]
  | .recordChanged slot c => [9, 0, c.code, byteOf slot, 0, 0]
  | .memberChanged n st => [10, byteOf n, st.code, 0, 0, 0]
  | .catchupDone n => [11, 0, 0, 0] ++ wordOfNat n

def timeBytes (t : Time) : List Byte :=
  [(t >>> 24).setWidth 8, (t >>> 16).setWidth 8, (t >>> 8).setWidth 8, t.setWidth 8]

/-- A log record: kind, local time, presence, slot, station, word index, bit position. -/
def LogEntry.bytes (e : LogEntry) : List Byte :=
  [e.kind.code] ++ timeBytes e.time ++
    [flagBit e.fields.slot.isSome 0 ||| flagBit e.fields.station.isSome 1 |||
       flagBit e.fields.word.isSome 2 ||| flagBit e.fields.bit.isSome 3,
     byteOf (e.fields.slot.getD 0), byteOf (e.fields.station.getD 0), byteOf (e.fields.word.getD 0),
     byteOf (e.fields.bit.getD 0)]

/-! ### Responses (Tables 12-4 and 12-5) -/

/-- The whole response as it goes out on SDO (R191). -/
def Response.bytes (r : Response) : List Byte := [r.code, r.number, r.result.code] ++ r.fields

/-- What SDO carries in the transaction in progress: the copy and then zeros (R190); none while NSEL is
high, or low with no transaction (R199). -/
def State.sdoByte (s : State) (n : Nat) : Option Byte :=
  match s.lpt.nsel with
  | .low copy => some (copy.getD n 0)
  | _ => none

/-- The owner byte: 0xFF where the owner is absent (R202). -/
def slotOwnerByte : SlotState → Byte
  | .owned o => o.setWidth 8
  | _ => 0xFF

/-- The draft of a slot. -/
def Opu.draft (o : Opu) (slot : Nat) : Option Draft := o.drafts.find? fun d => d.slot == slot

/-- The fields of a READ response: the snapshot header and the words (R41). -/
def State.readFields (s : State) (slot : Nat) (words : List Word) : List Byte :=
  let e := s.entry slot
  [s.nct.node.code, byteOf slot, byteOf (slotStateCode e.state), slotOwnerByte e.state] ++ Word.bytes e.version ++
    [byteOf e.length, healthCode e.health, flagBit (s.opu.draft slot).isSome 0, byteOf words.length] ++
    wordsBytes words

/-- The attempt count of the HELLO or LEAVE entry of the phase (Table 11-4). -/
def State.phaseAttempts (s : State) : Nat :=
  let count := fun k => match s.obs.find k with
    | some e => e.attempts
    | none => 0
  match s.nct.phase with
  | .none => 0
  | .joining => count .hello
  | .leaving | .pfailLeave => count .leave

/-- The age of the oldest entry, held at 65535 (R134, Table 11-4). -/
def State.oldestAge (s : State) : Nat :=
  min 65535 ((s.obs.queue.map fun e => (s.nct.now - e.queued).toNat).foldl max 0)

/-- The member mask of STATUS (R198). -/
def State.statusMask (s : State) : StationMask :=
  match s.nct.node with
  | .config | .idle => 0
  | .listening | .announcing => s.mbu.provisional
  | .catchup | .member | .leaving | .isolated | .halted => s.memberMask

/-- A value of the configuration, 0 when not configured. -/
def State.configured (s : State) (f : NodeConfig → Nat) : Nat :=
  match s.nct.config with
  | some c => f c
  | none => 0

/-- The enables of the configuration, off when not configured. -/
def State.enabled (s : State) (f : NodeConfig → Bool) : Bool :=
  match s.nct.config with
  | some c => f c
  | none => false

/-- The fields of a STATUS response (Table 12-5). The bits to which the table gives no meaning are 0 (log entry
41). -/
def State.statusFields (s : State) : List Byte :=
  [s.nct.node.code,
   (s.nct.station ++ (0 : BitVec 2) ++ s.nct.rate : BitVec 8),
   flagBit s.nct.config.isSome 0 ||| flagBit (s.enabled NodeConfig.enableHigh) 1 |||
     flagBit (s.enabled NodeConfig.enableLow) 2 ||| flagBit s.ntq.lost 3,
   byteOf (s.configured NodeConfig.slotCode),
   byteOf (s.configured NodeConfig.silence)] ++
  wordOfNat (s.configured NodeConfig.beat) ++
  [byteOf (s.configured NodeConfig.scrub),
   (match s.opu.op with | some o => o.kind.code | none => 0),
   (match s.opu.op with
    | some { kind := .claim n, .. } => byteOf n
    | some { kind := .yield n, .. } => byteOf n
    | _ => 0),
   (match s.opu.op with | some o => flagBit o.onBus 0 | none => 0),
   s.nct.phase.code,
   byteOf s.phaseAttempts,
   (match s.nct.isolationCause with | some c => c.code | none => 0),
   (match s.nct.haltCause with | some c => c.code | none => 0),
   byteOf s.opu.drafts.length] ++
  wordOfNat s.rpe.wanted.length ++ wordOfNat s.rpe.unresolved ++
  [byteOf s.dst.spares.length, byteOf s.obs.queue.length] ++
  wordOfNat s.oldestAge ++
  [byteOf s.ntq.notices.length, byteOf s.elg.entries.length] ++
  Word.bytes s.statusMask ++ timeBytes s.nct.now

/-- The longest time to a deadline, in milliseconds: the range that R90 gives. -/
abbrev longestWait : Nat := 15000

/-- The milliseconds until a station's deadline (R90). A deadline that serial arithmetic would call future again,
more than 2^31 ms after it passed, still reads 0 (log entry 34). -/
def State.msLeft (s : State) (n : Nat) : Nat :=
  let e := s.mbu.entry n
  match e.state, e.deadline with
  | .present, some d =>
    let left := (d - s.nct.now).toNat
    if left ≤ longestWait then left else 0
  | _, _ => 0

/-- One byte of membership states: four stations, the lowest in bits 7–6 (R202). -/
def State.memberByte (s : State) (first : Nat) : Byte :=
  ((s.memberState first).code <<< 6) ||| ((s.memberState (first + 1)).code <<< 4) |||
    ((s.memberState (first + 2)).code <<< 2) ||| (s.memberState (first + 3)).code

/-- The fields of a MEMBERS response (R90, Table 12-4). -/
def State.membersFields (s : State) : List Byte :=
  [s.nct.node.code, s.memberByte 0, s.memberByte 4, s.memberByte 8, s.memberByte 12] ++
    (List.range 16).flatMap fun n => wordOfNat (s.msLeft n)

/-- A response is formed: the number rises by one and the buffer is replaced (R191). -/
def State.respondWith (s : State) (code : Byte) (r : ResultCode) (fields : List Byte) : State :=
  { s with lpt := { s.lpt with
      response := { code := code, number := s.lpt.response.number + 1, result := r, fields := fields } } }

/-- A response without fields of the command's own. -/
def State.respond (s : State) (c : Command) (r : ResultCode) : State := s.respondWith c.code r []

end Sys2Proof.Machine
end

