-- ==== Sys2Proof/Machine/LocalPort.lean ====
section
/-!
DEFINITION. The meanings of the rows of the local port: the select input, the commands taken at NSEL rising, and
the command in hand at its grant (spec/11, and the rules of the commands' owners).
-/

namespace Sys2Proof.Machine

/-! ### Transactions (R190, R193, R199; log entry 4) -/

/-- NSEL is high: no transaction is in progress, and the receive state is empty. -/
def State.nselRise (s : State) : State := { s with lpt := { s.lpt with nsel := .high, received := [] } }

/-- NSEL rises at the end of a transaction. A rise with no fall since the reset takes no command. -/
def State.transact (s : State) (k : State → State) : State :=
  s.live fun s =>
    match s.lpt.nsel with
    | .lowSinceReset => s.nselRise
    | _ => k s.nselRise

/-- Tests 2 to 4 of R193, then the command. `enough`: the transaction carried the bytes the command needs. -/
def State.command (s : State) (c : Command) (enough : Bool) (k : State → State) : State :=
  s.transact fun s =>
    if !enough then s.respond c .badLength
    else if !s.admits c then s.respond c .wrongState
    else if s.lpt.inHand.isSome && !c.alongside then s.respond c .busy
    else k s

/-- A command with arguments. -/
def State.commandArgs {α : Type} (s : State) (c : Command) (args : Option α) (k : State → α → State) : State :=
  s.command c args.isSome fun s =>
    match args with
    | some a => k s a
    | none => s

/-! ### Configuration, joining and leaving (R93, R95, R101) -/

/-- A beat interval clamped to 10–1000 (R76). -/
def clampBeat (ms : Nat) : Nat := if ms < 10 then 10 else if 1000 < ms then 1000 else ms

/-- The configuration that CONFIGURE stores, with fresh parity. -/
def ConfigureArgs.config (a : ConfigureArgs) : NodeConfig :=
  { beat := clampBeat a.beat, silence := a.silence, slotCode := a.slotCode, scrub := a.scrub,
    enableHigh := a.enables.getLsbD 1, enableLow := a.enables.getLsbD 0, parityGood := true }

def State.configure (s : State) (a : ConfigureArgs) : State :=
  if a.silence < 3 || 15 < a.silence || 3 ≤ a.slotCode then s.respond .configure .range
  else { s with nct := { s.nct with config := some a.config, node := .idle } }.respond .configure .ok

/-- What isolation kept is cleared at a JOIN (R95). -/
def State.forgetIsolation (s : State) : State :=
  if s.nct.node = .isolated then
    { s with dir := [], rpe := { s.rpe with wanted := [], unresolved := 0 }, mbu := { s.mbu.stop with table := [] },
             nct := { s.nct with isolationCause := none } }
  else s

/-- JOIN. The configuration is used before anything is cleared (log entry 48). -/
def State.join (s : State) : State :=
  s.useConfig fun c =>
    let s := s.forgetIsolation
    { s with
      nct := { s.nct with
        node := .listening, phase := .joining, listenDeadline := some (after s.nct.now c.listenPeriod) },
      mbu := { s.mbu with provisional := 0 } }.respond .join .ok

/-- The pending operation at LEAVE: ended unless its frame is being transmitted (R101). -/
def State.leaveOp (s : State) : State :=
  match s.opu.op with
  | some op => if op.onBus then s else (s.removeEntry op.kind.frame).endOp .aborted
  | none => s

/-- An ASK or SYNC entry goes at LEAVE unless its frame is being transmitted (R101). -/
def State.leaveEntry (s : State) (k : FrameKind) : State :=
  if s.transmittingKind k then s else s.removeEntry k

/-- At LEAVE an access for a build or a give-up, awaited or held, is let go at once: there is none to make any more
(R101, R123). R34 and Table 2-4 leave open what becomes of it (log entry 53). -/
def State.dropIdleAccess (s : State) : State :=
  if s.fck.purpose = some .build || s.fck.purpose = some .giveUp then s.dropFck else s

def State.leave (s : State) : State :=
  if s.nct.node = .leaving then s.respond .leave .busy
  else
    let s := s.leaveOp
    let s := ({ s with rpe := s.rpe.stop }.leaveEntry .ask).leaveEntry .sync
    let s := s.dropIdleAccess
    ({ s with nct := { s.nct with node := .leaving, phase := .leaving } }.place .leave .none).respond .leave .ok

/-! ### Commands that need a store access (R40, R147, R194) -/

/-- The slot an argument names lies below the active slot count, or the command ends with RANGE. This test comes before
the view of a READ and the word count of a STAGE, an order that R40 and Table 7-5 leave open (log entry 40). -/
def State.inRange (s : State) (c : Command) (slot : Nat) (k : State) : State :=
  s.useConfig fun cfg => if slot < cfg.activeSlots then k else s.respond c .range

/-- The command becomes the command in hand and asks for its access (R194). -/
def State.takeInHand (s : State) (h : InHand) : State :=
  { s with lpt := { s.lpt with inHand := some h } }.requestStore .lpt

/-- READ before its access: the slot, then the view (R40; log entry 40). -/
def State.read (s : State) (slot view : Nat) : State :=
  s.inRange .read slot <|
    if 1 < view then s.respond .read .range else s.takeInHand (.read slot (view == 1))

/-- STAGE before its access: the slot, then the word count (R147, R151; log entry 40). -/
def State.stage (s : State) (slot : Nat) (words : List Word) : State :=
  s.inRange .stage slot <|
    if Config.rowWords < words.length then s.respond .stage .range else s.takeInHand (.stage slot words)

/-- CLAIM and YIELD before their access: RANGE, then BUSY where an operation is pending (Table 7-5). -/
def State.startOp (s : State) (c : Command) (slot : Nat) (h : InHand) : State :=
  s.inRange c slot <| if s.opu.op.isSome then s.respond c .busy else s.takeInHand h

/-! ### Drafts and publishing (R152, R153) -/

/-- A PUBLISH is pending. -/
def State.publishing (s : State) : Bool :=
  match s.opu.op with
  | some { kind := .publish, .. } => true
  | _ => false

def State.discard (s : State) : State :=
  if s.publishing then s.respond .discard .busy
  else { s with opu := { s.opu with drafts := [] } }.respond .discard .ok

/-- An operation begins: its record in state QUEUED, and its entry (R140). -/
def State.beginOp (s : State) (k : OpKind) : State :=
  { s with opu := { s.opu with op := some { kind := k, onBus := false } } }.place k.frame .operation

def State.publish (s : State) : State :=
  if s.opu.drafts = [] then s.respond .publish .empty
  else if s.opu.op.isSome then s.respond .publish .busy
  else (s.beginOp .publish).respond .publish .ok

/-! ### Notices, the log and the tables (R90, R181, R186, R187, R198) -/

def State.status (s : State) : State :=
  let t := s.respondWith Command.status.code .ok s.statusFields
  { t with ntq := { t.ntq with lost := false } }

def State.takeNotice (s : State) : State :=
  match s.ntq.takeNotice with
  | none => s.respond .takeNotice .empty
  | some (n, q) =>
    { s with ntq := q }.respondWith Command.takeNotice.code .ok (byteOf q.notices.length :: n.bytes)

def State.peekLog (s : State) : State :=
  match s.elg.entries with
  | [] => s.respond .peekLog .empty
  | e :: _ => s.respondWith Command.peekLog.code .ok (byteOf s.elg.entries.length :: e.bytes)

def State.takeLog (s : State) : State :=
  match s.elg.entries with
  | [] => s.respond .takeLog .empty
  | e :: rest =>
    { s with elg := { s.elg with entries := rest } }.respondWith Command.takeLog.code .ok
      (byteOf rest.length :: e.bytes)

def State.takeCount (s : State) : State :=
  { s with elg := { s.elg with counter := 0 } }.respondWith Command.takeCount.code .ok [byteOf s.elg.counter]

def State.members (s : State) : State :=
  s.useMembers (s.respondWith Command.members.code .ok s.membersFields)

/-! ### Watches (R169–R171) -/

/-- The arguments of WATCH lie in their ranges (R169). -/
def WatchArgs.good (a : WatchArgs) (activeSlots : Nat) : Bool :=
  decide (a.index ≤ 3) && decide (a.slot < activeSlots) &&
    (decide (a.period = 0) || (decide (10 ≤ a.period) && decide (a.period ≤ 60000))) &&
    (match a.limit with
      | some (word, low, high) => decide (word ≤ 15) && decide (low ≤ high)
      | none => decide (a.period ≠ 0))

/-- The new entry (R170). -/
def WatchArgs.entry (a : WatchArgs) (now : Time) : Watch :=
  { slot := a.slot,
    age := if a.period = 0 then none
           else some { period := a.period, deadline := after now a.period, fired := false },
    limit := a.limit.map fun l => { word := l.1, low := l.2.1, high := l.2.2, outside := false } }

/-- WATCH. The configuration is used before any of the tests, whose order R169 leaves open (log entry 40). -/
def State.watch (s : State) (a : WatchArgs) : State :=
  s.useConfig fun c =>
    if a.good c.activeSlots then
      { s with wch := s.wch.set a.index (some (a.entry s.nct.now)) }.respond .watch .ok
    else s.respond .watch .range

def State.unwatch (s : State) (index : Nat) : State :=
  if 3 < index then s.respond .unwatch .range
  else { s with wch := s.wch.set index none }.respond .unwatch .ok

/-! ### The command in hand at its grant (R41, R147, R148, R150, R151, R194) -/

/-- The command in hand ends: its response is formed and its access ends. -/
def State.finishInHand (s : State) (c : Command) (r : ResultCode) (fields : List Byte) : State :=
  let t := s.respondWith c.code r fields
  { t with lpt := { t.lpt with inHand := none } }.letGoStore .lpt

/-- A READ ends with the snapshot header and some words. -/
def State.finishRead (s : State) (slot : Nat) (r : ResultCode) (words : List Word) : State :=
  s.finishInHand .read r (s.readFields slot words)

/-- A READ of the committed words of a slot (Table 2-5; log entry 13). -/
def State.readCommitted (s : State) (slot : Nat) (e : DirEntry) : State :=
  if e.state = .unlearned then s.finishRead slot .notReady []
  else
    match e.health with
    | .unknown => s.finishRead slot .notReady []
    | .failed => s.finishRead slot .failed []
    | .damaged => s.finishRead slot .damaged []
    | .good =>
      match s.readSlot slot with
      | (s, some words) => s.finishRead slot .ok words
      | (s, none) => s.andThen fun s => s.finishRead slot .damaged []

def State.grantedRead (s : State) (slot : Nat) (draftView : Bool) : State :=
  s.examine slot fun e =>
    match s.opu.draft slot, draftView with
    | some d, true => s.finishRead slot .ok d.words
    | _, _ => s.readCommitted slot e

/-- A draft is replaced in its place, or added at the end (R151). -/
def stageDraft (d : Draft) (drafts : List Draft) : List Draft :=
  if drafts.any fun x => x.slot == d.slot then drafts.map fun x => if x.slot = d.slot then d else x
  else drafts ++ [d]

def State.grantedStage (s : State) (slot : Nat) (words : List Word) : State :=
  s.examine slot fun e =>
    if e.state ≠ .owned s.nct.station then s.finishInHand .stage .notOwner []
    else if s.publishing then s.finishInHand .stage .busy []
    else if Config.draftRoom ≤ s.opu.drafts.length && (s.opu.draft slot).isNone then
      s.finishInHand .stage .full []
    else
      { s with opu := { s.opu with
          drafts := stageDraft { slot := slot, words := words } s.opu.drafts } }.finishInHand .stage .ok []

def State.grantedClaim (s : State) (slot : Nat) : State :=
  s.examine slot fun e =>
    match e.state with
    | .free | .orphaned => (s.beginOp (.claim slot)).finishInHand .claim .ok []
    | _ => s.finishInHand .claim .notFree []

def State.grantedYield (s : State) (slot : Nat) : State :=
  s.examine slot fun e =>
    if e.state = .owned s.nct.station then (s.beginOp (.yield slot)).finishInHand .yieldSlot .ok []
    else s.finishInHand .yieldSlot .notOwner []

/-- The command that is in hand. -/
def InHand.command : InHand → Command
  | .read _ _ => .read
  | .stage _ _ => .stage
  | .claim _ => .claim
  | .yield _ => .yieldSlot

/-- The command in hand is carried out in its access, where the state still admits it (R194). -/
def State.grantInHand (s : State) : State :=
  match s.lpt.inHand with
  | none => s
  | some h =>
    if !s.granted .lpt then s
    else if !s.admits h.command then s.finishInHand h.command .wrongState []
    else
      match h with
      | .read slot draftView => s.grantedRead slot draftView
      | .stage slot words => s.grantedStage slot words
      | .claim slot => s.grantedClaim slot
      | .yield slot => s.grantedYield slot

/-! ### The rows -/

/-- NSEL falls: a copy of the response buffer goes out on SDO, and up to 48 whole bytes are collected; or the
transaction has ended again without a whole byte (R190). -/
def State.nselFall (s : State) (t : Transaction) : State :=
  match t with
  | .inProgress bytes =>
    { s with lpt := { s.lpt with
        nsel := .low s.lpt.response.bytes, received := bytes.take (Config.argRoom + 1) } }
  | .withoutByte => s.nselRise

/-- NSEL_FALL (R190), with the same operand where none is named as the command has. -/
def execNselFall (s : State) (transaction : Transaction := .inProgress []) : Answer :=
  .next (s.live fun s => s.nselFall transaction)

/-- REPEAT (R192): the response buffer and its number stay. -/
def execRepeatResponse (s : State) : Answer := .next (s.transact fun s => s)

/-- STATUS (R182, R198). -/
def execStatus (s : State) : Answer := .next (s.command .status true State.status)

/-- CONFIGURE (R93). -/
def execConfigure (args : List Byte) (s : State) : Answer :=
  .next (s.commandArgs .configure (readConfigure (keptArgs args)) State.configure)

/-- JOIN (R95). -/
def execJoin (s : State) : Answer := .next (s.command .join true State.join)

/-- LEAVE (R101). -/
def execLeave (s : State) : Answer := s.driving (s.command .leave true State.leave)

/-- READ (R40). -/
def execRead (args : List Byte) (s : State) : Answer :=
  .next (s.commandArgs .read (readRead (keptArgs args)) fun s a => s.read a.1 a.2)

/-- STAGE (R147, R151). -/
def execStage (args : List Byte) (s : State) : Answer :=
  .next (s.commandArgs .stage (readStage (keptArgs args)) fun s a => s.stage a.1 a.2)

/-- DISCARD (R152). -/
def execDiscard (s : State) : Answer := .next (s.command .discard true State.discard)

/-- PUBLISH (R153). -/
def execPublish (s : State) : Answer := .next (s.command .publish true State.publish)

/-- CLAIM (R147, R148). -/
def execClaim (args : List Byte) (s : State) : Answer :=
  .next (s.commandArgs .claim (readOne (keptArgs args)) fun s slot => s.startOp .claim slot (.claim slot))

/-- YIELD (R147, R150). -/
def execYieldSlot (args : List Byte) (s : State) : Answer :=
  .next (s.commandArgs .yieldSlot (readOne (keptArgs args)) fun s slot => s.startOp .yieldSlot slot (.yield slot))

/-- TAKE_NOTICE (R181). -/
def execTakeNotice (s : State) : Answer := s.driving (s.command .takeNotice true State.takeNotice)

/-- PEEK_LOG (R186). -/
def execPeekLog (s : State) : Answer := .next (s.command .peekLog true State.peekLog)

/-- TAKE_LOG (R186). -/
def execTakeLog (s : State) : Answer := .next (s.command .takeLog true State.takeLog)

/-- TAKE_COUNT (R187). -/
def execTakeCount (s : State) : Answer := .next (s.command .takeCount true State.takeCount)

/-- MEMBERS (R90). -/
def execMembers (s : State) : Answer := .next (s.command .members true State.members)

/-- WATCH (R169, R170). -/
def execWatch (args : List Byte) (s : State) : Answer :=
  .next (s.commandArgs .watch (readWatch (keptArgs args)) State.watch)

/-- UNWATCH (R171). -/
def execUnwatch (args : List Byte) (s : State) : Answer :=
  .next (s.commandArgs .unwatch (readOne (keptArgs args)) State.unwatch)

/-- RESET (R111): a soft reset at the NSEL rising edge. -/
def execReset (pins : ResetPins) (s : State) : Answer :=
  .next (s.command .reset true fun s => s.softReset pins)

/-- ILLEGAL_COMMAND (R193): a code that names a command makes no such row (log entry 3). -/
def execIllegalCommand (code : Byte) (s : State) : Answer :=
  .next (if knownCode code then s else s.transact fun s => s.respondWith code .illegal [])

/-- COMMAND_IN_HAND_GRANTED (R194). -/
def execCommandInHandGranted (s : State) : Answer := s.driving (s.live State.grantInHand)

end Sys2Proof.Machine
end

