-- ==== Sys2Proof/Machine/Timers.lean ====
section
/-!
DEFINITION. The meanings of the rows of the timers and the engines they drive: LISTEN_DEADLINE, DEADLINE_PASSES,
DECISION, BEAT_REQUEST, ANSWER_WAIT_EXPIRY, GIVE_UP, SCRUB_TURN, SCRUB_STEP, AGE_EXPIRY. A timed row first brings
local time up to its deadline, and has no effect where its timer does not run (log entries 2 and 3).
-/

namespace Sys2Proof.Machine

/-! ### Joining (R96) -/

/-- The listen deadline is reached: a HELLO entry is placed and the node announces itself. -/
def State.listenEnds (s : State) : State :=
  match s.nct.node, s.nct.listenDeadline with
  | .listening, some d =>
    let s := s.reach d
    { s with nct := { s.nct with node := .announcing, listenDeadline := none } }.place .hello .none
  | _, _ => s

/-! ### Suspicion and the decision (R77, R79) -/

/-- The decision timer starts at a suspicion, unless it runs or a DROP entry stands (R77). -/
def State.startDecision (s : State) : State :=
  if s.mbu.decision.isSome || s.obs.holds .drop then s
  else s.useConfig fun c => { s with mbu := { s.mbu with decision := some (after s.nct.now c.grace) } }

/-- A SUSPECT entry: it keeps the deadline that passed (R73, R77). -/
def MemberEntry.suspected (e : MemberEntry) (now : Time) : MemberEntry :=
  { e with state := .suspect, suspectSince := some now }

/-- A PRESENT station's deadline passes. Its suspicion and the notice stand where the start of the timer then meets a
mismatch of the configuration (log entry 55). -/
def State.deadlinePasses (s : State) (n : Nat) : State :=
  if s.active && decide (n ≠ s.nct.station.toNat) then
    s.useMember n fun e =>
      match e.state, e.deadline with
      | .present, some d =>
        let s := s.reach d
        ((s.setMember n (e.suspected s.nct.now)).notify (.memberChanged n .suspect)).startDecision
      | _, _ => s
  else s

/-- The decision timer runs out. -/
def State.decisionDue (s : State) : State :=
  match s.mbu.decision with
  | some t => if s.active then (s.reach t).takeDecision else s
  | none => s

/-! ### Beats (R85) -/

/-- Local time reaches the beat reference plus one beat interval: one request for each reference (log entry
24). -/
def State.beatDue (s : State) : State :=
  match s.mbu.beatRef with
  | some r =>
    if s.active && !s.mbu.beatAsked then
      s.useConfig fun c =>
        let s := s.reach (after r c.beat)
        { s with mbu := { s.mbu with beatAsked := true } }.place .beat .none
    else s
  | none => s

/-! ### The answer wait and the give-up (R119, R121, R122) -/

/-- The deadline of a waiting try passes; while a give-up is due none does. -/
def State.waitEnds (s : State) : State :=
  match s.rpe.cycle with
  | some c =>
    match c.phase, c.deadline with
    | .waiting, some d =>
      if s.active && s.rpe.due.isNone then (s.reach d).tryEnds c else s
    | _, _ => s
  | none => s

/-- A give-up access of its own is held: the give-up is made and the access ends. -/
def State.giveUpHeld (s : State) : State :=
  if decide (s.fck.purpose = some .giveUp) && s.granted .fck then s.endAccess else s

/-! ### The scrubber (R157, R158, R159) -/

/-- The scrub timer reaches the interval: a turn begins with the request of its first step. -/
def State.turnBegins (s : State) : State :=
  match s.scb.timer with
  | some t =>
    if s.walks then
      s.useConfig fun c =>
        let s := s.elapseMs (c.scrub - t)
        { s with scb := { s.scb with timer := none, turn := some 0 } }.requestStore .scb
    else s
  | none => s

/-- The slot after the pointer, wrapping at the active slot count. -/
def nextSlot (pointer activeSlots : Nat) : Nat := if pointer + 1 < activeSlots then pointer + 1 else 0

/-- The turn ends and the timer starts again, if the walk has not stopped meanwhile (R157, R159). -/
def Scb.endTurn (c : Scb) : Scb :=
  match c.turn with
  | some _ => { c with turn := none, timer := some 0 }
  | none => c

/-- The step's access ends after a slot was scrubbed. The pointer moves also where the walk has stopped meanwhile
(R158; log entry 39). -/
def State.scrubbed (s : State) (activeSlots : Nat) : State :=
  { s with scb := { s.scb.endTurn with pointer := nextSlot s.scb.pointer activeSlots } }.letGoStore .scb

/-- The step's access ends after a slot was passed over; the turn goes on until it has passed over as many
slots as are active. -/
def State.passedOver (s : State) (activeSlots : Nat) : State :=
  let scb := { s.scb with pointer := nextSlot s.scb.pointer activeSlots }
  match s.scb.turn with
  | some n =>
    if n + 1 < activeSlots then
      ({ s with scb := { scb with turn := some (n + 1) } }.letGoStore .scb).requestStore .scb
    else { s with scb := scb.endTurn }.letGoStore .scb
  | none => { s with scb := scb }.letGoStore .scb

/-- A granted scrub step runs to its end. The configuration is used before the row is read (log entry 38). -/
def State.scrubStep (s : State) : State :=
  if s.granted .scb then
    s.examine s.scb.pointer fun e => s.useConfig fun c =>
      if e.health = .good then (s.readSlot s.scb.pointer).1.andThen fun s => s.scrubbed c.activeSlots
      else s.passedOver c.activeSlots
  else s

/-! ### Watch ages (R174) -/

/-- The age deadline of a watch entry is reached. -/
def State.ageEnds (s : State) (index : Nat) : State :=
  match s.wch[index]? with
  | some (some { slot := slot, age := some a, limit := limit }) =>
    if s.active && !a.fired then
      let s := s.reach a.deadline
      let w : Watch := { slot := slot, age := some { a with fired := true }, limit := limit }
      { s with wch := s.wch.set index (some w) }.notify (.stale index slot)
    else s
  | _ => s

/-! ### The rows -/

/-- LISTEN_DEADLINE (R96). -/
def execListenDeadline (s : State) : Answer := .next (s.live State.listenEnds)

/-- DEADLINE_PASSES (R77). -/
def execDeadlinePasses (station : Station) (s : State) : Answer :=
  s.driving (s.live fun s => s.deadlinePasses station.toNat)

/-- DECISION (R79). -/
def execDecision (s : State) : Answer := s.driving (s.live State.decisionDue)

/-- BEAT_REQUEST (R85). -/
def execBeatRequest (s : State) : Answer := .next (s.live State.beatDue)

/-- ANSWER_WAIT_EXPIRY (R119, R121). -/
def execAnswerWaitExpiry (s : State) : Answer := .next (s.live State.waitEnds)

/-- GIVE_UP (R122). -/
def execGiveUp (s : State) : Answer := s.driving (s.live State.giveUpHeld)

/-- SCRUB_TURN (R157). -/
def execScrubTurn (s : State) : Answer := .next (s.live State.turnBegins)

/-- SCRUB_STEP (R158). -/
def execScrubStep (s : State) : Answer := s.driving (s.live State.scrubStep)

/-- AGE_EXPIRY (R174). -/
def execAgeExpiry (index : Fin 4) (s : State) : Answer := s.driving (s.live fun s => s.ageEnds index.val)

end Sys2Proof.Machine
end

