-- ==== Sys2Proof/Machine/Dispatch.lean ====
section
/-!
DEFINITION. One arm for each row of the table.
-/

namespace Sys2Proof.Machine

def exec (i : Instr) (s : State) : Host.Outcome State Fault Refusal :=
  match i with
  | .hardReset pins nselLow => Sys2Proof.Machine.execHardReset pins nselLow s
  | .pfailEdge => Sys2Proof.Machine.execPfailEdge s
  | .pfailWaitExpiry => Sys2Proof.Machine.execPfailWaitExpiry s
  | .nselFall transaction => Sys2Proof.Machine.execNselFall s transaction
  | .repeatResponse => Sys2Proof.Machine.execRepeatResponse s
  | .status => Sys2Proof.Machine.execStatus s
  | .configure args => Sys2Proof.Machine.execConfigure args s
  | .join => Sys2Proof.Machine.execJoin s
  | .leave => Sys2Proof.Machine.execLeave s
  | .read args => Sys2Proof.Machine.execRead args s
  | .stage args => Sys2Proof.Machine.execStage args s
  | .discard => Sys2Proof.Machine.execDiscard s
  | .publish => Sys2Proof.Machine.execPublish s
  | .claim args => Sys2Proof.Machine.execClaim args s
  | .yieldSlot args => Sys2Proof.Machine.execYieldSlot args s
  | .takeNotice => Sys2Proof.Machine.execTakeNotice s
  | .peekLog => Sys2Proof.Machine.execPeekLog s
  | .takeLog => Sys2Proof.Machine.execTakeLog s
  | .takeCount => Sys2Proof.Machine.execTakeCount s
  | .members => Sys2Proof.Machine.execMembers s
  | .watch args => Sys2Proof.Machine.execWatch args s
  | .unwatch args => Sys2Proof.Machine.execUnwatch args s
  | .reset pins => Sys2Proof.Machine.execReset pins s
  | .illegalCommand code => Sys2Proof.Machine.execIllegalCommand code s
  | .commandInHandGranted => Sys2Proof.Machine.execCommandInHandGranted s
  | .busFree startSeen => Sys2Proof.Machine.execBusFree startSeen s
  | .startCondition header => Sys2Proof.Machine.execStartCondition header s
  | .arbitrationLost bit => Sys2Proof.Machine.execArbitrationLost bit s
  | .checkPause body extraBits => Sys2Proof.Machine.execCheckPause body extraBits s
  | .frameCheck => Sys2Proof.Machine.execFrameCheck s
  | .vetoSlot heard veto => Sys2Proof.Machine.execVetoSlot heard veto s
  | .stopCondition header => Sys2Proof.Machine.execStopCondition header s
  | .truncation cause header => Sys2Proof.Machine.execTruncation cause header s
  | .busStuck line => Sys2Proof.Machine.execBusStuck line s
  | .stuckEpisodeEnd => Sys2Proof.Machine.execStuckEpisodeEnd s
  | .listenDeadline => Sys2Proof.Machine.execListenDeadline s
  | .deadlinePasses station => Sys2Proof.Machine.execDeadlinePasses station s
  | .decision => Sys2Proof.Machine.execDecision s
  | .beatRequest => Sys2Proof.Machine.execBeatRequest s
  | .answerWaitExpiry => Sys2Proof.Machine.execAnswerWaitExpiry s
  | .giveUp => Sys2Proof.Machine.execGiveUp s
  | .scrubTurn => Sys2Proof.Machine.execScrubTurn s
  | .scrubStep => Sys2Proof.Machine.execScrubStep s
  | .ageExpiry index => Sys2Proof.Machine.execAgeExpiry index s
  | .nrstHeldLow => Sys2Proof.Machine.execNrstHeldLow s
  | .disturbance target => Sys2Proof.Machine.execDisturbance target s
  | .faultCheckerAlarm => Sys2Proof.Machine.execFaultCheckerAlarm s

end Sys2Proof.Machine
end

