-- ==== Sys2Proof/WellFormed.lean ====
section
/-!
DEFINITION. Which commands the outside can give: checks on operands that the types do not make.
-/

namespace Sys2Proof

/-- The codes that name no command (R197: 0x12 to 0x3B and 0x3D to 0xFF). -/
def Instr.unknownCode (code : Byte) : Bool :=
  (decide (0x12#8 ≤ code) && decide (code ≤ 0x3B#8)) || decide (0x3D#8 ≤ code)

/-- The most bits a frame body has: 152 bytes (R7). A sender can lose arbitration at none beyond them. -/
abbrev Instr.bodyBits : Nat := 1216

/-- A command that the outside can give. -/
def Instr.wellFormed : Instr → Bool
  | .hardReset _ _ => true
  | .pfailEdge => true
  | .pfailWaitExpiry => true
  | .nselFall _ => true
  | .repeatResponse => true
  | .status => true
  | .configure _ => true
  | .join => true
  | .leave => true
  | .read _ => true
  | .stage _ => true
  | .discard => true
  | .publish => true
  | .claim _ => true
  | .yieldSlot _ => true
  | .takeNotice => true
  | .peekLog => true
  | .takeLog => true
  | .takeCount => true
  | .members => true
  | .watch _ => true
  | .unwatch _ => true
  | .reset _ => true
  | .illegalCommand code => Instr.unknownCode code
  | .commandInHandGranted => true
  | .busFree _ => true
  | .startCondition _ => true
  | .arbitrationLost bit => decide (bit < Instr.bodyBits)
  | .checkPause _ extraBits => decide (extraBits < 8)
  | .frameCheck => true
  | .vetoSlot _ _ => true
  | .stopCondition _ => true
  | .truncation _ _ => true
  | .busStuck _ => true
  | .stuckEpisodeEnd => true
  | .listenDeadline => true
  | .deadlinePasses _ => true
  | .decision => true
  | .beatRequest => true
  | .answerWaitExpiry => true
  | .giveUp => true
  | .scrubTurn => true
  | .scrubStep => true
  | .ageExpiry _ => true
  | .nrstHeldLow => true
  | .disturbance (.cell row position flips) =>
      decide (row < Config.rowCount) && decide (position < Config.rowWords) && decide (flips ≠ 0)
  | .disturbance _ => true
  | .faultCheckerAlarm => true

end Sys2Proof
end

