-- ==== Sys2Proof/Safety.lean ====
section
/-!
DEFINITION. What the statements name: the invariants of the node, and the conditions under which a command or a
bus event comes about.
-/

namespace Sys2Proof.Machine

/-! ### Invariants -/

/-- The directory, the data store and the membership table keep their canonical form. -/
def State.canonical (s : State) : Prop :=
  sparseWf DirEntry.blank s.dir ∧ Memory.wf s.dst.cells ∧ sparseWf MemberEntry.absent s.mbu.table

/-- The notice queue and the error log keep their bounds (R178, R185). -/
def State.bounded (s : State) : Prop :=
  s.ntq.notices.length ≤ Config.noticeRoom ∧ s.elg.entries.length ≤ Config.logRoom ∧
    s.elg.counter ≤ Config.counterMax

/-- The outbound queue holds at most one entry of each kind, and at most one among CLAIM, YIELD and POST
(R134). -/
def State.queueSingle (s : State) : Prop :=
  s.obs.queue.Pairwise fun a b => FrameKind.clashes a.kind b.kind = false

/-- There are four watch entries (R168), and the draft buffer holds at most four drafts (R155). -/
def State.buffersBounded (s : State) : Prop :=
  s.wch.length = 4 ∧ s.opu.drafts.length ≤ Config.draftRoom

/-- The repair engine's wanted set is in ascending order, and agrees with the wanted flag of every entry whose parity
is good (R112). -/
def State.follows (s : State) : Prop :=
  s.rpe.wanted.Pairwise (· < ·) ∧
    ∀ n, (s.entry n).parityGood = true → (n ∈ s.rpe.wanted ↔ (s.entry n).wanted = true)

/-- The invariant of the node. -/
def State.inv (s : State) : Prop := s.canonical ∧ s.follows ∧ s.bounded ∧ s.queueSingle ∧ s.buffersBounded

/-! ### Commands of the local port -/

/-- The command a row of the local port carries. -/
def commandOf : Instr → Option Command
  | .repeatResponse => some .repeatResponse
  | .status => some .status
  | .configure _ => some .configure
  | .join => some .join
  | .leave => some .leave
  | .read _ => some .read
  | .stage _ => some .stage
  | .discard => some .discard
  | .publish => some .publish
  | .claim _ => some .claim
  | .yieldSlot _ => some .yieldSlot
  | .takeNotice => some .takeNotice
  | .peekLog => some .peekLog
  | .takeLog => some .takeLog
  | .takeCount => some .takeCount
  | .members => some .members
  | .watch _ => some .watch
  | .unwatch _ => some .unwatch
  | .reset _ => some .reset
  | _ => none

/-- The argument bytes a command needs, of those its transaction brought (Table 12-3, R202). -/
def bytesNeeded : Instr → Nat
  | .configure _ => 6
  | .read _ => 2
  | .stage args => 2 + 2 * ((args.getD 1 0).toNat)
  | .claim _ | .yieldSlot _ | .unwatch _ => 1
  | .watch args => if args.getD 4 0 = 0 then 5 else 10
  | _ => 0

/-- The argument bytes a row brings, of those the local port keeps (R190). -/
def bytesBrought : Instr → Nat
  | .configure args | .read args | .stage args | .claim args | .yieldSlot args | .unwatch args | .watch args =>
    min 47 args.length
  | _ => 0

/-- A rise of NSEL takes a command: NRST is high, and NSEL has fallen since the last reset (R110, R199). -/
def State.portOpen (s : State) : Prop := s.nct.nrstLow = false ∧ s.lpt.nsel ≠ .lowSinceReset

/-- The local port goes on to the tests of the command's own rule (R193). -/
def State.accepts (s : State) (c : Command) : Prop :=
  s.portOpen ∧ s.admits c = true ∧ (s.lpt.inHand = none ∨ c.alongside = true)

/-- NSEL has risen, and no transaction is in progress. -/
def State.raised (s : State) : State := { s with lpt := { s.lpt with nsel := .high, received := [] } }

/-- NSEL has risen, and a response is formed (R191). -/
def State.answered (s : State) (c : Command) (r : ResultCode) (fields : List Byte) : State :=
  { s with lpt := { s.lpt with
      nsel := .high, received := [],
      response := { code := c.code, number := s.lpt.response.number + 1, result := r, fields := fields } } }

/-- The command in hand has formed its response in the access that ends (R194). -/
def State.handEnded (s : State) (c : Command) (r : ResultCode) (fields : List Byte) : State :=
  { s with
    lpt := { s.lpt with
      inHand := none,
      response := { code := c.code, number := s.lpt.response.number + 1, result := r, fields := fields } },
    sar := s.sar.letGo .lpt }

/-- The node is configured so, with valid parity. -/
def State.hasConfig (s : State) (c : NodeConfig) : Prop := s.nct.config = some c ∧ c.parityGood = true

/-- No parity mismatch of the configuration stands, whether it is there or not. -/
def State.levelGood (s : State) : Prop := ∀ c, s.nct.config = some c → c.parityGood = true

/-- A command is in hand and holds its access, in a state that admits it (R194). -/
def State.handReady (s : State) (h : InHand) : Prop :=
  s.nct.nrstLow = false ∧ s.lpt.inHand = some h ∧ s.sar.grant = some .lpt ∧ s.admits h.command = true

/-! ### Events -/

/-- The node takes events of the bus: NRST is high and it is not HALTED. -/
def State.running (s : State) : Prop := s.nct.nrstLow = false ∧ s.nct.node ≠ .halted

/-- Every membership entry has valid parity. -/
def State.membersGood (s : State) : Prop := ∀ n, n < 16 → (s.mbu.entry n).parityGood = true

/-- Every directory entry has valid parity. -/
def State.entriesGood (s : State) : Prop := ∀ n, (s.entry n).parityGood = true

/-- The frame checker holds the store for a purpose, and no give-up is due. -/
def State.fckHolds (s : State) (p : Purpose) : Prop :=
  s.fck.purpose = some p ∧ s.sar.grant = some .fck ∧ s.rpe.due = none

/-- The frame checker holds the store for a purpose, and has no give-up to make first: a give-up that is due was not
taken over by this access (R122). -/
def State.fckOpen (s : State) (p : Purpose) : Prop :=
  s.fck.purpose = some p ∧ s.sar.grant = some .fck ∧ ∀ d, s.rpe.due = some d → d.takenOver = false

/-- The state but for the give-up that is due. -/
def State.withoutDue (s : State) : State := { s with rpe := { s.rpe with due := none } }

/-- A receiver stands before the veto slot of a frame it passed, which nobody pulls (R12). -/
def State.passedFrame (s : State) (f : Frame) : Prop :=
  s.nct.nrstLow = false ∧ s.nct.node.participating = true ∧ s.nct.pfailLatch = false ∧ s.pbi.shift = .paused ∧
    s.pbi.holdPck = false ∧ s.pbi.pullVeto = false ∧
    s.fck.inbound = some { frame := f, verdict := some .pass } ∧ s.fckHolds .check

/-- The sender stands before the veto slot of its own frame with its grant (R9). -/
def State.ownPaused (s : State) (f : Frame) : Prop :=
  s.nct.nrstLow = false ∧ s.nct.node ≠ .halted ∧ s.nct.phase ≠ .pfailLeave ∧ s.pbi.shift = .sendingPaused f ∧
    s.fckHolds .ownFrame

/-- The notice of the pending operation's end at an abort (R104, R107, R109). -/
def State.opAborted (s : State) : List Notice :=
  s.opu.op.toList.map fun o => .opDone o.kind.done .aborted o.kind.slot?

/-- The notice of an aborted JOIN (R109). -/
def State.joinAborted (s : State) : List Notice :=
  if s.nct.phase = .joining then [.opDone .join .aborted none] else []

/-- The notice of an aborted leave (R104, R107, R109). -/
def State.leaveAborted (s : State) : List Notice :=
  if s.nct.phase = .leaving then [.opDone .leave .aborted none] else []

/-- The arrivals of a list of notices, one at a time (R178). -/
def Ntq.arriveAll (q : Ntq) (l : List Notice) : Ntq := l.foldl Ntq.arrive q

/-- The state `t` is what the halt of `s` leaves, with the reports `reports` logged before it (R109). -/
def State.haltedFrom (s t : State) (cause : HaltCause) (reports : List (ErrorKind × ErrorFields)) : Prop :=
  t.nct = { s.nct with node := .halted, haltCause := some cause } ∧
    t.elg = reports.foldl (fun l r => l.take { kind := r.1, time := s.nct.now, fields := r.2 }) s.elg ∧
    t.ntq = s.ntq.arriveAll (s.opAborted ++ s.joinAborted ++ s.leaveAborted ++ [.halted cause]) ∧
    t.obs = { queue := [], build := none } ∧ t.opu = { op := none, drafts := [] } ∧
    t.wch = [none, none, none, none] ∧ t.rpe = { s.rpe with cycle := none, answers := [], due := none } ∧
    t.sar = { grant := none, fckWaits := false, lptWaits := false, scbWaits := false } ∧
    t.mbu = { s.mbu with decision := none, beatRef := none, beatAsked := false } ∧
    t.scb = { s.scb with timer := none, turn := none } ∧
    t.lpt = { s.lpt with inHand := none } ∧ t.dir = s.dir ∧ t.dst = s.dst ∧
    t.pbi.shift = .idle ∧ t.pbi.holdPck = false ∧ t.pbi.pullHeard = false ∧ t.pbi.pullVeto = false

/-- The state `t` is what the isolation of `s` leaves (R104, R105, R156): the work is emptied and the timers stop, the
table and the scrub pointer are kept, the scrubber's waiting request is withdrawn and its granted step runs on. -/
def State.isolatedFrom (s t : State) (cause : IsolationCause) : Prop :=
  t.nct = { s.nct with node := .isolated, isolationCause := some cause, phase := .none } ∧
    t.mbu = { s.mbu with decision := none, beatRef := none, beatAsked := false } ∧
    t.obs = { queue := [], build := none } ∧ t.opu = { op := none, drafts := [] } ∧
    t.wch = [none, none, none, none] ∧
    t.rpe = { wanted := [], cycle := none, answers := [], due := none, unresolved := 0 } ∧
    t.fck = { inbound := none, purpose := none } ∧
    t.scb = { s.scb with timer := none, turn := none } ∧ t.sar.scbWaits = false ∧
    (t.sar.grant = some .scb ↔ s.sar.grant = some .scb) ∧
    t.ntq = s.ntq.arriveAll (s.opAborted ++ s.leaveAborted ++ [.isolated cause]) ∧
    (∀ n, t.entry n = { s.entry n with wanted := false, unresolved := false, parityGood := true }) ∧
    t.dst = s.dst ∧ t.elg = s.elg ∧ t.lpt = s.lpt ∧ t.pending = s.pending ∧ t.pbi.shift.transmitting = false

/-! ### Records (R203) -/

/-- A notice record is six bytes: the kind by its code, A, B, C and the value (R203, Tables 12-6 and 12-8). -/
def Notice.recordHolds (n : Notice) : Prop :=
  let holds := fun (kind a b c : Byte) (value : Word) =>
    n.bytes.length = 6 ∧ n.bytes.take 4 = [kind, a, b, c] ∧ n.bytes.getD 4 0 ++ n.bytes.getD 5 0 = value
  match n with
  | .halted cause => holds 1 cause.code 0 0 0
  | .isolated cause => holds 2 cause.code 0 0 0
  | .opDone kind result slot => holds 3 kind.code result.code (BitVec.ofNat 8 (slot.getD 0)) 0
  | .stale index slot => holds 4 (BitVec.ofNat 8 index) 0 (BitVec.ofNat 8 slot) 0
  | .limit index slot direction word => holds 5 (BitVec.ofNat 8 index) direction.code (BitVec.ofNat 8 slot) word
  | .slotUnresolved slot => holds 6 0 0 (BitVec.ofNat 8 slot) 0
  | .slotFailed slot => holds 7 0 0 (BitVec.ofNat 8 slot) 0
  | .busStuck => holds 8 0 0 0 0
  | .recordChanged slot cause => holds 9 0 cause.code (BitVec.ofNat 8 slot) 0
  | .memberChanged station state => holds 10 (BitVec.ofNat 8 station) state.code 0 0
  | .catchupDone count => holds 11 0 0 0 (BitVec.ofNat 16 count)

/-- A log record is ten bytes: the kind by its code, the local time, the presence bits, and the fields, 0 where absent
(R203, Table 12-8). -/
def LogEntry.recordHolds (e : LogEntry) : Prop :=
  let b := fun i => e.bytes.getD i 0
  e.bytes.length = 10 ∧ b 0 = e.kind.code ∧ b 1 ++ b 2 ++ b 3 ++ b 4 = e.time ∧
    (b 5).toNat = e.fields.slot.isSome.toNat + 2 * e.fields.station.isSome.toNat + 4 * e.fields.word.isSome.toNat +
      8 * e.fields.bit.isSome.toNat ∧
    b 6 = BitVec.ofNat 8 (e.fields.slot.getD 0) ∧ b 7 = BitVec.ofNat 8 (e.fields.station.getD 0) ∧
    b 8 = BitVec.ofNat 8 (e.fields.word.getD 0) ∧ b 9 = BitVec.ofNat 8 (e.fields.bit.getD 0)

/-! ### Suspicion and the decision -/

/-- The live set is more than half of the member set, or half of it with its lowest station (R79). -/
def State.hasQuorum (s : State) : Prop :=
  s.memberSet.length < 2 * s.liveSet.length ∨
    (2 * s.liveSet.length = s.memberSet.length ∧ ∃ n, s.memberSet.head? = some n ∧ n ∈ s.liveSet)

/-- A local time has come, in serial arithmetic (R92). -/
def passed (now time : Time) : Prop := (now - time).toNat < 2147483648

/-- The earliest suspect-since of the stations `ns`, in serial arithmetic (R80, R92). -/
def State.firstSuspicion (s : State) (ns : List Nat) (first : Time) : Prop :=
  (∃ n ∈ ns, (s.mbu.entry n).suspectSince = some first) ∧
    ∀ n ∈ ns, ∀ since, (s.mbu.entry n).suspectSince = some since → passed since first

/-- The entry that a decision with quorum places for the suspects (R81). -/
def State.dropEntry (s : State) (now : Time) : OutEntry :=
  { kind := .drop, ref := .dropMask (maskOf s.suspects), attempts := 0, queued := now }

/-- The decision timer starts anew where suspects are left, the first since `first`: it runs out one grace later, or,
where that time has passed and the node has quorum, the decision places its DROP entry at once (R79–R81). -/
def State.restarted (s u : State) (now : Time) (c : NodeConfig) (first : Time) : Prop :=
  let due := first + BitVec.ofNat 32 c.beat
  (¬passed now due ∧ u = { s with mbu := { s.mbu with decision := some due } }) ∨
    (passed now due ∧ s.hasQuorum ∧ u = { s with
      mbu := { s.mbu with decision := none },
      obs := { s.obs with queue := s.obs.queue ++ [s.dropEntry now] } })

/-! ### Frames and their parts -/

/-- Version v is newer than version u (R25). -/
def newerThan (v u : Word) : Prop := 1 ≤ (v - u).toNat ∧ (v - u).toNat ≤ 32767

/-- The fields of a frame lie in the ranges of Table 3-2, for an active slot count (R45). -/
def Frame.formatHolds (f : Frame) (activeSlots : Nat) : Prop :=
  match f.payload with
  | .leave | .hello _ => True
  | .drop mask => mask ≠ 0 ∧ mask.getLsbD f.sender.toNat = false
  | .claim slot _ | .yield slot _ => slot.toNat < activeSlots
  | .post items =>
    1 ≤ items.length ∧ items.length ≤ 4 ∧ (items.map Item.slot).Nodup ∧
      ∀ i ∈ items, i.slot.toNat < activeSlots ∧ i.words.length ≤ 16
  | .sync records =>
    1 ≤ records.length ∧ records.length ≤ 4 ∧ (records.map Record.slot).Nodup ∧
      ∀ r ∈ records, r.slot.toNat < activeSlots ∧ r.words.length ≤ 16 ∧ 1 ≤ r.stateCode.toNat ∧ r.stateCode.toNat ≤ 3
  | .ask first mode count =>
    1 ≤ count.toNat ∧ count.toNat ≤ 16 ∧ first.toNat + count.toNat ≤ activeSlots ∧ mode.toNat ≤ 1
  | .beat mask _ => mask.getLsbD f.sender.toNat = true

/-- The parameters a frame carries are this node's own (R46). -/
def Frame.paramsHold (f : Frame) (c : NodeConfig) (rate : BitVec 2) : Prop :=
  match f.payload with
  | .hello p | .beat _ p => p = {
      rate := rate, slotCode := BitVec.ofNat 2 c.slotCode, silence := BitVec.ofNat 4 c.silence,
      beat := BitVec.ofNat 16 c.beat }
  | _ => True

/-- A POST item or a YIELD is one the sender may make: the slot is UNLEARNED, or OWNED by it at an older version (R61,
R63). -/
def State.ownerHolds (s : State) (sender : Station) (slot : Byte) (version : Word) : Prop :=
  (s.entry slot.toNat).state = .unlearned ∨
    ((s.entry slot.toNat).state = .owned sender ∧ newerThan version (s.entry slot.toNat).version)

/-- The state conditions of each kind (R53, R59, R61, R63, R65). -/
def State.stateHolds (s : State) (f : Frame) : Prop :=
  match f.payload with
  | .hello _ => (s.mbu.entry f.sender.toNat).state = .absent
  | .claim slot version => (s.entry slot.toNat).state = .unlearned ∨
      (((s.entry slot.toNat).state = .free ∨ (s.entry slot.toNat).state = .orphaned) ∧
        newerThan version (s.entry slot.toNat).version)
  | .yield slot version => s.ownerHolds f.sender slot version
  | .post items => ∀ i ∈ items, s.ownerHolds f.sender i.slot i.version
  | .sync records => ∀ r ∈ records, r.stateCode = 2 → (s.mbu.entry r.owner.toNat).state ≠ .absent
  | .leave | .drop _ | .ask _ _ _ | .beat _ _ => True

/-- One slot's words as a frame writes them (R28). -/
structure SlotWrite where
  slot    : Byte
  state   : SlotState
  version : Word
  words   : List Word

/-- The write of a POST item (R64). -/
def Item.write (sender : Station) (i : Item) : SlotWrite :=
  { slot := i.slot, state := .owned sender, version := i.version, words := i.words }

/-- The write of an applied SYNC record (R66). -/
def Record.write (r : Record) : SlotWrite :=
  { slot := r.slot, state := r.slotState, version := r.version, words := r.words }

/-- A receiver takes a SYNC record (R66, Table 3-4): the record does not name it as the owner of a slot it does not
own, and the slot is UNLEARNED, or the version is newer, or equal where the copy is UNKNOWN or DAMAGED. -/
def State.takesRecord (s : State) (r : Record) : Bool :=
  let e := s.entry r.slot.toNat
  !(decide (r.slotState = .owned s.nct.station) && decide (e.state ≠ .owned s.nct.station)) &&
    (decide (e.state = .unlearned) || newer r.version e.version ||
      (decide (r.version = e.version) && (decide (e.health = .unknown) || decide (e.health = .damaged))))

/-- The watch entries after the data changes of a frame, slot by slot in frame order, and the LIMIT notices they raise
(R172, R173, R176). -/
def watchesAfter (now : Time) (l : List (Nat × List Word)) (wch : List (Option Watch)) :
    List (Option Watch) × List Notice :=
  l.foldl (fun r p => let c := changeWatches now p.1 p.2 0 r.1; (c.1, r.2 ++ c.2)) (wch, [])

/-- What a frame's writes leave: the entries of its slots with both flags cleared, their words in the rows in use, and
everything else of the directory, the rows, the wanted set and the unresolved count (R28, R64, R66, R113, R114). -/
def State.wrote (s t : State) (ws : List SlotWrite) : Prop :=
  (∀ w ∈ ws, t.entry w.slot.toNat = {
      state := w.state, version := w.version, length := w.words.length,
      health := if (s.dst.rowInUse w.slot.toNat).isSome then .good else .failed,
      wanted := false, unresolved := false, parityGood := true }) ∧
    (∀ n, (∀ w ∈ ws, w.slot.toNat ≠ n) → t.entry n = s.entry n) ∧
    (∀ w ∈ ws, ∀ row, s.dst.rowInUse w.slot.toNat = some row →
      (∀ v ∈ ws, v ≠ w → s.dst.rowInUse v.slot.toNat ≠ some row) →
      ∀ p x, w.words[p]? = some x → t.dst.cell row p = { word := x, flips := 0 }) ∧
    (∀ row p, p < 16 → (∀ w ∈ ws, s.dst.rowInUse w.slot.toNat = some row → w.words.length ≤ p) →
      t.dst.cell row p = s.dst.cell row p) ∧
    t.dst = { s.dst with cells := t.dst.cells } ∧
    (t.rpe.wanted = s.rpe.wanted.filter fun n => !(ws.map fun w => w.slot.toNat).contains n) ∧
    t.rpe.unresolved = s.rpe.unresolved - (ws.filter fun w => (s.entry w.slot.toNat).unresolved).length

/-- An entry after the stations `ns` became ABSENT (R56). -/
def DirEntry.orphanedBy (e : DirEntry) (ns : List Nat) : DirEntry :=
  match e.state with
  | .owned o => if ns.contains o.toNat then { e with state := .orphaned } else e
  | _ => e

/-- The stations `ns` become ABSENT: their slots are orphaned, and the decision timer stops where no suspect remains
(R56, R78). -/
def State.lost (s t : State) (ns : List Nat) : Prop :=
  (∀ n, t.entry n = (s.entry n).orphanedBy ns) ∧
    (∀ n, t.mbu.entry n = if n ∈ ns then
        { state := .absent, deadline := none, suspectSince := none, parityGood := true }
      else s.mbu.entry n) ∧
    t.mbu = { s.mbu with table := t.mbu.table, decision := t.mbu.decision } ∧
    t.mbu.decision = if ns ≠ [] ∧ (s.suspects.filter fun n => !ns.contains n) = [] then none else s.mbu.decision

/-- The lowest member beside the asker is this node (R124). -/
def State.lowestMember (s : State) (asker : Station) : Prop :=
  s.nct.station.toNat ∈ s.memberSet ∧ s.nct.station ≠ asker ∧
    ∀ m ∈ s.memberSet, m ≠ asker.toNat → s.nct.station.toNat ≤ m

/-- This node is the designated answerer of a slot (R124): its owner, or for the asker's own slots and slots without
an owner the lowest other member. -/
def State.isDesignated (s : State) (asker : Station) (slot : Nat) : Prop :=
  match (s.entry slot).state with
  | .owned o => if o = asker then s.lowestMember asker else o = s.nct.station
  | _ => s.lowestMember asker

/-- The provisional member set after a frame, station by station (R71). -/
def State.keepsProvisional (s : State) (f : Frame) (n : Nat) : Prop :=
  match f.payload with
  | .beat mask _ => (mask.getLsbD n = true ∧ n ≠ s.nct.station.toNat) ∨ n = f.sender.toNat
  | .leave => s.mbu.provisional.getLsbD n = true ∧ n ≠ f.sender.toNat
  | .drop mask => (s.mbu.provisional.getLsbD n = true ∨ n = f.sender.toNat) ∧ mask.getLsbD n = false
  | _ => s.mbu.provisional.getLsbD n = true ∨ n = f.sender.toNat

/-- The bytes that the items or records of a list take by their own length fields, where each has `fixed` bytes beside
its words and its length field stands at `place`; none where the bytes run out first (R19). -/
def listLength (fixed place : Nat) : Nat → List Byte → Option Nat
  | 0, _ => some 0
  | count + 1, bytes =>
    match bytes[place]? with
    | none => none
    | some length =>
      let size := fixed + 2 * length.toNat
      (listLength fixed place count (bytes.drop size)).map (size + ·)

/-- The payload length that R19 gives from the kind code and the received fields; none for a kind code that no kind has
(Table 1-2), and where the payload ends before a field that gives its length. -/
def payloadLength (kind : Nat) (payload : List Byte) : Option Nat :=
  match kind with
  | 1 => some 0
  | 2 => some 2
  | 3 => some 3
  | 4 => some 3
  | 5 => some 3
  | 6 =>
    match payload with
    | [] => none
    | count :: items => (listLength 4 3 count.toNat items).map (1 + ·)
  | 7 =>
    match payload with
    | [] => none
    | count :: records => (listLength 5 4 count.toNat records).map (1 + ·)
  | 8 => some 2
  | 9 => some 5
  | _ => none

/-! ### Repair and damage -/

/-- The ASK cycle ends where no slot of its window is wanted any more (R120). -/
def State.cycleEnds (s : State) (wanted : List Nat) : Bool :=
  s.active && s.rpe.cycle.any fun y => wanted.all fun n => decide (n < y.first) || decide (y.last < n)

/-- The slot at which the next ASK cycle begins: the lowest wanted one, in CATCHUP and MEMBER, where no cycle goes on
(R113, R115). -/
def State.cycleBegins (s : State) (wanted : List Nat) : Option Nat :=
  if s.active = true ∧ s.nct.node ≠ .leaving ∧ (s.rpe.cycle = none ∨ s.cycleEnds wanted = true) then wanted.head?
  else none

/-- The ASK cycle after the wanted set became `wanted` (R113, R115, R120). -/
def State.cycleAfter (s : State) (c : NodeConfig) (wanted : List Nat) : Option AskCycle :=
  match s.cycleBegins wanted with
  | some first => some {
      first := first, last := min (first + 15) (c.activeSlots - 1), try_ := 1, phase := .queued, sent := none,
      deadline := none, asked := [] }
  | none => if s.cycleEnds wanted then none else s.rpe.cycle

/-- The outbound queue `queue` after the wanted set became `wanted`: a cycle that ends takes its ASK entry with it, and
one that begins places its own (R115, R120). -/
def State.queueAfter (s : State) (wanted : List Nat) (queue : List OutEntry) : List OutEntry :=
  let left := if s.cycleEnds wanted then queue.filter fun e => !decide (e.kind = .ask) else queue
  if (s.cycleBegins wanted).isSome ∧ ∀ e ∈ left, e.kind ≠ .ask then
    left ++ [{ kind := .ask, ref := .askTry 1, attempts := 0, queued := s.nct.now }]
  else left

/-- The slots `given` are given up (R100, R113–R115, R121, R122): their flags and notices, the wanted set and the
unresolved count, the end of the cycle, the move to MEMBER where nothing is wanted any more, and otherwise the next
cycle. -/
def State.givenUp (s t : State) (c : NodeConfig) (given : List Nat) : Prop :=
  let settled := s.active = true ∧ s.nct.node = .catchup ∧ t.rpe.wanted = []
  let stopped := { s with rpe := { s.rpe with cycle := none } }
  (∀ n, t.entry n = if n ∈ given then { s.entry n with wanted := false, unresolved := true } else s.entry n) ∧
    t.rpe.wanted = s.rpe.wanted.filter (fun n => !given.contains n) ∧
    (given.Nodup → (∀ n ∈ given, (s.entry n).unresolved = false) →
      t.rpe.unresolved = s.rpe.unresolved + given.length) ∧
    t.rpe.cycle = stopped.cycleAfter c t.rpe.wanted ∧
    t.rpe.answers = s.rpe.answers ∧ t.rpe.due = none ∧
    t.nct = { s.nct with node := if settled then .member else s.nct.node } ∧
    t.ntq = s.ntq.arriveAll (given.map Notice.slotUnresolved ++
      (if settled then [.catchupDone t.rpe.unresolved] else [])) ∧
    t.obs.queue = stopped.queueAfter t.rpe.wanted s.obs.queue

/-- The word that a read delivers of a code word (R29, R36); of an uncorrectable one nobody reads the value. -/
def Cell.delivers (c : Cell) : Word :=
  match c.decode with
  | .clean x => x
  | .corrected x _ => x
  | .uncorrectable => 0

/-- The bit position that a read of a code word reports as corrected, if any (R29). -/
def Cell.correctedBit (c : Cell) : Option Nat :=
  match c.decode with
  | .corrected _ bit => some bit
  | _ => none

/-- A code word after a read of it: a corrected one is written back as it was delivered (R36). -/
def Cell.afterRead (c : Cell) : Cell :=
  match c.decode with
  | .corrected x _ => { word := x, flips := 0 }
  | _ => c

/-- The error log after a read reported the corrected words of a row at the positions `ps`, one entry each (R36). -/
def State.correctionsLogged (s : State) (slot row : Nat) (ps : List Nat) : Elg :=
  (ps.filterMap fun p => (s.dst.cell row p).correctedBit.map fun bit => (p, bit)).foldl
    (fun l r => l.take { kind := .eccCorrected, time := s.nct.now, fields := {
      slot := some slot, station := none, word := some r.1, bit := some r.2 } }) s.elg

/-- What a read of a slot's words leaves (R36): each corrected word in use is written back, with one report each in
ascending position, and nothing else changes. -/
def State.readThrough (s u : State) (slot row : Nat) : Prop :=
  u = { s with
    dst := { s.dst with cells := u.dst.cells },
    elg := s.correctionsLogged slot row (List.range (s.entry slot).length) } ∧
    Memory.wf u.dst.cells ∧
    ∀ r p, p < 16 → u.dst.cell r p =
      if r = row ∧ p < (s.entry slot).length then (s.dst.cell r p).afterRead else s.dst.cell r p

/-- The lowest word position in use of a row whose outcome is uncorrectable (R37). -/
def State.lowestBad (s : State) (slot row w : Nat) : Prop :=
  w < (s.entry slot).length ∧ (s.dst.cell row w).decode = .uncorrectable ∧
    ∀ p, p < w → (s.dst.cell row p).decode ≠ .uncorrectable

/-- The word at `w` of a slot's row was found uncorrectable: what damage handling leaves of the directory, the rows, the
wanted set and the log (R37, R112, R160–R163): the strike of a row at strike 0, or the retirement of a struck row, with
a zeroed spare for the slot or none left. -/
def State.damageMarks (s t : State) (slot row w : Nat) : Prop :=
  let report := fun kind (l : Elg) (word : Option Nat) => l.take { kind := kind, time := s.nct.now, fields := {
    slot := some slot, station := none, word := word, bit := none } }
  let found := report .eccUncorrectable s.elg (some w)
  (∀ n, n ≠ slot → t.entry n = s.entry n) ∧
    (∀ n, n ≠ slot → n ≠ row → t.dst.rowInUse n = s.dst.rowInUse n) ∧
    t.mbu = s.mbu ∧ t.opu = s.opu ∧ t.wch = s.wch ∧ t.pbi = s.pbi ∧ t.fck = s.fck ∧ t.pending = s.pending ∧
    (s.dst.struck.contains row = false ∨ s.dst.spares ≠ [] →
      t.entry slot = { s.entry slot with
        health := .damaged, wanted := s.nct.node.participating, unresolved := false } ∧
      (∀ n, n ∈ t.rpe.wanted ↔ (n ∈ s.rpe.wanted ∧ n ≠ slot) ∨ (n = slot ∧ s.nct.node.participating = true))) ∧
    (s.dst.struck.contains row = false →
      t.dst = { s.dst with struck := t.dst.struck } ∧ (∀ r, r ∈ t.dst.struck ↔ r = row ∨ r ∈ s.dst.struck) ∧
      t.elg = found) ∧
    (s.dst.struck.contains row = true →
      (∀ r, r ∈ t.dst.retired ↔ r = row ∨ r ∈ s.dst.retired) ∧
      (∀ spare rest, s.dst.spares = spare :: rest →
        t.dst.rowInUse slot = some spare ∧ t.dst.spares = rest ∧
        t.dst.struck = s.dst.struck.filter (fun r => !(r == spare)) ∧
        (∀ r p, p < 16 → t.dst.cell r p = if r = spare then { word := 0, flips := 0 } else s.dst.cell r p) ∧
        t.elg = report .rowRetired found none) ∧
      (s.dst.spares = [] →
        t.entry slot = { s.entry slot with health := .failed, wanted := false, unresolved := false } ∧
        (∀ n, n ∈ t.rpe.wanted ↔ n ∈ s.rpe.wanted ∧ n ≠ slot) ∧
        (slot = row ∨ slot ∈ s.dst.retired → t.dst.rowInUse slot = none) ∧
        t.dst = { s.dst with rowMap := t.dst.rowMap, retired := t.dst.retired } ∧
        t.elg = report .sparesExhausted (report .rowRetired found none) none))

/-- Damage handling as a whole: its marks, and the repair engine's steps after them (R113–R115, R120, R130, R131): the
unresolved count, the cycle and its entry, the move to MEMBER where nothing is wanted any more, and the notices. The
steps wait for a give-up that is due. -/
def State.damagedTo (s t : State) (c : NodeConfig) (slot row w : Nat) : Prop :=
  let failed := s.dst.struck.contains row = true ∧ s.dst.spares = []
  let settled := s.active = true ∧ s.rpe.due = none ∧ s.nct.node = .catchup ∧ t.rpe.wanted = []
  s.damageMarks t slot row w ∧
    (s.rpe.wanted.Pairwise (· < ·) → t.rpe.wanted.Pairwise (· < ·)) ∧
    t.rpe.unresolved = s.rpe.unresolved - (s.entry slot).unresolved.toNat ∧
    t.rpe.answers = s.rpe.answers ∧ t.rpe.due = s.rpe.due ∧
    (s.rpe.due = none → t.rpe.cycle = s.cycleAfter c t.rpe.wanted ∧
      t.obs.queue = s.queueAfter t.rpe.wanted s.obs.queue ∧ (s.obs.build = none → t.obs.build = none)) ∧
    (s.rpe.due ≠ none → t.rpe.cycle = s.rpe.cycle ∧ t.obs = s.obs) ∧
    t.nct = { s.nct with node := if settled then .member else s.nct.node } ∧
    t.ntq = s.ntq.arriveAll ((if failed then [.slotFailed slot] else []) ++
      (if settled then [.catchupDone t.rpe.unresolved] else []))

/-! ### Frames of this node -/

/-- The sender's frame is pulled, or unheard while another station is a member after the frame's own effect (R11). -/
def State.ownFails (s : State) (f : Frame) (heard veto : Bool) : Prop :=
  veto = true ∨ (heard = false ∧
    match f.payload with
    | .hello _ => ∃ n, n < 16 ∧ s.mbu.provisional.getLsbD n = true
    | .drop mask => s.membersGood ∧ ∃ n ∈ s.memberSet, n ≠ s.nct.station.toNat ∧ mask.getLsbD n = false
    | _ => s.membersGood ∧ ∃ n ∈ s.memberSet, n ≠ s.nct.station.toNat)

/-- The words of a slot's row in use, as they were written. -/
def State.wordsOf (s : State) (slot : Nat) : List Word :=
  match s.dst.rowInUse slot with
  | some row => (List.range (s.entry slot).length).map fun p => (s.dst.cell row p).word
  | none => []

/-- A GOOD slot with valid parity, a row, and no disturbed bit in its words. -/
def State.sound (s : State) (slot : Nat) : Prop :=
  (s.entry slot).parityGood = true ∧ (s.entry slot).health = .good ∧
    ∃ row, s.dst.rowInUse slot = some row ∧ ∀ p, p < (s.entry slot).length → (s.dst.cell row p).flips = 0

/-- The bus is free for the node, no frame is built, and the entry of kind `k` is the standing one of lowest code that
the node may send, with the store free where its build needs it (R4, R135, R136). -/
def State.mayStart (s : State) (k : FrameKind) : Prop :=
  s.running ∧ s.pbi.mayIdle = true ∧ s.obs.build = none ∧ s.obs.holds k = true ∧
    (∀ e ∈ s.obs.queue, k.code ≤ e.kind.code) ∧
    ((k = .hello ∧ s.nct.node = .announcing) ∨
      (k ≠ .hello ∧ s.nct.node.participating = true ∧ (s.nct.phase = .pfailLeave → k = .leave))) ∧
    (if k.needsStore then
      s.fck.purpose = none ∧ s.rpe.due = none ∧
        s.sar = { grant := none, fckWaits := false, lptWaits := false, scbWaits := false }
    else s.fck.purpose ≠ some .build)

/-- The node builds this payload from its present state (R82, R87, R97, R115, R116, R127, R144, R145, R154). -/
def State.builds (s : State) : Payload → Prop
  | .leave => True
  | .drop mask => s.membersGood ∧ mask ≠ 0 ∧ ∃ e original, s.obs.find .drop = some e ∧ e.ref = .dropMask original ∧
      mask = maskOf (s.suspects.filter fun n => original.getLsbD n)
  | .hello p => ∃ c, s.hasConfig c ∧ p = c.wire s.nct.rate
  | .claim slot version => (∃ b, s.opu.op = some { kind := .claim slot.toNat, onBus := b }) ∧
      (s.entry slot.toNat).parityGood = true ∧
      ((s.entry slot.toNat).state = .free ∨ (s.entry slot.toNat).state = .orphaned) ∧
      version = (s.entry slot.toNat).version + 1
  | .yield slot version => (∃ b, s.opu.op = some { kind := .yield slot.toNat, onBus := b }) ∧
      (s.entry slot.toNat).parityGood = true ∧ (s.entry slot.toNat).state = .owned s.nct.station ∧
      version = (s.entry slot.toNat).version + 1
  | .post items =>
      (∀ d ∈ s.opu.drafts, (s.entry d.slot).parityGood = true ∧ (s.entry d.slot).state = .owned s.nct.station) ∧
        items = s.opu.drafts.map fun d =>
          { slot := BitVec.ofNat 8 d.slot, version := (s.entry d.slot).version + 1, words := d.words }
  | .sync records => s.rpe.answers ≠ [] ∧ (∀ n ∈ s.rpe.answers.take 4, s.sound n) ∧
      records = (s.rpe.answers.take 4).map fun n => recordOf n (s.entry n) (s.wordsOf n)
  | .ask first mode count => ∃ c rest, s.rpe.cycle = some c ∧
      s.wantedWithin c.first c.last = first.toNat :: rest ∧ c.last < first.toNat + 16 ∧
      mode = (if c.try_ = 1 then 0 else 1) ∧ count = BitVec.ofNat 5 (c.last - first.toNat + 1)
  | .beat mask p => s.membersGood ∧ mask = s.memberMask ∧ ∃ c, s.hasConfig c ∧ p = c.wire s.nct.rate

/-- Local time when both lines have been high for the idle count at which the bus is free for the node (R2, R4). -/
def State.freeTime (s : State) : Time :=
  let wait := (if s.pbi.lastSender then 20 else 12) - (if s.pbi.lines = .high then s.pbi.busFreeTimer else 0)
  s.nct.now + BitVec.ofNat 32 ((s.nct.subBits + wait) / (125 * 2 ^ s.nct.rate.toNat))

/-- The mask of the DROP entry names no station that is SUSPECT (R82). -/
def State.dropsNobody (s : State) : Prop :=
  s.membersGood ∧ ∃ e original, s.obs.find .drop = some e ∧ e.ref = .dropMask original ∧
    ∀ n ∈ s.suspects, original.getLsbD n = false

/-- The state without the entry of kind `k`. -/
def State.withoutEntry (s : State) (k : FrameKind) : State :=
  { s with obs := { s.obs with queue := s.obs.queue.filter fun e => !decide (e.kind = k) } }

/-- The build of the standing entry of kind `k` at the time `now` finds nothing to send, and `u` is what it leaves: the
entry goes, an operation ends with its result, a POST or SYNC loses what it cannot carry, and a DROP has the decision
timer start anew where suspects are left (R80, R82, R127, R137, R144, R145). -/
def State.leavesNothing (s : State) (now : Time) (k : FrameKind) (u : State) : Prop :=
  let rest := s.withoutEntry k
  let ended := fun (o : PendingOp) (r : DoneResult) => s.ntq.arrive (.opDone o.kind.done r o.kind.slot?)
  match k with
  | .drop => s.dropsNobody ∧
      ((s.suspects = [] ∧ u = rest) ∨
        ∃ c first, s.hasConfig c ∧ s.firstSuspicion s.suspects first ∧ rest.restarted u now c first)
  | .claim => ∃ slot o, s.opu.op = some o ∧ o.kind = .claim slot ∧ (s.entry slot).parityGood = true ∧
      (s.entry slot).state ≠ .free ∧ (s.entry slot).state ≠ .orphaned ∧
      u = { rest with opu := { s.opu with op := none }, ntq := ended o .taken }
  | .yield => ∃ slot o, s.opu.op = some o ∧ o.kind = .yield slot ∧ (s.entry slot).parityGood = true ∧
      (s.entry slot).state ≠ .owned s.nct.station ∧
      u = { rest with opu := { s.opu with op := none }, ntq := ended o .aborted }
  | .post => ∃ o, s.opu.op = some o ∧ (∀ d ∈ s.opu.drafts, (s.entry d.slot).parityGood = true) ∧
      (∃ d ∈ s.opu.drafts, (s.entry d.slot).state ≠ .owned s.nct.station) ∧
      u = { rest with
        opu := {
          op := none,
          drafts := s.opu.drafts.filter fun d => decide ((s.entry d.slot).state = .owned s.nct.station) },
        ntq := ended o .aborted }
  | .sync => (∀ n ∈ s.rpe.answers, (s.entry n).parityGood = true ∧ (s.entry n).health ≠ .good) ∧
      u = { rest with rpe := { s.rpe with answers := [] } }
  | .ask => (∀ c, s.rpe.cycle = some c → s.wantedWithin c.first c.last = []) ∧ u = rest
  | .leave | .hello | .beat => False

/-- The node's own frame is accepted, or nobody else is a member after its own effect (R11). -/
def State.ownAccepts (s : State) (f : Frame) (heard : Bool) : Prop :=
  heard = true ∨ (s.membersGood ∧ ∀ n ∈ s.memberSet, n = s.nct.station.toNat ∨
    match f.payload with
    | .drop mask => mask.getLsbD n = true
    | _ => False)

/-- The lines, the store and the frame checker after the veto slot of a frame whose access has ended. -/
def State.slotsEnd (s t : State) (own : Option FrameKind) : Prop :=
  t.pbi = { s.pbi with
      shift := .slotsDone own, lines := .active, holdPck := false, pullHeard := false, pullVeto := false,
      busFreeTimer := 0, stuckPck := 0, stuckPdt := 0 } ∧
    t.fck.purpose = none ∧ t.sar = s.sar.handOver

/-- A frame whose body fits the bus: counts and lengths fit their fields, and the body is at most 152 bytes long
(R7, R19). -/
def Frame.fits (f : Frame) : Prop :=
  f.body.length ≤ 152 ∧
    match f.payload with
    | .post items => items.length < 256 ∧ ∀ i ∈ items, i.words.length < 256
    | .sync records => records.length < 256 ∧ ∀ r ∈ records, r.words.length < 256
    | _ => True

end Sys2Proof.Machine
end

