-- ==== Sys2Proof/Certificates/Slice0/Obligations.lean ====
section
/-!
DEFINITION. The statements. Each holds for every state, reached or not, that meets its own conditions.
-/

open Sys2Proof Sys2Proof.Machine

/-! ### The machine -/

/-- A step takes the command at the front of the queue and carries it out on the rest. On an empty queue one bit time
passes (R2, R4, R16, R92, R107, R157): local time counts whole milliseconds in every node state, the bus-free timer
counts while both lines are high and its 20th bit time clears the last-sender flag, a line's stuck timer counts while
it is low, and the PFAIL wait and the scrub timer count while they run; in HALTED the bus timers and the wait stand,
and nothing counts while NRST is low. The queue, the bit time of an empty one, the lines that carry bits and the rest
under NRST are the model's choices: log entries 1, 4, 20 and 21. -/
def Obligations.StepTakesTheFrontCommand : Prop :=
  (∀ (c : Instr) (rest : List Instr) (s : State),
    step { s with pending := c :: rest } = exec c { s with pending := rest }) ∧
  (∀ s : State, s.pending = [] → s.nct.nrstLow = true → step s = .next s) ∧
  ∀ s : State, s.pending = [] → s.nct.nrstLow = false →
    let bits := 125 * 2 ^ s.nct.rate.toNat
    let ms := (s.nct.subBits + 1) / bits
    step s = .next
      { s with
        nct := { s.nct with
          now := s.nct.now + BitVec.ofNat 32 ms, subBits := (s.nct.subBits + 1) % bits,
          pfailWait := if s.nct.node = .halted then s.nct.pfailWait else s.nct.pfailWait.map (· + 1) },
        pbi := if s.nct.node = .halted then s.pbi else
          match s.pbi.lines with
          | .high => { s.pbi with
              busFreeTimer := s.pbi.busFreeTimer + 1,
              lastSender := s.pbi.lastSender && decide (s.pbi.busFreeTimer + 1 < 20) }
          | .active => s.pbi
          | .low pck pdt => { s.pbi with
              stuckPck := if pck then s.pbi.stuckPck + 1 else s.pbi.stuckPck,
              stuckPdt := if pdt then s.pbi.stuckPdt + 1 else s.pbi.stuckPdt },
        scb := { s.scb with timer := s.scb.timer.map (· + ms) } }

/-- HARD_RESET (R110): every block at its reset value, the straps and the lines as sampled. The sampled levels
as operands are the model's choice: log entries 5 and 28. -/
def Obligations.HardResetSetsEveryBlock : Prop :=
  ∀ (pins : ResetPins) (nselLow : Bool) (s : State),
    exec (.hardReset pins nselLow) s = .next
      { State.reset with
        nct := { State.reset.nct with station := pins.station, rate := pins.rate },
        pbi := { State.reset.pbi with
          lines := if pins.pckLow || pins.pdtLow then .low pins.pckLow pins.pdtLow else .high },
        lpt := { State.reset.lpt with nsel := if nselLow then .lowSinceReset else .high },
        pending := s.pending }

/-- The values after a hard reset (R20, R42, R74, R110, R112, R133, R139, R156, R168, R178, R184, R191). -/
def Obligations.ResetStateHoldsTheSpecValues : Prop :=
  (∀ n, State.reset.entry n = {
      state := .unlearned, version := 0, length := 0, health := .unknown,
      wanted := false, unresolved := false, parityGood := true }) ∧
    (∀ row position, State.reset.dst.cell row position = { word := 0, flips := 0 }) ∧
    State.reset.dst.rowMap = [] ∧ State.reset.dst.spares = [256, 257, 258, 259] ∧
    State.reset.dst.struck = [] ∧ State.reset.dst.retired = [] ∧
    State.reset.sar.grant = none ∧ State.reset.sar.fckWaits = false ∧ State.reset.sar.lptWaits = false ∧
    State.reset.sar.scbWaits = false ∧
    State.reset.nct.node = .config ∧ State.reset.nct.config = none ∧ State.reset.nct.now = 0 ∧
    State.reset.nct.listenDeadline = none ∧ State.reset.nct.phase = .none ∧
    State.reset.nct.isolationCause = none ∧ State.reset.nct.haltCause = none ∧
    State.reset.nct.pfailLatch = false ∧ State.reset.nct.pfailWait = none ∧
    State.reset.pbi.shift = .idle ∧ State.reset.pbi.busFreeTimer = 0 ∧ State.reset.pbi.lastSender = false ∧
    State.reset.pbi.stuckPck = 0 ∧ State.reset.pbi.stuckPdt = 0 ∧ State.reset.pbi.stuckEpisode = false ∧
    (∀ n, State.reset.mbu.entry n =
      { state := .absent, deadline := none, suspectSince := none, parityGood := true }) ∧
    State.reset.mbu.decision = none ∧ State.reset.mbu.beatRef = none ∧ State.reset.mbu.provisional = 0 ∧
    State.reset.obs.queue = [] ∧ State.reset.obs.build = none ∧
    State.reset.rpe = { wanted := [], cycle := none, answers := [], due := none, unresolved := 0 } ∧
    State.reset.opu.op = none ∧ State.reset.opu.drafts = [] ∧
    State.reset.scb.pointer = 0 ∧ State.reset.scb.timer = none ∧ State.reset.scb.turn = none ∧
    State.reset.wch = [none, none, none, none] ∧
    State.reset.ntq.notices = [] ∧ State.reset.ntq.lost = false ∧
    State.reset.elg.entries = [] ∧ State.reset.elg.counter = 0 ∧
    State.reset.lpt.response = { code := 0x3C, number := 0, result := .ok, fields := [] } ∧
    State.reset.lpt.inHand = none ∧ State.reset.lpt.received = []

/-- RESET (R111, Table 2-6): a soft reset keeps the log, the row map, the spares, the marks and the contents of
retired rows, and is a hard reset in everything else. -/
def Obligations.SoftResetKeepsLogAndRows : Prop :=
  ∀ (pins : ResetPins) (s : State), s.portOpen →
    ∃ t, exec (.reset pins) s = .next t ∧
      t.elg = s.elg ∧ t.dst.rowMap = s.dst.rowMap ∧ t.dst.spares = s.dst.spares ∧
      t.dst.struck = s.dst.struck ∧ t.dst.retired = s.dst.retired ∧
      (Memory.wf s.dst.cells → ∀ row position, position < 16 →
        t.dst.cell row position =
          if s.dst.retired.contains row then s.dst.cell row position else { word := 0, flips := 0 }) ∧
      exec (.hardReset pins false) s = .next { t with dst := State.reset.dst, elg := State.reset.elg }

/-- The membership unit after either reset (R74). -/
def Obligations.ResetsEmptyTheMembershipUnit : Prop :=
  ∀ (pins : ResetPins) (nselLow : Bool) (s : State) (i : Instr),
    (i = .hardReset pins nselLow ∨ (i = .reset pins ∧ s.portOpen)) →
    ∃ t, exec i s = .next t ∧
      (∀ n, t.mbu.entry n = { state := .absent, deadline := none, suspectSince := none, parityGood := true }) ∧
      t.mbu.decision = none ∧ t.mbu.beatRef = none ∧ t.mbu.provisional = 0 ∧
      t.nct.config = none ∧ t.nct.node.participating = false

/-! ### The local port -/

/-- NSEL_FALL and REPEAT (R190, R192): the copy of the response goes out, then zeros, and up to 48 bytes are collected;
a transaction without a whole byte, and REPEAT, form no response. The result codes are those of Table 12-7 (R204). That
one row stands for the collected bytes of a transaction is the model's choice: log entry 4. -/
def Obligations.TransactionsReadTheResponseBuffer : Prop :=
  [ResultCode.ok, .illegal, .badLength, .wrongState, .range, .busy, .full, .empty, .notOwner, .notFree, .notReady,
    .damaged, .failed].map ResultCode.code = [0, 1, 2, 3, 4, 5, 6, 7, 8, 9, 10, 11, 12] ∧
  (∀ (bytes : List Byte) (s : State), s.nct.nrstLow = false →
    ∃ t, exec (.nselFall (.inProgress bytes)) s = .next t ∧
      t = { s with lpt := { s.lpt with nsel := .low s.lpt.response.bytes, received := bytes.take 48 } } ∧
      ∀ n, t.sdoByte n =
        some (([s.lpt.response.code, s.lpt.response.number, s.lpt.response.result.code] ++
          s.lpt.response.fields).getD n 0)) ∧
  (∀ s : State, s.nct.nrstLow = false → exec (.nselFall .withoutByte) s = .next s.raised) ∧
  ∀ s : State, s.portOpen → exec .repeatResponse s = .next s.raised

/-- The four tests of R193 in their order: an unknown code, in every node state; fewer bytes than the command needs
(R202); a node state or PFAIL latch that does not admit it (R197); a command in hand beside which it is not taken
(R195). A response repeats the command's code (R204, Table 11-3). -/
def Obligations.CommandTestsAnswerInTheirOrder : Prop :=
  [Command.repeatResponse, .status, .configure, .join, .leave, .read, .stage, .discard, .publish, .claim, .yieldSlot,
    .takeNotice, .peekLog, .takeLog, .takeCount, .members, .watch, .unwatch, .reset].map Command.code =
      [0, 1, 2, 3, 4, 5, 6, 7, 8, 9, 10, 11, 12, 13, 14, 15, 16, 17, 0x3C] ∧
  (∀ (code : Byte) (s : State), Instr.unknownCode code = true → s.portOpen →
    exec (.illegalCommand code) s = .next { s with lpt := { s.lpt with
      nsel := .high, received := [],
      response := { code := code, number := s.lpt.response.number + 1, result := .illegal, fields := [] } } }) ∧
  ∀ (i : Instr) (c : Command) (s : State), commandOf i = some c → s.portOpen →
    (bytesBrought i < bytesNeeded i → exec i s = .next (s.answered c .badLength [])) ∧
    (bytesNeeded i ≤ bytesBrought i → s.admits c = false → exec i s = .next (s.answered c .wrongState [])) ∧
    (bytesNeeded i ≤ bytesBrought i → s.admits c = true → s.lpt.inHand ≠ none → c.alongside = false →
      exec i s = .next (s.answered c .busy []))

/-- STATUS (R182, R198, R204, Tables 11-4, 12-5, 12-7 and 12-8): the 32 bytes of its fields with their codes, and the
lost flag reported and then cleared. That it answers from values whose parity mismatches is the model's choice (log
entry 19), and so is the 0 of the bits to which the table gives no meaning (log entry 41). -/
def Obligations.StatusReportsAndClearsTheLostFlag : Prop :=
  (∀ s : State, s.portOpen →
    exec .status s = .next { s.answered .status .ok s.statusFields with ntq := { s.ntq with lost := false } }) ∧
  [NodeState.config, .idle, .listening, .announcing, .catchup, .member, .leaving, .isolated, .halted].map NodeState.code =
    [0, 1, 2, 3, 4, 5, 6, 7, 8] ∧
  [Phase.none, .joining, .leaving, .pfailLeave].map Phase.code = [0, 1, 2, 3] ∧
  (∀ n, (OpKind.claim n).code = 1 ∧ (OpKind.yield n).code = 2) ∧ OpKind.publish.code = 3 ∧
  [HaltCause.pfail, .internalFault, .duplicateStation].map HaltCause.code = [1, 2, 3] ∧
  [IsolationCause.dropped, .noQuorum].map IsolationCause.code = [1, 2] ∧
  ∀ s : State,
    let b := fun i => s.statusFields.getD i 0
    s.statusFields.length = 32 ∧
    b 0 = s.nct.node.code ∧
    (b 1).toNat = 16 * s.nct.station.toNat + s.nct.rate.toNat ∧
    (∀ c, s.nct.config = some c →
      (b 2).toNat = 1 + 2 * c.enableHigh.toNat + 4 * c.enableLow.toNat + 8 * s.ntq.lost.toNat ∧
        b 3 = byteOf c.slotCode ∧ b 4 = byteOf c.silence ∧ b 5 ++ b 6 = BitVec.ofNat 16 c.beat ∧
        b 7 = byteOf c.scrub) ∧
    (s.nct.config = none →
      (b 2).toNat = 8 * s.ntq.lost.toNat ∧ b 3 = 0 ∧ b 4 = 0 ∧ b 5 = 0 ∧ b 6 = 0 ∧ b 7 = 0) ∧
    (s.opu.op = none → b 8 = 0 ∧ b 9 = 0 ∧ b 10 = 0) ∧
    (∀ o, s.opu.op = some o →
      b 8 = o.kind.code ∧ b 9 = byteOf (o.kind.slot?.getD 0) ∧ b 10 = byteOf o.onBus.toNat) ∧
    b 11 = s.nct.phase.code ∧
    (s.nct.phase = .none → b 12 = 0) ∧
    (∀ e, s.nct.phase = .joining → s.obs.find .hello = some e → b 12 = byteOf e.attempts) ∧
    (∀ e, s.nct.phase = .leaving ∨ s.nct.phase = .pfailLeave → s.obs.find .leave = some e →
      b 12 = byteOf e.attempts) ∧
    (s.nct.phase = .joining → (∀ e ∈ s.obs.queue, e.kind ≠ .hello) → b 12 = 0) ∧
    (s.nct.phase = .leaving ∨ s.nct.phase = .pfailLeave → (∀ e ∈ s.obs.queue, e.kind ≠ .leave) → b 12 = 0) ∧
    b 13 = (s.nct.isolationCause.map IsolationCause.code).getD 0 ∧
    b 14 = (s.nct.haltCause.map HaltCause.code).getD 0 ∧
    b 15 = byteOf s.opu.drafts.length ∧
    b 16 ++ b 17 = BitVec.ofNat 16 s.rpe.wanted.length ∧ b 18 ++ b 19 = BitVec.ofNat 16 s.rpe.unresolved ∧
    b 20 = byteOf s.dst.spares.length ∧ b 21 = byteOf s.obs.queue.length ∧
    (∀ e ∈ s.obs.queue, min 65535 (s.nct.now - e.queued).toNat ≤ (b 22 ++ b 23).toNat) ∧
    ((b 22 ++ b 23).toNat = 0 ∨ ∃ e ∈ s.obs.queue, (b 22 ++ b 23).toNat = min 65535 (s.nct.now - e.queued).toNat) ∧
    b 24 = byteOf s.ntq.notices.length ∧ b 25 = byteOf s.elg.entries.length ∧
    (s.nct.node = .config ∨ s.nct.node = .idle → b 26 = 0 ∧ b 27 = 0) ∧
    (s.nct.node = .listening ∨ s.nct.node = .announcing → b 26 ++ b 27 = s.mbu.provisional) ∧
    (s.nct.node.participating = true ∨ s.nct.node = .isolated ∨ s.nct.node = .halted →
      ∀ n, n < 16 → ((b 26 ++ b 27).getLsbD n = true ↔ (s.mbu.entry n).state ≠ .absent)) ∧
    b 28 ++ b 29 ++ b 30 ++ b 31 = s.nct.now

/-- CONFIGURE (R76, R93, R202): the configuration is stored with the beat interval clamped, or RANGE. -/
def Obligations.ConfigureStoresTheConfiguration : Prop :=
  ∀ (bhi blo silence slotCode scrub enables : Byte) (more : List Byte) (s : State), s.accepts .configure →
    exec (.configure (bhi :: blo :: silence :: slotCode :: scrub :: enables :: more)) s = .next
      (if 3 ≤ silence.toNat ∧ silence.toNat ≤ 15 ∧ slotCode.toNat ≤ 2 then
        { s.answered .configure .ok [] with nct := { s.nct with
            node := .idle,
            config := some {
              beat := max 10 (min 1000 (256 * bhi.toNat + blo.toNat)),
              silence := silence.toNat, slotCode := slotCode.toNat, scrub := scrub.toNat,
              enableHigh := enables.getLsbD 1, enableLow := enables.getLsbD 0, parityGood := true } } }
      else s.answered .configure .range [])

/-- JOIN (R95): LISTENING, with what isolation kept cleared. -/
def Obligations.JoinBeginsListening : Prop :=
  ∀ (c : NodeConfig) (s : State), s.accepts .join → s.hasConfig c →
    exec .join s = .next
      { s.answered .join .ok [] with
        nct := { s.nct with
          node := .listening, phase := .joining,
          listenDeadline := some (s.nct.now + BitVec.ofNat 32 (c.beat * c.silence + c.beat)),
          isolationCause := if s.nct.node = .isolated then none else s.nct.isolationCause },
        dir := if s.nct.node = .isolated then [] else s.dir,
        rpe := if s.nct.node = .isolated then { s.rpe with wanted := [], unresolved := 0 } else s.rpe,
        mbu := if s.nct.node = .isolated then
            { table := [], decision := none, beatRef := none, beatAsked := false, provisional := 0 }
          else { s.mbu with provisional := 0 } }

/-- LEAVE (R101): LEAVING, with the operation ended and its entry removed unless its frame is on the bus, the repair
work abandoned and a LEAVE entry placed; in LEAVING the answer is BUSY. An ASK or SYNC entry stays while its frame is
being transmitted, which the model reads as R5 does, up to the stop condition (log entry 44). -/
def Obligations.LeaveBeginsTheLeave : Prop :=
  ∀ s : State, s.accepts .leave → s.levelGood →
    (s.nct.node = .leaving → exec .leave s = .next (s.answered .leave .busy [])) ∧
    (s.nct.node ≠ .leaving → ∃ t, exec .leave s = .next t ∧
      t.nct = { s.nct with node := .leaving, phase := .leaving } ∧
      t.lpt = (s.answered .leave .ok []).lpt ∧
      t.rpe = { s.rpe with cycle := none, answers := [], due := none } ∧
      (match s.opu.op with
        | none => t.opu = s.opu ∧ t.ntq = s.ntq
        | some o =>
          if o.onBus then t.opu = s.opu ∧ t.ntq = s.ntq
          else t.opu = { s.opu with op := none } ∧ t.obs.holds o.kind.frame = false ∧
            t.ntq = s.ntq.arrive (.opDone o.kind.done .aborted o.kind.slot?)) ∧
      (s.obs.holds .leave = false →
        { kind := .leave, ref := .none, attempts := 0, queued := s.nct.now } ∈ t.obs.queue) ∧
      (∀ k, k = .ask ∨ k = .sync →
        let onBus := (∃ f, (s.pbi.shift = .sending f ∨ s.pbi.shift = .sendingPaused f) ∧ f.kind = k) ∨
          (s.pbi.shift = .slotsDone (some k) ∧ ∃ e ∈ s.obs.queue, e.kind = k ∧ e.attempts ≠ 0)
        (¬onBus → t.obs.holds k = false) ∧ (onBus → ∀ e ∈ s.obs.queue, e.kind = k → e ∈ t.obs.queue)) ∧
      (∀ e ∈ s.obs.queue, e.kind = .drop ∨ e.kind = .beat → e ∈ t.obs.queue) ∧
      t.dir = s.dir ∧ t.dst = s.dst ∧ t.mbu = s.mbu ∧ t.scb = s.scb ∧ t.wch = s.wch ∧ t.elg = s.elg ∧
      t.pbi = s.pbi ∧ t.pending = s.pending)

/-- DISCARD (R152), and PUBLISH (R147, R153): the record and the POST entry, or EMPTY, or BUSY. -/
def Obligations.DiscardAndPublishActOnTheDrafts : Prop :=
  (∀ s : State, s.accepts .discard →
    exec .discard s = .next
      (if s.opu.op.map (·.kind) = some .publish then s.answered .discard .busy []
      else { s.answered .discard .ok [] with opu := { s.opu with drafts := [] } })) ∧
  ∀ s : State, s.accepts .publish →
    (s.opu.drafts = [] → exec .publish s = .next (s.answered .publish .empty [])) ∧
    (s.opu.drafts ≠ [] → s.opu.op ≠ none → exec .publish s = .next (s.answered .publish .busy [])) ∧
    (s.opu.drafts ≠ [] → s.opu.op = none → (∀ e ∈ s.obs.queue, e.kind.isOperation = false) →
      exec .publish s = .next
        { s.answered .publish .ok [] with
          opu := { s.opu with op := some { kind := .publish, onBus := false } },
          obs := { s.obs with queue := s.obs.queue ++
            [{ kind := .post, ref := .operation, attempts := 0, queued := s.nct.now }] } })

/-- READ, STAGE, CLAIM and YIELD (R40, R147, R194): RANGE, or BUSY beside an operation, or the command in hand. -/
def Obligations.StoreCommandsComeInHand : Prop :=
  ∀ (c : NodeConfig) (slot : Byte) (s : State), s.hasConfig c →
    (∀ (view : Byte) (more : List Byte), s.accepts .read →
      exec (.read (slot :: view :: more)) s = .next
        (if slot.toNat < c.activeSlots ∧ view.toNat ≤ 1 then
          { s.raised with
            lpt := { s.raised.lpt with inHand := some (.read slot.toNat (view == 1)) },
            sar := s.sar.request .lpt }
        else s.answered .read .range [])) ∧
    (∀ (words : List Word) (more : List Byte), s.accepts .stage → words.length ≤ 22 →
      exec (.stage (slot :: byteOf words.length :: (wordsBytes words ++ more))) s = .next
        (if slot.toNat < c.activeSlots ∧ words.length ≤ 16 then
          { s.raised with
            lpt := { s.raised.lpt with inHand := some (.stage slot.toNat words) },
            sar := s.sar.request .lpt }
        else s.answered .stage .range [])) ∧
    (∀ more : List Byte, s.accepts .claim →
      exec (.claim (slot :: more)) s = .next
        (if c.activeSlots ≤ slot.toNat then s.answered .claim .range []
        else if s.opu.op.isSome then s.answered .claim .busy []
        else { s.raised with
          lpt := { s.raised.lpt with inHand := some (.claim slot.toNat) },
          sar := s.sar.request .lpt })) ∧
    (∀ more : List Byte, s.accepts .yieldSlot →
      exec (.yieldSlot (slot :: more)) s = .next
        (if c.activeSlots ≤ slot.toNat then s.answered .yieldSlot .range []
        else if s.opu.op.isSome then s.answered .yieldSlot .busy []
        else { s.raised with
          lpt := { s.raised.lpt with inHand := some (.yield slot.toNat) },
          sar := s.sar.request .lpt }))

/-- COMMAND_IN_HAND_GRANTED (R194): WRONG_STATE where the state no longer admits the command in hand. For a READ
(R36–R38, R41, R113–R115, R120, R130, R160–R163, Tables 2-5 and 12-4): the snapshot header with a draft, with the words
of a GOOD slot, or with no words and NOT_READY, FAILED or DAMAGED. Every corrected word in use is written back and
reported, and the words are answered as they are delivered; where a word is uncorrectable, the lowest such position
damages the slot, the repair engine takes its steps, and the answer is DAMAGED with the health after the damage
handling, by the model's reading of section 8.4.1 also where no spare is left (log entry 13). That the repair engine's
steps wait for a give-up that is due is the model's reading too (log entry 22). Which outcome a code word gives is the
statement DisturbedWordsAreCorrectedStruckOrRetired. -/
def Obligations.GrantedReadAnswersBySlotState : Prop :=
  (∀ (h : InHand) (s : State), s.nct.nrstLow = false → s.lpt.inHand = some h → s.sar.grant = some .lpt →
    s.admits h.command = false →
    exec .commandInHandGranted s = .next (s.handEnded h.command .wrongState [])) ∧
  (∀ (slot : Nat) (draftView : Bool) (s : State), s.handReady (.read slot draftView) →
    (s.entry slot).parityGood = true →
    (∀ d, draftView = true → s.opu.draft slot = some d →
      exec .commandInHandGranted s = .next (s.handEnded .read .ok (s.readFields slot d.words))) ∧
    ((draftView = false ∨ s.opu.draft slot = none) →
      ((s.entry slot).state = .unlearned ∨ (s.entry slot).health = .unknown →
        exec .commandInHandGranted s = .next (s.handEnded .read .notReady (s.readFields slot []))) ∧
      ((s.entry slot).state ≠ .unlearned → (s.entry slot).health = .failed →
        exec .commandInHandGranted s = .next (s.handEnded .read .failed (s.readFields slot []))) ∧
      ((s.entry slot).state ≠ .unlearned → (s.entry slot).health = .damaged →
        exec .commandInHandGranted s = .next (s.handEnded .read .damaged (s.readFields slot []))) ∧
      (∀ row, (s.entry slot).state ≠ .unlearned → (s.entry slot).health = .good →
        s.dst.rowInUse slot = some row →
        let words := (List.range (s.entry slot).length).map fun p => (s.dst.cell row p).word
        let delivered := (List.range (s.entry slot).length).map fun p => (s.dst.cell row p).delivers
        ((∀ p, p < (s.entry slot).length → (s.dst.cell row p).flips = 0) →
          exec .commandInHandGranted s = .next (s.handEnded .read .ok (s.readFields slot words))) ∧
        ((s.entry slot).length ≤ 16 → s.canonical → ∃ u, s.readThrough u slot row ∧
          ((∀ p, p < (s.entry slot).length → (s.dst.cell row p).decode ≠ .uncorrectable) →
            exec .commandInHandGranted s = .next
              { s.handEnded .read .ok (s.readFields slot delivered) with dst := u.dst, elg := u.elg }) ∧
          (∀ c w, s.lowestBad slot row w → s.hasConfig c → s.nct.node ≠ .halted →
            ∃ t, exec .commandInHandGranted s = .next t ∧ u.damagedTo t c slot row w ∧
              t.lpt = (s.handEnded .read .damaged (t.readFields slot [])).lpt ∧ t.sar = s.sar.handOver ∧
              t.scb = s.scb))))) ∧
  ∀ (slot : Nat) (words : List Word) (s : State),
    let b := fun i => (s.readFields slot words).getD i 0
    (s.readFields slot words).length = 10 + 2 * words.length ∧
    b 0 = s.nct.node.code ∧ b 1 = byteOf slot ∧
    b 2 = (match (s.entry slot).state with
      | .unlearned => 0
      | .free => 1
      | .owned _ => 2
      | .orphaned => 3) ∧
    b 3 = (match (s.entry slot).state with
      | .owned o => o.setWidth 8
      | _ => 0xFF) ∧
    b 4 ++ b 5 = (s.entry slot).version ∧ b 6 = byteOf (s.entry slot).length ∧
    b 7 = (match (s.entry slot).health with
      | .good => 0
      | .damaged => 1
      | .unknown => 2
      | .failed => 3) ∧
    (b 8).toNat = (s.opu.draft slot).isSome.toNat ∧ b 9 = byteOf words.length ∧
    ∀ (i : Nat) (w : Word), words[i]? = some w → b (10 + 2 * i) ++ b (11 + 2 * i) = w

/-- COMMAND_IN_HAND_GRANTED for a STAGE (Table 7-5, R151): NOT_OWNER, BUSY, FULL, or the draft added or replaced in
its place. -/
def Obligations.GrantedStageKeepsTheDraft : Prop :=
  ∀ (slot : Nat) (words : List Word) (s : State), s.handReady (.stage slot words) →
    (s.entry slot).parityGood = true →
    exec .commandInHandGranted s = .next
      (if (s.entry slot).state ≠ .owned s.nct.station then s.handEnded .stage .notOwner []
      else if s.opu.op.map (·.kind) = some .publish then s.handEnded .stage .busy []
      else if 4 ≤ s.opu.drafts.length ∧ s.opu.draft slot = none then s.handEnded .stage .full []
      else
        let drafts := if s.opu.draft slot = none then s.opu.drafts ++ [{ slot := slot, words := words }]
          else s.opu.drafts.map fun d => if d.slot = slot then { slot := slot, words := words } else d
        { s.handEnded .stage .ok [] with opu := { s.opu with drafts := drafts } })

/-- COMMAND_IN_HAND_GRANTED for a CLAIM or YIELD (R147, R148, R150): NOT_FREE or NOT_OWNER, or the record and the
entry of the operation. -/
def Obligations.GrantedClaimOrYieldBegins : Prop :=
  ∀ (slot : Nat) (s : State), (s.entry slot).parityGood = true →
    (∀ e ∈ s.obs.queue, e.kind.isOperation = false) →
    (s.handReady (.claim slot) →
      exec .commandInHandGranted s = .next
        (if (s.entry slot).state = .free ∨ (s.entry slot).state = .orphaned then
          { s.handEnded .claim .ok [] with
            opu := { s.opu with op := some { kind := .claim slot, onBus := false } },
            obs := { s.obs with queue := s.obs.queue ++
              [{ kind := .claim, ref := .operation, attempts := 0, queued := s.nct.now }] } }
        else s.handEnded .claim .notFree [])) ∧
    (s.handReady (.yield slot) →
      exec .commandInHandGranted s = .next
        (if (s.entry slot).state = .owned s.nct.station then
          { s.handEnded .yieldSlot .ok [] with
            opu := { s.opu with op := some { kind := .yield slot, onBus := false } },
            obs := { s.obs with queue := s.obs.queue ++
              [{ kind := .yield, ref := .operation, attempts := 0, queued := s.nct.now }] } }
        else s.handEnded .yieldSlot .notOwner []))

/-- TAKE_NOTICE (R181, R203, R204): the oldest notice of the highest severity present, as its six-byte record (Table
12-6) with the codes of Tables 12-7 and 12-8, or EMPTY. NIRQ (R93, R108, R110, R183): low exactly where NRST is high
and a notice stands that is CRITICAL, or HIGH or LOW under its enable. That a parity mismatch of the enables is found
at the end of an event which changed the queue, and in no HALTED node, is the model's choice (log entry 19); that a
halted node keeps its phase and listen deadline is its reading (log entry 16). -/
def Obligations.TakeNoticeTakesTheHighest : Prop :=
  (∀ s : State, s.portOpen →
    (s.ntq.notices = [] → exec .takeNotice s = .next (s.answered .takeNotice .empty [])) ∧
    (∀ (before rest : List Notice) (n : Notice), s.ntq.notices = before ++ n :: rest →
      (∀ m ∈ before, m.severity ≠ n.severity) →
      (∀ m ∈ s.ntq.notices, (m.severity = .critical → n.severity = .critical) ∧
        (m.severity = .high → n.severity ≠ .low)) →
      let t := { s.answered .takeNotice .ok (byteOf (before ++ rest).length :: n.bytes) with
        ntq := { s.ntq with notices := before ++ rest } }
      (s.levelGood ∨ s.nct.node = .halted ∨ (∀ m ∈ before ++ rest, m.severity = .critical) →
        exec .takeNotice s = .next t) ∧
      (¬s.levelGood → s.nct.node ≠ .halted → (∃ m ∈ before ++ rest, m.severity ≠ .critical) →
        ∃ u, exec .takeNotice s = .next u ∧ t.haltedFrom u .internalFault
          [(.internalFault, { slot := none, station := none, word := none, bit := none })]))) ∧
  (∀ n : Notice, n.recordHolds) ∧
  [HaltCause.pfail, .internalFault, .duplicateStation].map HaltCause.code = [1, 2, 3] ∧
  [IsolationCause.dropped, .noQuorum].map IsolationCause.code = [1, 2] ∧
  [DoneKind.claim, .yield, .publish, .join, .leave].map DoneKind.code = [1, 2, 3, 4, 5] ∧
  [DoneResult.ok, .taken, .refused, .unheard, .aborted, .mismatch].map DoneResult.code = [0, 1, 2, 3, 4, 5] ∧
  [ChangeCause.posted, .claimed, .yielded, .repaired].map ChangeCause.code = [1, 2, 3, 4] ∧
  [LimitDirection.left, .returned].map LimitDirection.code = [0, 1] ∧
  [MemberState.absent, .present, .suspect].map MemberState.code = [0, 1, 2] ∧
  ∀ s : State, s.nirqLow = true ↔ s.nct.nrstLow = false ∧ ∃ n ∈ s.ntq.notices,
    n.severity = .critical ∨ (n.severity = .high ∧ ∃ c, s.nct.config = some c ∧ c.enableHigh = true) ∨
      (n.severity = .low ∧ ∃ c, s.nct.config = some c ∧ c.enableLow = true)

/-- PEEK_LOG, TAKE_LOG and TAKE_COUNT (R186, R187): the oldest entry as its ten-byte record (R203), with the error
kinds of Table 12-8, and the counter. -/
def Obligations.LogCommandsReadTheOldestEntry : Prop :=
  (∀ s : State, s.portOpen → s.elg.entries = [] →
    exec .peekLog s = .next (s.answered .peekLog .empty []) ∧
    exec .takeLog s = .next (s.answered .takeLog .empty [])) ∧
  (∀ (s : State) (e : LogEntry) (rest : List LogEntry), s.portOpen → s.elg.entries = e :: rest →
    exec .peekLog s = .next (s.answered .peekLog .ok (byteOf (e :: rest).length :: e.bytes)) ∧
    exec .takeLog s = .next { s.answered .takeLog .ok (byteOf rest.length :: e.bytes) with
      elg := { s.elg with entries := rest } }) ∧
  (∀ e : LogEntry, e.recordHolds) ∧
  [ErrorKind.eccCorrected, .eccUncorrectable, .rowRetired, .sparesExhausted, .frameCrc, .frameFormat, .frameTruncated,
    .nonmemberFrame, .configMismatch, .frameRefused, .frameUnheard, .busStuck, .duplicateStation, .internalFault].map
      ErrorKind.code = [1, 2, 3, 4, 5, 6, 7, 8, 9, 10, 11, 12, 13, 14] ∧
  (∀ s : State, s.portOpen →
    exec .takeCount s = .next { s.answered .takeCount .ok [byteOf s.elg.counter] with
      elg := { s.elg with counter := 0 } })

/-- MEMBERS (R90): each station's state and the milliseconds to its deadline, 0 where none is kept or it has passed.
What serial arithmetic makes of a deadline kept far beyond its passing is the model's reading: log entry 34. -/
def Obligations.MembersReportsTheTable : Prop :=
  ∀ s : State, s.accepts .members → s.membersGood →
    exec .members s = .next (s.answered .members .ok s.membersFields) ∧
      s.membersFields.length = 37 ∧ [MemberState.absent, .present, .suspect].map MemberState.code = [0, 1, 2] ∧
      s.membersFields[0]? = some s.nct.node.code ∧
      (∀ n, n < 16 → ((s.membersFields.getD (1 + n / 4) 0).toNat / 4 ^ (3 - n % 4)) % 4 =
        (s.mbu.entry n).state.code.toNat) ∧
      (∀ n, n < 16 → s.membersFields.getD (5 + 2 * n) 0 ++ s.membersFields.getD (6 + 2 * n) 0 =
        BitVec.ofNat 16 (s.msLeft n)) ∧
      (∀ n d, (s.mbu.entry n).state = .present → (s.mbu.entry n).deadline = some d →
        s.msLeft n = if (d - s.nct.now).toNat ≤ 15000 then (d - s.nct.now).toNat else 0) ∧
      (∀ n, (s.mbu.entry n).state ≠ .present ∨ (s.mbu.entry n).deadline = none → s.msLeft n = 0)

/-- WATCH and UNWATCH (R169–R171). -/
def Obligations.WatchAndUnwatchSetTheirEntry : Prop :=
  (∀ (index slot phi plo indicator word lhi llo hhi hlo : Byte) (more : List Byte) (c : NodeConfig) (s : State),
    s.accepts .watch → s.hasConfig c → indicator ≠ 0 →
    exec (.watch (index :: slot :: phi :: plo :: indicator :: word :: lhi :: llo :: hhi :: hlo :: more)) s = .next
      (let period := 256 * phi.toNat + plo.toNat
       if index.toNat ≤ 3 ∧ slot.toNat < c.activeSlots ∧ (period = 0 ∨ (10 ≤ period ∧ period ≤ 60000)) ∧
          word.toNat ≤ 15 ∧ 256 * lhi.toNat + llo.toNat ≤ 256 * hhi.toNat + hlo.toNat then
        { s.answered .watch .ok [] with wch := s.wch.set index.toNat (some {
            slot := slot.toNat,
            age := if period = 0 then none
              else some { period := period, deadline := s.nct.now + BitVec.ofNat 32 period, fired := false },
            limit := some { word := word.toNat, low := lhi ++ llo, high := hhi ++ hlo, outside := false } }) }
      else s.answered .watch .range [])) ∧
  (∀ (index slot phi plo : Byte) (more : List Byte) (c : NodeConfig) (s : State),
    s.accepts .watch → s.hasConfig c →
    exec (.watch (index :: slot :: phi :: plo :: 0 :: more)) s = .next
      (let period := 256 * phi.toNat + plo.toNat
       if index.toNat ≤ 3 ∧ slot.toNat < c.activeSlots ∧ 10 ≤ period ∧ period ≤ 60000 then
        { s.answered .watch .ok [] with wch := s.wch.set index.toNat (some {
            slot := slot.toNat,
            age := some { period := period, deadline := s.nct.now + BitVec.ofNat 32 period, fired := false },
            limit := none }) }
      else s.answered .watch .range [])) ∧
  (∀ (index : Byte) (more : List Byte) (s : State), s.accepts .unwatch →
    exec (.unwatch (index :: more)) s = .next
      (if index.toNat ≤ 3 then { s.answered .unwatch .ok [] with wch := s.wch.set index.toNat none }
      else s.answered .unwatch .range []))

/-! ### The pins -/

/-- NRST_HELD_LOW (R110, R190): the lines and NIRQ are released, and what is in progress is abandoned. What
stands inside the node meanwhile is the model's reading: log entry 21. -/
def Obligations.HeldResetReleasesThePins : Prop :=
  ∀ s : State, ∃ t, exec .nrstHeldLow s = .next t ∧
    t.nct = { s.nct with nrstLow := true } ∧ t.nirqLow = false ∧ (∀ n, t.sdoByte n = none) ∧
    t.pbi.shift = .idle ∧ t.pbi.holdPck = false ∧ t.pbi.pullHeard = false ∧ t.pbi.pullVeto = false ∧
    t.fck = { inbound := none, purpose := none } ∧ t.sar.grant = none ∧ t.lpt.inHand = none ∧
    t.lpt.response = s.lpt.response ∧
    t.dir = s.dir ∧ t.dst = s.dst ∧ t.mbu = s.mbu ∧ t.obs.queue = s.obs.queue ∧ t.obs.build = none ∧
    t.rpe = s.rpe ∧ t.opu = s.opu ∧
    t.scb = s.scb ∧ t.wch = s.wch ∧ t.ntq = s.ntq ∧ t.elg = s.elg ∧ t.pending = s.pending

/-- PFAIL_EDGE and PFAIL_WAIT_EXPIRY (R106, R107): outside the participating states the node halts; in them it begins
the power-fail leave; a second edge, or one in HALTED, does nothing; a node that is not transmitting halts when its
wait reaches 2048. Time brought up to the deadline is the model's choice (log entry 2), and so are the halt of a node
whose wait passed 2048 during a transmission that an arbitration loss then ended (log entry 36), and the give-up or
build access that is let go at the edge (log entry 53). The model's readings are that a halted node keeps its phase and
listen deadline (log entry 16), and that the lines stand until a row says that they are high (log entry 42). -/
def Obligations.PowerFailHaltsOrLeaves : Prop :=
  (∀ s : State, s.nct.node = .halted ∨ s.nct.pfailLatch = true → exec .pfailEdge s = .next s) ∧
  (∀ s : State, s.running → s.nct.pfailLatch = false → s.nct.node.participating = false →
    ∃ t, exec .pfailEdge s = .next t ∧
      State.haltedFrom { s with nct := { s.nct with pfailLatch := true } } t .pfail []) ∧
  (∀ s : State, s.running → s.nct.pfailLatch = false → s.nct.node.participating = true → s.levelGood →
    ∃ t, exec .pfailEdge s = .next t ∧
      t.nct = { s.nct with pfailLatch := true, phase := .pfailLeave, pfailWait := some 0 } ∧
      t.ntq = s.ntq.arriveAll (s.opAborted ++ s.leaveAborted) ∧
      t.obs = { queue := [{ kind := .leave, ref := .none, attempts := 0, queued := s.nct.now }], build := none } ∧
      t.opu = { s.opu with op := none } ∧
      t.rpe = { s.rpe with cycle := none, answers := [], due := none } ∧
      t.mbu = { s.mbu with decision := none, beatRef := none, beatAsked := false } ∧
      t.scb = { s.scb with timer := none, turn := none } ∧
      t.fck = { inbound := none, purpose := none } ∧
      t.pbi = { s.pbi with shift := t.pbi.shift, holdPck := false, pullHeard := false, pullVeto := false } ∧
      t.pbi.shift = (if s.pbi.shift.transmitting then .idle else s.pbi.shift) ∧
      t.dir = s.dir ∧ t.dst = s.dst ∧ t.wch = s.wch ∧ t.elg = s.elg ∧ t.lpt = s.lpt ∧ t.pending = s.pending) ∧
  ∀ (n : Nat) (s : State), s.running → s.nct.pfailWait = some n → s.pbi.shift.transmitting = false →
    ∃ t, exec .pfailWaitExpiry s = .next t ∧
      State.haltedFrom (s.elapse (2048 - n)) t .pfail [] ∧ t.nct.pfailWait = some (max 2048 n)

/-- DISTURBANCE (R27, R29, R39): the disturbed bits of one code word flip, or the parity of one entry
mismatches; a cell that does not exist is a fault. The targets beyond a code word, the parity they leave and the
fault are the model's choice: log entries 7, 8 and 29. -/
def Obligations.DisturbanceChangesStoredBits : Prop :=
  (∀ (row position : Nat) (flips : BitVec 22) (s : State), s.canonical → row < 260 → position < 16 →
    ∃ t, exec (.disturbance (.cell row position flips)) s = .next t ∧
      t = { s with dst := t.dst } ∧ t.dst = { s.dst with cells := t.dst.cells } ∧
      ∀ r p, p < 16 → t.dst.cell r p =
        if r = row ∧ p = position then
          { s.dst.cell r p with flips := (s.dst.cell r p).flips ^^^ flips }
        else s.dst.cell r p) ∧
  (∀ (row position : Nat) (flips : BitVec 22) (s : State), ¬(row < 260 ∧ position < 16) →
    exec (.disturbance (.cell row position flips)) s = .fault (.noSuchCell row position)) ∧
  (∀ (slot : Byte) (bits : EntryBits) (s : State), s.canonical →
    ∃ t, exec (.disturbance (.entry slot bits)) s = .next t ∧ t = { s with dir := t.dir } ∧
      (t.entry slot.toNat).parityGood = false ∧ ∀ n, n ≠ slot.toNat → t.entry n = s.entry n) ∧
  (∀ (n : Station) (s : State), s.canonical →
    ∃ t, exec (.disturbance (.member n)) s = .next t ∧ t = { s with mbu := t.mbu } ∧
      (t.mbu.entry n.toNat).parityGood = false ∧ ∀ m, m ≠ n.toNat → t.mbu.entry m = s.mbu.entry m) ∧
  (∀ (c : NodeConfig) (s : State), s.nct.config = some c →
    exec (.disturbance .config) s = .next
      { s with nct := { s.nct with config := some { c with parityGood := false } } })

/-- FAULT_CHECKER_ALARM (R108, R109, R188): INTERNAL_FAULT is logged and the node halts; a halted node only logs. The
model's readings are the log of a halted node (log entry 25) and the phase and the listen deadline it keeps (log entry
16). -/
def Obligations.FaultCheckerAlarmHalts : Prop :=
  (∀ s : State, s.running →
    ∃ t, exec .faultCheckerAlarm s = .next t ∧
      s.haltedFrom t .internalFault
        [(.internalFault, { slot := none, station := none, word := none, bit := none })]) ∧
  (∀ s : State, s.nct.nrstLow = false → s.nct.node = .halted →
    exec .faultCheckerAlarm s = .next { s with elg := s.elg.take {
      kind := .internalFault, time := s.nct.now,
      fields := { slot := none, station := none, word := none, bit := none } } })

/-! ### The bus: starting and receiving -/

/-- BUS_FREE (R4, R5, R82, R87, R97, R116, R127, R135, R136, R140, R144, R145, R154): the standing entry of lowest code
is built, whatever its kind, and its start condition given; where another node's start was seen first the build stays
in hand, and a build in hand is started without another. A build whose recheck leaves nothing to send removes its
entry, with the end of its operation, and the next entry is offered as if the first had never stood; with no entry
nothing starts. Where a DROP names nobody while other stations are SUSPECT, the decision timer starts anew from the
earliest suspicion (R80); where that time has passed the decision is taken at once, with a new DROP entry that is
offered next, or with the node's isolation. Time brought up to the free count, the operand, and the build in the same
step are the model's choices (log entries 2, 9 and 10); the decision and the new DROP entry in the same step are its
readings (log entries 26 and 30), and so is the parity of the entries that isolation clears (log entry 23). That
isolation lets a give-up access go is its choice (log entry 53). A build that needs the store while a give-up access is
held takes it over: the give-up is made first, and the frame is then built and started (R121, R122). -/
def Obligations.BusFreeStartsTheLowestEntry : Prop :=
  (∀ (p : Payload) (d : DueGiveUp) (c : NodeConfig) (s : State), s.canonical →
    State.mayStart { s.withoutDue with
      fck := { s.fck with purpose := none },
      sar := { grant := none, fckWaits := false, lptWaits := false, scbWaits := false } } p.kind →
    p.kind.needsStore = true → s.builds p → s.fck.purpose = some .giveUp → s.sar.grant = some .fck →
    s.rpe.due = some d → s.entriesGood → s.hasConfig c →
    ∃ t, exec (.busFree false) s = .next t ∧
      State.givenUp
        { s with nct := { s.nct with now := t.nct.now, subBits := t.nct.subBits, pfailWait := t.nct.pfailWait } }
        t c (d.slots.filter fun n => s.rpe.wanted.contains n) ∧
      t.pbi.shift = .sending { sender := s.nct.station, payload := p } ∧ t.pbi.lines = .active ∧
      t.pbi.lastSender = false ∧ t.obs.build = none ∧
      t.opu = (if p.kind.isOperation then
        { s.opu with op := s.opu.op.map fun o => { o with onBus := true } } else s.opu) ∧
      t.fck = { s.fck with purpose := none } ∧ t.sar = s.sar.handOver ∧
      t.dst = s.dst ∧ t.mbu = s.mbu ∧ t.wch = s.wch ∧ t.elg = s.elg ∧ t.lpt = s.lpt ∧ t.pending = s.pending) ∧
  (∀ (p : Payload) (s : State), s.mayStart p.kind → s.builds p →
    ∃ t, exec (.busFree false) s = .next t ∧
      t.pbi.shift = .sending { sender := s.nct.station, payload := p } ∧ t.pbi.lines = .active ∧
      t.pbi.lastSender = false ∧ t.obs = s.obs ∧
      t.opu = (if p.kind.isOperation then
        { s.opu with op := s.opu.op.map fun o => { o with onBus := true } } else s.opu) ∧
      t.rpe = (match p with
        | .ask first _ count => { s.rpe with
            cycle := s.rpe.cycle.map fun c => { c with sent := some (first.toNat, count.toNat) } }
        | _ => s.rpe) ∧
      t.nct = { s.nct with
        now := t.nct.now, subBits := t.nct.subBits, pfailWait := t.nct.pfailWait } ∧
      t.dir = s.dir ∧ t.dst = s.dst ∧ t.mbu = s.mbu ∧ t.wch = s.wch ∧ t.ntq = s.ntq ∧ t.elg = s.elg ∧
      t.lpt = s.lpt ∧ t.sar = s.sar ∧ t.fck = s.fck ∧ t.pending = s.pending) ∧
  (∀ (p : Payload) (s : State), s.mayStart p.kind → s.builds p →
    ∃ t, exec (.busFree true) s = .next t ∧ t.pbi.shift = .idle ∧
      t.obs = { s.obs with build := some { sender := s.nct.station, payload := p } } ∧ t.opu = s.opu ∧
      t.dir = s.dir ∧ t.dst = s.dst ∧ t.mbu = s.mbu ∧ t.wch = s.wch ∧ t.ntq = s.ntq ∧ t.elg = s.elg ∧
      t.lpt = s.lpt ∧ t.sar = s.sar ∧ t.fck = s.fck) ∧
  (∀ (startSeen : Bool) (k : FrameKind) (s u : State), s.mayStart k → s.levelGood → s.leavesNothing s.freeTime k u →
    exec (.busFree startSeen) s = exec (.busFree startSeen) u) ∧
  (∀ (startSeen : Bool) (c : NodeConfig) (first : Time) (s : State), s.canonical → s.mayStart .drop → s.hasConfig c →
    s.dropsNobody → s.firstSuspicion s.suspects first →
    passed s.freeTime (first + BitVec.ofNat 32 c.beat) → ¬s.hasQuorum →
    ∃ t, exec (.busFree startSeen) s = .next t ∧ t.nct.now = s.freeTime ∧
      State.isolatedFrom
        { s with nct := { s.nct with now := t.nct.now, subBits := t.nct.subBits, pfailWait := t.nct.pfailWait } }
        t .noQuorum) ∧
  (∀ (startSeen : Bool) (s : State), s.running → s.pbi.mayIdle = true → s.obs = { queue := [], build := none } →
    s.fck.purpose ≠ some .build →
    ∃ t, exec (.busFree startSeen) s = .next t ∧ t.pbi.shift = .idle ∧ t.pbi.lastSender = false ∧
      t = { s with nct := t.nct, pbi := t.pbi, scb := t.scb } ∧
      t.nct = { s.nct with now := t.nct.now, subBits := t.nct.subBits, pfailWait := t.nct.pfailWait }) ∧
  ∀ (f : Frame) (s : State), s.running → s.pbi.mayIdle = true → s.obs.build = some f →
    ∃ t, exec (.busFree false) s = .next t ∧ t.pbi.shift = .sending f ∧ t.obs = { s.obs with build := none } ∧
      t.opu = (if f.kind.isOperation then
        { s.opu with op := s.opu.op.map fun o => { o with onBus := true } } else s.opu) ∧
      t.dir = s.dir ∧ t.dst = s.dst ∧ t.mbu = s.mbu ∧ t.rpe = s.rpe ∧ t.wch = s.wch ∧ t.ntq = s.ntq ∧
      t.elg = s.elg ∧ t.lpt = s.lpt ∧ t.sar = s.sar ∧ t.fck = s.fck

/-- START_CONDITION outside a frame and ARBITRATION_LOST (R3, R5, R6, R17, R101, R137): a start condition discards a
build in hand and the node receives; a loss in the header makes the sender a receiver, and its entry stays, except that
an operation's goes in LEAVING; a loss after the header has found a duplicate, and the node halts. That a halted node
keeps its phase and listen deadline is the model's reading (log entry 16), and that the operand of a loss may name any
bit after the header is its choice (log entry 9). -/
def Obligations.StartsAndLossesMakeAReceiver : Prop :=
  (∀ (header : Option Byte) (s : State), s.running → s.pbi.shift.inFrame = false →
    ¬((∃ k, s.pbi.shift = .slotsDone (some k)) ∧ s.nct.phase = .pfailLeave) → s.fck.purpose ≠ some .build →
    exec (.startCondition header) s = .next
      { s with
        obs := { s.obs with build := none },
        pbi := { s.pbi with
          shift := .receiving, lines := .active, busFreeTimer := 0, stuckPck := 0, stuckPdt := 0 } }) ∧
  ∀ (bit : Nat) (f : Frame) (s : State), s.running → s.pbi.shift = .sending f →
    (bit < 8 → ¬(s.nct.node = .leaving ∧ f.kind.isOperation = true) →
      exec (.arbitrationLost bit) s = .next
        { s with
          pbi := { s.pbi with shift := .receiving },
          opu := if s.obs.holds f.kind && f.kind.isOperation then
              { s.opu with op := s.opu.op.map fun o => { o with onBus := false } }
            else s.opu }) ∧
    (∀ o, bit < 8 → s.nct.node = .leaving → f.kind.isOperation = true → s.obs.holds f.kind = true →
      s.opu.op = some o → s.levelGood →
      ∃ t, exec (.arbitrationLost bit) s = .next t ∧ t.pbi = { s.pbi with shift := .receiving } ∧
        t.obs.queue = s.obs.queue.filter (fun e => !decide (e.kind = f.kind)) ∧
        t.opu = { s.opu with op := none } ∧
        t.ntq = s.ntq.arrive (.opDone o.kind.done .aborted o.kind.slot?) ∧
        t.nct = s.nct ∧ t.dir = s.dir ∧ t.dst = s.dst ∧ t.mbu = s.mbu ∧ t.rpe = s.rpe ∧ t.wch = s.wch ∧
        t.elg = s.elg ∧ t.lpt = s.lpt ∧ t.sar = s.sar) ∧
    (8 ≤ bit → ∃ t, exec (.arbitrationLost bit) s = .next t ∧
      s.haltedFrom t .duplicateStation
        [(.duplicateStation, {
          slot := none, station := some s.nct.station.toNat, word := none, bit := none })])

/-- CHECK_PAUSE of the node's own frame, and of a body that is not intact (R8, R9, R10, R107, R121, R122): the sender
holds PCK and asks for the store, but a power-fail LEAVE needs no grant; a give-up access that waits or is held is
taken over, and where it is held the give-up is made at once. A receiver reports the body, and a participating one
vetoes it if it has a header. Which bodies are which is the statement BuiltFramesAreReceivedIntact. -/
def Obligations.CheckPauseAsksOrReports : Prop :=
  (∀ (body : List Byte) (extraBits : Nat) (f : Frame) (s : State), s.running → s.pbi.shift = .sending f →
    (s.nct.phase = .pfailLeave → exec (.checkPause body extraBits) s = .next
      { s with pbi := { s.pbi.goPause with shift := .sendingPaused f } }) ∧
    (s.nct.phase ≠ .pfailLeave → s.fck.purpose = none → s.rpe.due = none →
      exec (.checkPause body extraBits) s = .next
        { s with
          pbi := { s.pbi.goPause with shift := .sendingPaused f },
          fck := { s.fck with purpose := some .ownFrame },
          sar := s.sar.request .fck }) ∧
    ∀ d, s.nct.phase ≠ .pfailLeave → s.fck.purpose = some .giveUp → s.rpe.due = some d →
      (s.sar.grant ≠ some .fck → exec (.checkPause body extraBits) s = .next
        { s with
          pbi := { s.pbi.goPause with shift := .sendingPaused f },
          fck := { s.fck with purpose := some .ownFrame },
          rpe := { s.rpe with due := some { d with takenOver := true } } }) ∧
      (∀ c, s.sar.grant = some .fck → s.canonical → s.entriesGood → s.hasConfig c →
        ∃ t, exec (.checkPause body extraBits) s = .next t ∧
          s.givenUp t c (d.slots.filter fun n => s.rpe.wanted.contains n) ∧
          t = { s with
            nct := t.nct, dir := t.dir, rpe := t.rpe, obs := t.obs, ntq := t.ntq,
            pbi := { s.pbi.goPause with shift := .sendingPaused f },
            fck := { s.fck with purpose := some .ownFrame } })) ∧
  ∀ (body : List Byte) (extraBits : Nat) (s : State), s.running → s.pbi.shift = .receiving →
    s.nct.node.taking = true → s.nct.pfailLatch = false →
    (∀ n, classify body extraBits = .crcError n →
      exec (.checkPause body extraBits) s = .next
        { s with
          pbi := { s.pbi.goPause with shift := .paused, pullVeto := s.nct.node.participating },
          elg := s.elg.take {
            kind := .frameCrc, time := s.nct.now,
            fields := { slot := none, station := some n.toNat, word := none, bit := none } } }) ∧
    (∀ n, classify body extraBits = .formatError n →
      exec (.checkPause body extraBits) s = .next
        { s with
          pbi := { s.pbi.goPause with shift := .paused, pullVeto := s.nct.node.participating },
          elg := s.elg.take {
            kind := .frameFormat, time := s.nct.now,
            fields := { slot := none, station := some n.toNat, word := none, bit := none } } }) ∧
    (classify body extraBits = .noHeader →
      exec (.checkPause body extraBits) s = .next
        { s with
          pbi := { s.pbi.goPause with shift := .paused, pullVeto := false },
          elg := s.elg.take {
            kind := .frameFormat, time := s.nct.now,
            fields := { slot := none, station := none, word := none, bit := none } } })

/-- CHECK_PAUSE of an intact frame (R9, R17, R47, R71, R78, R122): a participating receiver hears the sender, holds
PCK and asks for the store, taking over an access of its own for a give-up; a joining node keeps the frame; a frame
from this node's own station halts either. The model's readings are that a hearing reads one membership entry, and the
whole table where it ends a suspicion (log entry 27), that the own entry stays as it is (log entry 14), and that a
halted node keeps its phase and listen deadline (log entry 16). -/
def Obligations.IntactFrameIsHeardAndHeld : Prop :=
  (∀ (body : List Byte) (f : Frame) (c : NodeConfig) (s : State), s.canonical → s.running →
    s.pbi.shift = .receiving → s.nct.node.participating = true → s.nct.pfailLatch = false →
    classify body 0 = .intact f → s.hasConfig c →
    (s.mbu.entry f.sender.toNat).parityGood = true →
    ((s.mbu.entry f.sender.toNat).state = .suspect → s.membersGood) →
    (f.sender ≠ s.nct.station → s.fck.purpose = none ∨ s.fck.purpose = some .giveUp →
      ∃ t, exec (.checkPause body 0) s = .next t ∧
        t.fck = { inbound := some { frame := f, verdict := none }, purpose := some .check } ∧
        (s.fck.purpose = none → t.sar = s.sar.request .fck ∧ t.rpe = s.rpe) ∧
        (s.fck.purpose = some .giveUp →
          t.sar = s.sar ∧ t.rpe = { s.rpe with due := s.rpe.due.map fun d => { d with takenOver := true } }) ∧
        t.pbi = { s.pbi.goPause with shift := .paused, holdPck := true } ∧
        (t.mbu.entry f.sender.toNat =
          if (s.mbu.entry f.sender.toNat).state = .absent then s.mbu.entry f.sender.toNat
          else {
            state := .present, deadline := some (s.nct.now + BitVec.ofNat 32 (c.beat * c.silence)),
            suspectSince := none, parityGood := true }) ∧
        (∀ n, n ≠ f.sender.toNat → t.mbu.entry n = s.mbu.entry n) ∧
        t.mbu = { s.mbu with table := t.mbu.table, decision := t.mbu.decision } ∧
        t.mbu.decision = (if s.suspects = [f.sender.toNat] then none else s.mbu.decision) ∧
        t.ntq = (if (s.mbu.entry f.sender.toNat).state = .suspect then
          s.ntq.arrive (.memberChanged f.sender.toNat .present) else s.ntq) ∧
        t.dir = s.dir ∧ t.dst = s.dst ∧ t.obs = s.obs ∧ t.opu = s.opu ∧ t.scb = s.scb ∧ t.wch = s.wch ∧
        t.elg = s.elg ∧ t.lpt = s.lpt ∧ t.nct = s.nct ∧ t.pending = s.pending) ∧
    (f.sender = s.nct.station →
      ∃ t, exec (.checkPause body 0) s = .next t ∧
        s.haltedFrom t .duplicateStation [(.duplicateStation,
          { slot := none, station := some s.nct.station.toNat, word := none, bit := none })])) ∧
  ∀ (body : List Byte) (f : Frame) (s : State), s.running → s.pbi.shift = .receiving →
    s.nct.node.joining = true → s.nct.pfailLatch = false → classify body 0 = .intact f →
    (f.sender ≠ s.nct.station →
      exec (.checkPause body 0) s = .next
        { s with
          pbi := { s.pbi.goPause with shift := .paused },
          fck := { s.fck with inbound := some { frame := f, verdict := none } } }) ∧
    (f.sender = s.nct.station →
      ∃ t, exec (.checkPause body 0) s = .next t ∧
        s.haltedFrom t .duplicateStation [(.duplicateStation,
          { slot := none, station := some s.nct.station.toNat, word := none, bit := none })])

/-- FRAME_CHECK (R10, R39, R43, R44, R108, R121, R122): the decision of the tests is carried into the slots, and the
stretch ends; a parity mismatch that a test meets halts the node, as an ABSENT entry for any sender but a HELLO's
shows. A give-up that the check's access took over is made first, and the frame is then tested as in the state that it
leaves; one that fell due while the check waited is not made yet. That a halted node keeps its phase and listen
deadline is the model's reading: log entry 16. -/
def Obligations.FrameCheckCarriesTheDecision : Prop :=
  (∀ (f : Frame) (s : State), s.running → s.active = true →
    s.fck.inbound = some { frame := f, verdict := none } → s.fckOpen .check →
    (s.checkFrame f = .pass → exec .frameCheck s = .next
      { s with
        fck := { s.fck with inbound := some { frame := f, verdict := some .pass } },
        pbi := { s.pbi with holdPck := false, pullHeard := true, pullVeto := false } }) ∧
    (s.checkFrame f = .veto none → exec .frameCheck s = .next
      { s with
        fck := { s.fck with inbound := some { frame := f, verdict := some .veto } },
        pbi := { s.pbi with holdPck := false, pullHeard := true, pullVeto := true } }) ∧
    (∀ kind, s.checkFrame f = .veto (some kind) → exec .frameCheck s = .next
      { s with
        fck := { s.fck with inbound := some { frame := f, verdict := some .veto } },
        pbi := { s.pbi with holdPck := false, pullHeard := true, pullVeto := true },
        elg := s.elg.take {
          kind := kind, time := s.nct.now,
          fields := { slot := none, station := some f.sender.toNat, word := none, bit := none } } }) ∧
    (∀ fields, s.checkFrame f = .fault fields → ∃ t, exec .frameCheck s = .next t ∧
      s.haltedFrom t .internalFault [(.internalFault, fields)])) ∧
  (∀ (f : Frame) (d : DueGiveUp) (c : NodeConfig) (s : State), s.canonical → s.running → s.active = true →
    s.fck = { inbound := some { frame := f, verdict := none }, purpose := some .check } → s.sar.grant = some .fck →
    s.rpe.due = some d → d.takenOver = true → s.entriesGood → s.hasConfig c →
    ∃ u, s.givenUp u c (d.slots.filter fun n => s.rpe.wanted.contains n) ∧
      u = { s with nct := u.nct, dir := u.dir, rpe := u.rpe, obs := u.obs, ntq := u.ntq } ∧
      exec .frameCheck s = exec .frameCheck u) ∧
  ∀ (f : Frame) (s : State), f.kind ≠ .hello → (s.mbu.entry f.sender.toNat).parityGood = false →
    s.checkFrame f = .fault { slot := none, station := some f.sender.toNat, word := none, bit := none }

/-- The four groups of tests on a frame of each kind, in their order (R43–R46, R51, R53, R55, R57, R59, R61, R63, R65,
Table 3-2): the first that fails decides, with its report; a frame that meets all of them passes. -/
def Obligations.FrameChecksFollowTheirTests : Prop :=
  ∀ (f : Frame) (c : NodeConfig) (s : State), s.hasConfig c → s.membersGood → s.entriesGood →
    let sender := f.kind = .hello ∨ (s.mbu.entry f.sender.toNat).state ≠ .absent
    (¬sender → s.checkFrame f = .veto (some .nonmemberFrame)) ∧
    (sender → ¬f.formatHolds c.activeSlots → s.checkFrame f = .veto (some .frameFormat)) ∧
    (sender → f.formatHolds c.activeSlots → ¬f.paramsHold c s.nct.rate →
      s.checkFrame f = .veto (some .configMismatch)) ∧
    (sender → f.formatHolds c.activeSlots → f.paramsHold c s.nct.rate → ¬s.stateHolds f →
      s.checkFrame f = .veto none) ∧
    (sender → f.formatHolds c.activeSlots → f.paramsHold c s.nct.rate → s.stateHolds f → s.checkFrame f = .pass)

/-! ### The bus: frames of other nodes -/

/-- VETO_SLOT of a frame that this node does not apply (R9, R10, R12, R121, R122): pulled by anyone where the node
passed the frame, or pulled or not where it vetoed the frame itself, it lets its grant go, and a give-up that has
fallen due is made before. Where it holds no inbound frame, because the body was not intact or its node state at the
check pause took none, it stands past the slots with nothing else changed; that a node makes no update of R71 from a
frame whose check pause it met before its JOIN is the model's choice (log entry 32). -/
def Obligations.RefusedFrameChangesNothing : Prop :=
  ∀ (heard veto : Bool) (s : State),
    let past : Pbi := { s.pbi with
      shift := .slotsDone none, lines := .active, holdPck := false, pullHeard := false, pullVeto := false,
      busFreeTimer := 0, stuckPck := 0, stuckPdt := 0 }
    (∀ f, s.passedFrame f →
      exec (.vetoSlot heard true) s = .next
        { s with pbi := past, fck := { inbound := none, purpose := none }, sar := s.sar.handOver }) ∧
    (∀ f, s.running → s.active = true → s.pbi.shift = .paused → s.pbi.holdPck = false →
      s.fck.inbound = some { frame := f, verdict := some .veto } → s.fckHolds .check →
      exec (.vetoSlot heard veto) s = .next
        { s with pbi := past, fck := { inbound := none, purpose := none }, sar := s.sar.handOver }) ∧
    (∀ f d c, s.canonical → s.rpe.due = some d → s.entriesGood → s.hasConfig c →
      (s.withoutDue.passedFrame f ∧ veto = true) ∨
        (s.running ∧ s.active = true ∧ s.pbi.shift = .paused ∧ s.pbi.holdPck = false ∧
          s.fck.inbound = some { frame := f, verdict := some .veto } ∧ s.withoutDue.fckHolds .check) →
      ∃ t, exec (.vetoSlot heard veto) s = .next t ∧
        s.givenUp t c (d.slots.filter fun n => s.rpe.wanted.contains n) ∧
        t.pbi = past ∧ t.fck = { inbound := none, purpose := none } ∧ t.sar = s.sar.handOver ∧
        t.dst = s.dst ∧ t.mbu = s.mbu ∧ t.opu = s.opu ∧ t.wch = s.wch ∧ t.elg = s.elg ∧ t.lpt = s.lpt ∧
        t.scb = s.scb ∧ t.pending = s.pending) ∧
    (s.running → s.pbi.shift = .paused → s.pbi.holdPck = false → s.fck.inbound = none →
      exec (.vetoSlot heard veto) s = .next { s with pbi := past })

/-- VETO_SLOT unpulled for a CLAIM or a YIELD of another station (R49, R60, R62, R146): the slot becomes OWNED by the
sender, and a pending CLAIM for it ends TAKEN; or it becomes FREE. Nothing else in the directory changes. -/
def Obligations.AppliedClaimAndYieldMoveTheSlot : Prop :=
  ∀ (heard : Bool) (sender : Station) (slot : Byte) (version : Word) (s : State), s.canonical →
    sender ≠ s.nct.station → (s.entry slot.toNat).parityGood = true → s.levelGood →
    (s.passedFrame { sender := sender, payload := .claim slot version } →
      ∃ t, exec (.vetoSlot heard false) s = .next t ∧
        t.entry slot.toNat = { s.entry slot.toNat with state := .owned sender, version := version } ∧
        (∀ n, n ≠ slot.toNat → t.entry n = s.entry n) ∧
        t.ntq = s.ntq.arriveAll
          ((if (s.entry slot.toNat).state = .unlearned then []
            else [.recordChanged slot.toNat .claimed]) ++
           (if s.opu.op.map (·.kind) = some (.claim slot.toNat) then
              [.opDone .claim .taken (some slot.toNat)] else [])) ∧
        (s.opu.op.map (·.kind) = some (.claim slot.toNat) →
          t.opu = { s.opu with op := none } ∧
            t.obs.queue = s.obs.queue.filter (fun e => !decide (e.kind = .claim))) ∧
        (s.opu.op.map (·.kind) ≠ some (.claim slot.toNat) → t.opu = s.opu ∧ t.obs = s.obs) ∧
        s.slotsEnd t none ∧ t.fck.inbound = none ∧
        t.dst = s.dst ∧ t.mbu = s.mbu ∧ t.rpe = s.rpe ∧ t.wch = s.wch ∧ t.elg = s.elg ∧ t.lpt = s.lpt ∧
        t.scb = s.scb ∧ t.nct = s.nct ∧ t.pending = s.pending) ∧
    (s.passedFrame { sender := sender, payload := .yield slot version } →
      ∃ t, exec (.vetoSlot heard false) s = .next t ∧
        t.entry slot.toNat = { s.entry slot.toNat with state := .free, version := version } ∧
        (∀ n, n ≠ slot.toNat → t.entry n = s.entry n) ∧
        t.ntq = s.ntq.arriveAll
          (if (s.entry slot.toNat).state = .unlearned then [] else [.recordChanged slot.toNat .yielded]) ∧
        s.slotsEnd t none ∧ t.fck.inbound = none ∧
        t.dst = s.dst ∧ t.mbu = s.mbu ∧ t.obs = s.obs ∧ t.rpe = s.rpe ∧ t.opu = s.opu ∧ t.wch = s.wch ∧
        t.elg = s.elg ∧ t.lpt = s.lpt ∧ t.scb = s.scb ∧ t.nct = s.nct ∧ t.pending = s.pending)

/-- VETO_SLOT unpulled for a POST or a SYNC of another station (R28, R49, R64, R66, R67, R100, R113–R115, R120–R122,
R126, R129): each item, and each record that the receiver takes, is written; the notices of known slots, of limits and
of the end of catch-up arrive in this order; an ASK cycle whose window is filled ends with its ASK entry, a CATCHUP
node that wants nothing more becomes a MEMBER, and otherwise the next cycle begins; slots another station has answered
leave the answer set, and the SYNC entry leaves with the last of them. A give-up that has fallen due is made after the
application of a POST, of the slots that the POST has left wanted. That limits come before CATCHUP_DONE is the model's
choice (log entry 11); that the repair engine's steps wait for a give-up that is due is its reading (log entry 22). -/
def Obligations.AppliedPostAndSyncWriteTheirSlots : Prop :=
  (∀ (heard : Bool) (sender : Station) (items : List Item) (c : NodeConfig) (s : State), s.canonical →
    s.passedFrame { sender := sender, payload := .post items } → sender ≠ s.nct.station →
    (items.map Item.slot).Nodup → (∀ i ∈ items, i.words.length ≤ 16) → s.entriesGood → s.hasConfig c →
    let watched := watchesAfter s.nct.now (items.map fun i => (i.slot.toNat, i.words)) s.wch
    let limits := watched.2
    ∃ t, exec (.vetoSlot heard false) s = .next t ∧
      s.wrote t (items.map (Item.write sender)) ∧ t.wch = watched.1 ∧
      t.ntq = s.ntq.arriveAll
        (((items.filter fun i => decide ((s.entry i.slot.toNat).state ≠ .unlearned)).map fun i =>
            .recordChanged i.slot.toNat .posted) ++ limits ++
          (if s.nct.node = .catchup ∧ t.rpe.wanted = [] then [.catchupDone t.rpe.unresolved] else [])) ∧
      t.nct = { s.nct with node := if s.nct.node = .catchup ∧ t.rpe.wanted = [] then .member else s.nct.node } ∧
      t.rpe.answers = s.rpe.answers ∧ t.rpe.due = s.rpe.due ∧
      t.rpe.cycle = s.cycleAfter c t.rpe.wanted ∧ t.obs.queue = s.queueAfter t.rpe.wanted s.obs.queue ∧
      (s.obs.build = none → t.obs.build = none) ∧ s.slotsEnd t none ∧ t.fck.inbound = none ∧
      t.mbu = s.mbu ∧ t.opu = s.opu ∧ t.elg = s.elg ∧ t.lpt = s.lpt ∧ t.scb = s.scb ∧ t.pending = s.pending) ∧
  (∀ (heard : Bool) (sender : Station) (items : List Item) (d : DueGiveUp) (c : NodeConfig) (s : State), s.canonical →
    s.withoutDue.passedFrame { sender := sender, payload := .post items } → s.rpe.due = some d →
    sender ≠ s.nct.station → (items.map Item.slot).Nodup → (∀ i ∈ items, i.words.length ≤ 16) → s.entriesGood →
    s.hasConfig c →
    let watched := watchesAfter s.nct.now (items.map fun i => (i.slot.toNat, i.words)) s.wch
    ∃ u t, exec (.vetoSlot heard false) s = .next t ∧
      s.wrote u (items.map (Item.write sender)) ∧
      u = { s with
        dir := u.dir, dst := u.dst, wch := watched.1,
        rpe := { s.rpe with wanted := u.rpe.wanted, unresolved := u.rpe.unresolved },
        ntq := s.ntq.arriveAll
          (((items.filter fun i => decide ((s.entry i.slot.toNat).state ≠ .unlearned)).map fun i =>
            .recordChanged i.slot.toNat .posted) ++ watched.2) } ∧
      u.givenUp t c (d.slots.filter fun n => u.rpe.wanted.contains n) ∧
      s.slotsEnd t none ∧ t.fck.inbound = none ∧ t.dst = u.dst ∧ t.wch = u.wch ∧
      t.mbu = s.mbu ∧ t.opu = s.opu ∧ t.elg = s.elg ∧ t.lpt = s.lpt ∧ t.scb = s.scb ∧ t.pending = s.pending) ∧
  ∀ (heard : Bool) (sender : Station) (records : List Record) (c : NodeConfig) (s : State), s.canonical →
    s.passedFrame { sender := sender, payload := .sync records } → sender ≠ s.nct.station →
    (records.map Record.slot).Nodup → (∀ r ∈ records, r.words.length ≤ 16) → s.entriesGood → s.hasConfig c →
    let watched := watchesAfter s.nct.now
      ((records.filter s.takesRecord).map fun r => (r.slot.toNat, r.words)) s.wch
    let limits := watched.2
    let answered := fun r : Record => r.version = (s.entry r.slot.toNat).version ∨
      newerThan r.version (s.entry r.slot.toNat).version
    ∃ t, exec (.vetoSlot heard false) s = .next t ∧
      s.wrote t ((records.filter s.takesRecord).map Record.write) ∧ t.wch = watched.1 ∧
      t.ntq = s.ntq.arriveAll
        (((records.filter fun r => s.takesRecord r && decide ((s.entry r.slot.toNat).state ≠ .unlearned) &&
              decide ((s.entry r.slot.toNat).health ≠ .unknown)).map fun r =>
            .recordChanged r.slot.toNat .repaired) ++ limits ++
          (if s.nct.node = .catchup ∧ t.rpe.wanted = [] then [.catchupDone t.rpe.unresolved] else [])) ∧
      t.nct = { s.nct with node := if s.nct.node = .catchup ∧ t.rpe.wanted = [] then .member else s.nct.node } ∧
      (∀ n, n ∈ t.rpe.answers ↔ n ∈ s.rpe.answers ∧ ¬∃ r ∈ records, r.slot.toNat = n ∧ answered r) ∧
      t.rpe.due = s.rpe.due ∧ t.rpe.cycle = s.cycleAfter c t.rpe.wanted ∧
      (t.rpe.answers = [] → (∃ r ∈ records, answered r) →
        t.obs.queue = s.queueAfter t.rpe.wanted (s.obs.queue.filter fun e => !decide (e.kind = .sync))) ∧
      (t.rpe.answers ≠ [] ∨ ¬(∃ r ∈ records, answered r) →
        t.obs.queue = s.queueAfter t.rpe.wanted s.obs.queue) ∧
      (s.obs.build = none → t.obs.build = none) ∧ s.slotsEnd t none ∧ t.fck.inbound = none ∧
      t.mbu = s.mbu ∧ t.opu = s.opu ∧ t.elg = s.elg ∧ t.lpt = s.lpt ∧ t.scb = s.scb ∧ t.pending = s.pending

/-- VETO_SLOT unpulled for a BEAT (R52, R104, R156): a receiver that its mask leaves out becomes ISOLATED; a MEMBER or
LEAVING receiver that it names changes nothing, and a CATCHUP receiver adds the stations it holds ABSENT. The parity
of the cleared entries is the model's reading: log entry 23. -/
def Obligations.AppliedBeatIsolatesOrAdds : Prop :=
  ∀ (heard : Bool) (sender : Station) (mask : StationMask) (p : WireParams) (s : State), s.canonical →
    s.passedFrame { sender := sender, payload := .beat mask p } →
    (mask.getLsbD s.nct.station.toNat = false → s.levelGood →
      ∃ t, exec (.vetoSlot heard false) s = .next t ∧ s.isolatedFrom t .dropped) ∧
    (mask.getLsbD s.nct.station.toNat = true → s.nct.node ≠ .catchup →
      exec (.vetoSlot heard false) s = .next
        { s with
          pbi := { s.pbi with
            shift := .slotsDone none, lines := .active, holdPck := false, pullHeard := false, pullVeto := false,
            busFreeTimer := 0, stuckPck := 0, stuckPdt := 0 },
          fck := { inbound := none, purpose := none },
          sar := s.sar.handOver }) ∧
    (∀ c, mask.getLsbD s.nct.station.toNat = true → s.nct.node = .catchup → s.membersGood → s.hasConfig c →
      ∃ t, exec (.vetoSlot heard false) s = .next t ∧
        (∀ n, t.mbu.entry n =
          if n < 16 ∧ mask.getLsbD n = true ∧ (s.mbu.entry n).state = .absent then {
            state := .present, deadline := some (s.nct.now + BitVec.ofNat 32 (c.beat * c.silence)),
            suspectSince := none, parityGood := true }
          else s.mbu.entry n) ∧
        t.mbu = { s.mbu with table := t.mbu.table } ∧
        t.ntq = s.ntq.arriveAll (((List.range 16).filter fun n =>
          mask.getLsbD n && decide ((s.mbu.entry n).state = .absent)).map fun n => .memberChanged n .present) ∧
        s.slotsEnd t none ∧ t.fck.inbound = none ∧
        t.dir = s.dir ∧ t.dst = s.dst ∧ t.obs = s.obs ∧ t.rpe = s.rpe ∧ t.opu = s.opu ∧ t.scb = s.scb ∧
        t.wch = s.wch ∧ t.elg = s.elg ∧ t.lpt = s.lpt ∧ t.nct = s.nct ∧ t.pending = s.pending)

/-- VETO_SLOT unpulled for a HELLO, a LEAVE or a DROP of another station (R54–R56, R58, R78, R104): the sender becomes
PRESENT; the sender, or the masked members, become ABSENT and their slots ORPHANED; a DROP that names the receiver
then isolates it (R156 for the scrubber). The parity of the entries that isolation clears is the model's reading: log
entry 23. -/
def Obligations.AppliedMembershipFramesMoveStations : Prop :=
  ∀ (heard : Bool) (sender : Station) (c : NodeConfig) (s : State), s.canonical → s.membersGood → s.entriesGood →
    s.hasConfig c →
    (∀ p, s.passedFrame { sender := sender, payload := .hello p } →
      ∃ t, exec (.vetoSlot heard false) s = .next t ∧
        (∀ n, t.mbu.entry n = if n = sender.toNat then {
            state := .present, deadline := some (s.nct.now + BitVec.ofNat 32 (c.beat * c.silence)),
            suspectSince := none, parityGood := true }
          else s.mbu.entry n) ∧
        t.mbu = { s.mbu with table := t.mbu.table } ∧
        t.ntq = s.ntq.arrive (.memberChanged sender.toNat .present) ∧
        s.slotsEnd t none ∧ t.fck.inbound = none ∧
        t.dir = s.dir ∧ t.dst = s.dst ∧ t.obs = s.obs ∧ t.rpe = s.rpe ∧ t.opu = s.opu ∧ t.scb = s.scb ∧
        t.wch = s.wch ∧ t.elg = s.elg ∧ t.lpt = s.lpt ∧ t.nct = s.nct ∧ t.pending = s.pending) ∧
    (s.passedFrame { sender := sender, payload := .leave } → (s.mbu.entry sender.toNat).state ≠ .absent →
      ∃ t, exec (.vetoSlot heard false) s = .next t ∧ s.lost t [sender.toNat] ∧
        t.ntq = s.ntq.arrive (.memberChanged sender.toNat .absent) ∧
        s.slotsEnd t none ∧ t.fck.inbound = none ∧
        t.dst = s.dst ∧ t.obs = s.obs ∧ t.rpe = s.rpe ∧ t.opu = s.opu ∧ t.scb = s.scb ∧ t.wch = s.wch ∧
        t.elg = s.elg ∧ t.lpt = s.lpt ∧ t.nct = s.nct ∧ t.pending = s.pending) ∧
    ∀ mask, s.passedFrame { sender := sender, payload := .drop mask } →
      let gone := (List.range 16).filter fun n =>
        mask.getLsbD n && decide (n ≠ s.nct.station.toNat) && decide ((s.mbu.entry n).state ≠ .absent)
      let changed := gone.map fun n => Notice.memberChanged n .absent
      (mask.getLsbD s.nct.station.toNat = false →
        ∃ t, exec (.vetoSlot heard false) s = .next t ∧ s.lost t gone ∧ t.ntq = s.ntq.arriveAll changed ∧
          s.slotsEnd t none ∧ t.fck.inbound = none ∧
          t.dst = s.dst ∧ t.obs = s.obs ∧ t.rpe = s.rpe ∧ t.opu = s.opu ∧ t.scb = s.scb ∧ t.wch = s.wch ∧
          t.elg = s.elg ∧ t.lpt = s.lpt ∧ t.nct = s.nct ∧ t.pending = s.pending) ∧
      (mask.getLsbD s.nct.station.toNat = true →
        ∃ u t, s.lost u gone ∧
          u = { s with dir := u.dir, mbu := u.mbu, ntq := s.ntq.arriveAll changed } ∧
          exec (.vetoSlot heard false) s = .next t ∧ u.isolatedFrom t .dropped)

/-- VETO_SLOT unpulled for an ASK of another station (R102, R124–R126): in CATCHUP and MEMBER the answer set gains the
asked slots that this node holds known and GOOD, all of them in mode ANY and otherwise those whose designated answerer
it is, and a SYNC entry stands for them; in LEAVING nothing is added. -/
def Obligations.AppliedAskJoinsTheAnswerSet : Prop :=
  ∀ (heard : Bool) (asker : Station) (first : Byte) (mode : BitVec 3) (count : BitVec 5) (s : State),
    s.passedFrame { sender := asker, payload := .ask first mode count } → s.entriesGood → s.membersGood →
    let joins := fun n => first.toNat ≤ n ∧ n < first.toNat + count.toNat ∧ (s.entry n).state ≠ .unlearned ∧
      (s.entry n).health = .good ∧ (mode = 1 ∨ s.isDesignated asker n)
    (s.nct.node ≠ .leaving →
      ∃ t, exec (.vetoSlot heard false) s = .next t ∧
        (∀ n, n ∈ t.rpe.answers ↔ n ∈ s.rpe.answers ∨ joins n) ∧
        t.rpe = { s.rpe with answers := t.rpe.answers } ∧
        ((∃ n, joins n) → t.obs = if s.obs.holds .sync then s.obs else { s.obs with queue :=
          s.obs.queue ++ [{ kind := .sync, ref := .none, attempts := 0, queued := s.nct.now }] }) ∧
        (¬(∃ n, joins n) → t.obs = s.obs) ∧
        s.slotsEnd t none ∧ t.fck.inbound = none ∧
        t.dir = s.dir ∧ t.dst = s.dst ∧ t.mbu = s.mbu ∧ t.opu = s.opu ∧ t.scb = s.scb ∧ t.wch = s.wch ∧
        t.ntq = s.ntq ∧ t.elg = s.elg ∧ t.lpt = s.lpt ∧ t.nct = s.nct ∧ t.pending = s.pending) ∧
    (s.nct.node = .leaving →
      exec (.vetoSlot heard false) s = .next
        { s with
          pbi := { s.pbi with
            shift := .slotsDone none, lines := .active, holdPck := false, pullHeard := false, pullVeto := false,
            busFreeTimer := 0, stuckPck := 0, stuckPdt := 0 },
          fck := { inbound := none, purpose := none },
          sar := s.sar.handOver })

/-- VETO_SLOT at a joining node (R71, R72, R97): an unpulled frame changes the provisional member set, station by
station, and a BEAT of other parameters ends the JOIN with MISMATCH; a pulled one changes nothing. -/
def Obligations.JoiningNodeTakesUnpulledFrames : Prop :=
  ∀ (heard : Bool) (f : Frame) (v : Option Verdict) (c : NodeConfig) (s : State), s.running →
    s.nct.node.joining = true → s.pbi.shift = .paused → s.pbi.holdPck = false → s.pbi.pullVeto = false →
    s.fck.inbound = some { frame := f, verdict := v } → s.hasConfig c →
    (exec (.vetoSlot heard true) s = .next
      { s with
        pbi := { s.pbi with
          shift := .slotsDone none, lines := .active, holdPck := false, pullHeard := false, pullVeto := false,
          busFreeTimer := 0, stuckPck := 0, stuckPdt := 0 },
        fck := { s.fck with inbound := none } }) ∧
    ∃ t, exec (.vetoSlot heard false) s = .next t ∧
      (∀ n, n < 16 → (t.mbu.provisional.getLsbD n = true ↔ s.keepsProvisional f n)) ∧
      t.mbu = { s.mbu with provisional := t.mbu.provisional } ∧
      ((∀ mask p, f.payload = .beat mask p → f.paramsHold c s.nct.rate) →
        t.nct = s.nct ∧ t.obs = s.obs ∧ t.ntq = s.ntq) ∧
      ((∃ mask p, f.payload = .beat mask p ∧ ¬f.paramsHold c s.nct.rate) →
        t.nct = { s.nct with node := .idle, phase := .none, listenDeadline := none } ∧
        t.obs.queue = s.obs.queue.filter (fun e => !decide (e.kind = .hello)) ∧
        t.ntq = s.ntq.arrive (.opDone .join .mismatch none)) ∧
      t.pbi = { s.pbi with
        shift := .slotsDone none, lines := .active, holdPck := false, pullHeard := false, pullVeto := false,
        busFreeTimer := 0, stuckPck := 0, stuckPdt := 0 } ∧
      t.fck = { s.fck with inbound := none } ∧
      t.dir = s.dir ∧ t.dst = s.dst ∧ t.sar = s.sar ∧ t.rpe = s.rpe ∧ t.opu = s.opu ∧ t.scb = s.scb ∧
      t.wch = s.wch ∧ t.elg = s.elg ∧ t.lpt = s.lpt ∧ t.pending = s.pending

/-! ### The bus: frames of this node -/

/-- VETO_SLOT pulled at the sender, or unpulled and unheard with another member after the frame's own effect (R11,
R80, R83, R87, R97, R101, R118, R119, R121, R122, R128, R137, R149): the failure is logged; below eight attempts the
entry stays with one more, but a BEAT goes at once, and so does an operation's entry in LEAVING. The eighth failure
removes the entry: an operation ends with its result, a HELLO ends the JOIN with it, a DROP has the decision one grace
later, a SYNC clears the answer set, and an ASK ends its try, with the next try queued or the give-up made at the end
of the access. That an operation's entry goes in LEAVING at any failure is the model's reading (log entry 15), and that
a node which its HELLO's eighth failure moves to IDLE stays before its stop condition is its choice (log entry 57). -/
def Obligations.FailedOwnFrameCountsAnAttempt : Prop :=
  ∀ (heard veto : Bool) (f : Frame) (e : OutEntry) (s : State), s.ownPaused f → s.obs.find f.kind = some e →
    s.ownFails f heard veto → s.levelGood →
    let atOnce := f.kind = .beat ∨ (s.nct.node = .leaving ∧ f.kind.isOperation = true)
    let without := s.obs.queue.filter fun x => !decide (x.kind = f.kind)
    let logged := s.elg.take {
      kind := if veto then .frameRefused else .frameUnheard, time := s.nct.now,
      fields := { slot := none, station := some s.nct.station.toNat, word := some f.kind.code, bit := none } }
    let result := if veto then DoneResult.refused else .unheard
    (¬atOnce → e.attempts + 1 < 8 →
      ∃ t, exec (.vetoSlot heard veto) s = .next t ∧
        t.obs.queue = s.obs.queue.map
          (fun x => if x.kind = f.kind then { x with attempts := e.attempts + 1 } else x) ∧
        t.opu = (if f.kind.isOperation then
          { s.opu with op := s.opu.op.map fun o => { o with onBus := false } } else s.opu) ∧
        t.elg = logged ∧ s.slotsEnd t (some f.kind) ∧
        t.dir = s.dir ∧ t.dst = s.dst ∧ t.mbu = s.mbu ∧ t.rpe = s.rpe ∧ t.wch = s.wch ∧ t.ntq = s.ntq ∧
        t.lpt = s.lpt ∧ t.scb = s.scb ∧ t.nct = s.nct) ∧
    (f.kind = .beat →
      ∃ t, exec (.vetoSlot heard veto) s = .next t ∧ t.obs.queue = without ∧ t.opu = s.opu ∧ t.ntq = s.ntq ∧
        t.elg = logged ∧ s.slotsEnd t (some f.kind) ∧
        t.dir = s.dir ∧ t.dst = s.dst ∧ t.mbu = s.mbu ∧ t.rpe = s.rpe ∧ t.wch = s.wch ∧
        t.lpt = s.lpt ∧ t.scb = s.scb ∧ t.nct = s.nct) ∧
    (∀ o, f.kind.isOperation = true → s.opu.op = some o → (s.nct.node = .leaving ∨ 8 ≤ e.attempts + 1) →
      ∃ t, exec (.vetoSlot heard veto) s = .next t ∧ t.obs.queue = without ∧ t.opu = { s.opu with op := none } ∧
        t.ntq = s.ntq.arrive (.opDone o.kind.done
          (if s.nct.node = .leaving then .aborted else result) o.kind.slot?) ∧
        t.elg = logged ∧ s.slotsEnd t (some f.kind) ∧
        t.dir = s.dir ∧ t.dst = s.dst ∧ t.mbu = s.mbu ∧ t.rpe = s.rpe ∧ t.wch = s.wch ∧
        t.lpt = s.lpt ∧ t.scb = s.scb ∧ t.nct = s.nct) ∧
    (8 ≤ e.attempts + 1 →
      (f.kind = .hello →
        ∃ t, exec (.vetoSlot heard veto) s = .next t ∧
          t.nct = { s.nct with node := .idle, phase := .none, listenDeadline := none } ∧ t.obs.queue = without ∧
          t.ntq = s.ntq.arrive (.opDone .join result none) ∧ t.elg = logged ∧ s.slotsEnd t (some f.kind) ∧
          t.dir = s.dir ∧ t.dst = s.dst ∧ t.mbu = s.mbu ∧ t.rpe = s.rpe ∧ t.opu = s.opu ∧ t.wch = s.wch ∧
          t.lpt = s.lpt ∧ t.scb = s.scb) ∧
      (∀ c, f.kind = .drop → s.hasConfig c →
        ∃ t, exec (.vetoSlot heard veto) s = .next t ∧ t.obs.queue = without ∧
          t.mbu = { s.mbu with decision := some (s.nct.now + BitVec.ofNat 32 c.beat) } ∧
          t.elg = logged ∧ s.slotsEnd t (some f.kind) ∧
          t.dir = s.dir ∧ t.dst = s.dst ∧ t.rpe = s.rpe ∧ t.opu = s.opu ∧ t.wch = s.wch ∧ t.ntq = s.ntq ∧
          t.lpt = s.lpt ∧ t.scb = s.scb ∧ t.nct = s.nct) ∧
      (f.kind = .sync →
        ∃ t, exec (.vetoSlot heard veto) s = .next t ∧ t.obs.queue = without ∧
          t.rpe = { s.rpe with answers := [] } ∧ t.elg = logged ∧ s.slotsEnd t (some f.kind) ∧
          t.dir = s.dir ∧ t.dst = s.dst ∧ t.mbu = s.mbu ∧ t.opu = s.opu ∧ t.wch = s.wch ∧ t.ntq = s.ntq ∧
          t.lpt = s.lpt ∧ t.scb = s.scb ∧ t.nct = s.nct) ∧
      (f.kind = .ask → s.rpe.cycle = none →
        ∃ t, exec (.vetoSlot heard veto) s = .next t ∧ t.obs.queue = without ∧ t.rpe = s.rpe ∧ t.elg = logged ∧
          s.slotsEnd t (some f.kind) ∧
          t.dir = s.dir ∧ t.dst = s.dst ∧ t.mbu = s.mbu ∧ t.opu = s.opu ∧ t.wch = s.wch ∧ t.ntq = s.ntq ∧
          t.lpt = s.lpt ∧ t.scb = s.scb ∧ t.nct = s.nct) ∧
      ∀ cycle, f.kind = .ask → s.rpe.cycle = some cycle →
        let asked := s.rpe.wanted.filter fun n => decide (cycle.first ≤ n) && decide (n ≤ cycle.last)
        (cycle.try_ < 3 →
          ∃ t, exec (.vetoSlot heard veto) s = .next t ∧
            t.obs.queue = without ++
              [{ kind := .ask, ref := .askTry (cycle.try_ + 1), attempts := 0, queued := s.nct.now }] ∧
            t.rpe = { s.rpe with cycle := some { cycle with
              try_ := cycle.try_ + 1, phase := .queued, deadline := none, asked := asked } } ∧
            t.elg = logged ∧ s.slotsEnd t (some f.kind) ∧
            t.dir = s.dir ∧ t.dst = s.dst ∧ t.mbu = s.mbu ∧ t.opu = s.opu ∧ t.wch = s.wch ∧ t.ntq = s.ntq ∧
            t.lpt = s.lpt ∧ t.scb = s.scb ∧ t.nct = s.nct) ∧
        ∀ c, 3 ≤ cycle.try_ → s.canonical → s.entriesGood → s.hasConfig c →
          ∃ t, exec (.vetoSlot heard veto) s = .next t ∧
            State.givenUp { s with obs := { s.obs with queue := without } } t c asked ∧
            t.elg = logged ∧ s.slotsEnd t (some f.kind) ∧
            t.dst = s.dst ∧ t.mbu = s.mbu ∧ t.opu = s.opu ∧ t.wch = s.wch ∧ t.lpt = s.lpt ∧ t.scb = s.scb)

/-- VETO_SLOT unpulled for the node's own CLAIM, YIELD, POST or DROP, heard or with no other member (R11, R58, R69,
R79–R81, R83, R100, R113–R115, R120, R137, R149, R154, R155): the frame is applied, its entry goes, and the operation
ends OK. A POST empties the draft buffer, may end the ASK cycle and the catch-up, and may begin the next cycle; a
YIELD drops its slot's draft. A DROP that leaves no suspect stops the decision timer; where suspects are left, the
timer starts anew from the earliest suspicion, and where that time has passed the decision is taken at once: with
quorum a new DROP entry is placed, without it the node isolates itself. That OP_DONE arrives after the notices of
limits and of the catch-up is the model's choice (log entry 11); the decision in the same step is its reading (log
entry 26), and so is the parity of the entries that isolation clears (log entry 23). -/
def Obligations.AcceptedOwnOperationsAndDropTakeEffect : Prop :=
  ∀ (heard : Bool) (f : Frame) (c : NodeConfig) (s : State), s.canonical → s.ownPaused f →
    f.sender = s.nct.station → s.obs.holds f.kind = true → s.ownAccepts f heard → s.entriesGood → s.hasConfig c →
    let without := s.obs.queue.filter fun x => !decide (x.kind = f.kind)
    (∀ slot version o, f.payload = .claim slot version → s.opu.op = some o →
      ∃ t, exec (.vetoSlot heard false) s = .next t ∧
        t.entry slot.toNat = { s.entry slot.toNat with state := .owned s.nct.station, version := version } ∧
        (∀ n, n ≠ slot.toNat → t.entry n = s.entry n) ∧
        t.opu = { s.opu with op := none } ∧ t.obs.queue = without ∧
        t.ntq = s.ntq.arrive (.opDone o.kind.done .ok o.kind.slot?) ∧ s.slotsEnd t (some f.kind) ∧
        t.dst = s.dst ∧ t.mbu = s.mbu ∧ t.rpe = s.rpe ∧ t.wch = s.wch ∧ t.elg = s.elg ∧ t.lpt = s.lpt ∧
        t.scb = s.scb ∧ t.nct = s.nct) ∧
    (∀ slot version o, f.payload = .yield slot version → s.opu.op = some o →
      ∃ t, exec (.vetoSlot heard false) s = .next t ∧
        t.entry slot.toNat = { s.entry slot.toNat with state := .free, version := version } ∧
        (∀ n, n ≠ slot.toNat → t.entry n = s.entry n) ∧
        t.opu = { op := none, drafts := s.opu.drafts.filter fun d => !decide (d.slot = slot.toNat) } ∧
        t.obs.queue = without ∧
        t.ntq = s.ntq.arrive (.opDone o.kind.done .ok o.kind.slot?) ∧ s.slotsEnd t (some f.kind) ∧
        t.dst = s.dst ∧ t.mbu = s.mbu ∧ t.rpe = s.rpe ∧ t.wch = s.wch ∧ t.elg = s.elg ∧ t.lpt = s.lpt ∧
        t.scb = s.scb ∧ t.nct = s.nct) ∧
    (∀ items o, f.payload = .post items → s.opu.op = some o →
      (items.map Item.slot).Nodup → (∀ i ∈ items, i.words.length ≤ 16) →
      let watched := watchesAfter s.nct.now (items.map fun i => (i.slot.toNat, i.words)) s.wch
      ∃ t, exec (.vetoSlot heard false) s = .next t ∧ s.wrote t (items.map (Item.write s.nct.station)) ∧
        t.opu = { op := none, drafts := [] } ∧ t.wch = watched.1 ∧
        t.rpe.answers = s.rpe.answers ∧ t.rpe.due = s.rpe.due ∧ t.rpe.cycle = s.cycleAfter c t.rpe.wanted ∧
        t.obs.queue = s.queueAfter t.rpe.wanted without ∧ (s.obs.build = none → t.obs.build = none) ∧
        t.ntq = s.ntq.arriveAll (watched.2 ++
          (if s.active = true ∧ s.nct.node = .catchup ∧ t.rpe.wanted = [] then [.catchupDone t.rpe.unresolved]
            else []) ++
          [.opDone o.kind.done .ok o.kind.slot?]) ∧
        t.nct = { s.nct with node :=
          if s.active = true ∧ s.nct.node = .catchup ∧ t.rpe.wanted = [] then .member else s.nct.node } ∧
        s.slotsEnd t (some f.kind) ∧ t.mbu = s.mbu ∧ t.elg = s.elg ∧ t.lpt = s.lpt ∧ t.scb = s.scb) ∧
    (∀ mask, f.payload = .drop mask → s.membersGood →
      let gone := (List.range 16).filter fun n =>
        mask.getLsbD n && decide (n ≠ s.nct.station.toNat) && decide ((s.mbu.entry n).state ≠ .absent)
      let changed := gone.map fun n => Notice.memberChanged n .absent
      let left := s.suspects.filter fun n => !gone.contains n
      (left = [] →
        ∃ t, exec (.vetoSlot heard false) s = .next t ∧ s.lost t gone ∧ t.obs.queue = without ∧
          t.ntq = s.ntq.arriveAll changed ∧ s.slotsEnd t (some f.kind) ∧
          t.dst = s.dst ∧ t.rpe = s.rpe ∧ t.opu = s.opu ∧ t.wch = s.wch ∧ t.elg = s.elg ∧ t.lpt = s.lpt ∧
          t.scb = s.scb ∧ t.nct = s.nct) ∧
      ∀ first, s.firstSuspicion left first →
        ∃ u, s.lost u gone ∧ u = { s with
            dir := u.dir, mbu := u.mbu, ntq := s.ntq.arriveAll changed,
            obs := { queue := without, build := u.obs.build } } ∧
          (∀ v, u.restarted v s.nct.now c first →
            ∃ t, exec (.vetoSlot heard false) s = .next t ∧ s.slotsEnd t (some f.kind) ∧
              t = { v with pbi := t.pbi, fck := t.fck, sar := t.sar }) ∧
          (passed s.nct.now (first + BitVec.ofNat 32 c.beat) → ¬u.hasQuorum → s.nct.node.participating = true →
            ∃ t, exec (.vetoSlot heard false) s = .next t ∧ u.isolatedFrom t .noQuorum))

/-- VETO_SLOT unpulled for the node's own SYNC, ASK or BEAT, heard or with no other member (R11, R66, R69, R100,
R113–R115, R117, R120–R122, R126, R128, R137): the entry goes. A SYNC's slots leave the answer set, and a new SYNC
entry is placed while any is left; its records are taken as a receiver takes them, and may end the ASK cycle and the
catch-up or begin the next cycle. An ASK's answer wait begins. A BEAT changes nothing more. A give-up that the sender's
access took over, or that fell due while it waited for the store or held it, is made in this access, as a BEAT shows.
That the notices of limits arrive before CATCHUP_DONE is the model's choice (log entry 11), and so is this row as the
moment at which a give-up is made whose access took it over and was granted after the check pause (log entry 37). -/
def Obligations.AcceptedOwnRepairFramesAndBeatTakeEffect : Prop :=
  (∀ (heard : Bool) (mask : StationMask) (p : WireParams) (d : DueGiveUp) (c : NodeConfig) (s : State),
    let f : Frame := { sender := s.nct.station, payload := .beat mask p }
    s.canonical → s.withoutDue.ownPaused f → s.rpe.due = some d → s.ownAccepts f heard → s.entriesGood →
    s.hasConfig c →
    ∃ t, exec (.vetoSlot heard false) s = .next t ∧
      State.givenUp { s with obs := { s.obs with queue := s.obs.queue.filter fun x => !decide (x.kind = .beat) } } t c
        (d.slots.filter fun n => s.rpe.wanted.contains n) ∧
      s.slotsEnd t (some .beat) ∧
      t.dst = s.dst ∧ t.mbu = s.mbu ∧ t.opu = s.opu ∧ t.wch = s.wch ∧ t.elg = s.elg ∧ t.lpt = s.lpt ∧
      t.scb = s.scb ∧ t.pending = s.pending) ∧
  ∀ (heard : Bool) (f : Frame) (c : NodeConfig) (s : State), s.canonical → s.ownPaused f →
    f.sender = s.nct.station → s.obs.holds f.kind = true → s.ownAccepts f heard → s.entriesGood → s.hasConfig c →
    let without := s.obs.queue.filter fun x => !decide (x.kind = f.kind)
    (∀ records, f.payload = .sync records →
      (records.map Record.slot).Nodup → (∀ r ∈ records, r.words.length ≤ 16) →
      let watched := watchesAfter s.nct.now
        ((records.filter s.takesRecord).map fun r => (r.slot.toNat, r.words)) s.wch
      ∃ t, exec (.vetoSlot heard false) s = .next t ∧
        s.wrote t ((records.filter s.takesRecord).map Record.write) ∧ t.wch = watched.1 ∧
        t.ntq = s.ntq.arriveAll (watched.2 ++
          (if s.active = true ∧ s.nct.node = .catchup ∧ t.rpe.wanted = [] then [.catchupDone t.rpe.unresolved]
            else [])) ∧
        t.nct = { s.nct with node :=
          if s.active = true ∧ s.nct.node = .catchup ∧ t.rpe.wanted = [] then .member else s.nct.node } ∧
        t.rpe.answers = s.rpe.answers.filter (fun n => !(records.map fun r => r.slot.toNat).contains n) ∧
        t.rpe.due = s.rpe.due ∧ t.rpe.cycle = s.cycleAfter c t.rpe.wanted ∧
        t.obs.queue = s.queueAfter t.rpe.wanted without ++ (if t.rpe.answers = [] then []
          else [{ kind := .sync, ref := .none, attempts := 0, queued := s.nct.now }]) ∧
        (s.obs.build = none → t.obs.build = none) ∧
        s.slotsEnd t (some f.kind) ∧
        t.mbu = s.mbu ∧ t.opu = s.opu ∧ t.elg = s.elg ∧ t.lpt = s.lpt ∧ t.scb = s.scb) ∧
    (∀ first mode count cycle, f.payload = .ask first mode count → s.rpe.cycle = some cycle →
      ∃ t, exec (.vetoSlot heard false) s = .next t ∧
        t.rpe = { s.rpe with cycle := some { cycle with
          phase := .waiting, deadline := some (s.nct.now + BitVec.ofNat 32 (2 * c.beat)),
          asked := match cycle.sent with
            | some (n, k) => s.rpe.wanted.filter fun m => decide (n ≤ m) && decide (m ≤ n + k - 1)
            | none => [] } } ∧
        t.obs.queue = without ∧ s.slotsEnd t (some f.kind) ∧
        t.dir = s.dir ∧ t.dst = s.dst ∧ t.mbu = s.mbu ∧ t.opu = s.opu ∧ t.wch = s.wch ∧ t.ntq = s.ntq ∧
        t.elg = s.elg ∧ t.lpt = s.lpt ∧ t.scb = s.scb ∧ t.nct = s.nct) ∧
    (∀ mask p, f.payload = .beat mask p →
      ∃ t, exec (.vetoSlot heard false) s = .next t ∧ t.obs.queue = without ∧ s.slotsEnd t (some f.kind) ∧
        t.dir = s.dir ∧ t.dst = s.dst ∧ t.mbu = s.mbu ∧ t.rpe = s.rpe ∧ t.opu = s.opu ∧ t.wch = s.wch ∧
        t.ntq = s.ntq ∧ t.elg = s.elg ∧ t.lpt = s.lpt ∧ t.scb = s.scb ∧ t.nct = s.nct)

/-- VETO_SLOT for the node's own LEAVE (R11, R101, R103, R107): accepted, with nobody else, or at its eighth failure,
it ends the leave: IDLE, with every piece of local work emptied, the table all ABSENT and the flags cleared. The LEAVE
of a power-fail leave needs no grant and is not applied: its outcome is logged, its entry goes, and the node stands
past the slots, up to its stop condition (StopConditionCompletesTheFrame). The parity of the cleared entries is the
model's reading (log entry 23), and that the node in IDLE stays before its stop condition is its choice (log entry
57). -/
def Obligations.OwnLeaveEndsTheLeave : Prop :=
  (∀ (heard veto : Bool) (s : State), s.running → s.nct.phase = .pfailLeave →
    s.pbi.shift = .sendingPaused { sender := s.nct.station, payload := .leave } →
    heard = true ∨ veto = true ∨ s.membersGood →
    let others := ∃ n ∈ s.memberSet, n ≠ s.nct.station.toNat
    let logged := fun kind => s.elg.take { kind := kind, time := s.nct.now, fields := {
      slot := none, station := some s.nct.station.toNat, word := some 1, bit := none } }
    ∃ t, exec (.vetoSlot heard veto) s = .next t ∧
      t = { s with pbi := t.pbi, obs := t.obs, elg := t.elg } ∧
      t.pbi = { s.pbi with
        shift := .slotsDone (some .leave), lines := .active, holdPck := false, pullHeard := false, pullVeto := false,
        busFreeTimer := 0, stuckPck := 0, stuckPdt := 0 } ∧
      t.obs = {
        queue := s.obs.queue.filter fun e => !decide (e.kind = .leave),
        build := s.obs.build.filter fun f => !decide (f.kind = .leave) } ∧
      (veto = true → t.elg = logged .frameRefused) ∧
      (veto = false → heard = true ∨ ¬others → t.elg = s.elg) ∧
      (veto = false → heard = false → others → t.elg = logged .frameUnheard)) ∧
  ∀ (heard veto : Bool) (e : OutEntry) (s : State), s.canonical →
    s.ownPaused { sender := s.nct.station, payload := .leave } → s.obs.find .leave = some e → s.levelGood →
    ∀ result logged,
      ((veto = false ∧ s.ownAccepts { sender := s.nct.station, payload := .leave } heard ∧ result = .ok ∧
          logged = s.elg) ∨
        (8 ≤ e.attempts + 1 ∧ veto = true ∧ result = .refused ∧ logged = s.elg.take {
          kind := .frameRefused, time := s.nct.now,
          fields := { slot := none, station := some s.nct.station.toNat, word := some 1, bit := none } }) ∨
        (8 ≤ e.attempts + 1 ∧ veto = false ∧ heard = false ∧ s.membersGood ∧
          (∃ n ∈ s.memberSet, n ≠ s.nct.station.toNat) ∧ result = .unheard ∧ logged = s.elg.take {
            kind := .frameUnheard, time := s.nct.now,
            fields := { slot := none, station := some s.nct.station.toNat, word := some 1, bit := none } })) →
      ∃ t, exec (.vetoSlot heard veto) s = .next t ∧
        t.nct = { s.nct with node := .idle, phase := .none } ∧
        t.obs = { queue := [], build := none } ∧ t.opu = { s.opu with drafts := [] } ∧
        t.wch = [none, none, none, none] ∧
        t.rpe = { wanted := [], cycle := none, answers := [], due := none, unresolved := 0 } ∧
        (∀ n, t.mbu.entry n = { state := .absent, deadline := none, suspectSince := none, parityGood := true }) ∧
        t.mbu.decision = none ∧ t.mbu.beatRef = none ∧
        t.scb = { s.scb with timer := none, turn := none } ∧
        (∀ n, t.entry n = { s.entry n with wanted := false, unresolved := false, parityGood := true }) ∧
        t.ntq = s.ntq.arrive (.opDone .leave result none) ∧ t.elg = logged ∧
        t.pbi.shift = .slotsDone (some .leave) ∧ t.fck.purpose = none ∧ t.dst = s.dst ∧ t.lpt = s.lpt

/-- VETO_SLOT unpulled for the node's own HELLO (R11, R75, R86, R98, R99, R112, R115): with nobody else it founds a
group, and heard it enters CATCHUP with every slot wanted and its first ASK cycle begun; the beat reference is set for
the stagger. -/
def Obligations.OwnHelloFoundsOrEntersCatchup : Prop :=
  ∀ (p : WireParams) (c : NodeConfig) (s : State), s.hasConfig c → s.nct.pfailLatch = false →
    s.ownPaused { sender := s.nct.station, payload := .hello p } → s.obs.holds .hello = true →
    let ref := (s.nct.now - BitVec.ofNat 32 c.beat) +
      BitVec.ofNat 32 ((s.nct.station.toNat + 1) * c.beat / 16)
    let beyond := s.rpe.wanted.filter fun n => decide (c.activeSlots ≤ n)
    (s.mbu.provisional = 0 →
      ∃ t, exec (.vetoSlot false false) s = .next t ∧
        t.nct = { s.nct with node := .member, phase := .none } ∧
        (∀ n, n < c.activeSlots → t.entry n = {
          state := .free, version := 0, length := 0,
          health := if (s.dst.rowInUse n).isSome then .good else .failed,
          wanted := false, unresolved := false, parityGood := true }) ∧
        (∀ n, t.mbu.entry n = if n = s.nct.station.toNat then
            { state := .present, deadline := none, suspectSince := none, parityGood := true }
          else { state := .absent, deadline := none, suspectSince := none, parityGood := true }) ∧
        t.mbu.beatRef = some ref ∧ t.mbu.beatAsked = false ∧ t.mbu.decision = none ∧
        t.ntq = s.ntq.arriveAll [.opDone .join .ok none, .catchupDone 0] ∧
        t.rpe = { s.rpe with wanted := beyond, unresolved := 0 } ∧
        t.scb = { pointer := 0, timer := if c.scrub = 0 then none else some 0, turn := none } ∧
        (∀ e, e ∈ t.obs.queue ↔ e ∈ s.obs.queue ∧ e.kind ≠ .hello) ∧
        t.dst = s.dst ∧ t.opu = s.opu ∧ t.wch = s.wch ∧ t.elg = s.elg ∧ t.lpt = s.lpt) ∧
    (s.rpe.cycle = none → s.obs.holds .ask = false →
      ∃ t, exec (.vetoSlot true false) s = .next t ∧
        t.nct = { s.nct with node := .catchup, phase := .none } ∧
        (∀ n, n < c.activeSlots → t.entry n = {
          state := .unlearned, version := 0, length := 0, health := .unknown,
          wanted := true, unresolved := false, parityGood := true }) ∧
        (∀ n, n < 16 → t.mbu.entry n = if n = s.nct.station.toNat then
            { state := .present, deadline := none, suspectSince := none, parityGood := true }
          else if s.mbu.provisional.getLsbD n then {
            state := .present, deadline := some (s.nct.now + BitVec.ofNat 32 (c.beat * c.silence)),
            suspectSince := none, parityGood := true }
          else { state := .absent, deadline := none, suspectSince := none, parityGood := true }) ∧
        t.mbu.beatRef = some ref ∧ t.mbu.beatAsked = false ∧ t.mbu.decision = none ∧
        t.ntq = s.ntq.arrive (.opDone .join .ok none) ∧
        t.rpe = { s.rpe with
          wanted := List.range c.activeSlots ++ beyond, unresolved := 0,
          cycle := some {
            first := 0, last := 15, try_ := 1, phase := .queued, sent := none, deadline := none, asked := [] } } ∧
        { kind := .ask, ref := .askTry 1, attempts := 0, queued := s.nct.now } ∈ t.obs.queue ∧
        t.scb = { pointer := 0, timer := if c.scrub = 0 then none else some 0, turn := none } ∧
        t.dst = s.dst ∧ t.opu = s.opu ∧ t.wch = s.wch ∧ t.elg = s.elg ∧ t.lpt = s.lpt)

/-! ### The bus: the end of a frame -/

/-- STOP_CONDITION after the slots (R4, R13, R85, R86, R107): the sender sets its last-sender flag and moves its beat
reference; a power-fail LEAVE halts the node. The model's readings are that the stop condition of a HELLO leaves the
reference that the stagger set (log entry 12), that the mark of the BEAT asked for moves with the reference (log entry
24), and that a halted node keeps its phase and listen deadline (log entry 16). That a node which its own veto slot
moved to IDLE gives its stop condition all the same, and sets the flag, is the model's choice (log entry 57). -/
def Obligations.StopConditionCompletesTheFrame : Prop :=
  (∀ (header : Option Byte) (s : State), s.running → s.pbi.shift = .slotsDone none →
    exec (.stopCondition header) s = .next { s with pbi := { s.pbi.goHigh with shift := .idle } }) ∧
  (∀ (header : Option Byte) (k : FrameKind) (s : State), s.running → s.pbi.shift = .slotsDone (some k) →
    s.nct.phase ≠ .pfailLeave →
    exec (.stopCondition header) s = .next
      { s with
        pbi := { s.pbi.goHigh with shift := .idle, lastSender := true },
        mbu := if s.active && decide (k ≠ .hello) then { s.mbu with beatRef := some s.nct.now, beatAsked := false }
          else s.mbu }) ∧
  (∀ (header : Option Byte) (k : FrameKind) (s : State), s.running → s.pbi.shift = .slotsDone (some k) →
    s.nct.phase = .pfailLeave →
    ∃ t, exec (.stopCondition header) s = .next t ∧ s.haltedFrom t .pfail [] ∧ t.pbi.lastSender = true)

/-- TRUNCATION of a frame in progress, whatever ended it (R3, R9, R14, R34, R101, R107, R137, R140): it is logged in
the states of R14 and discarded, the stretch is released, and the frame checker's request is withdrawn or its grant
released; a receiver applies nothing, a give-up that it still awaits is asked for anew, and a start condition begins
the next frame. At the sender the entry stays and the operation's record is back to QUEUED, but in LEAVING an
operation ends ABORTED, and a power-fail leave halts the node. A stop or start condition in a frame is the truncation
by it. That the rows stand for one event is the model's choice (log entries 3 and 9), and so is time brought up to the
idle count (log entry 2); that a halted node keeps its phase and listen deadline is its reading (log entry 16). -/
def Obligations.TruncationDiscardsTheFrame : Prop :=
  (∀ (header : Option Byte) (s : State),
    exec (.stopCondition header) s = exec (.truncation .stop header) s ∧
      exec (.startCondition header) s = exec (.truncation .start header) s) ∧
  ∀ (cause : TruncationCause) (header : Option Byte) (s : State), s.running →
    let logged := fun now : Time => if s.nct.node.taking then s.elg.take {
        kind := .frameTruncated, time := now,
        fields := {
          slot := none, station := header.map fun h => (headerStation h).toNat, word := none, bit := none } }
      else s.elg
    let ended := fun t : State =>
      t.elg = logged t.nct.now ∧ t.fck = { inbound := none, purpose := none } ∧
        t.pbi.shift = (if cause = .start then .receiving else .idle) ∧
        t.pbi.lines = (if cause = .start then .active else .high) ∧ t.pbi.holdPck = false ∧
        t.pbi.pullHeard = false ∧ t.pbi.pullVeto = false ∧
        (cause = .stop → t.pbi.busFreeTimer = 0) ∧ (cause = .idle → 12 ≤ t.pbi.busFreeTimer) ∧
        t.nct = { s.nct with now := t.nct.now, subBits := t.nct.subBits, pfailWait := t.nct.pfailWait } ∧
        t.dir = s.dir ∧ t.dst = s.dst ∧ t.mbu = s.mbu ∧ t.rpe = s.rpe ∧ t.wch = s.wch ∧ t.lpt = s.lpt
    let access := fun (p : Purpose) (t : State) =>
      (s.fck.purpose = none ∧ t.sar = s.sar) ∨
        (s.fck.purpose = some p ∧ s.rpe.due = none ∧ t.sar = s.sar.letGo .fck)
    (s.pbi.shift = .receiving ∨ s.pbi.shift = .paused →
      s.fck.purpose = none ∨ (s.fck.purpose = some .check ∧ s.rpe.due = none) →
      ∃ t, exec (.truncation cause header) s = .next t ∧ ended t ∧ access .check t ∧
        t.obs.queue = s.obs.queue ∧ t.opu = s.opu ∧ t.ntq = s.ntq) ∧
    (∀ d, s.pbi.shift = .paused → s.fck.purpose = some .check → s.sar.grant ≠ some .fck → s.rpe.due = some d →
      ∃ t, exec (.truncation cause header) s = .next t ∧ t.elg = logged t.nct.now ∧
        t.pbi.shift = (if cause = .start then .receiving else .idle) ∧ t.pbi.holdPck = false ∧
        t.fck = { inbound := none, purpose := some .giveUp } ∧
        t.sar = (s.sar.letGo .fck).request .fck ∧
        t.rpe = { s.rpe with due := some { slots := d.slots, takenOver := false } } ∧
        t.obs.queue = s.obs.queue ∧ t.opu = s.opu ∧ t.ntq = s.ntq ∧
        t.dir = s.dir ∧ t.dst = s.dst ∧ t.mbu = s.mbu ∧ t.wch = s.wch ∧ t.lpt = s.lpt) ∧
    ∀ f, s.pbi.shift = .sending f ∨ s.pbi.shift = .sendingPaused f →
      s.fck.purpose = none ∨ (s.fck.purpose = some .ownFrame ∧ s.rpe.due = none) →
      (s.nct.phase ≠ .pfailLeave → ¬(s.nct.node = .leaving ∧ f.kind.isOperation = true) →
        ∃ t, exec (.truncation cause header) s = .next t ∧ ended t ∧ access .ownFrame t ∧
          t.obs.queue = s.obs.queue ∧
          t.opu = (if s.obs.holds f.kind && f.kind.isOperation then
            { s.opu with op := s.opu.op.map fun o => { o with onBus := false } } else s.opu) ∧
          t.ntq = s.ntq) ∧
      (∀ o, s.nct.phase ≠ .pfailLeave → s.nct.node = .leaving → f.kind.isOperation = true →
        s.obs.holds f.kind = true → s.opu.op = some o → s.levelGood →
        ∃ t, exec (.truncation cause header) s = .next t ∧ ended t ∧ access .ownFrame t ∧
          t.obs.queue = s.obs.queue.filter (fun e => !decide (e.kind = f.kind)) ∧
          t.opu = { s.opu with op := none } ∧
          t.ntq = s.ntq.arrive (.opDone o.kind.done .aborted o.kind.slot?)) ∧
      (s.nct.phase = .pfailLeave →
        ∃ t, exec (.truncation cause header) s = .next t ∧
          State.haltedFrom
            { s with nct := { s.nct with now := t.nct.now, subBits := t.nct.subBits, pfailWait := t.nct.pfailWait } }
            t .pfail (if s.nct.node.taking then [(.frameTruncated, {
              slot := none, station := header.map fun h => (headerStation h).toNat, word := none,
              bit := none })] else []))

/-- BUS_STUCK and STUCK_EPISODE_END (R16): one report and one HIGH notice for each episode, which both lines going
high ends. A parity mismatch of the enables, which the notice has the level use, halts the node. Time brought up to
2048 is the model's choice (log entry 2), and so is the test of the enables at the end of the event (log entry 19). -/
def Obligations.StuckLineReportsOnce : Prop :=
  (∀ (l : Line) (c : NodeConfig) (s : State), s.running → s.pbi.stuckEpisode = false →
    s.nct.config = some c → c.parityGood = false → (s.ntq.arrive .busStuck).notices ≠ s.ntq.notices →
    ∃ t, exec (.busStuck l) s = .next t ∧ t.nct.node = .halted ∧ t.nct.haltCause = some .internalFault ∧
      t.elg = (s.elg.take {
        kind := .busStuck, time := t.nct.now,
        fields := { slot := none, station := none, word := none, bit := none } }).take {
          kind := .internalFault, time := t.nct.now,
          fields := { slot := none, station := none, word := none, bit := none } }) ∧
  (∀ (l : Line) (s : State), s.running → s.pbi.stuckEpisode = false → s.levelGood →
    ∃ t, exec (.busStuck l) s = .next t ∧ t.pbi.stuckEpisode = true ∧ 2048 ≤ t.pbi.stuckTimer l ∧
      t.elg = s.elg.take {
        kind := .busStuck, time := t.nct.now,
        fields := { slot := none, station := none, word := none, bit := none } } ∧
      t.ntq = s.ntq.arrive .busStuck ∧ t.pbi.shift = s.pbi.shift ∧
      t.dir = s.dir ∧ t.dst = s.dst ∧ t.mbu = s.mbu ∧ t.obs = s.obs ∧ t.rpe = s.rpe ∧ t.opu = s.opu ∧
      t.wch = s.wch ∧ t.lpt = s.lpt ∧ t.sar = s.sar) ∧
  (∀ (l : Line) (s : State), s.running → s.pbi.stuckEpisode = true → exec (.busStuck l) s = .next s) ∧
  (∀ s : State, s.running → s.pbi.stuckEpisode = true →
    exec .stuckEpisodeEnd s = .next { s with pbi := { s.pbi with
      lines := .high, busFreeTimer := 0, stuckPck := 0, stuckPdt := 0, stuckEpisode := false } })

/-! ### The timers and engines -/

/-- LISTEN_DEADLINE, BEAT_REQUEST and DEADLINE_PASSES (R77, R85, R96): at the listen deadline a HELLO entry is placed
and the node announces itself; one beat interval after the reference a BEAT entry is placed, unless one stands, and no
new request arises until the reference moves; a PRESENT station whose deadline passes becomes SUSPECT with a notice, and
the decision timer starts unless it runs or a DROP entry stands. Time brought up to the deadline is the model's choice
(log entry 2), the field that remembers the request is the model's (log entry 24), and so is the reading that a passed
deadline tests the parity of its one entry (log entry 27). -/
def Obligations.DeadlinesPlaceEntriesAndSuspect : Prop :=
  (∀ (d : Time) (s : State), s.nct.nrstLow = false → s.nct.node = .listening → s.nct.listenDeadline = some d →
    s.nct.subBits < 125 * 2 ^ s.nct.rate.toNat → s.obs.queue = [] →
    ∃ t, exec .listenDeadline s = .next t ∧ t.nct.node = .announcing ∧ t.nct.listenDeadline = none ∧
      t.nct.now = (if (s.nct.now - d).toNat < 2147483648 then s.nct.now else d) ∧
      t.obs.queue = [{ kind := .hello, ref := .none, attempts := 0, queued := t.nct.now }] ∧
      t.dir = s.dir ∧ t.dst = s.dst ∧ t.mbu = s.mbu ∧ t.rpe = s.rpe ∧ t.opu = s.opu ∧ t.wch = s.wch ∧
      t.ntq = s.ntq ∧ t.elg = s.elg ∧ t.lpt = s.lpt ∧ t.sar = s.sar) ∧
  (∀ (r : Time) (c : NodeConfig) (s : State), s.nct.nrstLow = false → s.active = true → s.hasConfig c →
    s.mbu.beatRef = some r →
    (s.mbu.beatAsked = true → exec .beatRequest s = .next s) ∧
    (s.mbu.beatAsked = false → (s.nct.now - (r + BitVec.ofNat 32 c.beat)).toNat < 2147483648 →
      exec .beatRequest s = .next
        { s with
          mbu := { s.mbu with beatAsked := true },
          obs := if s.obs.holds .beat then s.obs else { s.obs with queue := s.obs.queue ++
            [{ kind := .beat, ref := .none, attempts := 0, queued := s.nct.now }] } })) ∧
  ∀ (n : Station) (d : Time) (c : NodeConfig) (s : State), s.canonical → s.nct.nrstLow = false →
    s.active = true → n ≠ s.nct.station → s.hasConfig c → (s.mbu.entry n.toNat).parityGood = true →
    (s.mbu.entry n.toNat).state = .present → (s.mbu.entry n.toNat).deadline = some d →
    (s.nct.now - d).toNat < 2147483648 →
    ∃ t, exec (.deadlinePasses n) s = .next t ∧
      t.mbu.entry n.toNat = {
        state := .suspect, deadline := some d, suspectSince := some s.nct.now, parityGood := true } ∧
      (∀ m, m ≠ n.toNat → t.mbu.entry m = s.mbu.entry m) ∧
      t.mbu.decision = (if s.mbu.decision ≠ none ∨ s.obs.holds .drop = true then s.mbu.decision
        else some (s.nct.now + BitVec.ofNat 32 c.beat)) ∧
      t = { s with mbu := { s.mbu with table := t.mbu.table, decision := t.mbu.decision },
                   ntq := s.ntq.arrive (.memberChanged n.toNat .suspect) }

/-- DECISION (R79, R81, R104, R156): with more than half of the member set live, or exactly half with its lowest
station, a DROP of the suspects is placed; otherwise the node becomes ISOLATED and keeps its table. The parity of the
cleared entries is the model's reading: log entry 23. That a give-up or build access is let go at the isolation is its
choice: log entry 53. -/
def Obligations.DecisionDropsOrIsolates : Prop :=
  ∀ (d : Time) (s : State), s.canonical → s.running → s.active = true → s.membersGood →
    s.mbu.decision = some d → passed s.nct.now d →
    (s.hasQuorum → s.obs.holds .drop = false →
      exec .decision s = .next
        { s with
          mbu := { s.mbu with decision := none },
          obs := if s.suspects = [] then s.obs
            else { s.obs with queue := s.obs.queue ++ [s.dropEntry s.nct.now] } }) ∧
    (¬s.hasQuorum → s.levelGood → ∃ t, exec .decision s = .next t ∧ s.isolatedFrom t .noQuorum)

/-- ANSWER_WAIT_EXPIRY (R119, R121, R122): the next try is queued; after try 3 the asked slots still wanted fall due
for give-up, and the frame checker asks for an access, unless it waits for one or holds one, at whose end the give-up
is made. That this holds where none of them is still wanted is the model's choice (log entry 50). -/
def Obligations.AnswerWaitQueuesTheNextTry : Prop :=
  ∀ (c : AskCycle) (d : Time) (s : State), s.nct.nrstLow = false → s.active = true → s.rpe.cycle = some c →
    c.phase = .waiting → c.deadline = some d → s.rpe.due = none → (s.nct.now - d).toNat < 2147483648 →
    (c.try_ < 3 → s.obs.holds .ask = false →
      exec .answerWaitExpiry s = .next
        { s with
          rpe := { s.rpe with cycle := some { c with try_ := c.try_ + 1, phase := .queued, deadline := none } },
          obs := { s.obs with queue := s.obs.queue ++
            [{ kind := .ask, ref := .askTry (c.try_ + 1), attempts := 0, queued := s.nct.now }] } }) ∧
    (3 ≤ c.try_ → s.fck.purpose = none →
      exec .answerWaitExpiry s = .next
        { s with
          rpe := { s.rpe with due := some {
            slots := c.asked.filter fun n => s.rpe.wanted.contains n, takenOver := false } },
          fck := { s.fck with purpose := some .giveUp },
          sar := s.sar.request .fck }) ∧
    (3 ≤ c.try_ → s.fck.purpose ≠ none →
      exec .answerWaitExpiry s = .next
        { s with rpe := { s.rpe with due := some {
            slots := c.asked.filter fun n => s.rpe.wanted.contains n, takenOver := false } } })

/-- GIVE_UP (R100, R113–R115, R121, R122): the due slots that are still wanted become unresolved, each with its
notice, and leave the wanted set, and the unresolved count grows by their number; the give-up is no longer due and its
cycle ends; a CATCHUP node that wants nothing more becomes a MEMBER, and otherwise the next cycle begins. -/
def Obligations.GiveUpMarksUnresolved : Prop :=
  ∀ (d : DueGiveUp) (c : NodeConfig) (s : State), s.canonical → s.running → s.fck.purpose = some .giveUp →
    s.sar.grant = some .fck → s.rpe.due = some d → s.entriesGood → s.hasConfig c →
    ∃ t, exec .giveUp s = .next t ∧ s.givenUp t c (d.slots.filter fun n => s.rpe.wanted.contains n) ∧
      t.fck = { s.fck with purpose := none } ∧ t.sar = s.sar.handOver ∧
      t.dst = s.dst ∧ t.mbu = s.mbu ∧ t.opu = s.opu ∧ t.wch = s.wch ∧ t.elg = s.elg ∧ t.lpt = s.lpt ∧
      t.pbi = s.pbi ∧ t.scb = s.scb ∧ t.pending = s.pending

/-- SCRUB_TURN (R157): at the scrub interval the timer stops, a turn begins and its first step asks for the store.
SCRUB_STEP (R157, R158) of a slot that is not GOOD, or is GOOD with undisturbed words: the pointer moves on, the turn
goes on or ends, and the store is unchanged. -/
def Obligations.ScrubTurnsAndStepsWalkTheSlots : Prop :=
  (∀ (n : Nat) (c : NodeConfig) (s : State), s.nct.nrstLow = false → s.hasConfig c → s.walks = true →
    s.scb.timer = some n → c.scrub ≤ n →
    exec .scrubTurn s = .next
      { s with scb := { s.scb with timer := none, turn := some 0 }, sar := s.sar.request .scb }) ∧
  ∀ (c : NodeConfig) (passed : Nat) (s : State), s.running → s.hasConfig c → s.sar.grant = some .scb →
    s.scb.turn = some passed → (s.entry s.scb.pointer).parityGood = true →
    let next := if s.scb.pointer + 1 < c.activeSlots then s.scb.pointer + 1 else 0
    ((s.entry s.scb.pointer).health ≠ .good → passed + 1 < c.activeSlots →
      exec .scrubStep s = .next
        { s with
          scb := { s.scb with pointer := next, turn := some (passed + 1) },
          sar := s.sar.handOver.request .scb }) ∧
    ((s.entry s.scb.pointer).health ≠ .good → c.activeSlots ≤ passed + 1 →
      exec .scrubStep s = .next
        { s with scb := { pointer := next, turn := none, timer := some 0 }, sar := s.sar.handOver }) ∧
    (∀ row, (s.entry s.scb.pointer).health = .good → s.dst.rowInUse s.scb.pointer = some row →
      (∀ p, p < (s.entry s.scb.pointer).length → (s.dst.cell row p).flips = 0) →
      exec .scrubStep s = .next
        { s with scb := { pointer := next, turn := none, timer := some 0 }, sar := s.sar.handOver })

/-- A code word without a disturbed bit reads clean, with one corrected as it was written, with two uncorrectable, and
with more uncorrectable or corrected at some position to a word that is not the one written (R29). SCRUB_STEP of a GOOD
slot (R36, R37, R112–R115, R120, R130, R157, R158, R160–R163): every corrected word in use is written back and
reported, in ascending position. Where a word is uncorrectable, the lowest such position damages the slot, once: a row
at strike 0 takes its strike and keeps its words; a struck row is retired, and the slot moves to a zeroed spare, or has
FAILED, with its notice, where none is free; the rows and marks of other slots stay. A participating node seeks the
slot, and a cycle begins where none runs; a CATCHUP node that wants nothing more becomes a MEMBER. That these steps of
the repair engine wait for a give-up that is due is the model's reading (log entry 22). -/
def Obligations.DisturbedWordsAreCorrectedStruckOrRetired : Prop :=
  (∀ x : Cell,
    let bits := flippedBits x.flips
    (bits = [] → x.decode = .clean x.word) ∧
    (∀ bit, bits = [bit] → x.decode = .corrected x.word bit) ∧
    (bits.length = 2 → x.decode = .uncorrectable) ∧
    (3 ≤ bits.length → x.decode = .uncorrectable ∨ ∃ word bit, bit < 22 ∧ x.decode = .corrected word bit ∧
      word ≠ x.word ∧
      ∀ i, i < 16 → word.getLsbD i = ((x.word.getLsbD i != x.flips.getLsbD i) != decide (i = bit)))) ∧
  ∀ (c : NodeConfig) (row : Nat) (s : State), s.canonical → s.running → s.hasConfig c →
    s.sar.grant = some .scb → (s.entry s.scb.pointer).parityGood = true →
    (s.entry s.scb.pointer).health = .good → s.dst.rowInUse s.scb.pointer = some row →
    (s.entry s.scb.pointer).length ≤ 16 → s.scb.turn ≠ none →
    let slot := s.scb.pointer
    let scb : Scb := { pointer := if slot + 1 < c.activeSlots then slot + 1 else 0, timer := some 0, turn := none }
    ∃ u, s.readThrough u slot row ∧
      ((∀ p, p < (s.entry slot).length → (s.dst.cell row p).decode ≠ .uncorrectable) →
        exec .scrubStep s = .next { u with scb := scb, sar := s.sar.handOver }) ∧
      ∀ w, s.lowestBad slot row w →
        ∃ t, exec .scrubStep s = .next t ∧ u.damagedTo t c slot row w ∧ t.scb = scb ∧ t.sar = s.sar.handOver ∧
          t.lpt = s.lpt

/-- AGE_EXPIRY (R174): STALE is raised once for a deadline, which is kept. -/
def Obligations.AgeExpiryRaisesStaleOnce : Prop :=
  ∀ (index : Fin 4) (w : Watch) (a : AgePart) (s : State), s.nct.nrstLow = false → s.active = true → s.levelGood →
    s.wch[index.val]? = some (some w) → w.age = some a →
    (a.fired = true → exec (.ageExpiry index) s = .next s) ∧
    (a.fired = false → (s.nct.now - a.deadline).toNat < 2147483648 →
      exec (.ageExpiry index) s = .next
        { s with
          wch := s.wch.set index.val (some { w with age := some { a with fired := true } }),
          ntq := s.ntq.arrive (.stale index.val w.slot) })

/-! ### Rules of the shared operations -/

/-- A data change (R172, R173, R176, Table 9-2): every watch on the slot starts its age anew, with the deadline one
period from now and not fired, and its limit part compares the word at its index; the notices arrive in entry order,
and the data changes of a frame one after another. -/
def Obligations.LimitComparisonFollowsTheTable : Prop :=
  (∀ (slot : Nat) (words : List Word) (s : State),
    (∀ (index : Nat) (w : Watch), s.wch[index]? = some (some w) →
      (s.dataChange slot words).wch[index]? =
        some (some (if w.slot = slot then (w.change s.nct.now index words).1 else w))) ∧
    (s.dataChange slot words).ntq = s.ntq.arriveAll ((List.range s.wch.length).flatMap fun index =>
      match s.wch[index]? with
      | some (some w) => if w.slot = slot then (w.change s.nct.now index words).2 else []
      | _ => []) ∧
    (∀ index : Nat, s.wch[index]? = some none → (s.dataChange slot words).wch[index]? = some none) ∧
    (s.dataChange slot words).wch.length = s.wch.length) ∧
  (∀ (s : State) (l : List (Nat × List Word)),
    s.dataChanges l = { s with
      wch := (watchesAfter s.nct.now l s.wch).1, ntq := s.ntq.arriveAll (watchesAfter s.nct.now l s.wch).2 } ∧
    (∀ p rest, l = p :: rest → s.dataChanges l = (s.dataChange p.1 p.2).dataChanges rest)) ∧
  (∀ (w : Watch) (now : Time) (index : Nat) (words : List Word),
    (w.change now index words).1.slot = w.slot ∧
      (w.change now index words).1.age = w.age.map fun a =>
        { a with deadline := now + BitVec.ofNat 32 a.period, fired := false }) ∧
  (∀ (w : Watch) (l : LimitPart) (now : Time) (index : Nat) (words : List Word), w.limit = some l →
    (w.change now index words).1.limit = some (l.compare index w.slot words).1 ∧
      (w.change now index words).2 = (l.compare index w.slot words).2) ∧
  (∀ (w : Watch) (now : Time) (index : Nat) (words : List Word), w.limit = none →
    (w.change now index words).1.limit = none ∧ (w.change now index words).2 = []) ∧
  ∀ (l : LimitPart) (index slot : Nat) (words : List Word),
    (words.length ≤ l.word → l.compare index slot words = (l, [])) ∧
    (∀ w, words[l.word]? = some w →
      let inside := l.low.toNat ≤ w.toNat ∧ w.toNat ≤ l.high.toNat
      (l.outside = false → inside → l.compare index slot words = (l, [])) ∧
      (l.outside = false → ¬inside →
        l.compare index slot words = ({ l with outside := true }, [.limit index slot .left w])) ∧
      (l.outside = true → ¬inside → l.compare index slot words = (l, [])) ∧
      (l.outside = true → inside →
        l.compare index slot words = ({ l with outside := false }, [.limit index slot .returned w])))

/-- The arrival of a notice: coalesced with the standing one in its place (R179); otherwise at the end while there is
room, and then by severity, every removal and every drop setting the lost flag and changing nothing else (R180). -/
def Obligations.NoticeArrivalCoalescesOrDisplaces : Prop :=
  (∀ (s : State) (n : Notice), s.notify n = { s with ntq := s.ntq.arrive n }) ∧
  (∀ n o : Notice, n.coalesces o = true ↔
    (∃ slot c d, n = .recordChanged slot c ∧ o = .recordChanged slot d) ∨
    (∃ station a b, n = .memberChanged station a ∧ o = .memberChanged station b)) ∧
  (∀ (q : Ntq) (n o : Notice) (before after : List Notice), q.notices = before ++ o :: after →
    n.coalesces o = true → (∀ m ∈ before ++ after, n.coalesces m = false) →
    q.arrive n = { q with notices := before ++ n :: after }) ∧
  ∀ (q : Ntq) (n : Notice), (∀ o ∈ q.notices, n.coalesces o = false) →
    (q.notices.length < 16 → q.arrive n = { q with notices := q.notices ++ [n] }) ∧
    (16 ≤ q.notices.length →
      (n.severity = .low → q.arrive n = { q with lost := true }) ∧
      (∀ (before after : List Notice) (o : Notice), q.notices = before ++ o :: after →
        o.severity = .low → (∀ m ∈ after, m.severity ≠ .low) → n.severity ≠ .low →
        q.arrive n = { notices := before ++ after ++ [n], lost := true }) ∧
      (∀ (before after : List Notice) (o : Notice), q.notices = before ++ o :: after →
        o.severity = .high → (∀ m ∈ after, m.severity ≠ .high) → (∀ m ∈ q.notices, m.severity ≠ .low) →
        n.severity = .critical → q.arrive n = { notices := before ++ after ++ [n], lost := true }) ∧
      ((∀ m ∈ q.notices, m.severity ≠ .low) → n.severity = .high → q.arrive n = { q with lost := true }) ∧
      ((∀ m ∈ q.notices, m.severity = .critical) → q.arrive n = { q with lost := true }))

/-- The error log takes a report, with the local time of the moment (R185). -/
def Obligations.ErrorLogCountsAndKeeps : Prop :=
  (∀ (s : State) (kind : ErrorKind) (fields : ErrorFields),
    s.report kind fields = { s with elg := s.elg.take { kind := kind, time := s.nct.now, fields := fields } }) ∧
  ∀ (l : Elg) (e : LogEntry),
    (l.counter < 255 → l.entries.length < 6 →
      l.take e = { entries := l.entries ++ [e], counter := l.counter + 1 }) ∧
    (l.counter < 255 → 6 ≤ l.entries.length → l.take e = { l with counter := l.counter + 1 }) ∧
    (255 ≤ l.counter → l.take e = l)

/-- The store arbiter (R34): a request is granted at once where the store is free and nobody waits, and otherwise
waits; a grant stays until its holder lets it go; then the frame checker is granted if it waits, else the local port,
else the scrubber; a waiting request that is withdrawn is no longer granted. -/
def Obligations.ArbiterGrantsByRank : Prop :=
  (∀ (s : State) (c : Claimant),
    s.requestStore c = { s with sar := s.sar.request c } ∧ s.letGoStore c = { s with sar := s.sar.letGo c }) ∧
  (∀ c : Claimant, (Sar.request { grant := none, fckWaits := false, lptWaits := false, scbWaits := false } c) =
    { grant := some c, fckWaits := false, lptWaits := false, scbWaits := false }) ∧
  (∀ (a : Sar) (c d : Claimant), a.grant = some d → d ≠ c →
    a.request c = { a with
      fckWaits := a.fckWaits || decide (c = .fck), lptWaits := a.lptWaits || decide (c = .lpt),
      scbWaits := a.scbWaits || decide (c = .scb) }) ∧
  (∀ (a : Sar) (c : Claimant), a.grant = some c → a.letGo c =
    if a.fckWaits then { a with grant := some .fck, fckWaits := false }
    else if a.lptWaits then { a with grant := some .lpt, lptWaits := false }
    else if a.scbWaits then { a with grant := some .scb, scbWaits := false }
    else { a with grant := none }) ∧
  ∀ (a : Sar) (c : Claimant), a.grant ≠ some c → a.letGo c = { a with
    fckWaits := a.fckWaits && decide (c ≠ .fck), lptWaits := a.lptWaits && decide (c ≠ .lpt),
    scbWaits := a.scbWaits && decide (c ≠ .scb) }

/-- A frame that a sender builds is classified intact at a receiver, with every field as it was sent (R7, R8, R19,
R201). Of any body, the first check of R8 that fails decides: no whole byte; bits beyond whole bytes, or a length
outside 3 to 152 bytes; the CRC; a kind code outside 1 to 9, or a length other than R19 gives. A body that meets them
all is an intact frame of those bytes. -/
def Obligations.BuiltFramesAreReceivedIntact : Prop :=
  (∀ f : Frame, f.fits → classify f.body 0 = .intact f) ∧
  (∀ extraBits : Nat, classify [] extraBits = .noHeader) ∧
  ∀ (header : Byte) (rest : List Byte) (extraBits : Nat),
    let body := header :: rest
    let sender : Station := header.setWidth 4
    let covered := body.take (body.length - 2)
    let payload := covered.drop 1
    let whole := extraBits = 0 ∧ 3 ≤ body.length ∧ body.length ≤ 152
    let crcHolds := body.drop (body.length - 2) = Word.bytes (crcOf covered)
    let lengthHolds := payloadLength (header >>> 4).toNat payload = some payload.length
    (¬whole → classify body extraBits = .formatError sender) ∧
    (whole → ¬crcHolds → classify body extraBits = .crcError sender) ∧
    (whole → crcHolds → ¬lengthHolds → classify body extraBits = .formatError sender) ∧
    (whole → crcHolds → lengthHolds →
      ∃ f, classify body extraBits = .intact f ∧ f.sender = sender ∧ f.body = body)

/-! ### Headline results -/

/-- Every step keeps the directory, the data store and the membership table in canonical form, which is the model's
own, and with it the repair engine's wanted set in step with the wanted flags (R112). That a disturbed flag is no change
that the set follows is the model's reading: log entry 7. -/
def Obligations.StepKeepsStorageAndWantedSet : Prop :=
  (∀ s t : State, s.canonical → step s = .next t → t.canonical) ∧
  ∀ s t : State, s.canonical → s.follows → step s = .next t → t.follows

/-- Every step keeps the bounds of the notice queue and the error log, the one entry of a kind in the outbound queue,
and the four watches and four drafts (R134, R155, R168, R178, R185). -/
def Obligations.StepKeepsTheBounds : Prop :=
  ∀ s t : State, s.bounded ∧ s.queueSingle ∧ s.buffersBounded → step s = .next t →
    t.bounded ∧ t.queueSingle ∧ t.buffersBounded

/-- The state after reset satisfies the invariant. -/
def Obligations.ResetSatisfiesTheInvariant : Prop := State.reset.inv
end

