-- ==== Sys2Proof/Laws/Sparse.lean ====
section
/-!
SUPPORT. What a write of sparse storage changes, and that every write keeps the canonical form: for any value type,
then for the data store, the directory and the membership table.
-/

set_option Elab.async false

namespace Sys2Proof.Machine

section Sparse

variable {α : Type} [DecidableEq α] {d : α}

omit [DecidableEq α] in
@[simp] theorem sparseGet_nil (n : Nat) : sparseGet d [] n = d := rfl

omit [DecidableEq α] in
/-- A key below every listed key reads as unlisted. -/
theorem sparseGet_of_lt {l : List (Nat × α)} {n : Nat} (h : ∀ p ∈ l, n < p.1) : sparseGet d l n = d := by
  induction l with
  | nil => rfl
  | cons p l ih =>
    have hp := h p (by simp)
    have hne : p.1 ≠ n := by omega
    simp only [sparseGet, if_neg hne]
    exact ih fun q hq => h q (by simp [hq])

/-- A write changes what its key reads as, and nothing else. -/
theorem sparseGet_put {l : List (Nat × α)} (h : l.Pairwise (fun p q => p.1 < q.1)) (n m : Nat) (v : α) :
    sparseGet d (sparsePut d l n v) m = if m = n then v else sparseGet d l m := by
  induction l with
  | nil =>
    by_cases hv : v = d
    · by_cases hm : m = n <;> simp [sparsePut, hv, sparseGet, hm]
    · by_cases hm : m = n
      · simp [sparsePut, hv, sparseGet, hm]
      · have : n ≠ m := fun e => hm e.symm
        simp [sparsePut, hv, sparseGet, hm, this]
  | cons p l ih =>
    obtain ⟨k, w⟩ := p
    rw [List.pairwise_cons] at h
    have ih' := ih h.2
    unfold sparsePut
    by_cases h1 : n < k
    · rw [if_pos h1]
      by_cases hv : v = d
      · rw [if_pos hv]
        by_cases hm : m = n
        · rw [if_pos hm, hv, hm]
          apply sparseGet_of_lt
          intro q hq
          rcases List.mem_cons.1 hq with rfl | hq
          · exact h1
          · have := h.1 q hq
            simp only at this
            omega
        · rw [if_neg hm]
      · rw [if_neg hv]
        by_cases hm : m = n
        · simp [sparseGet, hm]
        · have : n ≠ m := fun e => hm e.symm
          simp [sparseGet, hm, this]
    · rw [if_neg h1]
      by_cases h2 : n = k
      · rw [if_pos h2]
        by_cases hv : v = d
        · rw [if_pos hv]
          by_cases hm : m = n
          · rw [if_pos hm, hv]
            apply sparseGet_of_lt
            intro q hq
            have := h.1 q hq
            simp only at this
            omega
          · have : k ≠ m := by omega
            simp [sparseGet, hm, this]
        · rw [if_neg hv]
          by_cases hm : m = n
          · simp [sparseGet, hm]
          · have h3 : n ≠ m := fun e => hm e.symm
            have h4 : k ≠ m := by omega
            simp [sparseGet, hm, h3, h4]
      · rw [if_neg h2]
        by_cases hk : k = m
        · have : m ≠ n := by omega
          simp [sparseGet, hk, this]
        · simp only [sparseGet, if_neg hk]
          exact ih'

/-- Keys of a written list. -/
theorem mem_sparsePut {l : List (Nat × α)} {n : Nat} {v : α} {p : Nat × α} (h : p ∈ sparsePut d l n v) :
    p = (n, v) ∨ p ∈ l := by
  induction l with
  | nil =>
    unfold sparsePut at h
    split at h <;> simp_all
  | cons q l ih =>
    obtain ⟨k, w⟩ := q
    unfold sparsePut at h
    split at h
    · split at h
      · exact .inr h
      · simpa using h
    · split at h
      · split at h
        · exact .inr (List.mem_cons_of_mem _ h)
        · rcases List.mem_cons.1 h with h | h
          · exact .inl h
          · exact .inr (List.mem_cons_of_mem _ h)
      · rcases List.mem_cons.1 h with h | h
        · exact .inr (by simp [h])
        · rcases ih h with h | h
          · exact .inl h
          · exact .inr (List.mem_cons_of_mem _ h)

/-- A write keeps the canonical form. -/
theorem sparsePut_wf {l : List (Nat × α)} (h : sparseWf d l) (n : Nat) (v : α) :
    sparseWf d (sparsePut d l n v) := by
  obtain ⟨hs, hv⟩ := h
  induction l with
  | nil =>
    unfold sparsePut
    split <;> simp_all [sparseWf]
  | cons q l ih =>
    obtain ⟨k, w⟩ := q
    have hs' := List.pairwise_cons.1 hs
    have ih' := ih hs'.2 fun p hp => hv p (List.mem_cons_of_mem _ hp)
    unfold sparsePut
    split
    · rename_i hlt
      split
      · exact ⟨hs, hv⟩
      · rename_i hne
        refine ⟨List.pairwise_cons.2 ⟨?_, hs⟩, ?_⟩
        · intro p hp
          rcases List.mem_cons.1 hp with rfl | hp
          · exact hlt
          · exact lt_trans hlt (hs'.1 p hp)
        · intro p hp
          rcases List.mem_cons.1 hp with rfl | hp
          · exact hne
          · exact hv p hp
    · split
      · rename_i heq
        split
        · exact ⟨hs'.2, fun p hp => hv p (List.mem_cons_of_mem _ hp)⟩
        · rename_i hne
          refine ⟨List.pairwise_cons.2 ⟨?_, hs'.2⟩, ?_⟩
          · intro p hp
            have := hs'.1 p hp
            simpa [heq] using this
          · intro p hp
            rcases List.mem_cons.1 hp with rfl | hp
            · exact hne
            · exact hv p (List.mem_cons_of_mem _ hp)
      · rename_i hnlt hneq
        refine ⟨List.pairwise_cons.2 ⟨?_, ih'.1⟩, ?_⟩
        · intro p hp
          rcases mem_sparsePut hp with rfl | hp
          · simp only
            omega
          · exact hs'.1 p hp
        · intro p hp
          rcases List.mem_cons.1 hp with rfl | hp
          · exact hv _ (by simp)
          · exact ih'.2 p hp

/-- A rewriting of every value keeps the canonical form. -/
theorem sparseMap_wf {l : List (Nat × α)} (h : sparseWf d l) (f : α → α) : sparseWf d (sparseMap d f l) := by
  obtain ⟨hs, hv⟩ := h
  constructor
  · unfold sparseMap
    rw [List.pairwise_filterMap]
    refine hs.imp ?_
    intro p q hpq p' hp' q' hq'
    split at hp' <;> simp at hp'
    split at hq' <;> simp at hq'
    subst hp' hq'
    exact hpq
  · intro p hp
    unfold sparseMap at hp
    obtain ⟨q, _, hq⟩ := List.mem_filterMap.1 hp
    split at hq <;> simp at hq
    subst hq
    assumption

/-- What every key reads as after a rewriting that leaves the unlisted value as it is. -/
theorem sparseGet_map {l : List (Nat × α)} (h : l.Pairwise (fun p q => p.1 < q.1)) (f : α → α) (hf : f d = d)
    (n : Nat) : sparseGet d (sparseMap d f l) n = f (sparseGet d l n) := by
  induction l with
  | nil => simp [sparseMap, hf]
  | cons p l ih =>
    obtain ⟨k, w⟩ := p
    rw [List.pairwise_cons] at h
    have ih' := ih h.2
    have hlow : k = n → sparseGet d (sparseMap d f l) n = d := by
      intro hk
      apply sparseGet_of_lt
      intro q hq
      unfold sparseMap at hq
      obtain ⟨r, hr, hq⟩ := List.mem_filterMap.1 hq
      split at hq <;> simp at hq
      subst hq
      have := h.1 r hr
      simp only at this ⊢
      omega
    by_cases hw : f w = d
    · have : sparseMap d f ((k, w) :: l) = sparseMap d f l := by simp [sparseMap, hw]
      rw [this]
      by_cases hk : k = n
      · rw [hlow hk]
        simp [sparseGet, hk, hw]
      · simp only [sparseGet, if_neg hk]
        exact ih'
    · have : sparseMap d f ((k, w) :: l) = (k, f w) :: sparseMap d f l := by simp [sparseMap, hw]
      rw [this]
      by_cases hk : k = n
      · simp [sparseGet, hk]
      · simp only [sparseGet, if_neg hk]
        exact ih'

omit [DecidableEq α] in
/-- Dropping keys keeps the canonical form. -/
theorem sparseWf_filter {l : List (Nat × α)} (h : sparseWf d l) (f : Nat × α → Bool) :
    sparseWf d (l.filter f) :=
  ⟨h.1.filter _, fun p hp => h.2 p (List.mem_filter.1 hp).1⟩

omit [DecidableEq α] in
@[simp] theorem sparseWf_nil : sparseWf d ([] : List (Nat × α)) := by simp [sparseWf]

omit [DecidableEq α] in
/-- What a list of kept keys reads as. -/
theorem sparseGet_filter {l : List (Nat × α)} (h : l.Pairwise (fun p q => p.1 < q.1)) (f : Nat → Bool) (n : Nat) :
    sparseGet d (l.filter fun p => f p.1) n = if f n then sparseGet d l n else d := by
  induction l with
  | nil => simp
  | cons p l ih =>
    obtain ⟨k, w⟩ := p
    rw [List.pairwise_cons] at h
    have ih' := ih h.2
    by_cases hk : k = n
    · subst hk
      by_cases hf : f k
      · simp [sparseGet, hf]
      · have h1 : sparseGet d (l.filter fun p => f p.1) k = d := by rw [ih']; simp [hf]
        simp [hf, h1]
    · by_cases hf : f k
      · simp only [List.filter_cons, hf, if_true, sparseGet, if_neg hk]
        exact ih'
      · simp only [List.filter_cons, hf, sparseGet, if_neg hk]
        exact ih'

end Sparse

/-! ### The data store -/

/-- A write of one cell, for positions inside a row. -/
theorem Dst.cell_putCell {s : Dst} (h : Memory.wf s.cells) (row position r p : Nat) (c : Cell)
    (hp : p < 16) (hq : position < 16) :
    (s.putCell row position c).cell r p = if r = row ∧ p = position then c else s.cell r p := by
  unfold Dst.cell Dst.putCell
  simp only
  rw [sparseGet_put h.1]
  have : (cellAddress r p = cellAddress row position) ↔ (r = row ∧ p = position) := by
    simp only [cellAddress, Config.rowWords]
    omega
  simp only [this]

theorem Dst.putCell_wf {s : Dst} (h : Memory.wf s.cells) (row position : Nat) (c : Cell) :
    Memory.wf (s.putCell row position c).cells := sparsePut_wf h _ _

theorem Dst.putWords_wf (ws : List Word) {s : Dst} (h : Memory.wf s.cells) (row position : Nat) :
    Memory.wf (s.putWords row position ws).cells := by
  induction ws generalizing s position with
  | nil => exact h
  | cons w ws ih => exact ih (Dst.putCell_wf h _ _ _) _

/-- A write of words changes cells and nothing else of the store. -/
theorem Dst.putWords_frame (ws : List Word) (s : Dst) (row position : Nat) :
    s.putWords row position ws = { s with cells := (s.putWords row position ws).cells } := by
  induction ws generalizing s position with
  | nil => rfl
  | cons w ws ih =>
    show ((s.putCell row position { word := w, flips := 0 }).putWords row (position + 1) ws) = _
    rw [ih]
    rfl

/-- A write of words inside a row. -/
theorem Dst.cell_putWords (ws : List Word) {s : Dst} (h : Memory.wf s.cells) (row position r p : Nat)
    (hp : p < 16) (hq : position + ws.length ≤ 16) :
    (s.putWords row position ws).cell r p =
      if r = row ∧ position ≤ p ∧ p < position + ws.length then
        { word := ws.getD (p - position) 0, flips := 0 } else s.cell r p := by
  induction ws generalizing s position with
  | nil =>
    have : ¬(r = row ∧ position ≤ p ∧ p < position + 0) := by omega
    simp [Dst.putWords]
  | cons w ws ih =>
    simp only [List.length_cons] at hq
    show ((s.putCell row position { word := w, flips := 0 }).putWords row (position + 1) ws).cell r p = _
    rw [ih (Dst.putCell_wf h _ _ _) _ (by omega), Dst.cell_putCell h _ _ _ _ _ hp (by omega)]
    by_cases h1 : r = row ∧ position + 1 ≤ p ∧ p < position + 1 + ws.length
    · rw [if_pos h1, if_pos (by simp only [List.length_cons]; omega)]
      obtain ⟨m, hm⟩ : ∃ m, p - position = m + 1 := ⟨p - position - 1, by omega⟩
      have hm' : p - (position + 1) = m := by omega
      rw [hm, hm', List.getD_cons_succ]
    · rw [if_neg h1]
      by_cases h2 : r = row ∧ p = position
      · rw [if_pos h2, if_pos (by simp only [List.length_cons]; omega)]
        have : p - position = 0 := by omega
        rw [this, List.getD_cons_zero]
      · rw [if_neg h2, if_neg (by simp only [List.length_cons]; omega)]

/-! ### The directory and the membership table -/

/-- A write of one directory entry. -/
theorem State.entry_putEntry {s : State} (h : sparseWf DirEntry.blank s.dir) (slot n : Nat) (e : DirEntry) :
    (s.putEntry slot e).entry n = if n = slot then { e with parityGood := true } else s.entry n :=
  sparseGet_put h.1 _ _ _

theorem State.putEntry_wf {s : State} (h : sparseWf DirEntry.blank s.dir) (slot : Nat) (e : DirEntry) :
    sparseWf DirEntry.blank (s.putEntry slot e).dir := sparsePut_wf h _ _

/-- A write of one membership entry. -/
theorem Mbu.entry_putEntry {m : Mbu} (h : sparseWf MemberEntry.absent m.table) (station n : Nat) (e : MemberEntry) :
    (m.putEntry station e).entry n = if n = station then { e with parityGood := true } else m.entry n :=
  sparseGet_put h.1 _ _ _

theorem Mbu.putEntry_wf {m : Mbu} (h : sparseWf MemberEntry.absent m.table) (station : Nat) (e : MemberEntry) :
    sparseWf MemberEntry.absent (m.putEntry station e).table := sparsePut_wf h _ _

end Sys2Proof.Machine
end

