-- ==== Sys2Proof/Laws/State.lean ====
section
/-!
SUPPORT. What each named update of the state leaves as it was: one lemma for each field of each update, so that no
proof unfolds a record update.
-/

set_option Elab.async false

namespace Sys2Proof.Machine

variable (s : State)

/-! ### report -/

@[simp] theorem State.report_nct (k : ErrorKind) (f : ErrorFields) : (s.report k f).nct = s.nct := rfl
@[simp] theorem State.report_pbi (k : ErrorKind) (f : ErrorFields) : (s.report k f).pbi = s.pbi := rfl
@[simp] theorem State.report_fck (k : ErrorKind) (f : ErrorFields) : (s.report k f).fck = s.fck := rfl
@[simp] theorem State.report_dir (k : ErrorKind) (f : ErrorFields) : (s.report k f).dir = s.dir := rfl
@[simp] theorem State.report_dst (k : ErrorKind) (f : ErrorFields) : (s.report k f).dst = s.dst := rfl
@[simp] theorem State.report_sar (k : ErrorKind) (f : ErrorFields) : (s.report k f).sar = s.sar := rfl
@[simp] theorem State.report_mbu (k : ErrorKind) (f : ErrorFields) : (s.report k f).mbu = s.mbu := rfl
@[simp] theorem State.report_obs (k : ErrorKind) (f : ErrorFields) : (s.report k f).obs = s.obs := rfl
@[simp] theorem State.report_rpe (k : ErrorKind) (f : ErrorFields) : (s.report k f).rpe = s.rpe := rfl
@[simp] theorem State.report_opu (k : ErrorKind) (f : ErrorFields) : (s.report k f).opu = s.opu := rfl
@[simp] theorem State.report_scb (k : ErrorKind) (f : ErrorFields) : (s.report k f).scb = s.scb := rfl
@[simp] theorem State.report_wch (k : ErrorKind) (f : ErrorFields) : (s.report k f).wch = s.wch := rfl
@[simp] theorem State.report_ntq (k : ErrorKind) (f : ErrorFields) : (s.report k f).ntq = s.ntq := rfl
@[simp] theorem State.report_lpt (k : ErrorKind) (f : ErrorFields) : (s.report k f).lpt = s.lpt := rfl
@[simp] theorem State.report_pending (k : ErrorKind) (f : ErrorFields) : (s.report k f).pending = s.pending := rfl

/-! ### notify -/

@[simp] theorem State.notify_nct (n : Notice) : (s.notify n).nct = s.nct := rfl
@[simp] theorem State.notify_pbi (n : Notice) : (s.notify n).pbi = s.pbi := rfl
@[simp] theorem State.notify_fck (n : Notice) : (s.notify n).fck = s.fck := rfl
@[simp] theorem State.notify_dir (n : Notice) : (s.notify n).dir = s.dir := rfl
@[simp] theorem State.notify_dst (n : Notice) : (s.notify n).dst = s.dst := rfl
@[simp] theorem State.notify_sar (n : Notice) : (s.notify n).sar = s.sar := rfl
@[simp] theorem State.notify_mbu (n : Notice) : (s.notify n).mbu = s.mbu := rfl
@[simp] theorem State.notify_obs (n : Notice) : (s.notify n).obs = s.obs := rfl
@[simp] theorem State.notify_rpe (n : Notice) : (s.notify n).rpe = s.rpe := rfl
@[simp] theorem State.notify_opu (n : Notice) : (s.notify n).opu = s.opu := rfl
@[simp] theorem State.notify_scb (n : Notice) : (s.notify n).scb = s.scb := rfl
@[simp] theorem State.notify_wch (n : Notice) : (s.notify n).wch = s.wch := rfl
@[simp] theorem State.notify_elg (n : Notice) : (s.notify n).elg = s.elg := rfl
@[simp] theorem State.notify_lpt (n : Notice) : (s.notify n).lpt = s.lpt := rfl
@[simp] theorem State.notify_pending (n : Notice) : (s.notify n).pending = s.pending := rfl

/-! ### removeEntry -/

@[simp] theorem State.removeEntry_nct (k : FrameKind) : (s.removeEntry k).nct = s.nct := rfl
@[simp] theorem State.removeEntry_pbi (k : FrameKind) : (s.removeEntry k).pbi = s.pbi := rfl
@[simp] theorem State.removeEntry_fck (k : FrameKind) : (s.removeEntry k).fck = s.fck := rfl
@[simp] theorem State.removeEntry_dir (k : FrameKind) : (s.removeEntry k).dir = s.dir := rfl
@[simp] theorem State.removeEntry_dst (k : FrameKind) : (s.removeEntry k).dst = s.dst := rfl
@[simp] theorem State.removeEntry_sar (k : FrameKind) : (s.removeEntry k).sar = s.sar := rfl
@[simp] theorem State.removeEntry_mbu (k : FrameKind) : (s.removeEntry k).mbu = s.mbu := rfl
@[simp] theorem State.removeEntry_rpe (k : FrameKind) : (s.removeEntry k).rpe = s.rpe := rfl
@[simp] theorem State.removeEntry_opu (k : FrameKind) : (s.removeEntry k).opu = s.opu := rfl
@[simp] theorem State.removeEntry_scb (k : FrameKind) : (s.removeEntry k).scb = s.scb := rfl
@[simp] theorem State.removeEntry_wch (k : FrameKind) : (s.removeEntry k).wch = s.wch := rfl
@[simp] theorem State.removeEntry_ntq (k : FrameKind) : (s.removeEntry k).ntq = s.ntq := rfl
@[simp] theorem State.removeEntry_elg (k : FrameKind) : (s.removeEntry k).elg = s.elg := rfl
@[simp] theorem State.removeEntry_lpt (k : FrameKind) : (s.removeEntry k).lpt = s.lpt := rfl
@[simp] theorem State.removeEntry_pending (k : FrameKind) : (s.removeEntry k).pending = s.pending := rfl

/-! ### setAttempts -/

@[simp] theorem State.setAttempts_nct (k : FrameKind) (n : Nat) : (s.setAttempts k n).nct = s.nct := rfl
@[simp] theorem State.setAttempts_pbi (k : FrameKind) (n : Nat) : (s.setAttempts k n).pbi = s.pbi := rfl
@[simp] theorem State.setAttempts_fck (k : FrameKind) (n : Nat) : (s.setAttempts k n).fck = s.fck := rfl
@[simp] theorem State.setAttempts_dir (k : FrameKind) (n : Nat) : (s.setAttempts k n).dir = s.dir := rfl
@[simp] theorem State.setAttempts_dst (k : FrameKind) (n : Nat) : (s.setAttempts k n).dst = s.dst := rfl
@[simp] theorem State.setAttempts_sar (k : FrameKind) (n : Nat) : (s.setAttempts k n).sar = s.sar := rfl
@[simp] theorem State.setAttempts_mbu (k : FrameKind) (n : Nat) : (s.setAttempts k n).mbu = s.mbu := rfl
@[simp] theorem State.setAttempts_rpe (k : FrameKind) (n : Nat) : (s.setAttempts k n).rpe = s.rpe := rfl
@[simp] theorem State.setAttempts_opu (k : FrameKind) (n : Nat) : (s.setAttempts k n).opu = s.opu := rfl
@[simp] theorem State.setAttempts_scb (k : FrameKind) (n : Nat) : (s.setAttempts k n).scb = s.scb := rfl
@[simp] theorem State.setAttempts_wch (k : FrameKind) (n : Nat) : (s.setAttempts k n).wch = s.wch := rfl
@[simp] theorem State.setAttempts_ntq (k : FrameKind) (n : Nat) : (s.setAttempts k n).ntq = s.ntq := rfl
@[simp] theorem State.setAttempts_elg (k : FrameKind) (n : Nat) : (s.setAttempts k n).elg = s.elg := rfl
@[simp] theorem State.setAttempts_lpt (k : FrameKind) (n : Nat) : (s.setAttempts k n).lpt = s.lpt := rfl
@[simp] theorem State.setAttempts_pending (k : FrameKind) (n : Nat) : (s.setAttempts k n).pending = s.pending := rfl

/-! ### emptyQueue -/

@[simp] theorem State.emptyQueue_nct : (s.emptyQueue).nct = s.nct := rfl
@[simp] theorem State.emptyQueue_pbi : (s.emptyQueue).pbi = s.pbi := rfl
@[simp] theorem State.emptyQueue_fck : (s.emptyQueue).fck = s.fck := rfl
@[simp] theorem State.emptyQueue_dir : (s.emptyQueue).dir = s.dir := rfl
@[simp] theorem State.emptyQueue_dst : (s.emptyQueue).dst = s.dst := rfl
@[simp] theorem State.emptyQueue_sar : (s.emptyQueue).sar = s.sar := rfl
@[simp] theorem State.emptyQueue_mbu : (s.emptyQueue).mbu = s.mbu := rfl
@[simp] theorem State.emptyQueue_rpe : (s.emptyQueue).rpe = s.rpe := rfl
@[simp] theorem State.emptyQueue_opu : (s.emptyQueue).opu = s.opu := rfl
@[simp] theorem State.emptyQueue_scb : (s.emptyQueue).scb = s.scb := rfl
@[simp] theorem State.emptyQueue_wch : (s.emptyQueue).wch = s.wch := rfl
@[simp] theorem State.emptyQueue_ntq : (s.emptyQueue).ntq = s.ntq := rfl
@[simp] theorem State.emptyQueue_elg : (s.emptyQueue).elg = s.elg := rfl
@[simp] theorem State.emptyQueue_lpt : (s.emptyQueue).lpt = s.lpt := rfl
@[simp] theorem State.emptyQueue_pending : (s.emptyQueue).pending = s.pending := rfl

/-! ### requestStore -/

@[simp] theorem State.requestStore_nct (c : Claimant) : (s.requestStore c).nct = s.nct := rfl
@[simp] theorem State.requestStore_pbi (c : Claimant) : (s.requestStore c).pbi = s.pbi := rfl
@[simp] theorem State.requestStore_fck (c : Claimant) : (s.requestStore c).fck = s.fck := rfl
@[simp] theorem State.requestStore_dir (c : Claimant) : (s.requestStore c).dir = s.dir := rfl
@[simp] theorem State.requestStore_dst (c : Claimant) : (s.requestStore c).dst = s.dst := rfl
@[simp] theorem State.requestStore_mbu (c : Claimant) : (s.requestStore c).mbu = s.mbu := rfl
@[simp] theorem State.requestStore_obs (c : Claimant) : (s.requestStore c).obs = s.obs := rfl
@[simp] theorem State.requestStore_rpe (c : Claimant) : (s.requestStore c).rpe = s.rpe := rfl
@[simp] theorem State.requestStore_opu (c : Claimant) : (s.requestStore c).opu = s.opu := rfl
@[simp] theorem State.requestStore_scb (c : Claimant) : (s.requestStore c).scb = s.scb := rfl
@[simp] theorem State.requestStore_wch (c : Claimant) : (s.requestStore c).wch = s.wch := rfl
@[simp] theorem State.requestStore_ntq (c : Claimant) : (s.requestStore c).ntq = s.ntq := rfl
@[simp] theorem State.requestStore_elg (c : Claimant) : (s.requestStore c).elg = s.elg := rfl
@[simp] theorem State.requestStore_lpt (c : Claimant) : (s.requestStore c).lpt = s.lpt := rfl
@[simp] theorem State.requestStore_pending (c : Claimant) : (s.requestStore c).pending = s.pending := rfl

/-! ### letGoStore -/

@[simp] theorem State.letGoStore_nct (c : Claimant) : (s.letGoStore c).nct = s.nct := rfl
@[simp] theorem State.letGoStore_pbi (c : Claimant) : (s.letGoStore c).pbi = s.pbi := rfl
@[simp] theorem State.letGoStore_fck (c : Claimant) : (s.letGoStore c).fck = s.fck := rfl
@[simp] theorem State.letGoStore_dir (c : Claimant) : (s.letGoStore c).dir = s.dir := rfl
@[simp] theorem State.letGoStore_dst (c : Claimant) : (s.letGoStore c).dst = s.dst := rfl
@[simp] theorem State.letGoStore_mbu (c : Claimant) : (s.letGoStore c).mbu = s.mbu := rfl
@[simp] theorem State.letGoStore_obs (c : Claimant) : (s.letGoStore c).obs = s.obs := rfl
@[simp] theorem State.letGoStore_rpe (c : Claimant) : (s.letGoStore c).rpe = s.rpe := rfl
@[simp] theorem State.letGoStore_opu (c : Claimant) : (s.letGoStore c).opu = s.opu := rfl
@[simp] theorem State.letGoStore_scb (c : Claimant) : (s.letGoStore c).scb = s.scb := rfl
@[simp] theorem State.letGoStore_wch (c : Claimant) : (s.letGoStore c).wch = s.wch := rfl
@[simp] theorem State.letGoStore_ntq (c : Claimant) : (s.letGoStore c).ntq = s.ntq := rfl
@[simp] theorem State.letGoStore_elg (c : Claimant) : (s.letGoStore c).elg = s.elg := rfl
@[simp] theorem State.letGoStore_lpt (c : Claimant) : (s.letGoStore c).lpt = s.lpt := rfl
@[simp] theorem State.letGoStore_pending (c : Claimant) : (s.letGoStore c).pending = s.pending := rfl

/-! ### putEntry -/

@[simp] theorem State.putEntry_nct (n : Nat) (e : DirEntry) : (s.putEntry n e).nct = s.nct := rfl
@[simp] theorem State.putEntry_pbi (n : Nat) (e : DirEntry) : (s.putEntry n e).pbi = s.pbi := rfl
@[simp] theorem State.putEntry_fck (n : Nat) (e : DirEntry) : (s.putEntry n e).fck = s.fck := rfl
@[simp] theorem State.putEntry_dst (n : Nat) (e : DirEntry) : (s.putEntry n e).dst = s.dst := rfl
@[simp] theorem State.putEntry_sar (n : Nat) (e : DirEntry) : (s.putEntry n e).sar = s.sar := rfl
@[simp] theorem State.putEntry_mbu (n : Nat) (e : DirEntry) : (s.putEntry n e).mbu = s.mbu := rfl
@[simp] theorem State.putEntry_obs (n : Nat) (e : DirEntry) : (s.putEntry n e).obs = s.obs := rfl
@[simp] theorem State.putEntry_rpe (n : Nat) (e : DirEntry) : (s.putEntry n e).rpe = s.rpe := rfl
@[simp] theorem State.putEntry_opu (n : Nat) (e : DirEntry) : (s.putEntry n e).opu = s.opu := rfl
@[simp] theorem State.putEntry_scb (n : Nat) (e : DirEntry) : (s.putEntry n e).scb = s.scb := rfl
@[simp] theorem State.putEntry_wch (n : Nat) (e : DirEntry) : (s.putEntry n e).wch = s.wch := rfl
@[simp] theorem State.putEntry_ntq (n : Nat) (e : DirEntry) : (s.putEntry n e).ntq = s.ntq := rfl
@[simp] theorem State.putEntry_elg (n : Nat) (e : DirEntry) : (s.putEntry n e).elg = s.elg := rfl
@[simp] theorem State.putEntry_lpt (n : Nat) (e : DirEntry) : (s.putEntry n e).lpt = s.lpt := rfl
@[simp] theorem State.putEntry_pending (n : Nat) (e : DirEntry) : (s.putEntry n e).pending = s.pending := rfl

/-! ### The repair engine's list -/

@[simp] theorem Rpe.follow_cycle (r : Rpe) (n : Nat) (e f : DirEntry) : (r.follow n e f).cycle = r.cycle := rfl
@[simp] theorem Rpe.follow_answers (r : Rpe) (n : Nat) (e f : DirEntry) : (r.follow n e f).answers = r.answers := rfl
@[simp] theorem Rpe.follow_due (r : Rpe) (n : Nat) (e f : DirEntry) : (r.follow n e f).due = r.due := rfl
@[simp] theorem Rpe.stop_wanted (r : Rpe) : r.stop.wanted = r.wanted := rfl
@[simp] theorem Rpe.stop_unresolved (r : Rpe) : r.stop.unresolved = r.unresolved := rfl

/-! ### putFlags -/

@[simp] theorem State.putFlags_nct (n : Nat) (e : DirEntry) : (s.putFlags n e).nct = s.nct := rfl
@[simp] theorem State.putFlags_pbi (n : Nat) (e : DirEntry) : (s.putFlags n e).pbi = s.pbi := rfl
@[simp] theorem State.putFlags_fck (n : Nat) (e : DirEntry) : (s.putFlags n e).fck = s.fck := rfl
@[simp] theorem State.putFlags_dst (n : Nat) (e : DirEntry) : (s.putFlags n e).dst = s.dst := rfl
@[simp] theorem State.putFlags_sar (n : Nat) (e : DirEntry) : (s.putFlags n e).sar = s.sar := rfl
@[simp] theorem State.putFlags_mbu (n : Nat) (e : DirEntry) : (s.putFlags n e).mbu = s.mbu := rfl
@[simp] theorem State.putFlags_obs (n : Nat) (e : DirEntry) : (s.putFlags n e).obs = s.obs := rfl
@[simp] theorem State.putFlags_opu (n : Nat) (e : DirEntry) : (s.putFlags n e).opu = s.opu := rfl
@[simp] theorem State.putFlags_scb (n : Nat) (e : DirEntry) : (s.putFlags n e).scb = s.scb := rfl
@[simp] theorem State.putFlags_wch (n : Nat) (e : DirEntry) : (s.putFlags n e).wch = s.wch := rfl
@[simp] theorem State.putFlags_ntq (n : Nat) (e : DirEntry) : (s.putFlags n e).ntq = s.ntq := rfl
@[simp] theorem State.putFlags_elg (n : Nat) (e : DirEntry) : (s.putFlags n e).elg = s.elg := rfl
@[simp] theorem State.putFlags_lpt (n : Nat) (e : DirEntry) : (s.putFlags n e).lpt = s.lpt := rfl
@[simp] theorem State.putFlags_pending (n : Nat) (e : DirEntry) : (s.putFlags n e).pending = s.pending := rfl
@[simp] theorem State.putFlags_dir (n : Nat) (e : DirEntry) : (s.putFlags n e).dir = (s.putEntry n e).dir := rfl
@[simp] theorem State.putFlags_rpe (n : Nat) (e : DirEntry) :
    (s.putFlags n e).rpe = s.rpe.follow n (s.entry n) e := rfl

/-! ### clearFlags -/

@[simp] theorem State.clearFlags_nct : (s.clearFlags).nct = s.nct := rfl
@[simp] theorem State.clearFlags_pbi : (s.clearFlags).pbi = s.pbi := rfl
@[simp] theorem State.clearFlags_fck : (s.clearFlags).fck = s.fck := rfl
@[simp] theorem State.clearFlags_dst : (s.clearFlags).dst = s.dst := rfl
@[simp] theorem State.clearFlags_sar : (s.clearFlags).sar = s.sar := rfl
@[simp] theorem State.clearFlags_mbu : (s.clearFlags).mbu = s.mbu := rfl
@[simp] theorem State.clearFlags_obs : (s.clearFlags).obs = s.obs := rfl
@[simp] theorem State.clearFlags_rpe : (s.clearFlags).rpe = s.rpe := rfl
@[simp] theorem State.clearFlags_opu : (s.clearFlags).opu = s.opu := rfl
@[simp] theorem State.clearFlags_scb : (s.clearFlags).scb = s.scb := rfl
@[simp] theorem State.clearFlags_wch : (s.clearFlags).wch = s.wch := rfl
@[simp] theorem State.clearFlags_ntq : (s.clearFlags).ntq = s.ntq := rfl
@[simp] theorem State.clearFlags_elg : (s.clearFlags).elg = s.elg := rfl
@[simp] theorem State.clearFlags_lpt : (s.clearFlags).lpt = s.lpt := rfl
@[simp] theorem State.clearFlags_pending : (s.clearFlags).pending = s.pending := rfl

/-! ### setOnBus -/

@[simp] theorem State.setOnBus_nct (b : Bool) : (s.setOnBus b).nct = s.nct := rfl
@[simp] theorem State.setOnBus_pbi (b : Bool) : (s.setOnBus b).pbi = s.pbi := rfl
@[simp] theorem State.setOnBus_fck (b : Bool) : (s.setOnBus b).fck = s.fck := rfl
@[simp] theorem State.setOnBus_dir (b : Bool) : (s.setOnBus b).dir = s.dir := rfl
@[simp] theorem State.setOnBus_dst (b : Bool) : (s.setOnBus b).dst = s.dst := rfl
@[simp] theorem State.setOnBus_sar (b : Bool) : (s.setOnBus b).sar = s.sar := rfl
@[simp] theorem State.setOnBus_mbu (b : Bool) : (s.setOnBus b).mbu = s.mbu := rfl
@[simp] theorem State.setOnBus_obs (b : Bool) : (s.setOnBus b).obs = s.obs := rfl
@[simp] theorem State.setOnBus_rpe (b : Bool) : (s.setOnBus b).rpe = s.rpe := rfl
@[simp] theorem State.setOnBus_scb (b : Bool) : (s.setOnBus b).scb = s.scb := rfl
@[simp] theorem State.setOnBus_wch (b : Bool) : (s.setOnBus b).wch = s.wch := rfl
@[simp] theorem State.setOnBus_ntq (b : Bool) : (s.setOnBus b).ntq = s.ntq := rfl
@[simp] theorem State.setOnBus_elg (b : Bool) : (s.setOnBus b).elg = s.elg := rfl
@[simp] theorem State.setOnBus_lpt (b : Bool) : (s.setOnBus b).lpt = s.lpt := rfl
@[simp] theorem State.setOnBus_pending (b : Bool) : (s.setOnBus b).pending = s.pending := rfl

/-! ### setMember -/

@[simp] theorem State.setMember_nct (n : Nat) (e : MemberEntry) : (s.setMember n e).nct = s.nct := rfl
@[simp] theorem State.setMember_pbi (n : Nat) (e : MemberEntry) : (s.setMember n e).pbi = s.pbi := rfl
@[simp] theorem State.setMember_fck (n : Nat) (e : MemberEntry) : (s.setMember n e).fck = s.fck := rfl
@[simp] theorem State.setMember_dir (n : Nat) (e : MemberEntry) : (s.setMember n e).dir = s.dir := rfl
@[simp] theorem State.setMember_dst (n : Nat) (e : MemberEntry) : (s.setMember n e).dst = s.dst := rfl
@[simp] theorem State.setMember_sar (n : Nat) (e : MemberEntry) : (s.setMember n e).sar = s.sar := rfl
@[simp] theorem State.setMember_obs (n : Nat) (e : MemberEntry) : (s.setMember n e).obs = s.obs := rfl
@[simp] theorem State.setMember_rpe (n : Nat) (e : MemberEntry) : (s.setMember n e).rpe = s.rpe := rfl
@[simp] theorem State.setMember_opu (n : Nat) (e : MemberEntry) : (s.setMember n e).opu = s.opu := rfl
@[simp] theorem State.setMember_scb (n : Nat) (e : MemberEntry) : (s.setMember n e).scb = s.scb := rfl
@[simp] theorem State.setMember_wch (n : Nat) (e : MemberEntry) : (s.setMember n e).wch = s.wch := rfl
@[simp] theorem State.setMember_ntq (n : Nat) (e : MemberEntry) : (s.setMember n e).ntq = s.ntq := rfl
@[simp] theorem State.setMember_elg (n : Nat) (e : MemberEntry) : (s.setMember n e).elg = s.elg := rfl
@[simp] theorem State.setMember_lpt (n : Nat) (e : MemberEntry) : (s.setMember n e).lpt = s.lpt := rfl
@[simp] theorem State.setMember_pending (n : Nat) (e : MemberEntry) : (s.setMember n e).pending = s.pending := rfl

/-! ### setShift -/

@[simp] theorem State.setShift_nct (x : Shift) : (s.setShift x).nct = s.nct := rfl
@[simp] theorem State.setShift_fck (x : Shift) : (s.setShift x).fck = s.fck := rfl
@[simp] theorem State.setShift_dir (x : Shift) : (s.setShift x).dir = s.dir := rfl
@[simp] theorem State.setShift_dst (x : Shift) : (s.setShift x).dst = s.dst := rfl
@[simp] theorem State.setShift_sar (x : Shift) : (s.setShift x).sar = s.sar := rfl
@[simp] theorem State.setShift_mbu (x : Shift) : (s.setShift x).mbu = s.mbu := rfl
@[simp] theorem State.setShift_obs (x : Shift) : (s.setShift x).obs = s.obs := rfl
@[simp] theorem State.setShift_rpe (x : Shift) : (s.setShift x).rpe = s.rpe := rfl
@[simp] theorem State.setShift_opu (x : Shift) : (s.setShift x).opu = s.opu := rfl
@[simp] theorem State.setShift_scb (x : Shift) : (s.setShift x).scb = s.scb := rfl
@[simp] theorem State.setShift_wch (x : Shift) : (s.setShift x).wch = s.wch := rfl
@[simp] theorem State.setShift_ntq (x : Shift) : (s.setShift x).ntq = s.ntq := rfl
@[simp] theorem State.setShift_elg (x : Shift) : (s.setShift x).elg = s.elg := rfl
@[simp] theorem State.setShift_lpt (x : Shift) : (s.setShift x).lpt = s.lpt := rfl
@[simp] theorem State.setShift_pending (x : Shift) : (s.setShift x).pending = s.pending := rfl

/-! ### removeDraft -/

@[simp] theorem State.removeDraft_nct (n : Nat) : (s.removeDraft n).nct = s.nct := rfl
@[simp] theorem State.removeDraft_pbi (n : Nat) : (s.removeDraft n).pbi = s.pbi := rfl
@[simp] theorem State.removeDraft_fck (n : Nat) : (s.removeDraft n).fck = s.fck := rfl
@[simp] theorem State.removeDraft_dir (n : Nat) : (s.removeDraft n).dir = s.dir := rfl
@[simp] theorem State.removeDraft_dst (n : Nat) : (s.removeDraft n).dst = s.dst := rfl
@[simp] theorem State.removeDraft_sar (n : Nat) : (s.removeDraft n).sar = s.sar := rfl
@[simp] theorem State.removeDraft_mbu (n : Nat) : (s.removeDraft n).mbu = s.mbu := rfl
@[simp] theorem State.removeDraft_obs (n : Nat) : (s.removeDraft n).obs = s.obs := rfl
@[simp] theorem State.removeDraft_rpe (n : Nat) : (s.removeDraft n).rpe = s.rpe := rfl
@[simp] theorem State.removeDraft_scb (n : Nat) : (s.removeDraft n).scb = s.scb := rfl
@[simp] theorem State.removeDraft_wch (n : Nat) : (s.removeDraft n).wch = s.wch := rfl
@[simp] theorem State.removeDraft_ntq (n : Nat) : (s.removeDraft n).ntq = s.ntq := rfl
@[simp] theorem State.removeDraft_elg (n : Nat) : (s.removeDraft n).elg = s.elg := rfl
@[simp] theorem State.removeDraft_lpt (n : Nat) : (s.removeDraft n).lpt = s.lpt := rfl
@[simp] theorem State.removeDraft_pending (n : Nat) : (s.removeDraft n).pending = s.pending := rfl

/-! ### dropAnswer -/

@[simp] theorem State.dropAnswer_nct (n : Nat) : (s.dropAnswer n).nct = s.nct := rfl
@[simp] theorem State.dropAnswer_pbi (n : Nat) : (s.dropAnswer n).pbi = s.pbi := rfl
@[simp] theorem State.dropAnswer_fck (n : Nat) : (s.dropAnswer n).fck = s.fck := rfl
@[simp] theorem State.dropAnswer_dir (n : Nat) : (s.dropAnswer n).dir = s.dir := rfl
@[simp] theorem State.dropAnswer_dst (n : Nat) : (s.dropAnswer n).dst = s.dst := rfl
@[simp] theorem State.dropAnswer_sar (n : Nat) : (s.dropAnswer n).sar = s.sar := rfl
@[simp] theorem State.dropAnswer_mbu (n : Nat) : (s.dropAnswer n).mbu = s.mbu := rfl
@[simp] theorem State.dropAnswer_obs (n : Nat) : (s.dropAnswer n).obs = s.obs := rfl
@[simp] theorem State.dropAnswer_opu (n : Nat) : (s.dropAnswer n).opu = s.opu := rfl
@[simp] theorem State.dropAnswer_scb (n : Nat) : (s.dropAnswer n).scb = s.scb := rfl
@[simp] theorem State.dropAnswer_wch (n : Nat) : (s.dropAnswer n).wch = s.wch := rfl
@[simp] theorem State.dropAnswer_ntq (n : Nat) : (s.dropAnswer n).ntq = s.ntq := rfl
@[simp] theorem State.dropAnswer_elg (n : Nat) : (s.dropAnswer n).elg = s.elg := rfl
@[simp] theorem State.dropAnswer_lpt (n : Nat) : (s.dropAnswer n).lpt = s.lpt := rfl
@[simp] theorem State.dropAnswer_pending (n : Nat) : (s.dropAnswer n).pending = s.pending := rfl

/-! ### nselRise -/

@[simp] theorem State.nselRise_nct : s.nselRise.nct = s.nct := rfl
@[simp] theorem State.nselRise_pbi : s.nselRise.pbi = s.pbi := rfl
@[simp] theorem State.nselRise_fck : s.nselRise.fck = s.fck := rfl
@[simp] theorem State.nselRise_dir : s.nselRise.dir = s.dir := rfl
@[simp] theorem State.nselRise_dst : s.nselRise.dst = s.dst := rfl
@[simp] theorem State.nselRise_sar : s.nselRise.sar = s.sar := rfl
@[simp] theorem State.nselRise_mbu : s.nselRise.mbu = s.mbu := rfl
@[simp] theorem State.nselRise_obs : s.nselRise.obs = s.obs := rfl
@[simp] theorem State.nselRise_rpe : s.nselRise.rpe = s.rpe := rfl
@[simp] theorem State.nselRise_opu : s.nselRise.opu = s.opu := rfl
@[simp] theorem State.nselRise_scb : s.nselRise.scb = s.scb := rfl
@[simp] theorem State.nselRise_wch : s.nselRise.wch = s.wch := rfl
@[simp] theorem State.nselRise_ntq : s.nselRise.ntq = s.ntq := rfl
@[simp] theorem State.nselRise_elg : s.nselRise.elg = s.elg := rfl
@[simp] theorem State.nselRise_pending : s.nselRise.pending = s.pending := rfl
@[simp] theorem State.nselRise_response : s.nselRise.lpt.response = s.lpt.response := rfl
@[simp] theorem State.nselRise_inHand : s.nselRise.lpt.inHand = s.lpt.inHand := rfl
@[simp] theorem State.nselRise_nsel : s.nselRise.lpt.nsel = .high := rfl
@[simp] theorem State.nselRise_received : s.nselRise.lpt.received = [] := rfl

/-! ### respondWith -/

@[simp] theorem State.respondWith_nct (c : Byte) (r : ResultCode) (f : List Byte) :
    (s.respondWith c r f).nct = s.nct := rfl
@[simp] theorem State.respondWith_pbi (c : Byte) (r : ResultCode) (f : List Byte) :
    (s.respondWith c r f).pbi = s.pbi := rfl
@[simp] theorem State.respondWith_fck (c : Byte) (r : ResultCode) (f : List Byte) :
    (s.respondWith c r f).fck = s.fck := rfl
@[simp] theorem State.respondWith_dir (c : Byte) (r : ResultCode) (f : List Byte) :
    (s.respondWith c r f).dir = s.dir := rfl
@[simp] theorem State.respondWith_dst (c : Byte) (r : ResultCode) (f : List Byte) :
    (s.respondWith c r f).dst = s.dst := rfl
@[simp] theorem State.respondWith_sar (c : Byte) (r : ResultCode) (f : List Byte) :
    (s.respondWith c r f).sar = s.sar := rfl
@[simp] theorem State.respondWith_mbu (c : Byte) (r : ResultCode) (f : List Byte) :
    (s.respondWith c r f).mbu = s.mbu := rfl
@[simp] theorem State.respondWith_obs (c : Byte) (r : ResultCode) (f : List Byte) :
    (s.respondWith c r f).obs = s.obs := rfl
@[simp] theorem State.respondWith_rpe (c : Byte) (r : ResultCode) (f : List Byte) :
    (s.respondWith c r f).rpe = s.rpe := rfl
@[simp] theorem State.respondWith_opu (c : Byte) (r : ResultCode) (f : List Byte) :
    (s.respondWith c r f).opu = s.opu := rfl
@[simp] theorem State.respondWith_scb (c : Byte) (r : ResultCode) (f : List Byte) :
    (s.respondWith c r f).scb = s.scb := rfl
@[simp] theorem State.respondWith_wch (c : Byte) (r : ResultCode) (f : List Byte) :
    (s.respondWith c r f).wch = s.wch := rfl
@[simp] theorem State.respondWith_ntq (c : Byte) (r : ResultCode) (f : List Byte) :
    (s.respondWith c r f).ntq = s.ntq := rfl
@[simp] theorem State.respondWith_elg (c : Byte) (r : ResultCode) (f : List Byte) :
    (s.respondWith c r f).elg = s.elg := rfl
@[simp] theorem State.respondWith_pending (c : Byte) (r : ResultCode) (f : List Byte) :
    (s.respondWith c r f).pending = s.pending := rfl

/-! ### respond -/

@[simp] theorem State.respond_nct (c : Command) (r : ResultCode) : (s.respond c r).nct = s.nct := rfl
@[simp] theorem State.respond_pbi (c : Command) (r : ResultCode) : (s.respond c r).pbi = s.pbi := rfl
@[simp] theorem State.respond_fck (c : Command) (r : ResultCode) : (s.respond c r).fck = s.fck := rfl
@[simp] theorem State.respond_dir (c : Command) (r : ResultCode) : (s.respond c r).dir = s.dir := rfl
@[simp] theorem State.respond_dst (c : Command) (r : ResultCode) : (s.respond c r).dst = s.dst := rfl
@[simp] theorem State.respond_sar (c : Command) (r : ResultCode) : (s.respond c r).sar = s.sar := rfl
@[simp] theorem State.respond_mbu (c : Command) (r : ResultCode) : (s.respond c r).mbu = s.mbu := rfl
@[simp] theorem State.respond_obs (c : Command) (r : ResultCode) : (s.respond c r).obs = s.obs := rfl
@[simp] theorem State.respond_rpe (c : Command) (r : ResultCode) : (s.respond c r).rpe = s.rpe := rfl
@[simp] theorem State.respond_opu (c : Command) (r : ResultCode) : (s.respond c r).opu = s.opu := rfl
@[simp] theorem State.respond_scb (c : Command) (r : ResultCode) : (s.respond c r).scb = s.scb := rfl
@[simp] theorem State.respond_wch (c : Command) (r : ResultCode) : (s.respond c r).wch = s.wch := rfl
@[simp] theorem State.respond_ntq (c : Command) (r : ResultCode) : (s.respond c r).ntq = s.ntq := rfl
@[simp] theorem State.respond_elg (c : Command) (r : ResultCode) : (s.respond c r).elg = s.elg := rfl
@[simp] theorem State.respond_pending (c : Command) (r : ResultCode) : (s.respond c r).pending = s.pending := rfl

/-! ### finishInHand -/

@[simp] theorem State.finishInHand_nct (c : Command) (r : ResultCode) (f : List Byte) :
    (s.finishInHand c r f).nct = s.nct := rfl
@[simp] theorem State.finishInHand_pbi (c : Command) (r : ResultCode) (f : List Byte) :
    (s.finishInHand c r f).pbi = s.pbi := rfl
@[simp] theorem State.finishInHand_fck (c : Command) (r : ResultCode) (f : List Byte) :
    (s.finishInHand c r f).fck = s.fck := rfl
@[simp] theorem State.finishInHand_dir (c : Command) (r : ResultCode) (f : List Byte) :
    (s.finishInHand c r f).dir = s.dir := rfl
@[simp] theorem State.finishInHand_dst (c : Command) (r : ResultCode) (f : List Byte) :
    (s.finishInHand c r f).dst = s.dst := rfl
@[simp] theorem State.finishInHand_mbu (c : Command) (r : ResultCode) (f : List Byte) :
    (s.finishInHand c r f).mbu = s.mbu := rfl
@[simp] theorem State.finishInHand_obs (c : Command) (r : ResultCode) (f : List Byte) :
    (s.finishInHand c r f).obs = s.obs := rfl
@[simp] theorem State.finishInHand_rpe (c : Command) (r : ResultCode) (f : List Byte) :
    (s.finishInHand c r f).rpe = s.rpe := rfl
@[simp] theorem State.finishInHand_opu (c : Command) (r : ResultCode) (f : List Byte) :
    (s.finishInHand c r f).opu = s.opu := rfl
@[simp] theorem State.finishInHand_scb (c : Command) (r : ResultCode) (f : List Byte) :
    (s.finishInHand c r f).scb = s.scb := rfl
@[simp] theorem State.finishInHand_wch (c : Command) (r : ResultCode) (f : List Byte) :
    (s.finishInHand c r f).wch = s.wch := rfl
@[simp] theorem State.finishInHand_ntq (c : Command) (r : ResultCode) (f : List Byte) :
    (s.finishInHand c r f).ntq = s.ntq := rfl
@[simp] theorem State.finishInHand_elg (c : Command) (r : ResultCode) (f : List Byte) :
    (s.finishInHand c r f).elg = s.elg := rfl
@[simp] theorem State.finishInHand_pending (c : Command) (r : ResultCode) (f : List Byte) :
    (s.finishInHand c r f).pending = s.pending := rfl

/-! ### dropFck -/

@[simp] theorem State.dropFck_nct : (s.dropFck).nct = s.nct := rfl
@[simp] theorem State.dropFck_pbi : (s.dropFck).pbi = s.pbi := rfl
@[simp] theorem State.dropFck_dir : (s.dropFck).dir = s.dir := rfl
@[simp] theorem State.dropFck_dst : (s.dropFck).dst = s.dst := rfl
@[simp] theorem State.dropFck_mbu : (s.dropFck).mbu = s.mbu := rfl
@[simp] theorem State.dropFck_obs : (s.dropFck).obs = s.obs := rfl
@[simp] theorem State.dropFck_rpe : (s.dropFck).rpe = s.rpe := rfl
@[simp] theorem State.dropFck_opu : (s.dropFck).opu = s.opu := rfl
@[simp] theorem State.dropFck_scb : (s.dropFck).scb = s.scb := rfl
@[simp] theorem State.dropFck_wch : (s.dropFck).wch = s.wch := rfl
@[simp] theorem State.dropFck_ntq : (s.dropFck).ntq = s.ntq := rfl
@[simp] theorem State.dropFck_elg : (s.dropFck).elg = s.elg := rfl
@[simp] theorem State.dropFck_lpt : (s.dropFck).lpt = s.lpt := rfl
@[simp] theorem State.dropFck_pending : (s.dropFck).pending = s.pending := rfl

/-! ### leaveBus -/

@[simp] theorem State.leaveBus_nct : (s.leaveBus).nct = s.nct := rfl
@[simp] theorem State.leaveBus_dir : (s.leaveBus).dir = s.dir := rfl
@[simp] theorem State.leaveBus_dst : (s.leaveBus).dst = s.dst := rfl
@[simp] theorem State.leaveBus_mbu : (s.leaveBus).mbu = s.mbu := rfl
@[simp] theorem State.leaveBus_obs : (s.leaveBus).obs = s.obs := rfl
@[simp] theorem State.leaveBus_rpe : (s.leaveBus).rpe = s.rpe := rfl
@[simp] theorem State.leaveBus_opu : (s.leaveBus).opu = s.opu := rfl
@[simp] theorem State.leaveBus_scb : (s.leaveBus).scb = s.scb := rfl
@[simp] theorem State.leaveBus_wch : (s.leaveBus).wch = s.wch := rfl
@[simp] theorem State.leaveBus_ntq : (s.leaveBus).ntq = s.ntq := rfl
@[simp] theorem State.leaveBus_elg : (s.leaveBus).elg = s.elg := rfl
@[simp] theorem State.leaveBus_lpt : (s.leaveBus).lpt = s.lpt := rfl
@[simp] theorem State.leaveBus_pending : (s.leaveBus).pending = s.pending := rfl

/-! ### haltRelease -/

@[simp] theorem State.haltRelease_nct : (s.haltRelease).nct = s.nct := rfl
@[simp] theorem State.haltRelease_dir : (s.haltRelease).dir = s.dir := rfl
@[simp] theorem State.haltRelease_dst : (s.haltRelease).dst = s.dst := rfl
@[simp] theorem State.haltRelease_mbu : (s.haltRelease).mbu = s.mbu := rfl
@[simp] theorem State.haltRelease_obs : (s.haltRelease).obs = s.obs := rfl
@[simp] theorem State.haltRelease_rpe : (s.haltRelease).rpe = s.rpe := rfl
@[simp] theorem State.haltRelease_opu : (s.haltRelease).opu = s.opu := rfl
@[simp] theorem State.haltRelease_scb : (s.haltRelease).scb = s.scb := rfl
@[simp] theorem State.haltRelease_wch : (s.haltRelease).wch = s.wch := rfl
@[simp] theorem State.haltRelease_ntq : (s.haltRelease).ntq = s.ntq := rfl
@[simp] theorem State.haltRelease_elg : (s.haltRelease).elg = s.elg := rfl
@[simp] theorem State.haltRelease_pending : (s.haltRelease).pending = s.pending := rfl

/-! ### haltEmpty -/

@[simp] theorem State.haltEmpty_nct : (s.haltEmpty).nct = s.nct := rfl
@[simp] theorem State.haltEmpty_pbi : (s.haltEmpty).pbi = s.pbi := rfl
@[simp] theorem State.haltEmpty_fck : (s.haltEmpty).fck = s.fck := rfl
@[simp] theorem State.haltEmpty_dir : (s.haltEmpty).dir = s.dir := rfl
@[simp] theorem State.haltEmpty_dst : (s.haltEmpty).dst = s.dst := rfl
@[simp] theorem State.haltEmpty_sar : (s.haltEmpty).sar = s.sar := rfl
@[simp] theorem State.haltEmpty_ntq : (s.haltEmpty).ntq = s.ntq := rfl
@[simp] theorem State.haltEmpty_elg : (s.haltEmpty).elg = s.elg := rfl
@[simp] theorem State.haltEmpty_lpt : (s.haltEmpty).lpt = s.lpt := rfl
@[simp] theorem State.haltEmpty_pending : (s.haltEmpty).pending = s.pending := rfl

/-! ### isolateEmpty -/

@[simp] theorem State.isolateEmpty_nct : (s.isolateEmpty).nct = s.nct := rfl
@[simp] theorem State.isolateEmpty_pbi : (s.isolateEmpty).pbi = s.pbi := rfl
@[simp] theorem State.isolateEmpty_fck : (s.isolateEmpty).fck = s.fck := rfl
@[simp] theorem State.isolateEmpty_dst : (s.isolateEmpty).dst = s.dst := rfl
@[simp] theorem State.isolateEmpty_sar : (s.isolateEmpty).sar = s.sar := rfl
@[simp] theorem State.isolateEmpty_ntq : (s.isolateEmpty).ntq = s.ntq := rfl
@[simp] theorem State.isolateEmpty_elg : (s.isolateEmpty).elg = s.elg := rfl
@[simp] theorem State.isolateEmpty_lpt : (s.isolateEmpty).lpt = s.lpt := rfl
@[simp] theorem State.isolateEmpty_pending : (s.isolateEmpty).pending = s.pending := rfl

/-! ### carryVerdict -/

@[simp] theorem State.carryVerdict_nct (f : Frame) (v : Verdict) : (s.carryVerdict f v).nct = s.nct := rfl
@[simp] theorem State.carryVerdict_dir (f : Frame) (v : Verdict) : (s.carryVerdict f v).dir = s.dir := rfl
@[simp] theorem State.carryVerdict_dst (f : Frame) (v : Verdict) : (s.carryVerdict f v).dst = s.dst := rfl
@[simp] theorem State.carryVerdict_sar (f : Frame) (v : Verdict) : (s.carryVerdict f v).sar = s.sar := rfl
@[simp] theorem State.carryVerdict_mbu (f : Frame) (v : Verdict) : (s.carryVerdict f v).mbu = s.mbu := rfl
@[simp] theorem State.carryVerdict_obs (f : Frame) (v : Verdict) : (s.carryVerdict f v).obs = s.obs := rfl
@[simp] theorem State.carryVerdict_rpe (f : Frame) (v : Verdict) : (s.carryVerdict f v).rpe = s.rpe := rfl
@[simp] theorem State.carryVerdict_opu (f : Frame) (v : Verdict) : (s.carryVerdict f v).opu = s.opu := rfl
@[simp] theorem State.carryVerdict_scb (f : Frame) (v : Verdict) : (s.carryVerdict f v).scb = s.scb := rfl
@[simp] theorem State.carryVerdict_wch (f : Frame) (v : Verdict) : (s.carryVerdict f v).wch = s.wch := rfl
@[simp] theorem State.carryVerdict_ntq (f : Frame) (v : Verdict) : (s.carryVerdict f v).ntq = s.ntq := rfl
@[simp] theorem State.carryVerdict_elg (f : Frame) (v : Verdict) : (s.carryVerdict f v).elg = s.elg := rfl
@[simp] theorem State.carryVerdict_lpt (f : Frame) (v : Verdict) : (s.carryVerdict f v).lpt = s.lpt := rfl
@[simp] theorem State.carryVerdict_pending (f : Frame) (v : Verdict) : (s.carryVerdict f v).pending = s.pending := rfl

/-! ### slotsPast -/

@[simp] theorem State.slotsPast_nct (own : Option FrameKind) : (s.slotsPast own).nct = s.nct := rfl
@[simp] theorem State.slotsPast_fck (own : Option FrameKind) : (s.slotsPast own).fck = s.fck := rfl
@[simp] theorem State.slotsPast_dir (own : Option FrameKind) : (s.slotsPast own).dir = s.dir := rfl
@[simp] theorem State.slotsPast_dst (own : Option FrameKind) : (s.slotsPast own).dst = s.dst := rfl
@[simp] theorem State.slotsPast_sar (own : Option FrameKind) : (s.slotsPast own).sar = s.sar := rfl
@[simp] theorem State.slotsPast_mbu (own : Option FrameKind) : (s.slotsPast own).mbu = s.mbu := rfl
@[simp] theorem State.slotsPast_obs (own : Option FrameKind) : (s.slotsPast own).obs = s.obs := rfl
@[simp] theorem State.slotsPast_rpe (own : Option FrameKind) : (s.slotsPast own).rpe = s.rpe := rfl
@[simp] theorem State.slotsPast_opu (own : Option FrameKind) : (s.slotsPast own).opu = s.opu := rfl
@[simp] theorem State.slotsPast_scb (own : Option FrameKind) : (s.slotsPast own).scb = s.scb := rfl
@[simp] theorem State.slotsPast_wch (own : Option FrameKind) : (s.slotsPast own).wch = s.wch := rfl
@[simp] theorem State.slotsPast_ntq (own : Option FrameKind) : (s.slotsPast own).ntq = s.ntq := rfl
@[simp] theorem State.slotsPast_elg (own : Option FrameKind) : (s.slotsPast own).elg = s.elg := rfl
@[simp] theorem State.slotsPast_lpt (own : Option FrameKind) : (s.slotsPast own).lpt = s.lpt := rfl
@[simp] theorem State.slotsPast_pending (own : Option FrameKind) : (s.slotsPast own).pending = s.pending := rfl

/-! ### markDamaged -/

@[simp] theorem State.markDamaged_nct (n : Nat) : (s.markDamaged n).nct = s.nct := rfl
@[simp] theorem State.markDamaged_pbi (n : Nat) : (s.markDamaged n).pbi = s.pbi := rfl
@[simp] theorem State.markDamaged_fck (n : Nat) : (s.markDamaged n).fck = s.fck := rfl
@[simp] theorem State.markDamaged_dst (n : Nat) : (s.markDamaged n).dst = s.dst := rfl
@[simp] theorem State.markDamaged_sar (n : Nat) : (s.markDamaged n).sar = s.sar := rfl
@[simp] theorem State.markDamaged_mbu (n : Nat) : (s.markDamaged n).mbu = s.mbu := rfl
@[simp] theorem State.markDamaged_obs (n : Nat) : (s.markDamaged n).obs = s.obs := rfl
@[simp] theorem State.markDamaged_opu (n : Nat) : (s.markDamaged n).opu = s.opu := rfl
@[simp] theorem State.markDamaged_scb (n : Nat) : (s.markDamaged n).scb = s.scb := rfl
@[simp] theorem State.markDamaged_wch (n : Nat) : (s.markDamaged n).wch = s.wch := rfl
@[simp] theorem State.markDamaged_ntq (n : Nat) : (s.markDamaged n).ntq = s.ntq := rfl
@[simp] theorem State.markDamaged_elg (n : Nat) : (s.markDamaged n).elg = s.elg := rfl
@[simp] theorem State.markDamaged_lpt (n : Nat) : (s.markDamaged n).lpt = s.lpt := rfl
@[simp] theorem State.markDamaged_pending (n : Nat) : (s.markDamaged n).pending = s.pending := rfl

/-! ### strike -/

@[simp] theorem State.strike_nct (n r : Nat) : (s.strike n r).nct = s.nct := rfl
@[simp] theorem State.strike_pbi (n r : Nat) : (s.strike n r).pbi = s.pbi := rfl
@[simp] theorem State.strike_fck (n r : Nat) : (s.strike n r).fck = s.fck := rfl
@[simp] theorem State.strike_sar (n r : Nat) : (s.strike n r).sar = s.sar := rfl
@[simp] theorem State.strike_mbu (n r : Nat) : (s.strike n r).mbu = s.mbu := rfl
@[simp] theorem State.strike_obs (n r : Nat) : (s.strike n r).obs = s.obs := rfl
@[simp] theorem State.strike_opu (n r : Nat) : (s.strike n r).opu = s.opu := rfl
@[simp] theorem State.strike_scb (n r : Nat) : (s.strike n r).scb = s.scb := rfl
@[simp] theorem State.strike_wch (n r : Nat) : (s.strike n r).wch = s.wch := rfl
@[simp] theorem State.strike_ntq (n r : Nat) : (s.strike n r).ntq = s.ntq := rfl
@[simp] theorem State.strike_elg (n r : Nat) : (s.strike n r).elg = s.elg := rfl
@[simp] theorem State.strike_lpt (n r : Nat) : (s.strike n r).lpt = s.lpt := rfl
@[simp] theorem State.strike_pending (n r : Nat) : (s.strike n r).pending = s.pending := rfl

/-! ### writeBack -/

@[simp] theorem State.writeBack_nct (n r p : Nat) (w : Word) (b : Nat) : (s.writeBack n r p w b).nct = s.nct := rfl
@[simp] theorem State.writeBack_pbi (n r p : Nat) (w : Word) (b : Nat) : (s.writeBack n r p w b).pbi = s.pbi := rfl
@[simp] theorem State.writeBack_fck (n r p : Nat) (w : Word) (b : Nat) : (s.writeBack n r p w b).fck = s.fck := rfl
@[simp] theorem State.writeBack_dir (n r p : Nat) (w : Word) (b : Nat) : (s.writeBack n r p w b).dir = s.dir := rfl
@[simp] theorem State.writeBack_sar (n r p : Nat) (w : Word) (b : Nat) : (s.writeBack n r p w b).sar = s.sar := rfl
@[simp] theorem State.writeBack_mbu (n r p : Nat) (w : Word) (b : Nat) : (s.writeBack n r p w b).mbu = s.mbu := rfl
@[simp] theorem State.writeBack_obs (n r p : Nat) (w : Word) (b : Nat) : (s.writeBack n r p w b).obs = s.obs := rfl
@[simp] theorem State.writeBack_rpe (n r p : Nat) (w : Word) (b : Nat) : (s.writeBack n r p w b).rpe = s.rpe := rfl
@[simp] theorem State.writeBack_opu (n r p : Nat) (w : Word) (b : Nat) : (s.writeBack n r p w b).opu = s.opu := rfl
@[simp] theorem State.writeBack_scb (n r p : Nat) (w : Word) (b : Nat) : (s.writeBack n r p w b).scb = s.scb := rfl
@[simp] theorem State.writeBack_wch (n r p : Nat) (w : Word) (b : Nat) : (s.writeBack n r p w b).wch = s.wch := rfl
@[simp] theorem State.writeBack_ntq (n r p : Nat) (w : Word) (b : Nat) : (s.writeBack n r p w b).ntq = s.ntq := rfl
@[simp] theorem State.writeBack_lpt (n r p : Nat) (w : Word) (b : Nat) : (s.writeBack n r p w b).lpt = s.lpt := rfl
@[simp] theorem State.writeBack_pending (n r p : Nat) (w : Word) (b : Nat) :
    (s.writeBack n r p w b).pending = s.pending := rfl

/-! ### disturbCell -/

@[simp] theorem State.disturbCell_nct (r p : Nat) (f : BitVec 22) : (s.disturbCell r p f).nct = s.nct := rfl
@[simp] theorem State.disturbCell_pbi (r p : Nat) (f : BitVec 22) : (s.disturbCell r p f).pbi = s.pbi := rfl
@[simp] theorem State.disturbCell_fck (r p : Nat) (f : BitVec 22) : (s.disturbCell r p f).fck = s.fck := rfl
@[simp] theorem State.disturbCell_dir (r p : Nat) (f : BitVec 22) : (s.disturbCell r p f).dir = s.dir := rfl
@[simp] theorem State.disturbCell_sar (r p : Nat) (f : BitVec 22) : (s.disturbCell r p f).sar = s.sar := rfl
@[simp] theorem State.disturbCell_mbu (r p : Nat) (f : BitVec 22) : (s.disturbCell r p f).mbu = s.mbu := rfl
@[simp] theorem State.disturbCell_obs (r p : Nat) (f : BitVec 22) : (s.disturbCell r p f).obs = s.obs := rfl
@[simp] theorem State.disturbCell_rpe (r p : Nat) (f : BitVec 22) : (s.disturbCell r p f).rpe = s.rpe := rfl
@[simp] theorem State.disturbCell_opu (r p : Nat) (f : BitVec 22) : (s.disturbCell r p f).opu = s.opu := rfl
@[simp] theorem State.disturbCell_scb (r p : Nat) (f : BitVec 22) : (s.disturbCell r p f).scb = s.scb := rfl
@[simp] theorem State.disturbCell_wch (r p : Nat) (f : BitVec 22) : (s.disturbCell r p f).wch = s.wch := rfl
@[simp] theorem State.disturbCell_ntq (r p : Nat) (f : BitVec 22) : (s.disturbCell r p f).ntq = s.ntq := rfl
@[simp] theorem State.disturbCell_elg (r p : Nat) (f : BitVec 22) : (s.disturbCell r p f).elg = s.elg := rfl
@[simp] theorem State.disturbCell_lpt (r p : Nat) (f : BitVec 22) : (s.disturbCell r p f).lpt = s.lpt := rfl
@[simp] theorem State.disturbCell_pending (r p : Nat) (f : BitVec 22) :
    (s.disturbCell r p f).pending = s.pending := rfl

/-! ### disturbEntry -/

@[simp] theorem State.disturbEntry_nct (n : Nat) (b : EntryBits) : (s.disturbEntry n b).nct = s.nct := rfl
@[simp] theorem State.disturbEntry_pbi (n : Nat) (b : EntryBits) : (s.disturbEntry n b).pbi = s.pbi := rfl
@[simp] theorem State.disturbEntry_fck (n : Nat) (b : EntryBits) : (s.disturbEntry n b).fck = s.fck := rfl
@[simp] theorem State.disturbEntry_dst (n : Nat) (b : EntryBits) : (s.disturbEntry n b).dst = s.dst := rfl
@[simp] theorem State.disturbEntry_sar (n : Nat) (b : EntryBits) : (s.disturbEntry n b).sar = s.sar := rfl
@[simp] theorem State.disturbEntry_mbu (n : Nat) (b : EntryBits) : (s.disturbEntry n b).mbu = s.mbu := rfl
@[simp] theorem State.disturbEntry_obs (n : Nat) (b : EntryBits) : (s.disturbEntry n b).obs = s.obs := rfl
@[simp] theorem State.disturbEntry_rpe (n : Nat) (b : EntryBits) : (s.disturbEntry n b).rpe = s.rpe := rfl
@[simp] theorem State.disturbEntry_opu (n : Nat) (b : EntryBits) : (s.disturbEntry n b).opu = s.opu := rfl
@[simp] theorem State.disturbEntry_scb (n : Nat) (b : EntryBits) : (s.disturbEntry n b).scb = s.scb := rfl
@[simp] theorem State.disturbEntry_wch (n : Nat) (b : EntryBits) : (s.disturbEntry n b).wch = s.wch := rfl
@[simp] theorem State.disturbEntry_ntq (n : Nat) (b : EntryBits) : (s.disturbEntry n b).ntq = s.ntq := rfl
@[simp] theorem State.disturbEntry_elg (n : Nat) (b : EntryBits) : (s.disturbEntry n b).elg = s.elg := rfl
@[simp] theorem State.disturbEntry_lpt (n : Nat) (b : EntryBits) : (s.disturbEntry n b).lpt = s.lpt := rfl
@[simp] theorem State.disturbEntry_pending (n : Nat) (b : EntryBits) : (s.disturbEntry n b).pending = s.pending := rfl

/-! ### disturbMember -/

@[simp] theorem State.disturbMember_nct (n : Nat) : (s.disturbMember n).nct = s.nct := rfl
@[simp] theorem State.disturbMember_pbi (n : Nat) : (s.disturbMember n).pbi = s.pbi := rfl
@[simp] theorem State.disturbMember_fck (n : Nat) : (s.disturbMember n).fck = s.fck := rfl
@[simp] theorem State.disturbMember_dir (n : Nat) : (s.disturbMember n).dir = s.dir := rfl
@[simp] theorem State.disturbMember_dst (n : Nat) : (s.disturbMember n).dst = s.dst := rfl
@[simp] theorem State.disturbMember_sar (n : Nat) : (s.disturbMember n).sar = s.sar := rfl
@[simp] theorem State.disturbMember_obs (n : Nat) : (s.disturbMember n).obs = s.obs := rfl
@[simp] theorem State.disturbMember_rpe (n : Nat) : (s.disturbMember n).rpe = s.rpe := rfl
@[simp] theorem State.disturbMember_opu (n : Nat) : (s.disturbMember n).opu = s.opu := rfl
@[simp] theorem State.disturbMember_scb (n : Nat) : (s.disturbMember n).scb = s.scb := rfl
@[simp] theorem State.disturbMember_wch (n : Nat) : (s.disturbMember n).wch = s.wch := rfl
@[simp] theorem State.disturbMember_ntq (n : Nat) : (s.disturbMember n).ntq = s.ntq := rfl
@[simp] theorem State.disturbMember_elg (n : Nat) : (s.disturbMember n).elg = s.elg := rfl
@[simp] theorem State.disturbMember_lpt (n : Nat) : (s.disturbMember n).lpt = s.lpt := rfl
@[simp] theorem State.disturbMember_pending (n : Nat) : (s.disturbMember n).pending = s.pending := rfl

/-! ### disturbConfig -/

@[simp] theorem State.disturbConfig_pbi : (s.disturbConfig).pbi = s.pbi := rfl
@[simp] theorem State.disturbConfig_fck : (s.disturbConfig).fck = s.fck := rfl
@[simp] theorem State.disturbConfig_dir : (s.disturbConfig).dir = s.dir := rfl
@[simp] theorem State.disturbConfig_dst : (s.disturbConfig).dst = s.dst := rfl
@[simp] theorem State.disturbConfig_sar : (s.disturbConfig).sar = s.sar := rfl
@[simp] theorem State.disturbConfig_mbu : (s.disturbConfig).mbu = s.mbu := rfl
@[simp] theorem State.disturbConfig_obs : (s.disturbConfig).obs = s.obs := rfl
@[simp] theorem State.disturbConfig_rpe : (s.disturbConfig).rpe = s.rpe := rfl
@[simp] theorem State.disturbConfig_opu : (s.disturbConfig).opu = s.opu := rfl
@[simp] theorem State.disturbConfig_scb : (s.disturbConfig).scb = s.scb := rfl
@[simp] theorem State.disturbConfig_wch : (s.disturbConfig).wch = s.wch := rfl
@[simp] theorem State.disturbConfig_ntq : (s.disturbConfig).ntq = s.ntq := rfl
@[simp] theorem State.disturbConfig_elg : (s.disturbConfig).elg = s.elg := rfl
@[simp] theorem State.disturbConfig_lpt : (s.disturbConfig).lpt = s.lpt := rfl
@[simp] theorem State.disturbConfig_pending : (s.disturbConfig).pending = s.pending := rfl

/-! ### raised -/

@[simp] theorem State.raised_nct : (s.raised).nct = s.nct := rfl
@[simp] theorem State.raised_pbi : (s.raised).pbi = s.pbi := rfl
@[simp] theorem State.raised_fck : (s.raised).fck = s.fck := rfl
@[simp] theorem State.raised_dir : (s.raised).dir = s.dir := rfl
@[simp] theorem State.raised_dst : (s.raised).dst = s.dst := rfl
@[simp] theorem State.raised_sar : (s.raised).sar = s.sar := rfl
@[simp] theorem State.raised_mbu : (s.raised).mbu = s.mbu := rfl
@[simp] theorem State.raised_obs : (s.raised).obs = s.obs := rfl
@[simp] theorem State.raised_rpe : (s.raised).rpe = s.rpe := rfl
@[simp] theorem State.raised_opu : (s.raised).opu = s.opu := rfl
@[simp] theorem State.raised_scb : (s.raised).scb = s.scb := rfl
@[simp] theorem State.raised_wch : (s.raised).wch = s.wch := rfl
@[simp] theorem State.raised_ntq : (s.raised).ntq = s.ntq := rfl
@[simp] theorem State.raised_elg : (s.raised).elg = s.elg := rfl
@[simp] theorem State.raised_pending : (s.raised).pending = s.pending := rfl

/-! ### answered -/

@[simp] theorem State.answered_nct (c : Command) (r : ResultCode) (f : List Byte) :
    (s.answered c r f).nct = s.nct := rfl
@[simp] theorem State.answered_pbi (c : Command) (r : ResultCode) (f : List Byte) :
    (s.answered c r f).pbi = s.pbi := rfl
@[simp] theorem State.answered_fck (c : Command) (r : ResultCode) (f : List Byte) :
    (s.answered c r f).fck = s.fck := rfl
@[simp] theorem State.answered_dir (c : Command) (r : ResultCode) (f : List Byte) :
    (s.answered c r f).dir = s.dir := rfl
@[simp] theorem State.answered_dst (c : Command) (r : ResultCode) (f : List Byte) :
    (s.answered c r f).dst = s.dst := rfl
@[simp] theorem State.answered_sar (c : Command) (r : ResultCode) (f : List Byte) :
    (s.answered c r f).sar = s.sar := rfl
@[simp] theorem State.answered_mbu (c : Command) (r : ResultCode) (f : List Byte) :
    (s.answered c r f).mbu = s.mbu := rfl
@[simp] theorem State.answered_obs (c : Command) (r : ResultCode) (f : List Byte) :
    (s.answered c r f).obs = s.obs := rfl
@[simp] theorem State.answered_rpe (c : Command) (r : ResultCode) (f : List Byte) :
    (s.answered c r f).rpe = s.rpe := rfl
@[simp] theorem State.answered_opu (c : Command) (r : ResultCode) (f : List Byte) :
    (s.answered c r f).opu = s.opu := rfl
@[simp] theorem State.answered_scb (c : Command) (r : ResultCode) (f : List Byte) :
    (s.answered c r f).scb = s.scb := rfl
@[simp] theorem State.answered_wch (c : Command) (r : ResultCode) (f : List Byte) :
    (s.answered c r f).wch = s.wch := rfl
@[simp] theorem State.answered_ntq (c : Command) (r : ResultCode) (f : List Byte) :
    (s.answered c r f).ntq = s.ntq := rfl
@[simp] theorem State.answered_elg (c : Command) (r : ResultCode) (f : List Byte) :
    (s.answered c r f).elg = s.elg := rfl
@[simp] theorem State.answered_pending (c : Command) (r : ResultCode) (f : List Byte) :
    (s.answered c r f).pending = s.pending := rfl

/-! ### handEnded -/

@[simp] theorem State.handEnded_nct (c : Command) (r : ResultCode) (f : List Byte) :
    (s.handEnded c r f).nct = s.nct := rfl
@[simp] theorem State.handEnded_pbi (c : Command) (r : ResultCode) (f : List Byte) :
    (s.handEnded c r f).pbi = s.pbi := rfl
@[simp] theorem State.handEnded_fck (c : Command) (r : ResultCode) (f : List Byte) :
    (s.handEnded c r f).fck = s.fck := rfl
@[simp] theorem State.handEnded_dir (c : Command) (r : ResultCode) (f : List Byte) :
    (s.handEnded c r f).dir = s.dir := rfl
@[simp] theorem State.handEnded_dst (c : Command) (r : ResultCode) (f : List Byte) :
    (s.handEnded c r f).dst = s.dst := rfl
@[simp] theorem State.handEnded_mbu (c : Command) (r : ResultCode) (f : List Byte) :
    (s.handEnded c r f).mbu = s.mbu := rfl
@[simp] theorem State.handEnded_obs (c : Command) (r : ResultCode) (f : List Byte) :
    (s.handEnded c r f).obs = s.obs := rfl
@[simp] theorem State.handEnded_rpe (c : Command) (r : ResultCode) (f : List Byte) :
    (s.handEnded c r f).rpe = s.rpe := rfl
@[simp] theorem State.handEnded_opu (c : Command) (r : ResultCode) (f : List Byte) :
    (s.handEnded c r f).opu = s.opu := rfl
@[simp] theorem State.handEnded_scb (c : Command) (r : ResultCode) (f : List Byte) :
    (s.handEnded c r f).scb = s.scb := rfl
@[simp] theorem State.handEnded_wch (c : Command) (r : ResultCode) (f : List Byte) :
    (s.handEnded c r f).wch = s.wch := rfl
@[simp] theorem State.handEnded_ntq (c : Command) (r : ResultCode) (f : List Byte) :
    (s.handEnded c r f).ntq = s.ntq := rfl
@[simp] theorem State.handEnded_elg (c : Command) (r : ResultCode) (f : List Byte) :
    (s.handEnded c r f).elg = s.elg := rfl
@[simp] theorem State.handEnded_pending (c : Command) (r : ResultCode) (f : List Byte) :
    (s.handEnded c r f).pending = s.pending := rfl

/-! ### What the updates write -/

@[simp] theorem State.report_elg (k : ErrorKind) (f : ErrorFields) :
    (s.report k f).elg = s.elg.take { kind := k, time := s.nct.now, fields := f } := rfl

@[simp] theorem State.notify_ntq (n : Notice) : (s.notify n).ntq = s.ntq.arrive n := rfl

@[simp] theorem State.requestStore_sar (c : Claimant) : (s.requestStore c).sar = s.sar.request c := rfl

@[simp] theorem State.letGoStore_sar (c : Claimant) : (s.letGoStore c).sar = s.sar.letGo c := rfl

@[simp] theorem State.setMember_mbu (n : Nat) (e : MemberEntry) : (s.setMember n e).mbu = s.mbu.putEntry n e := rfl

@[simp] theorem State.setShift_pbi (x : Shift) : (s.setShift x).pbi = { s.pbi with shift := x } := rfl

@[simp] theorem State.removeEntry_queue (k : FrameKind) :
    (s.removeEntry k).obs.queue = s.obs.queue.filter fun e => !OutEntry.isKind k e := rfl

@[simp] theorem State.isolateEmpty_dir : s.isolateEmpty.dir = sparseMap DirEntry.blank DirEntry.clearFlags s.dir := rfl

@[simp] theorem State.haltEmpty_mbu : s.haltEmpty.mbu = s.mbu.stop := rfl

@[simp] theorem State.isolateEmpty_mbu : s.isolateEmpty.mbu = s.mbu.stop := rfl

end Sys2Proof.Machine
end

