-- ==== Sys2Proof/Laws/Ops.lean ====
section
/-!
SUPPORT. What the shared operations can do: the error log, the notice queue, the outbound queue, the store arbiter,
the continuations of a checked read, and time.
-/

set_option Elab.async false

namespace Sys2Proof.Machine

/-! ### The flags of a slot (R112) -/

/-- A write of one entry whose flags may change. -/
theorem State.entry_putFlags {s : State} (h : sparseWf DirEntry.blank s.dir) (slot n : Nat) (e : DirEntry) :
    (s.putFlags slot e).entry n = if n = slot then { e with parityGood := true } else s.entry n :=
  sparseGet_put h.1 _ _ _

/-- Where the wanted flag is cleared, the slot leaves the wanted set; the count follows the other flag. -/
theorem Rpe.follow_cleared (r : Rpe) (slot : Nat) (old : DirEntry) {new : DirEntry} (h : new.wanted = false)
    (hu : new.unresolved = false) : r.follow slot old new = { r with
      wanted := r.wanted.filter (fun n => !([slot] : List Nat).contains n),
      unresolved := r.unresolved - old.unresolved.toNat } := by
  have hf : (fun n => !(n == slot)) = fun n => !([slot] : List Nat).contains n := by
    funext n
    by_cases h : n = slot <;> simp [h]
  unfold Rpe.follow
  rw [h, hu, hf]
  rfl

theorem mem_insertSorted {n m : Nat} {l : List Nat} : m ∈ insertSorted n l ↔ m = n ∨ m ∈ l := by
  induction l with
  | nil => simp [insertSorted]
  | cons k l ih =>
    unfold insertSorted
    split
    · simp
    · split
      · rename_i h
        simp [h]
      · simp only [List.mem_cons, ih]
        tauto

theorem pairwise_insertSorted (n : Nat) {l : List Nat} (h : l.Pairwise (· < ·)) :
    (insertSorted n l).Pairwise (· < ·) := by
  induction l with
  | nil => simp [insertSorted]
  | cons k l ih =>
    rw [List.pairwise_cons] at h
    unfold insertSorted
    split
    · rename_i hk
      refine List.pairwise_cons.2 ⟨fun m hm => ?_, List.pairwise_cons.2 h⟩
      rcases List.mem_cons.1 hm with rfl | hm
      · exact hk
      · exact lt_trans hk (h.1 m hm)
    · split
      · exact List.pairwise_cons.2 h
      · refine List.pairwise_cons.2 ⟨fun m hm => ?_, ih h.2⟩
        rcases mem_insertSorted.1 hm with rfl | hm
        · omega
        · exact h.1 m hm

/-- The wanted set stays ascending. -/
theorem Rpe.follow_pairwise {r : Rpe} (h : r.wanted.Pairwise (· < ·)) (slot : Nat) (old new : DirEntry) :
    (r.follow slot old new).wanted.Pairwise (· < ·) := by
  unfold Rpe.follow
  simp only
  split
  · exact pairwise_insertSorted _ h
  · exact h.filter _

/-- The slot is wanted as its new entry says, and the others as before. -/
theorem Rpe.mem_follow (r : Rpe) (slot : Nat) (old new : DirEntry) (n : Nat) :
    n ∈ (r.follow slot old new).wanted ↔ if n = slot then new.wanted = true else n ∈ r.wanted := by
  unfold Rpe.follow
  by_cases h : new.wanted = true <;> by_cases hn : n = slot <;> simp [h, hn, mem_insertSorted]

/-! ### The error log (R185) -/

theorem Elg.take_counter_le (l : Elg) (e : LogEntry) (h : l.counter ≤ Config.counterMax) :
    (l.take e).counter ≤ Config.counterMax := by
  unfold Elg.take
  split
  · simp only; omega
  · exact h

theorem Elg.take_length_le (l : Elg) (e : LogEntry) (h : l.entries.length ≤ Config.logRoom) :
    (l.take e).entries.length ≤ Config.logRoom := by
  unfold Elg.take
  split
  · simp only
    split
    · simp only [List.length_append, List.length_singleton]; omega
    · exact h
  · exact h

/-! ### The notice queue (R178–R180) -/

theorem removeYoungest_length {v : Severity} {l : List Notice} (h : l.any (Notice.hasSeverity v) = true) :
    (removeYoungest v l).length + 1 = l.length := by
  obtain ⟨x, hx, hv⟩ := List.any_eq_true.1 h
  have hx' : x ∈ l.reverse := List.mem_reverse.2 hx
  have := List.length_eraseP_of_mem hx' hv
  have hpos : 0 < l.length := List.length_pos_of_mem hx
  simp only [removeYoungest, List.length_reverse] at this ⊢
  omega

/-- No arrival makes the queue longer than its room. -/
theorem Ntq.arrive_length_le (q : Ntq) (n : Notice) (h : q.notices.length ≤ Config.noticeRoom) :
    (q.arrive n).notices.length ≤ Config.noticeRoom := by
  unfold Ntq.arrive
  split
  · simpa using h
  · split
    · simp only [List.length_append, List.length_singleton]; omega
    · split
      · rename_i hlow
        simp only [Bool.and_eq_true] at hlow
        have := removeYoungest_length hlow.2
        simp only [List.length_append, List.length_singleton]
        omega
      · split
        · rename_i hhigh
          simp only [Bool.and_eq_true] at hhigh
          have := removeYoungest_length hhigh.2
          simp only [List.length_append, List.length_singleton]
          omega
        · exact h

/-- A notice that does not stand after its arrival was dropped. -/
theorem Ntq.arrive_mem (q : Ntq) (n : Notice) : (q.arrive n).notices = q.notices ∨ n ∈ (q.arrive n).notices := by
  unfold Ntq.arrive
  split
  · rename_i h
    obtain ⟨o, ho, hc⟩ := List.any_eq_true.1 h
    exact Or.inr (List.mem_map.2 ⟨o, ho, by rw [if_pos hc]⟩)
  · split
    · exact Or.inr (List.mem_append_right _ (List.mem_singleton.2 rfl))
    · split
      · exact Or.inr (List.mem_append_right _ (List.mem_singleton.2 rfl))
      · split
        · exact Or.inr (List.mem_append_right _ (List.mem_singleton.2 rfl))
        · exact Or.inl rfl

@[simp] theorem Ntq.arriveAll_nil (q : Ntq) : q.arriveAll [] = q := rfl

@[simp] theorem Ntq.arriveAll_cons (q : Ntq) (n : Notice) (l : List Notice) :
    q.arriveAll (n :: l) = (q.arrive n).arriveAll l := rfl

theorem Ntq.arriveAll_append (q : Ntq) (l m : List Notice) : q.arriveAll (l ++ m) = (q.arriveAll l).arriveAll m := by
  simp [Ntq.arriveAll]

/-- Notices raised in a stated order arrive in it, and nothing else changes. -/
theorem State.notifyAll_eq (s : State) (l : List Notice) : s.notifyAll l = { s with ntq := s.ntq.arriveAll l } := by
  induction l generalizing s with
  | nil => rfl
  | cons n l ih => exact ih (s.notify n)

/-! ### The outbound queue (R134, R138) -/

theorem FrameKind.clashes_symm (k j : FrameKind) : k.clashes j = j.clashes k := by
  cases k <;> cases j <;> rfl

theorem FrameKind.clashes_self (k : FrameKind) : k.clashes k = true := by cases k <;> rfl

/-- A placed entry changes the queue, and nothing else. -/
theorem State.place_frame (s : State) (k : FrameKind) (r : EntryRef) :
    s.place k r = { s with obs := { s.obs with queue := (s.place k r).obs.queue } } := by
  unfold State.place
  split <;> rfl

/-- Where no entry clashes, the new entry stands at the end. -/
theorem State.place_of_free {s : State} {k : FrameKind} (r : EntryRef)
    (h : ∀ e ∈ s.obs.queue, k.clashes e.kind = false) :
    s.place k r = { s with obs := { s.obs with
      queue := s.obs.queue ++ [{ kind := k, ref := r, attempts := 0, queued := s.nct.now }] } } := by
  have : s.obs.queue.any (fun e => k.clashes e.kind) = false := by
    rw [List.any_eq_false]
    intro e he
    simp [h e he]
  unfold State.place
  rw [this]
  rfl

/-- Where an entry clashes, the request is passed over. -/
theorem State.place_of_clash {s : State} {k : FrameKind} (r : EntryRef)
    (h : ∃ e ∈ s.obs.queue, k.clashes e.kind = true) : s.place k r = s := by
  have : s.obs.queue.any (fun e => k.clashes e.kind) = true := List.any_eq_true.2 h
  unfold State.place
  rw [this]
  rfl

/-- Outside the operations' kinds, entries clash exactly where they are of one kind. -/
theorem FrameKind.clashes_of_not_operation {k : FrameKind} (h : k.isOperation = false) (j : FrameKind) :
    k.clashes j = decide (j = k) := by
  cases k <;> cases j <;> first | rfl | cases h

theorem FrameKind.clashes_of_operation {k : FrameKind} (h : k.isOperation = true) (j : FrameKind) :
    k.clashes j = j.isOperation := by
  cases k <;> cases j <;> first | rfl | cases h

theorem Obs.holds_false {o : Obs} {k : FrameKind} : o.holds k = false ↔ ∀ e ∈ o.queue, e.kind ≠ k := by
  simp [Obs.holds, List.any_eq_false, OutEntry.isKind]

theorem Obs.holds_true {o : Obs} {k : FrameKind} : o.holds k = true ↔ ∃ e ∈ o.queue, e.kind = k := by
  simp [Obs.holds, List.any_eq_true, OutEntry.isKind]

/-- A request for an entry of another kind than the operations'. -/
theorem State.place_eq {s : State} {k : FrameKind} (h : k.isOperation = false) (r : EntryRef) :
    s.place k r = if s.obs.holds k then s else { s with obs := { s.obs with
      queue := s.obs.queue ++ [{ kind := k, ref := r, attempts := 0, queued := s.nct.now }] } } := by
  have : s.obs.queue.any (fun e => k.clashes e.kind) = s.obs.holds k := by
    unfold Obs.holds OutEntry.isKind
    congr 1
    funext e
    exact FrameKind.clashes_of_not_operation h e.kind
  unfold State.place
  rw [this]

/-! ### The store arbiter (R34) -/

/-- An idle arbiter grants at once. -/
theorem Sar.request_idle (c : Claimant) : Sar.idle.request c = { Sar.idle with grant := some c } := by
  cases c <;> rfl

/-- A claimant that holds the store asks for nothing more. -/
theorem Sar.request_held {a : Sar} {c : Claimant} (h : a.grant = some c) : a.request c = a := by
  unfold Sar.request
  rw [if_pos h]

/-- A claimant that asks holds the store or waits. -/
theorem Sar.request_grant (a : Sar) (c : Claimant) :
    (a.request c).grant = some c ∨ (a.request c).grant = a.grant := by
  unfold Sar.request
  split
  · exact .inr rfl
  · split
    · exact .inl rfl
    · cases c <;> exact .inr rfl

theorem Sar.letGo_held {a : Sar} {c : Claimant} (h : a.grant = some c) : a.letGo c = a.handOver := by
  unfold Sar.letGo
  rw [if_pos h]

/-- After a hand-over, the frame checker holds the store if it waited, and otherwise the first of the others. -/
theorem Sar.handOver_grant (a : Sar) :
    a.handOver.grant =
      if a.fckWaits then some .fck else if a.lptWaits then some .lpt else if a.scbWaits then some .scb else none := by
  unfold Sar.handOver
  split
  · rfl
  · split
    · rfl
    · split <;> rfl

/-! ### Continuations of a checked read -/

theorem State.andThen_running {s : State} (h : s.nct.node ≠ .halted) (k : State → State) : s.andThen k = k s := by
  unfold State.andThen
  rw [if_neg h]

theorem State.andThen_halted {s : State} (h : s.nct.node = .halted) (k : State → State) : s.andThen k = s := by
  unfold State.andThen
  rw [if_pos h]

theorem State.live_out {s : State} (h : s.nct.nrstLow = false) (k : State → State) : s.live k = k s := by
  unfold State.live
  simp [h]

theorem State.onBus_running {s : State} (h : s.running) (k : State → State) : s.onBus k = k s := by
  unfold State.onBus
  rw [State.live_out h.1, State.andThen_running h.2]

theorem State.examine_good {s : State} {slot : Nat} (h : (s.entry slot).parityGood = true) (k : DirEntry → State) :
    s.examine slot k = k (s.entry slot) := by
  unfold State.examine
  rw [if_pos h]

theorem State.useConfig_good {s : State} {c : NodeConfig} (h : s.hasConfig c) (k : NodeConfig → State) :
    s.useConfig k = k c := by
  unfold State.useConfig
  rw [h.1]
  simp [h.2]

theorem State.useMember_good {s : State} {n : Nat} (h : (s.mbu.entry n).parityGood = true) (k : MemberEntry → State) :
    s.useMember n k = k (s.mbu.entry n) := by
  unfold State.useMember
  rw [if_pos h]

theorem State.badMember_good {s : State} (h : s.membersGood) : s.badMember = none := by
  unfold State.badMember
  rw [List.find?_eq_none]
  intro n hn
  simp [h n (List.mem_range.1 hn)]

theorem State.useMembers_good {s : State} (h : s.membersGood) (k : State) : s.useMembers k = k := by
  unfold State.useMembers
  rw [State.badMember_good h]

/-! ### Time (R92) -/

/-- A deadline that has been reached needs no time. -/
theorem State.reach_now {s : State} {d : Time} (h : (s.nct.now - d).toNat < 2147483648) : s.reach d = s := by
  have hr : reached s.nct.now d = true := decide_eq_true h
  unfold State.reach
  rw [if_pos hr]

/-- What the passing of time can change. -/
theorem State.elapse_frame (s : State) (bits : Nat) :
    s.elapse bits = { s with nct := (s.elapse bits).nct, pbi := (s.elapse bits).pbi, scb := (s.elapse bits).scb } := by
  unfold State.elapse
  split <;> rfl

/-- The passing of time leaves the node state and everything beside the counters as it was. -/
theorem State.elapse_nct (s : State) (bits : Nat) :
    (s.elapse bits).nct =
      { s.nct with now := (s.elapse bits).nct.now, subBits := (s.elapse bits).nct.subBits,
                   pfailWait := (s.elapse bits).nct.pfailWait } := by
  unfold State.elapse
  split <;> rfl

/-! ### Rows (R30) -/

/-- A slot that nothing moved uses its home row. -/
theorem Dst.rowInUse_home {d : Dst} {slot : Nat} (h : ∀ p ∈ d.rowMap, p.1 ≠ slot)
    (hr : d.retired.contains slot = false) :
    d.rowInUse slot = some slot := by
  have : d.rowMap.find? (fun p => p.1 == slot) = none := by
    rw [List.find?_eq_none]
    intro p hp
    simp [h p hp]
  unfold Dst.rowInUse
  rw [this]
  simp only [hr]
  rfl

/-- An undisturbed code word reads as it was written. -/
theorem Cell.decode_clean {c : Cell} (h : c.flips = 0) : c.decode = .clean c.word := by
  have : flippedBits c.flips = [] := by rw [h]; rfl
  unfold Cell.decode
  rw [this]

/-- Two disturbed bits are uncorrectable. -/
theorem Cell.decode_two {c : Cell} (h : (flippedBits c.flips).length = 2) : c.decode = .uncorrectable := by
  unfold Cell.decode
  match hf : flippedBits c.flips, h with
  | [_, _], _ => rfl

end Sys2Proof.Machine
end

