-- ==== Sys2Proof/Laws/Answers.lean ====
section
/-!
SUPPORT. Which slots an ASK makes this node answer (R124–R126), and what a frame makes of the provisional member set
(R71).
-/

set_option Elab.async false

namespace Sys2Proof.Machine

/-! ### The designated answerer (R124) -/

/-- The head of an ascending list is its least element. -/
theorem head_sorted {l : List Nat} (h : l.Pairwise (· < ·)) (a : Nat) : l.head? = some a ↔ a ∈ l ∧ ∀ m ∈ l, a ≤ m := by
  cases l with
  | nil => simp
  | cons b l =>
    rw [List.pairwise_cons] at h
    simp only [List.head?_cons, Option.some.injEq, List.mem_cons, forall_eq_or_imp]
    constructor
    · rintro rfl
      exact ⟨Or.inl rfl, Nat.le_refl _, fun m hm => Nat.le_of_lt (h.1 m hm)⟩
    · rintro ⟨h1 | h1, h2, h3⟩
      · exact h1.symm
      · have := h.1 a h1
        omega

theorem State.memberSet_sorted (s : State) : s.memberSet.Pairwise (· < ·) :=
  List.Pairwise.filter _ List.pairwise_lt_range

theorem State.lowest_iff (s : State) (asker : Station) :
    (s.memberSet.filter fun n => !(n == asker.toNat)).head? = some s.nct.station.toNat ↔ s.lowestMember asker := by
  rw [head_sorted (List.Pairwise.filter _ s.memberSet_sorted)]
  unfold State.lowestMember
  simp only [List.mem_filter, Bool.not_eq_true', beq_eq_false_iff_ne, and_imp]
  have : s.nct.station.toNat ≠ asker.toNat ↔ s.nct.station ≠ asker := by
    rw [ne_eq, ne_eq, BitVec.toNat_inj]
  rw [this, and_assoc]

theorem State.designated_iff (s : State) (asker : Station) (slot : Nat) :
    s.designated asker slot = some s.nct.station.toNat ↔ s.isDesignated asker slot := by
  unfold State.designated State.isDesignated
  cases (s.entry slot).state with
  | owned o =>
    simp only
    by_cases h : o = asker
    · rw [if_pos h, if_pos h]
      exact s.lowest_iff asker
    · rw [if_neg h, if_neg h, Option.some.injEq, BitVec.toNat_inj]
  | _ => exact s.lowest_iff asker

/-! ### The answer set (R125, R126) -/

theorem mem_foldInsert (l slots : List Nat) (n : Nat) :
    n ∈ slots.foldl (fun l n => insertSorted n l) l ↔ n ∈ l ∨ n ∈ slots := by
  induction slots generalizing l with
  | nil => simp
  | cons m slots ih =>
    rw [List.foldl_cons, ih, mem_insertSorted]
    simp only [List.mem_cons]
    tauto

theorem mem_askRange (first count n : Nat) : n ∈ askRange first count ↔ first ≤ n ∧ n < first + count := by
  unfold askRange
  simp only [List.mem_map, List.mem_range]
  constructor
  · rintro ⟨a, ha, rfl⟩
    omega
  · rintro ⟨a, b⟩
    exact ⟨n - first, by omega, by omega⟩

theorem State.answersFor_iff (s : State) (asker : Station) (mode : BitVec 3) (n : Nat) :
    s.answersFor asker mode n = true ↔
      ((mode = 1 ∨ s.isDesignated asker n) ∧ (s.entry n).state ≠ .unlearned) ∧ (s.entry n).health = .good := by
  unfold State.answersFor
  rw [← State.designated_iff]
  simp only [Bool.and_eq_true, Bool.or_eq_true, decide_eq_true_eq]

/-! ### The provisional member set (R71) -/

theorem Station.mask_getLsbD (m : Station) {n : Nat} (hn : n < 16) :
    (Station.mask m).getLsbD n = decide (n = m.toNat) := by
  have : ∀ (m : Station) (n : Fin 16), (Station.mask m).getLsbD n.val = decide (n.val = m.toNat) := by decide
  exact this m ⟨n, hn⟩

theorem State.provisionalAfter_iff (s : State) (f : Frame) {n : Nat} (hn : n < 16) :
    (provisionalAfter s.nct.station s.mbu.provisional f).getLsbD n = true ↔ s.keepsProvisional f n := by
  unfold provisionalAfter State.keepsProvisional
  cases hp : f.payload
  all_goals
    simp only [BitVec.getLsbD_or, BitVec.getLsbD_and, BitVec.getLsbD_not, Station.mask_getLsbD _ hn, hn, decide_true,
      Bool.true_and, Bool.or_eq_true, Bool.and_eq_true, Bool.not_eq_true', decide_eq_true_eq,
      decide_eq_false_iff_not]
  all_goals tauto

end Sys2Proof.Machine
end

