-- ==== Sys2Proof/Laws/Ends.lean ====
section
/-!
SUPPORT. What an end of work leaves: the end of an operation, the halt, isolation, and the removal of an entry.
-/

set_option Elab.async false

namespace Sys2Proof.Machine

/-! ### The end of an operation (R141) -/

/-- The record goes and its notice arrives; without a record nothing changes. -/
theorem State.endOp_eq (s : State) (r : DoneResult) :
    s.endOp r = { s with
      opu := { s.opu with op := none },
      ntq := s.ntq.arriveAll (s.opu.op.toList.map fun o => .opDone o.kind.done r o.kind.slot?) } := by
  unfold State.endOp
  cases h : s.opu.op with
  | none =>
    obtain ⟨_, _, _, _, _, _, _, _, _, opu, _, _, _, _, _, _⟩ := s
    obtain ⟨_, _⟩ := opu
    simp only at h
    subst h
    rfl
  | some o => rfl

theorem State.abortJoin_eq (s : State) :
    s.abortJoin = { s with ntq := s.ntq.arriveAll s.joinAborted } := by
  unfold State.abortJoin State.joinAborted
  split <;> rfl

theorem State.abortLeave_eq (s : State) :
    s.abortLeave = { s with ntq := s.ntq.arriveAll s.leaveAborted } := by
  unfold State.abortLeave State.leaveAborted
  split <;> rfl

/-! ### The bus interface's releases -/

/-- A node that stops sending is in no frame of its own any more. -/
theorem Pbi.abortOwn_transmitting (p : Pbi) : p.abortOwn.shift.transmitting = false := by
  unfold Pbi.abortOwn
  split
  · rfl
  · rename_i h
    exact Bool.eq_false_iff.2 h

/-- What stops is the sending alone: the lines and their timers stand. -/
theorem Pbi.abortOwn_frame (p : Pbi) : p.abortOwn = { p with shift := p.abortOwn.shift } := by
  unfold Pbi.abortOwn
  split <;> rfl

/-! ### The halt (R109) -/

/-- The halt of a node that is not halted. -/
theorem State.halt_spec {s : State} (h : s.nct.node ≠ .halted) (cause : HaltCause) :
    s.haltedFrom (s.halt cause) cause [] := by
  unfold State.halt
  rw [State.andThen_running h]
  simp only [State.endOp_eq, State.abortJoin_eq, State.abortLeave_eq, State.notify]
  refine ⟨rfl, rfl, ?_, rfl, rfl, rfl, rfl, rfl, rfl, rfl, rfl, rfl, rfl, rfl, rfl, rfl, rfl⟩
  simp only [Ntq.arriveAll_append]
  rfl

/-- A report and then the halt. -/
theorem State.report_halt_spec {s : State} (h : s.nct.node ≠ .halted) (kind : ErrorKind) (fields : ErrorFields)
    (cause : HaltCause) : s.haltedFrom ((s.report kind fields).halt cause) cause [(kind, fields)] :=
  State.halt_spec (s := s.report kind fields) h cause

/-- A cause that reaches a halted node changes nothing. -/
theorem State.halt_halted {s : State} (h : s.nct.node = .halted) (cause : HaltCause) : s.halt cause = s := by
  unfold State.halt
  exact State.andThen_halted h _

/-! ### The notice line (R183) -/

/-- A node with a configuration of valid parity drives NIRQ without a fault. -/
theorem State.hasConfig.levelGood {s : State} {c : NodeConfig} (h : s.hasConfig c) : s.levelGood := by
  intro d hd
  rw [h.1] at hd
  cases hd
  exact h.2

/-- An event drives NIRQ without a fault where it leaves the notices, or a halted node, or a configuration without a
parity mismatch. -/
theorem State.driveNirq_quiet {s : State} {before : List Notice}
    (h : s.ntq.notices = before ∨ s.nct.node = .halted ∨ s.levelGood) : s.driveNirq before = s := by
  unfold State.driveNirq
  split
  · rfl
  · rename_i hn
    unfold State.useConfig
    split
    · rfl
    · rename_i c hc
      rcases h with h | h | h
      · exact absurd h (by simp at hn; exact hn.1.1)
      · exact absurd h (by simp at hn; exact hn.1.2)
      · rw [if_pos (h c hc)]

/-- The answer of a row whose event drives NIRQ without a fault. -/
theorem State.driving_quiet {s t : State}
    (h : t.ntq.notices = s.ntq.notices ∨ t.nct.node = .halted ∨ t.levelGood) : s.driving t = .next t := by
  unfold State.driving
  rw [State.driveNirq_quiet h]

/-- A HIGH or LOW notice stands after a change of the queue, and the configuration's parity mismatches: the node halts
(R108, R183). -/
theorem State.driveNirq_fault {s : State} {before : List Notice} {c : NodeConfig} (hq : s.ntq.notices ≠ before)
    (hn : s.nct.node ≠ .halted) (ha : ∃ n ∈ s.ntq.notices, n.severity ≠ .critical) (hc : s.nct.config = some c)
    (hp : c.parityGood = false) : s.driveNirq before = s.internalFault .none := by
  have ha' : s.ntq.notices.any Notice.byEnable = true := by
    obtain ⟨n, hn, hs⟩ := ha
    exact List.any_eq_true.2 ⟨n, hn, decide_eq_true hs⟩
  unfold State.driveNirq State.useConfig
  simp [hq, hn, ha', hc, hp]

/-! ### Isolation and quorum (R79, R104) -/

/-- A participating node that isolates itself (R104). -/
theorem State.isolate_spec {s : State} (hp : s.nct.node.participating = true)
    (hd : sparseWf DirEntry.blank s.dir) (cause : IsolationCause) : s.isolatedFrom (s.isolate cause) cause := by
  unfold State.isolate
  rw [if_pos hp]
  simp only [State.endOp_eq, State.abortLeave_eq, State.notify]
  unfold State.isolateEmpty State.clearFlags
  have hsar : (Sar.letGo s.sar.withdrawScb .fck).scbWaits = false ∧
      ((Sar.letGo s.sar.withdrawScb .fck).grant = some .scb ↔ s.sar.grant = some .scb) := by
    unfold Sar.letGo Sar.handOver Sar.withdrawScb
    by_cases h : s.sar.grant = some .fck
    · cases h1 : s.sar.fckWaits <;> cases h2 : s.sar.lptWaits <;> simp [h]
    · simp [h]
  refine ⟨rfl, rfl, rfl, rfl, rfl, rfl, rfl, rfl, hsar.1, hsar.2, ?_, ?_, rfl, rfl, rfl, rfl, ?_⟩
  · simp only [Ntq.arriveAll_append]; rfl
  · intro n
    show sparseGet DirEntry.blank (sparseMap DirEntry.blank DirEntry.clearFlags s.dir) n = _
    rw [sparseGet_map hd.1 _ rfl]; rfl
  · exact Pbi.abortOwn_transmitting _

/-- Quorum is more than half of the member set, or half of it with its lowest station (R79). -/
theorem State.quorum_iff (s : State) : s.quorum = true ↔ s.hasQuorum := by
  unfold State.quorum State.hasQuorum
  cases s.memberSet.head? <;> simp

end Sys2Proof.Machine
end

