-- ==== Sys2Proof/Laws/LocalPort.lean ====
section
/-!
SUPPORT. What a transaction of the local port does: the tests of R193 in their order, and how many argument bytes each
layout needs.
-/

set_option Elab.async false

namespace Sys2Proof.Machine

/-- A rise of NSEL after a fall takes the command. -/
theorem State.transact_open {s : State} (h : s.portOpen) (k : State → State) : s.transact k = k s.raised := by
  unfold State.transact
  rw [State.live_out h.1]
  cases hn : s.lpt.nsel
  · rfl
  · exact absurd hn h.2
  · rfl

/-- A rise with no fall since the reset takes none (R199). -/
theorem State.transact_afterReset {s : State} (h : s.nct.nrstLow = false) (hn : s.lpt.nsel = .lowSinceReset)
    (k : State → State) : s.transact k = s.raised := by
  unfold State.transact
  rw [State.live_out h, hn]
  rfl

/-- Test 2: too few bytes. -/
theorem State.command_short {s : State} (h : s.portOpen) (c : Command) (k : State → State) :
    s.command c false k = s.answered c .badLength [] := by
  unfold State.command
  rw [State.transact_open h]
  rfl

/-- Test 3: not taken in this state. -/
theorem State.command_wrongState {s : State} (h : s.portOpen) {c : Command} (ha : s.admits c = false)
    (k : State → State) : s.command c true k = s.answered c .wrongState [] := by
  unfold State.command
  rw [State.transact_open h]
  have ha' : s.raised.admits c = false := ha
  simp only [Bool.not_true, Bool.false_eq_true, if_false, ha', Bool.not_false, if_true]
  rfl

/-- Test 4: another command is in hand. -/
theorem State.command_busy {s : State} (h : s.portOpen) {c : Command} (ha : s.admits c = true)
    (hi : s.lpt.inHand ≠ none) (hc : c.alongside = false) (k : State → State) :
    s.command c true k = s.answered c .busy [] := by
  unfold State.command
  rw [State.transact_open h]
  have ha' : s.raised.admits c = true := ha
  have hi' : s.raised.lpt.inHand.isSome = true := Option.isSome_iff_ne_none.2 hi
  simp only [Bool.not_true, Bool.false_eq_true, if_false, ha', hi', hc, Bool.not_false, Bool.and_self, if_true]
  rfl

/-- The tests are passed: the command's own rule goes on. -/
theorem State.command_accepts {s : State} {c : Command} (h : s.accepts c) (k : State → State) :
    s.command c true k = k s.raised := by
  unfold State.command
  rw [State.transact_open h.1]
  have h1 : s.raised.admits c = true := h.2.1
  have h2 : (s.raised.lpt.inHand.isSome && !c.alongside) = false := by
    rcases h.2.2 with h | h
    · show (s.lpt.inHand.isSome && _) = _
      rw [h]
      rfl
    · rw [h]
      simp
  simp [h1, h2]

theorem State.commandArgs_accepts {α : Type} {s : State} {c : Command} (h : s.accepts c) (a : α)
    (k : State → α → State) : s.commandArgs c (some a) k = k s.raised a := by
  unfold State.commandArgs
  exact State.command_accepts h _

theorem State.commandArgs_short {α : Type} {s : State} (h : s.portOpen) (c : Command) (k : State → α → State) :
    s.commandArgs c none k = s.answered c .badLength [] := by
  unfold State.commandArgs
  exact State.command_short h _ _

theorem State.commandArgs_wrongState {α : Type} {s : State} (h : s.portOpen) {c : Command} (ha : s.admits c = false)
    (a : α) (k : State → α → State) : s.commandArgs c (some a) k = s.answered c .wrongState [] := by
  unfold State.commandArgs
  exact State.command_wrongState h ha _

theorem State.commandArgs_busy {α : Type} {s : State} (h : s.portOpen) {c : Command} (ha : s.admits c = true)
    (hi : s.lpt.inHand ≠ none) (hc : c.alongside = false) (a : α) (k : State → α → State) :
    s.commandArgs c (some a) k = s.answered c .busy [] := by
  unfold State.commandArgs
  exact State.command_busy h ha hi hc _

/-! ### Argument bytes (Table 12-3) -/

theorem keptArgs_length (l : List Byte) : (keptArgs l).length = min 47 l.length := by
  simp [keptArgs, Config.argRoom]

/-- As many words are read as bytes hold. -/
theorem takeWords_isSome (n : Nat) (l : List Byte) : (takeWords n l).isSome = decide (2 * n ≤ l.length) := by
  induction n generalizing l with
  | zero => rfl
  | succ n ih =>
    match l with
    | [] => simp [takeWords]
    | [_] =>
      have : ¬2 * (n + 1) ≤ 1 := by omega
      simp [takeWords, this]
    | hi :: lo :: rest =>
      unfold takeWords
      have := ih rest
      revert this
      cases takeWords n rest with
      | none =>
        intro this
        simp only [Option.isSome_none] at this ⊢
        have h1 := of_decide_eq_false this.symm
        symm
        apply decide_eq_false
        simp only [List.length_cons]
        omega
      | some p =>
        intro this
        simp only [Option.isSome_some] at this ⊢
        have h1 := of_decide_eq_true this.symm
        symm
        apply decide_eq_true
        simp only [List.length_cons]
        omega

theorem readOne_isSome (l : List Byte) : (readOne l).isSome = decide (1 ≤ l.length) := by
  cases l <;> simp [readOne]

theorem readRead_isSome (l : List Byte) : (readRead l).isSome = decide (2 ≤ l.length) := by
  match l with
  | [] => rfl
  | [_] => rfl
  | _ :: _ :: _ => simp [readRead]

theorem readConfigure_isSome (l : List Byte) : (readConfigure l).isSome = decide (6 ≤ l.length) := by
  match l with
  | [] => rfl
  | [_] => rfl
  | [_, _] => rfl
  | [_, _, _] => rfl
  | [_, _, _, _] => rfl
  | [_, _, _, _, _] => rfl
  | _ :: _ :: _ :: _ :: _ :: _ :: _ => simp [readConfigure]

theorem readStage_isSome (l : List Byte) :
    (readStage l).isSome = decide (2 + 2 * (l.getD 1 0).toNat ≤ l.length) := by
  match l with
  | [] => rfl
  | [_] => rfl
  | slot :: count :: rest =>
    have h := takeWords_isSome count.toNat rest
    have hd : (slot :: count :: rest).getD 1 0 = count := rfl
    have hl : decide (2 + 2 * count.toNat ≤ (slot :: count :: rest).length) =
        decide (2 * count.toNat ≤ rest.length) := by
      apply decide_eq_decide.2
      simp only [List.length_cons]
      omega
    rw [hd, hl, ← h]
    unfold readStage
    simp only
    cases takeWords count.toNat rest <;> rfl

theorem readWatch_isSome (l : List Byte) :
    (readWatch l).isSome = decide ((if l.getD 4 0 = 0 then 5 else 10) ≤ l.length) := by
  match l with
  | [] => rfl
  | [_] => rfl
  | [_, _] => rfl
  | [_, _, _] => rfl
  | [_, _, _, _] => rfl
  | index :: slot :: phi :: plo :: indicator :: rest =>
    have hd : (index :: slot :: phi :: plo :: indicator :: rest).getD 4 0 = indicator := rfl
    rw [hd]
    unfold readWatch
    by_cases hi : indicator = 0
    · simp [hi]
    · simp only [if_neg hi]
      match rest with
      | [] => rfl
      | [_] => rfl
      | [_, _] => rfl
      | [_, _, _] => rfl
      | [_, _, _, _] => rfl
      | _ :: _ :: _ :: _ :: _ :: _ => simp

/-- A byte below the kept ones is kept. -/
theorem keptArgs_getD (l : List Byte) (n : Nat) (h : n < 47) : (keptArgs l).getD n 0 = l.getD n 0 := by
  unfold keptArgs
  simp only [List.getD_eq_getElem?_getD, List.getElem?_take, Config.argRoom, if_pos h]

/-! ### LEAVE (R101) -/

/-- An entry is transmitted up to the stop condition of its frame (R5). -/
theorem State.transmittingKind_iff (s : State) (k : FrameKind) : s.transmittingKind k = true ↔
    (∃ f, (s.pbi.shift = .sending f ∨ s.pbi.shift = .sendingPaused f) ∧ f.kind = k) ∨
      (s.pbi.shift = .slotsDone (some k) ∧ ∃ e ∈ s.obs.queue, e.kind = k ∧ e.attempts ≠ 0) := by
  unfold State.transmittingKind
  split
  · rename_i f hf
    rw [hf]
    simp
  · rename_i f hf
    rw [hf]
    simp
  · rename_i j hj
    rw [hj]
    simp [OutEntry.isKind]
  · rename_i h1 h2 h3
    constructor
    · intro h
      cases h
    · rintro (⟨f, hf | hf, -⟩ | ⟨h, -⟩)
      · exact absurd hf (h1 f)
      · exact absurd hf (h2 f)
      · exact absurd h (h3 k)

/-- Whether an entry is transmitted depends on the bus and the queue's entries of its kind. -/
theorem State.transmittingKind_congr {s t : State} {k : FrameKind} (hs : t.pbi.shift = s.pbi.shift)
    (hq : ∀ e : OutEntry, e.kind = k → (e ∈ t.obs.queue ↔ e ∈ s.obs.queue)) :
    t.transmittingKind k = s.transmittingKind k := by
  rw [Bool.eq_iff_iff, State.transmittingKind_iff, State.transmittingKind_iff, hs]
  refine or_congr Iff.rfl (and_congr Iff.rfl (exists_congr fun e => ?_))
  constructor
  · rintro ⟨h1, h2, h3⟩
    exact ⟨(hq e h2).1 h1, h2, h3⟩
  · rintro ⟨h1, h2, h3⟩
    exact ⟨(hq e h2).2 h1, h2, h3⟩

/-- LEAVE ends a pending operation unless its frame is on the bus (R101). -/
theorem State.leaveOp_spec (s : State) : ∃ obs opu ntq, s.leaveOp = { s with obs := obs, opu := opu, ntq := ntq } ∧
   (match s.opu.op with
        | none => opu = s.opu ∧ ntq = s.ntq
        | some o =>
          if o.onBus then opu = s.opu ∧ ntq = s.ntq
          else opu = { s.opu with op := none } ∧ obs.holds o.kind.frame = false ∧
            ntq = s.ntq.arrive (.opDone o.kind.done .aborted o.kind.slot?)) ∧
   (∀ e ∈ s.obs.queue, e.kind.isOperation = false → e ∈ obs.queue) ∧ (∀ e ∈ obs.queue, e ∈ s.obs.queue) := by
  unfold State.leaveOp
  cases h : s.opu.op with
  | none => exact ⟨s.obs, s.opu, s.ntq, rfl, ⟨rfl, rfl⟩, fun e h _ => h, fun e h => h⟩
  | some o =>
    simp only
    split
    · exact ⟨s.obs, s.opu, s.ntq, rfl, ⟨rfl, rfl⟩, fun e h _ => h, fun e h => h⟩
    · rw [State.endOp_eq]
      have : (s.removeEntry o.kind.frame).opu.op = some o := h
      rw [this]
      refine ⟨(s.removeEntry o.kind.frame).obs, _, _, rfl, ⟨rfl, ?_, rfl⟩, fun e h1 h2 => ?_, fun e h => ?_⟩
      · rw [Obs.holds_false]
        intro e he h
        have := (List.mem_filter.1 he).2
        simp [OutEntry.isKind, h] at this
      · refine List.mem_filter.2 ⟨h1, ?_⟩
        simp only [OutEntry.isKind, Bool.not_eq_true', decide_eq_false_iff_not]
        intro h3; rw [h3] at h2; cases ho : o.kind <;> rw [ho] at h2 <;> cases h2
      · exact (List.mem_filter.1 h).1

/-- An entry of the repair engine goes at LEAVE unless its frame is on the bus. -/
theorem State.leaveEntry_spec (s : State) (k) : ∃ obs, s.leaveEntry k = { s with obs := obs } ∧
   (s.transmittingKind k = false → obs.holds k = false) ∧ (s.transmittingKind k = true → obs = s.obs) ∧
   (∀ e ∈ s.obs.queue, e.kind ≠ k → e ∈ obs.queue) ∧ (∀ e ∈ obs.queue, e ∈ s.obs.queue) := by
  unfold State.leaveEntry; split
  · rename_i h
    exact ⟨s.obs, rfl, fun h' => absurd h (by simp [h']), fun _ => rfl, fun e h _ => h, fun e h => h⟩
  · rename_i ht
    refine ⟨(s.removeEntry k).obs, rfl, fun _ => ?_, fun h => absurd h ht, fun e h1 h2 => ?_, fun e h => ?_⟩
    · rw [Obs.holds_false]; intro e he h
      have := (List.mem_filter.1 he).2
      simp [OutEntry.isKind, h] at this
    · exact List.mem_filter.2 ⟨h1, by simp [OutEntry.isKind, h2]⟩
    · exact (List.mem_filter.1 h).1

/-- A build or give-up access that LEAVE lets go changes the frame checker and the arbiter only. -/
theorem State.dropIdleAccess_spec (s : State) : ∃ fck sar, s.dropIdleAccess = { s with fck := fck, sar := sar } := by
  unfold State.dropIdleAccess; split
  · exact ⟨_, _, rfl⟩
  · exact ⟨_, _, rfl⟩

/-! ### The bytes of STATUS (Tables 12-5 and 12-6) -/

/-- A word is the concatenation of its two bytes. -/
theorem Word.join_bytes (w : Word) : (w >>> 8).setWidth 8 ++ w.setWidth 8 = w := by
  apply BitVec.eq_of_getLsbD_eq
  intro i hi
  rw [BitVec.getLsbD_append]
  by_cases h : i < 8
  · simp [h]
  · simp [h, show i - 8 < 8 by omega, show 8 + (i - 8) = i by omega]

/-- A time is the concatenation of its four bytes. -/
theorem Time.join_bytes (t : Time) :
    (t >>> 24).setWidth 8 ++ (t >>> 16).setWidth 8 ++ (t >>> 8).setWidth 8 ++ t.setWidth 8 = t := by
  apply BitVec.eq_of_getLsbD_eq
  intro i hi
  simp only [BitVec.getLsbD_append, BitVec.getLsbD_setWidth, BitVec.getLsbD_ushiftRight]
  by_cases h : i < 8
  · simp [h]
  · by_cases h2 : i < 16
    · simp [h, show i - 8 < 8 by omega, show 8 + (i - 8) = i by omega]
    · by_cases h3 : i < 24
      · simp [h, show ¬i - 8 < 8 by omega, show i - 8 - 8 < 8 by omega, show 16 + (i - 8 - 8) = i by omega]
      · simp [h, show ¬i - 8 < 8 by omega, show ¬i - 8 - 8 < 8 by omega, show i - 8 - 8 - 8 < 8 by omega,
          show 24 + (i - 8 - 8 - 8) = i by omega]

/-- The flags byte. -/
theorem flagBits_toNat (a b c d : Bool) :
    (flagBit a 0 ||| flagBit b 1 ||| flagBit c 2 ||| flagBit d 3).toNat =
      a.toNat + 2 * b.toNat + 4 * c.toNat + 8 * d.toNat := by
  cases a <;> cases b <;> cases c <;> cases d <;> rfl

/-- The STATUS fields with the configuration as it stands. -/
theorem State.statusFields_config {s : State} {c : NodeConfig} (h : s.nct.config = some c) :
    let b := fun i => s.statusFields.getD i 0
    (b 2).toNat = 1 + 2 * c.enableHigh.toNat + 4 * c.enableLow.toNat + 8 * s.ntq.lost.toNat ∧
      b 3 = byteOf c.slotCode ∧ b 4 = byteOf c.silence ∧ b 5 ++ b 6 = BitVec.ofNat 16 c.beat ∧
      b 7 = byteOf c.scrub := by
  have e : ∀ f : NodeConfig → Nat, s.configured f = f c := by intro f; unfold State.configured; rw [h]
  intro b
  have e2 : b 2 = (flagBit s.nct.config.isSome 0 ||| flagBit (s.enabled NodeConfig.enableHigh) 1 |||
      flagBit (s.enabled NodeConfig.enableLow) 2 ||| flagBit s.ntq.lost 3) := rfl
  have e3 : b 3 = byteOf (s.configured NodeConfig.slotCode) := rfl
  have e4 : b 4 = byteOf (s.configured NodeConfig.silence) := rfl
  have e5 : b 5 ++ b 6 = BitVec.ofNat 16 (s.configured NodeConfig.beat) := Word.join_bytes _
  have e7 : b 7 = byteOf (s.configured NodeConfig.scrub) := rfl
  refine ⟨?_, by rw [e3, e], by rw [e4, e], by rw [e5, e], by rw [e7, e]⟩
  rw [e2, flagBits_toNat]
  unfold State.enabled
  rw [h]
  rfl

/-- The STATUS fields of a node that is not configured. -/
theorem State.statusFields_unconfigured {s : State} (h : s.nct.config = none) :
    let b := fun i => s.statusFields.getD i 0
    (b 2).toNat = 8 * s.ntq.lost.toNat ∧ b 3 = 0 ∧ b 4 = 0 ∧ b 5 = 0 ∧ b 6 = 0 ∧ b 7 = 0 := by
  have e : ∀ f, s.configured f = 0 := by intro f; unfold State.configured; rw [h]
  intro b
  have e2 : b 2 = (flagBit s.nct.config.isSome 0 ||| flagBit (s.enabled NodeConfig.enableHigh) 1 |||
      flagBit (s.enabled NodeConfig.enableLow) 2 ||| flagBit s.ntq.lost 3) := rfl
  have e3 : b 3 = byteOf (s.configured NodeConfig.slotCode) := rfl
  have e4 : b 4 = byteOf (s.configured NodeConfig.silence) := rfl
  have e5 : b 5 = ((BitVec.ofNat 16 (s.configured NodeConfig.beat) : Word) >>> 8).setWidth 8 := rfl
  have e6 : b 6 = (BitVec.ofNat 16 (s.configured NodeConfig.beat) : Word).setWidth 8 := rfl
  have e7 : b 7 = byteOf (s.configured NodeConfig.scrub) := rfl
  refine ⟨?_, by rw [e3, e]; rfl, by rw [e4, e]; rfl, by rw [e5, e]; rfl, by rw [e6, e]; rfl, by rw [e7, e]; rfl⟩
  rw [e2, flagBits_toNat]
  unfold State.enabled
  rw [h]
  simp

/-- The attempt count of STATUS, by phase (Table 11-4). -/
theorem State.phaseAttempts_none {s : State} (h : s.nct.phase = .none) : s.phaseAttempts = 0 := by
  unfold State.phaseAttempts
  simp only [h]

theorem State.phaseAttempts_joining {s : State} {e : OutEntry} (h : s.nct.phase = .joining)
    (he : s.obs.find .hello = some e) : s.phaseAttempts = e.attempts := by
  unfold State.phaseAttempts
  simp only [h, he]

theorem State.phaseAttempts_leaving {s : State} {e : OutEntry}
    (h : s.nct.phase = .leaving ∨ s.nct.phase = .pfailLeave) (he : s.obs.find .leave = some e) :
    s.phaseAttempts = e.attempts := by
  unfold State.phaseAttempts
  rcases h with h | h <;> simp only [h, he]

theorem Obs.find_none {o : Obs} {k : FrameKind} (h : ∀ e ∈ o.queue, e.kind ≠ k) : o.find k = none :=
  List.find?_eq_none.2 fun e he hk => h e he (of_decide_eq_true hk)

/-- Without the HELLO entry a joining phase counts no attempts; the same of a leaving phase without its LEAVE. -/
theorem State.phaseAttempts_withoutEntry {s : State} {k : FrameKind}
    (hp : (s.nct.phase = .joining ∧ k = .hello) ∨
      ((s.nct.phase = .leaving ∨ s.nct.phase = .pfailLeave) ∧ k = .leave))
    (h : ∀ e ∈ s.obs.queue, e.kind ≠ k) : s.phaseAttempts = 0 := by
  have hf := Obs.find_none h
  unfold State.phaseAttempts
  rcases hp with ⟨hp, rfl⟩ | ⟨hp | hp, rfl⟩ <;> simp only [hp, hf]

theorem foldl_max_spec (l : List Nat) (a : Nat) :
    (∀ x ∈ l, x ≤ l.foldl max a) ∧ a ≤ l.foldl max a ∧ (l.foldl max a = a ∨ l.foldl max a ∈ l) := by
  induction l generalizing a with
  | nil => simp
  | cons x l ih =>
    obtain ⟨h1, h2, h3⟩ := ih (max a x)
    rw [List.foldl_cons]
    refine ⟨?_, by omega, ?_⟩
    · intro y hy
      rcases List.mem_cons.1 hy with rfl | hy
      · omega
      · exact h1 y hy
    · rcases h3 with h3 | h3
      · rw [h3]
        rcases Nat.le_total a x with h | h
        · right
          rw [Nat.max_eq_right h]
          exact List.mem_cons_self ..
        · exact .inl (Nat.max_eq_left h)
      · exact .inr (List.mem_cons_of_mem _ h3)

/-- No entry is older than the age that STATUS reports, and one is as old. -/
theorem State.oldestAge_spec (s : State) :
    (∀ e ∈ s.obs.queue, min 65535 (s.nct.now - e.queued).toNat ≤ s.oldestAge) ∧ s.oldestAge ≤ 65535 ∧
      (s.oldestAge = 0 ∨ ∃ e ∈ s.obs.queue, s.oldestAge = min 65535 (s.nct.now - e.queued).toNat) := by
  have h := foldl_max_spec (s.obs.queue.map fun e => (s.nct.now - e.queued).toNat) 0
  unfold State.oldestAge
  refine ⟨fun e he => ?_, by omega, ?_⟩
  · have := h.1 _ (List.mem_map_of_mem he)
    omega
  · rcases h.2.2 with h0 | h0
    · exact .inl (by rw [h0]; rfl)
    · obtain ⟨e, he, h'⟩ := List.mem_map.1 h0
      exact .inr ⟨e, he, by rw [← h']⟩

end Sys2Proof.Machine
end

