-- ==== Sys2Proof/Laws/Reads.lean ====
section
/-!
SUPPORT. What a reader meets: words and their bytes, the words of a row without disturbances, the command in hand at
its grant, and the notice that is taken next.
-/

set_option Elab.async false

namespace Sys2Proof.Machine

/-! ### Words and bytes (R200) -/

theorem wordOf_toNat (hi lo : Byte) : (wordOf hi lo).toNat = 256 * hi.toNat + lo.toNat := by
  unfold wordOf
  rw [BitVec.toNat_append, ← Nat.shiftLeft_add_eq_or_of_lt lo.isLt, Nat.shiftLeft_eq]
  omega

/-- The two bytes of a word give the word back. -/
theorem wordOf_bytes (w : Word) : wordOf ((w >>> 8).setWidth 8) (w.setWidth 8) = w := by
  apply BitVec.eq_of_toNat_eq
  rw [wordOf_toNat, BitVec.toNat_setWidth, BitVec.toNat_setWidth, BitVec.toNat_ushiftRight, Nat.shiftRight_eq_div_pow]
  have := w.isLt
  omega

theorem wordsBytes_cons (w : Word) (ws : List Word) :
    wordsBytes (w :: ws) = (w >>> 8).setWidth 8 :: w.setWidth 8 :: wordsBytes ws := rfl

theorem wordsBytes_length (ws : List Word) : (wordsBytes ws).length = 2 * ws.length := by
  induction ws with
  | nil => rfl
  | cons w ws ih =>
    rw [wordsBytes_cons]
    simp only [List.length_cons, ih]
    omega

/-- Words written as bytes are read back, and what follows them is left. -/
theorem takeWords_bytes (ws : List Word) (more : List Byte) :
    takeWords ws.length (wordsBytes ws ++ more) = some (ws, more) := by
  induction ws with
  | nil => rfl
  | cons w ws ih =>
    rw [wordsBytes_cons, List.length_cons, List.cons_append, List.cons_append]
    unfold takeWords
    rw [ih, wordOf_bytes]

/-- The two bytes at a word's place are the word's. -/
theorem wordsBytes_getD (words : List Word) (i : Nat) (w : Word) (h : words[i]? = some w) :
    (wordsBytes words).getD (2 * i) 0 ++ (wordsBytes words).getD (2 * i + 1) 0 = w := by
  induction words generalizing i with
  | nil => simp at h
  | cons v words ih =>
    rw [wordsBytes_cons]
    cases i with
    | zero =>
      simp at h
      subst h
      exact Word.join_bytes v
    | succ i =>
      have := ih i (by simpa using h)
      rw [show 2 * (i + 1) = 2 * i + 1 + 1 by omega]
      simpa only [List.getD_cons_succ] using this

/-! ### The words of a row (R36, R37) -/

/-- A row without disturbances is read as it was written, and nothing changes. -/
theorem State.readWords_clean (slot row n p : Nat) (s : State)
    (h : ∀ q, p ≤ q → q < p + n → (s.dst.cell row q).flips = 0) :
    State.readWords slot row n p s = (s, (List.range n).map (fun i => (s.dst.cell row (p + i)).word), none) := by
  induction n generalizing p with
  | zero => rfl
  | succ n ih =>
    unfold State.readWords
    rw [Cell.decode_clean (h p (le_refl _) (by omega))]
    simp only
    rw [ih (p + 1) (fun q h1 h2 => h q (by omega) (by omega))]
    simp only [List.range_succ_eq_map, List.map_cons, List.map_map, Nat.add_zero]
    congr 3
    apply List.map_congr_left
    intro i _
    simp only [Function.comp]
    congr 2
    omega

/-- A slot without disturbances is read as it was written, and nothing changes. -/
theorem State.readSlot_clean {slot row : Nat} {s : State} (hr : s.dst.rowInUse slot = some row)
    (h : ∀ p, p < (s.entry slot).length → (s.dst.cell row p).flips = 0) :
    s.readSlot slot = (s, some ((List.range (s.entry slot).length).map fun p => (s.dst.cell row p).word)) := by
  unfold State.readSlot
  rw [hr]
  simp only
  rw [State.readWords_clean _ _ _ _ _ (fun q _ h2 => h q (by omega))]
  simp only [Nat.zero_add]

/-! ### The command in hand (R194) -/

/-- A command in hand with its grant is carried out. -/
theorem State.grantInHand_ready {s : State} {h : InHand} (hr : s.handReady h) :
    s.grantInHand = match h with
      | .read slot draftView => s.grantedRead slot draftView
      | .stage slot words => s.grantedStage slot words
      | .claim slot => s.grantedClaim slot
      | .yield slot => s.grantedYield slot := by
  have hg : s.granted .lpt = true := by
    unfold State.granted
    rw [hr.2.2.1]
    rfl
  have ha := hr.2.2.2
  unfold State.grantInHand
  rw [hr.2.1]
  cases h <;> simp [hg, ha]

/-- A READ that no draft answers reads the committed words. -/
theorem State.grantedRead_committed {s : State} {slot : Nat} {draftView : Bool}
    (hp : (s.entry slot).parityGood = true) (hd : draftView = false ∨ s.opu.draft slot = none) :
    s.grantedRead slot draftView = s.readCommitted slot (s.entry slot) := by
  unfold State.grantedRead
  rw [State.examine_good hp]
  cases draftView with
  | false => split <;> first | rfl | contradiction
  | true =>
    rcases hd with hd | hd
    · cases hd
    · rw [hd]

theorem State.publishing_iff (s : State) : s.publishing = decide (s.opu.op.map (·.kind) = some .publish) := by
  unfold State.publishing
  cases s.opu.op with
  | none => rfl
  | some o =>
    obtain ⟨k, b⟩ := o
    cases k <;> simp

/-! ### The next notice (R181) -/

/-- A notice than which none is more severe has the highest severity. -/
theorem Ntq.highest_of {q : Ntq} {n : Notice} (hn : n ∈ q.notices)
    (h : ∀ m ∈ q.notices, (m.severity = .critical → n.severity = .critical) ∧
      (m.severity = .high → n.severity ≠ .low)) : q.highest = some n.severity := by
  have key : ∀ v, q.notices.any (Notice.hasSeverity v) = true ↔ ∃ m ∈ q.notices, m.severity = v := by
    intro v
    simp [Notice.hasSeverity]
  unfold Ntq.highest
  split
  · rename_i h1
    obtain ⟨m, hm, hv⟩ := (key _).1 h1
    rw [(h m hm).1 hv]
  · rename_i h1
    split
    · rename_i h2
      obtain ⟨m, hm, hv⟩ := (key _).1 h2
      have := (h m hm).2 hv
      cases hs : n.severity
      · exact absurd ((key _).2 ⟨n, hn, hs⟩) h1
      · rfl
      · exact absurd hs this
    · rename_i h2
      have : n.severity = .low := by
        cases hs : n.severity
        · exact absurd ((key _).2 ⟨n, hn, hs⟩) h1
        · exact absurd ((key _).2 ⟨n, hn, hs⟩) h2
        · rfl
      rw [if_pos ((key _).2 ⟨n, hn, this⟩), this]

end Sys2Proof.Machine
end

