-- ==== Sys2Proof/Laws/Bus.lean ====
section
/-!
SUPPORT. What the shared operations of the bus rows can do: the idle time before a free bus, the offer of one entry,
the end of an access, and the end of a frame.
-/

set_option Elab.async false

namespace Sys2Proof.Machine

/-- When the bus is free, time has passed and the last-sender flag is clear (R4). -/
theorem State.idleFor_free (s : State) (h : s.running) :
    ∃ nct pbi scb, (s.idleFor s.pbi.freeCount).setShift .idle = { s with nct := nct, pbi := pbi, scb := scb } ∧
      nct = { s.nct with now := nct.now, subBits := nct.subBits, pfailWait := nct.pfailWait } ∧
      pbi.shift = .idle ∧ pbi.lastSender = false := by
  have key : ∀ s : State, s.nct.nrstLow = false → s.nct.node ≠ .halted → s.pbi.lines = .high →
     (s.elapse (s.pbi.freeCount - s.pbi.busFreeTimer)).pbi.lastSender = false := by
    intro s h hn hl
    unfold State.elapse Pbi.elapse Pbi.freeCount
    simp only [h, Bool.false_eq_true, if_false, hn, hl]
    cases hx : s.pbi.lastSender
    · simp
    · simp [Config.flaggedFreeBits]; omega
  obtain ⟨p, hp, hf⟩ : ∃ p : Pbi, p.lines = .high ∧
      s.idleFor s.pbi.freeCount = { s with pbi := p }.elapse (p.freeCount - p.busFreeTimer) := by
    by_cases hl : s.pbi.lines = .high
    · exact ⟨s.pbi, hl, by unfold State.idleFor; rw [if_pos hl]⟩
    · exact ⟨s.pbi.goHigh, rfl, by unfold State.idleFor; rw [if_neg hl]; rfl⟩
  rw [hf]
  have e := State.elapse_frame { s with pbi := p } (p.freeCount - p.busFreeTimer)
  have hn := State.elapse_nct { s with pbi := p } (p.freeCount - p.busFreeTimer)
  have hk := key { s with pbi := p } h.1 h.2 hp
  revert e hn hk
  generalize State.elapse { s with pbi := p } (p.freeCount - p.busFreeTimer) = y
  intro e hn hk
  refine ⟨y.nct, { y.pbi with shift := .idle }, y.scb, ?_, hn, rfl, ?_⟩
  · unfold State.setShift
    conv => lhs; rw [e]
  · exact hk

/-- The standing entry that is offered first, where its kind needs no access. -/
theorem State.offer_take {k : FrameKind} {ks : List FrameKind} {s : State} (hh : s.obs.holds k = true)
    (hm : s.maySend k = true) (hn : k.needsStore = false) {t : State} {p : Payload}
    (hl : s.cutBuild.nct.node ≠ .halted)
    (hb : s.cutBuild.buildKind k = (t, some p)) : State.offer (k :: ks) s = (t, some p) := by
  unfold State.offer State.offerOne
  simp [hh, hm, hn, hb, hl]

/-- A kind that does not stand, or that the node may not send, is passed over. -/
theorem State.offer_skip {k : FrameKind} {ks : List FrameKind} {s : State}
    (hh : (s.obs.holds k && s.maySend k) = false) :
    State.offer (k :: ks) s = State.offer ks s := by
  conv => lhs; unfold State.offer
  simp [hh]

/-- What the passing of idle time leaves of the bus interface. -/
theorem State.elapse_shift (s : State) (bits : Nat) : (s.elapse bits).pbi.shift = s.pbi.shift := by
  unfold State.elapse
  split
  · rfl
  · simp only
    split
    · rfl
    · unfold Pbi.elapse
      split <;> rfl

/-- Idle time changes counters, lines and local time only; at a running node the lines are high at its end, and the
idle count is there. -/
theorem State.idleFor_frame (s : State) (bits : Nat) :
    ∃ nct pbi scb, s.idleFor bits = { s with nct := nct, pbi := pbi, scb := scb } ∧
      nct = { s.nct with now := nct.now, subBits := nct.subBits, pfailWait := nct.pfailWait } ∧
      pbi.shift = s.pbi.shift ∧ scb = { s.scb with timer := scb.timer } ∧
      (s.running → pbi.lines = .high ∧ bits ≤ pbi.busFreeTimer) := by
  have walk : ∀ (s : State) (n : Nat), (s.elapse n).scb = { s.scb with timer := (s.elapse n).scb.timer } := by
    intro s n
    unfold State.elapse
    split <;> rfl
  have key : ∀ s : State, s.running → s.pbi.lines = .high → ∀ n,
      (s.elapse n).pbi.lines = .high ∧ (s.elapse n).pbi.busFreeTimer = s.pbi.busFreeTimer + n := by
    intro s hr hl n
    unfold State.elapse Pbi.elapse
    simp only [hr.1, Bool.false_eq_true, if_false, hr.2, hl, and_self]
  unfold State.idleFor
  split
  · rename_i hl
    refine ⟨_, _, _, State.elapse_frame _ _, State.elapse_nct _ _, State.elapse_shift _ _, walk _ _, fun hr => ?_⟩
    obtain ⟨h1, h2⟩ := key s hr hl (bits - s.pbi.busFreeTimer)
    exact ⟨h1, by omega⟩
  · refine ⟨_, _, _, State.elapse_frame _ _, State.elapse_nct _ _, State.elapse_shift _ _, walk _ _, fun hr => ?_⟩
    obtain ⟨h1, h2⟩ := key { s with pbi := s.pbi.goHigh } hr rfl (bits - s.pbi.goHigh.busFreeTimer)
    exact ⟨h1, h2 ▸ (by show bits ≤ s.pbi.goHigh.busFreeTimer + _; omega)⟩

/-! ### The check pause and the veto slot (R8, R12) -/

/-- A node that takes frames classifies the body it has received. -/
theorem State.receiverPause_taking {s : State} (ht : s.nct.node.taking = true) (hl : s.nct.pfailLatch = false)
    (body : List Byte) (extraBits : Nat) :
    s.receiverPause body extraBits =
      match classify body extraBits with
      | .noHeader => { s with pbi := { s.pbi.goPause with shift := .paused } }.badBody .frameFormat none
      | .formatError n => { s with pbi := { s.pbi.goPause with shift := .paused } }.badBody .frameFormat (some n)
      | .crcError n => { s with pbi := { s.pbi.goPause with shift := .paused } }.badBody .frameCrc (some n)
      | .intact f => { s with pbi := { s.pbi.goPause with shift := .paused } }.intactFrame f := by
  have h : (s.nct.node.taking && !s.nct.pfailLatch) = true := by rw [ht, hl]; rfl
  unfold State.receiverPause
  cases classify body extraBits <;> exact if_pos h

/-- A receiver that passed a frame applies it where nobody pulled the veto slot, and its access ends, whether a give-up
is due or not. -/
theorem State.vetoSlot_passedDue {s : State} {f : Frame} (h : s.withoutDue.passedFrame f) (heard veto : Bool) :
    s.vetoSlot heard veto =
      (if veto then ({ s.slotsPast none with fck := { s.fck with inbound := none } } : State)
       else State.applyReceived { s.slotsPast none with fck := { s.fck with inbound := none } } f).andThen
        State.endAccess := by
  have h : s.nct.nrstLow = false ∧ s.nct.node.participating = true ∧ s.nct.pfailLatch = false ∧
    s.pbi.shift = .paused ∧ s.pbi.holdPck = false ∧ s.pbi.pullVeto = false ∧
    s.fck.inbound = some { frame := f, verdict := some .pass } ∧ s.withoutDue.fckHolds .check := h
  obtain ⟨_, h2, h3, h4, h5, h6, h7, _⟩ := h
  have hj : (s.slotsPast none).nct.node.joining = false := by
    show s.nct.node.joining = false
    cases hx : s.nct.node <;> rw [hx] at h2 <;> first | rfl | cases h2
  have ha : State.active { s.slotsPast none with fck := { s.fck with inbound := none } } = true := by
    show (s.nct.node.participating && !s.nct.pfailLatch) = true
    simp [h2, h3]
  unfold State.vetoSlot
  rw [h4]
  simp only
  unfold State.receiverSlots
  rw [h5]
  simp only [Bool.false_eq_true, if_false, h7, hj, h6, Bool.or_false, decide_true, Bool.true_and]
  rw [if_pos ha]
  cases veto <;> rfl

/-- The case without a give-up due. -/
theorem State.vetoSlot_passed {s : State} {f : Frame} (h : s.passedFrame f) (heard veto : Bool) :
    s.vetoSlot heard veto =
      (if veto then ({ s.slotsPast none with fck := { s.fck with inbound := none } } : State)
       else State.applyReceived { s.slotsPast none with fck := { s.fck with inbound := none } } f).andThen
        State.endAccess :=
  State.vetoSlot_passedDue
    ⟨h.1, h.2.1, h.2.2.1, h.2.2.2.1, h.2.2.2.2.1, h.2.2.2.2.2.1, h.2.2.2.2.2.2.1, h.2.2.2.2.2.2.2.1,
      h.2.2.2.2.2.2.2.2.1, rfl⟩ heard veto

/-- A receiver that vetoed the frame itself applies nothing of it, pulled by others or not (R12). -/
theorem State.vetoSlot_vetoed {s : State} {f : Frame} (ha : s.active = true) (hs : s.pbi.shift = .paused)
    (hp : s.pbi.holdPck = false) (hi : s.fck.inbound = some { frame := f, verdict := some .veto })
    (heard veto : Bool) :
    s.vetoSlot heard veto =
      State.andThen { s.slotsPast none with fck := { s.fck with inbound := none } } State.endAccess := by
  have hj : s.nct.node.joining = false := by
    unfold State.active at ha
    cases hx : s.nct.node <;> rw [hx] at ha <;> first | rfl | cases ha
  unfold State.vetoSlot
  rw [hs]
  simp only
  unfold State.receiverSlots
  rw [hp, hi]
  simp only [Bool.false_eq_true, if_false]
  rw [show (s.slotsPast none).nct.node.joining = false from hj]
  simp only [Bool.false_eq_true, if_false]
  exact if_pos ha

/-- A receiver that holds no inbound frame only stands past the slots. -/
theorem State.vetoSlot_empty {s : State} (hs : s.pbi.shift = .paused) (hp : s.pbi.holdPck = false)
    (hi : s.fck.inbound = none) (heard veto : Bool) :
    s.vetoSlot heard veto = { s.slotsPast none with fck := { s.fck with inbound := none } } := by
  unfold State.vetoSlot
  rw [hs]
  simp only
  unfold State.receiverSlots
  rw [hp, hi]
  rfl

/-! ### The end of an access (R34) -/

/-- An access with no give-up due ends with the hand-over of the store. -/
theorem State.endAccess_held {s : State} {p : Purpose} (h : s.fckHolds p) (hn : s.nct.node ≠ .halted) :
    s.endAccess = { s with fck := { s.fck with purpose := none }, sar := s.sar.handOver } := by
  unfold State.endAccess State.makeGiveUp
  simp only [h.1, h.2.2, Option.isSome_some, if_true]
  rw [State.andThen_running hn]
  unfold State.letGoStore
  rw [Sar.letGo_held h.2.1]

/-- With no give-up due an access opens without one. -/
theorem State.openAccess_free {s : State} (h : s.rpe.due = none) : s.openAccess = s := by
  unfold State.openAccess
  simp only [h]

/-- The frame checker's request where it has none yet. -/
theorem State.askFck_free {s : State} (h : s.fck.purpose = none) (p : Purpose) :
    s.askFck p = { s with fck := { s.fck with purpose := some p }, sar := s.sar.request .fck } := by
  unfold State.askFck
  simp only [h]
  rfl

/-- Without a request there is nothing to cut. -/
theorem State.cutAccess_free {s : State} (h : s.fck.purpose = none) : s.cutAccess = s := by
  unfold State.cutAccess
  simp only [h]

/-- A check or an own frame's access that ends early, with no give-up due, is given up or withdrawn (R9, R34). -/
theorem State.cutAccess_ends {s : State} {p : Purpose} (hp : s.fck.purpose = some p) (hg : p ≠ .giveUp)
    (hd : s.rpe.due = none) (hn : s.nct.node ≠ .halted) :
    s.cutAccess = { s with fck := { s.fck with purpose := none }, sar := s.sar.letGo .fck } := by
  have e : s.cutAccess = if s.granted .fck then s.endAccess else
      match s.rpe.due with
      | some d => ({ s with fck := { s.fck with purpose := none } }.letGoStore .fck).giveUpDue d.slots
      | none => { s with fck := { s.fck with purpose := none } }.letGoStore .fck := by
    unfold State.cutAccess
    rw [hp]
    cases p <;> first | rfl | exact absurd rfl hg
  rw [e]
  by_cases h : s.sar.grant = some .fck
  · rw [if_pos (by simp [State.granted, h]), State.endAccess_held ⟨hp, h, hd⟩ hn, Sar.letGo_held h]
  · rw [if_neg (by simp [State.granted, h]), hd]
    rfl

/-- A check that ends early before its grant has its give-up asked for anew (R34, R122). -/
theorem State.cutAccess_awaited {s : State} {p : Purpose} {d : DueGiveUp} (hp : s.fck.purpose = some p)
    (hg : p ≠ .giveUp) (hd : s.rpe.due = some d) (h : s.sar.grant ≠ some .fck) :
    s.cutAccess = { s with
      fck := { s.fck with purpose := some .giveUp }, sar := (s.sar.letGo .fck).request .fck,
      rpe := { s.rpe with due := some { slots := d.slots, takenOver := false } } } := by
  have e : s.cutAccess = if s.granted .fck then s.endAccess else
      match s.rpe.due with
      | some d => ({ s with fck := { s.fck with purpose := none } }.letGoStore .fck).giveUpDue d.slots
      | none => { s with fck := { s.fck with purpose := none } }.letGoStore .fck := by
    unfold State.cutAccess
    rw [hp]
    cases p <;> first | rfl | exact absurd rfl hg
  rw [e, if_neg (by simp [State.granted, h]), hd]
  rfl

/-! ### Losses and truncations at the sender (R101, R137, R140) -/

/-- A frame cut short leaves its entry, and its operation's record is back to QUEUED. -/
theorem State.ownCut_stays {s : State} {k : FrameKind} (h : ¬(s.nct.node = .leaving ∧ k.isOperation = true)) :
    s.ownCut k = { s with
      opu := if s.obs.holds k && k.isOperation then
        { s.opu with op := s.opu.op.map fun o => { o with onBus := false } } else s.opu } := by
  have hg : (decide (k ≠ .beat) && s.goesAtOnce k) = false := by
    unfold State.goesAtOnce
    cases k <;> simp [FrameKind.isOperation] at h ⊢ <;> exact h
  unfold State.ownCut
  rw [hg]
  by_cases hh : s.obs.holds k = true
  · rw [if_pos hh, if_neg (by simp)]
    unfold State.backToQueue
    by_cases hk : k.isOperation = true
    · rw [if_pos hk, hh, hk]
      rfl
    · rw [if_neg hk]
      simp only [hh, hk]
      rfl
  · rw [if_neg hh]
    simp only [hh]
    rfl

/-- In LEAVING a frame cut short ends its operation. -/
theorem State.ownCut_gone {s : State} {k : FrameKind} {o : PendingOp} (hn : s.nct.node = .leaving)
    (hk : k.isOperation = true) (hh : s.obs.holds k = true) (ho : s.opu.op = some o) :
    s.ownCut k = { s with
      obs := (s.removeEntry k).obs,
      opu := { s.opu with op := none },
      ntq := s.ntq.arrive (.opDone o.kind.done .aborted o.kind.slot?) } := by
  have hg : (decide (k ≠ .beat) && s.goesAtOnce k) = true := by
    unfold State.goesAtOnce
    rw [hn, hk]
    cases k <;> simp [FrameKind.isOperation] at hk ⊢
  unfold State.ownCut
  rw [hg, if_pos hh, if_pos rfl]
  unfold State.goneAtOnce
  simp only
  rw [if_pos hk, State.endOp_eq]
  have hop : (s.removeEntry k).opu.op = some o := ho
  rw [hop]
  rfl

/-! ### The end of a frame (R3, R13, R14) -/

/-- A truncated frame is logged and discarded; its access is cut, and the sender deals with its entry. -/
theorem State.truncate_eq (s : State) (header : Option Byte) : s.truncate header =
    (State.cutAccess { s with
      elg := if s.nct.node.taking then s.elg.take {
          kind := .frameTruncated, time := s.nct.now,
          fields := {
            slot := none, station := header.map fun h => (headerStation h).toNat, word := none, bit := none } }
        else s.elg,
      pbi := { s.pbi.releaseReceiver with shift := .idle },
      fck := { s.fck with inbound := none } }).andThen fun u => u.ownTruncated s.pbi.shift.ownFrame := by
  have h : headerFields header = {
      slot := none, station := header.map fun h => (headerStation h).toNat, word := none, bit := none } := by
    cases header <;> rfl
  unfold State.truncate
  rw [h]
  simp only
  congr 2
  split <;> rfl

/-- The three causes come to one truncation, which a start condition follows with the next frame. -/
theorem State.frameEnds_eq {s : State} (hr : s.running) (hs : s.pbi.shift.inFrame = true) (cause : TruncationCause)
    (header : Option Byte) :
    ∃ nct pbi scb, nct = { s.nct with now := nct.now, subBits := nct.subBits, pfailWait := nct.pfailWait } ∧
      scb = { s.scb with timer := scb.timer } ∧ pbi.shift = s.pbi.shift ∧ (cause ≠ .start → pbi.lines = .high) ∧
      (cause = .stop → pbi.busFreeTimer = 0) ∧ (cause = .idle → 12 ≤ pbi.busFreeTimer) ∧
      s.frameEnds cause header =
        let t := State.truncate { s with nct := nct, pbi := pbi, scb := scb } header
        if cause = .start then t.andThen fun u =>
          (State.cutBuild { u with obs := { u.obs with build := none } }).andThen fun v =>
            { v with pbi := { v.pbi.goActive with shift := .receiving } }
        else t := by
  cases cause with
  | idle =>
    obtain ⟨nct, pbi, scb, e, h1, h2, h3, h4⟩ := State.idleFor_frame s Config.freeBits
    refine ⟨nct, pbi, scb, h1, h3, h2, fun _ => (h4 hr).1, fun h => ?_, fun _ => (h4 hr).2, ?_⟩
    · cases h
    · unfold State.frameEnds State.idleEnd
      simp only [hs, if_true, e]
      rfl
  | stop =>
    refine ⟨s.nct, s.pbi.goHigh, s.scb, rfl, rfl, rfl, fun _ => rfl, fun _ => rfl, fun h => ?_, ?_⟩
    · cases h
    · unfold State.frameEnds State.stop
      simp only
      cases hx : s.pbi.shift <;> rw [hx] at hs <;> first | rfl | cases hs
  | start =>
    refine ⟨s.nct, s.pbi, s.scb, rfl, rfl, rfl, fun h => absurd rfl h, fun h => ?_, fun h => ?_, ?_⟩
    · cases h
    · cases h
    · unfold State.frameEnds State.start
      simp only [hs, if_true]

/-- A start condition after a truncation discards a build in hand, and the node receives. -/
theorem State.startAfter_eq {t : State} (hn : t.nct.node ≠ .halted) (hf : t.fck.purpose ≠ some .build) :
    (t.andThen fun u => (State.cutBuild { u with obs := { u.obs with build := none } }).andThen fun v =>
      { v with pbi := { v.pbi.goActive with shift := .receiving } }) =
    { t with obs := { t.obs with build := none }, pbi := { t.pbi.goActive with shift := .receiving } } := by
  rw [State.andThen_running hn]
  unfold State.cutBuild
  rw [if_neg (by exact hf), State.andThen_running (by exact hn)]

end Sys2Proof.Machine
end

