-- ==== Sys2Proof/Laws/Repair.lean ====
section
/-!
SUPPORT. What the repair engine's steps and a give-up leave: with a valid configuration they reach the node state, the
cycle, the outbound queue and the notices, and the give-up's slots in the directory.
-/

set_option Elab.async false

namespace Sys2Proof.Machine

/-- A settling ends the catch-up of this node (R100, R113, R131). -/
def State.settlesMember (s : State) : Prop :=
  s.active = true ∧ s.rpe.due = none ∧ s.nct.node = .catchup ∧ s.rpe.wanted = []

/-- With a valid configuration the steps of R113 change the cycle and the ASK entry, and a CATCHUP node that wants
nothing more becomes a MEMBER with its notice. -/
theorem State.settle_spec {s : State} {c : NodeConfig} (hc : s.hasConfig c) :
    ∃ cycle obs, (s.settlesMember → s.settle = { s with
        nct := { s.nct with node := .member }, rpe := { s.rpe with cycle := cycle }, obs := obs,
        ntq := s.ntq.arrive (.catchupDone s.rpe.unresolved) }) ∧
      (¬s.settlesMember → s.settle = { s with rpe := { s.rpe with cycle := cycle }, obs := obs }) := by
  have h1 : ∃ cycle obs, s.endFilledCycle = { s with rpe := { s.rpe with cycle := cycle }, obs := obs } := by
    unfold State.endFilledCycle
    split
    · exact ⟨_, _, rfl⟩
    · split
      · exact ⟨_, _, rfl⟩
      · exact ⟨_, _, rfl⟩
  have h3 : ∀ u : State, u.hasConfig c →
      ∃ cycle obs, u.startCycle = { u with rpe := { u.rpe with cycle := cycle }, obs := obs } := by
    intro u hu
    unfold State.startCycle
    split
    · split
      · exact ⟨_, _, rfl⟩
      · rw [State.useConfig_good hu, State.place_frame]
        exact ⟨_, _, rfl⟩
    · exact ⟨_, _, rfl⟩
  unfold State.settle
  by_cases hg : (s.active && s.rpe.due.isNone) = true
  · rw [if_pos hg]
    obtain ⟨cycle1, obs1, e1⟩ := h1
    rw [e1]
    have ha : s.active = true := by simp at hg; exact hg.1
    have hd : s.rpe.due = none := by simp at hg; exact hg.2
    unfold State.finishCatchup
    by_cases hp : s.nct.node = .catchup ∧ s.rpe.wanted = []
    · rw [if_pos (by simp [hp.1, hp.2])]
      obtain ⟨cycle, obs, e⟩ := h3 (State.notify { s with
        nct := { s.nct with node := .member }, rpe := { s.rpe with cycle := cycle1 }, obs := obs1 }
        (.catchupDone s.rpe.unresolved)) hc
      exact ⟨cycle, obs, fun _ => e, fun h => absurd ⟨ha, hd, hp.1, hp.2⟩ h⟩
    · rw [if_neg (by simpa using hp)]
      obtain ⟨cycle, obs, e⟩ := h3 { s with rpe := { s.rpe with cycle := cycle1 }, obs := obs1 } hc
      exact ⟨cycle, obs, fun h => absurd ⟨h.2.2.1, h.2.2.2⟩ hp, fun _ => e⟩
  · rw [if_neg hg]
    refine ⟨s.rpe.cycle, s.obs, fun h => absurd ?_ hg, fun _ => rfl⟩
    rw [h.1, h.2.1]
    rfl

/-- A settling reaches the node state, the cycle, the outbound queue and at most the one notice, and halts no node. -/
theorem State.settle_frame {s : State} {c : NodeConfig} (hc : s.hasConfig c) (hn : s.nct.node ≠ .halted) :
    ∃ node cycle obs rest, node ≠ .halted ∧ (rest = [] ∨ ∃ k, rest = [.catchupDone k]) ∧
      s.settle = { s with
        nct := { s.nct with node := node }, rpe := { s.rpe with cycle := cycle }, obs := obs,
        ntq := s.ntq.arriveAll rest } := by
  obtain ⟨cycle, obs, k1, k2⟩ := State.settle_spec hc
  by_cases h : s.settlesMember
  · exact ⟨.member, cycle, obs, [.catchupDone s.rpe.unresolved], by decide, Or.inr ⟨_, rfl⟩, k1 h⟩
  · exact ⟨s.nct.node, cycle, obs, [], hn, Or.inl rfl, k2 h⟩

/-- The slots of a give-up, with valid parity, become unresolved and leave the wanted set, and nothing else changes
but their count (R121). -/
theorem State.giveUpSlots_spec (slots : List Nat) (s : State) (hd : sparseWf DirEntry.blank s.dir) (hg : s.entriesGood)
    (hn : s.nct.node ≠ .halted) :
    (∃ count, slots.foldl State.giveUpSlot s = { s with
        dir := (slots.foldl State.giveUpSlot s).dir,
        rpe := { s.rpe with wanted := s.rpe.wanted.filter (fun n => !slots.contains n), unresolved := count } }) ∧
      ∀ n, (slots.foldl State.giveUpSlot s).entry n =
        if n ∈ slots then { s.entry n with wanted := false, unresolved := true } else s.entry n := by
  induction slots generalizing s with
  | nil => exact ⟨⟨s.rpe.unresolved, by simp⟩, fun n => by simp⟩
  | cons m slots ih =>
    rw [List.foldl_cons]
    have e : s.giveUpSlot m = s.putFlags m { s.entry m with wanted := false, unresolved := true } := by
      unfold State.giveUpSlot
      rw [State.andThen_running hn, State.examine_good (hg m)]
    have he : ∀ n, (s.giveUpSlot m).entry n =
        if n = m then { s.entry m with wanted := false, unresolved := true } else s.entry n := by
      intro n
      rw [e, State.entry_putFlags hd]
      split
      · simp only [hg m]
      · rfl
    have k := ih (s.giveUpSlot m) (by rw [e]; exact State.putEntry_wf hd _ _)
      (fun n => by rw [he]; split <;> exact hg _) (by rw [e]; exact hn)
    refine ⟨?_, fun n => ?_⟩
    · obtain ⟨count, k1⟩ := k.1
      refine ⟨count, ?_⟩
      rw [e] at k1 ⊢
      refine k1.trans ?_
      have hw : (s.rpe.wanted.filter fun n => !(n == m)).filter (fun n => !slots.contains n) =
          s.rpe.wanted.filter fun n => !(m :: slots).contains n := by
        rw [List.filter_filter]
        congr 1
        funext n
        by_cases h : n = m <;> simp [h]
      show ({ s with dir := _, rpe := { s.rpe with wanted := _, unresolved := _ } } : State) = _
      rw [← hw]
      rfl
    · rw [k.2 n, he]
      by_cases h1 : n = m
      · subst h1
        by_cases h2 : n ∈ slots <;> simp [h2]
      · by_cases h2 : n ∈ slots <;> simp [h1, h2]

/-- The unresolved count grows by the slots given up, where none was unresolved before (R114). -/
theorem State.giveUpSlots_count (slots : List Nat) (s : State) (hd : sparseWf DirEntry.blank s.dir) (hg : s.entriesGood)
    (hn : s.nct.node ≠ .halted) (hu : slots.Nodup) (hf : ∀ n ∈ slots, (s.entry n).unresolved = false) :
    (slots.foldl State.giveUpSlot s).rpe.unresolved = s.rpe.unresolved + slots.length := by
  induction slots generalizing s with
  | nil => rfl
  | cons m slots ih =>
    rw [List.foldl_cons]
    have e : s.giveUpSlot m = s.putFlags m { s.entry m with wanted := false, unresolved := true } := by
      unfold State.giveUpSlot
      rw [State.andThen_running hn, State.examine_good (hg m)]
    have he : ∀ n, n ≠ m → (s.giveUpSlot m).entry n = s.entry n := fun n h => by
      rw [e, State.entry_putFlags hd, if_neg h]
    have hm := List.nodup_cons.1 hu
    rw [ih (s.giveUpSlot m) (by rw [e]; exact State.putEntry_wf hd _ _) (fun n => ?_) (by rw [e]; exact hn) hm.2
      fun n h => ?_]
    · have hc : (s.giveUpSlot m).rpe.unresolved = s.rpe.unresolved - (s.entry m).unresolved.toNat + 1 := by
        rw [e]
        rfl
      rw [hc, hf m (List.mem_cons_self ..), List.length_cons]
      show s.rpe.unresolved + 1 + slots.length = _
      omega
    · by_cases h : n = m
      · rw [e, State.entry_putFlags hd, if_pos h]
      · rw [he n h]
        exact hg n
    · rw [he n fun h' => hm.1 (h' ▸ h)]
      exact hf n (List.mem_cons_of_mem _ h)

/-! ### The steps of R113 in full -/

theorem State.cycleEnds_congr {s t : State} (hn : s.nct = t.nct) (hy : s.rpe.cycle = t.rpe.cycle)
    (wanted : List Nat) : s.cycleEnds wanted = t.cycleEnds wanted := by
  unfold State.cycleEnds State.active
  rw [hn, hy]

theorem State.cycleBegins_congr {s t : State} (hn : s.nct = t.nct) (hy : s.rpe.cycle = t.rpe.cycle)
    (wanted : List Nat) : s.cycleBegins wanted = t.cycleBegins wanted := by
  unfold State.cycleBegins
  rw [State.cycleEnds_congr hn hy]
  unfold State.active
  rw [hn, hy]

/-- The cycle that follows depends on the node controller and the cycle record alone. -/
theorem State.cycleAfter_congr {s t : State} (hn : s.nct = t.nct) (hy : s.rpe.cycle = t.rpe.cycle) (c : NodeConfig)
    (wanted : List Nat) : s.cycleAfter c wanted = t.cycleAfter c wanted := by
  unfold State.cycleAfter
  rw [State.cycleBegins_congr hn hy, State.cycleEnds_congr hn hy, hy]

/-- The queue that follows depends on the node controller and the cycle record alone. -/
theorem State.queueAfter_congr {s t : State} (hn : s.nct = t.nct) (hy : s.rpe.cycle = t.rpe.cycle)
    (wanted : List Nat) (queue : List OutEntry) : s.queueAfter wanted queue = t.queueAfter wanted queue := by
  unfold State.queueAfter
  rw [State.cycleBegins_congr hn hy, State.cycleEnds_congr hn hy, hn]

/-- An entry of another kind than ASK stays in the queue. -/
theorem State.mem_queueAfter (s : State) (wanted : List Nat) {queue : List OutEntry} {e : OutEntry} (he : e ∈ queue)
    (hk : e.kind ≠ .ask) : e ∈ s.queueAfter wanted queue := by
  have hl : e ∈ (if s.cycleEnds wanted then queue.filter fun e => !decide (e.kind = .ask) else queue) := by
    split
    · exact List.mem_filter.2 ⟨he, by simp [hk]⟩
    · exact he
  unfold State.queueAfter
  revert hl
  generalize (if s.cycleEnds wanted then queue.filter fun e => !decide (e.kind = .ask) else queue) = left
  intro hl
  simp only
  split
  · exact List.mem_append_left _ hl
  · exact hl

/-- Entries of another kind than ASK may be removed before the steps of R113 or after them. -/
theorem State.queueAfter_filter (s : State) (wanted : List Nat) (queue : List OutEntry) {k : FrameKind}
    (hk : k ≠ .ask) :
    (s.queueAfter wanted queue).filter (fun e => !decide (e.kind = k)) =
      s.queueAfter wanted (queue.filter fun e => !decide (e.kind = k)) := by
  have key : ∀ left : List OutEntry,
      (if (s.cycleBegins wanted).isSome ∧ ∀ e ∈ left, e.kind ≠ .ask then
        left ++ [{ kind := .ask, ref := .askTry 1, attempts := 0, queued := s.nct.now }] else left).filter
          (fun e => !decide (e.kind = k)) =
        let rest := left.filter fun e => !decide (e.kind = k)
        if (s.cycleBegins wanted).isSome ∧ ∀ e ∈ rest, e.kind ≠ .ask then
          rest ++ [{ kind := .ask, ref := .askTry 1, attempts := 0, queued := s.nct.now }] else rest := by
    intro left
    have hiff : (∀ e ∈ left.filter (fun e => !decide (e.kind = k)), e.kind ≠ .ask) ↔ ∀ e ∈ left, e.kind ≠ .ask := by
      refine ⟨fun h e he hask => ?_, fun h e he => h e (List.mem_filter.1 he).1⟩
      refine h e (List.mem_filter.2 ⟨he, ?_⟩) hask
      rw [hask]
      simpa using hk.symm
    simp only [hiff]
    split
    · rw [List.filter_append]
      have hne : (FrameKind.ask = k) = False := by simpa using hk.symm
      simp [hne]
    · rfl
  unfold State.queueAfter
  by_cases h : s.cycleEnds wanted = true
  · simp only [h, if_true]
    rw [key, List.filter_filter, List.filter_filter]
    simp only [Bool.and_comm]
  · simp only [h]
    exact key queue

/-- The steps of R113 with a valid configuration, where no give-up is due: the end of a filled cycle, the end of the
catch-up, and the next cycle (R100, R115, R120, R131). -/
theorem State.settle_eq {s : State} {c : NodeConfig} (hc : s.hasConfig c) (hd : s.rpe.due = none) :
    ∃ build, (s.obs.build = none → build = none) ∧ s.settle = { s with
      nct := { s.nct with node :=
        if s.active = true ∧ s.nct.node = .catchup ∧ s.rpe.wanted = [] then .member else s.nct.node },
      rpe := { s.rpe with cycle := s.cycleAfter c s.rpe.wanted },
      obs := { queue := s.queueAfter s.rpe.wanted s.obs.queue, build := build },
      ntq := if s.active = true ∧ s.nct.node = .catchup ∧ s.rpe.wanted = [] then
        s.ntq.arrive (.catchupDone s.rpe.unresolved) else s.ntq } := by
  have hwin : ∀ y, s.rpe.cycle = some y → ((s.wantedWithin y.first y.last = []) ↔
      (s.rpe.wanted.all fun n => decide (n < y.first) || decide (y.last < n)) = true) := by
    intro y _
    unfold State.wantedWithin
    rw [List.filter_eq_nil_iff, List.all_eq_true]
    refine forall_congr' fun n => forall_congr' fun _ => ?_
    simp only [Bool.and_eq_true, decide_eq_true_eq, Bool.or_eq_true, not_and, not_le]
    omega
  unfold State.settle
  by_cases ha : s.active = true
  · rw [if_pos (by rw [ha, hd]; rfl)]
    have hp : s.nct.node.participating = true := by
      unfold State.active at ha
      simp at ha
      exact ha.1
    have hiff : (s.nct.node = .catchup ∨ s.nct.node = .member) ↔ s.nct.node ≠ .leaving := by
      cases hn : s.nct.node <;> rw [hn] at hp <;> simp [NodeState.participating] at hp ⊢
    obtain ⟨build, hb, e1⟩ : ∃ build, (s.obs.build = none → build = none) ∧ s.endFilledCycle = { s with
        rpe := { s.rpe with cycle := if s.cycleEnds s.rpe.wanted then none else s.rpe.cycle },
        obs := {
          queue := if s.cycleEnds s.rpe.wanted then s.obs.queue.filter fun e => !decide (e.kind = .ask)
            else s.obs.queue,
          build := build } } := by
      unfold State.endFilledCycle State.cycleEnds
      cases hy : s.rpe.cycle with
      | none =>
        refine ⟨s.obs.build, id, ?_⟩
        simp
        rw [← hy]
      | some y =>
        simp only [ha, Bool.true_and, Option.any_some]
        by_cases hw : s.wantedWithin y.first y.last = []
        · rw [if_pos hw]
          simp only [(hwin y hy).1 hw, if_true]
          exact ⟨_, fun h => by rw [h], rfl⟩
        · rw [if_neg hw]
          simp only [mt (hwin y hy).2 hw]
          exact ⟨s.obs.build, id, by rw [← hy]; rfl⟩
    refine ⟨build, hb, ?_⟩
    rw [e1]
    obtain ⟨q, hq⟩ : ∃ q, q = if s.cycleEnds s.rpe.wanted then s.obs.queue.filter fun e => !decide (e.kind = .ask)
        else s.obs.queue := ⟨_, rfl⟩
    obtain ⟨y, hy⟩ : ∃ y, y = if s.cycleEnds s.rpe.wanted then none else s.rpe.cycle := ⟨_, rfl⟩
    rw [← hq, ← hy]
    have hnone : y = none ↔ s.rpe.cycle = none ∨ s.cycleEnds s.rpe.wanted = true := by
      rw [hy]
      by_cases h : s.cycleEnds s.rpe.wanted = true <;> simp [h]
    by_cases hs : s.nct.node = .catchup ∧ s.rpe.wanted = []
    · have hbeg : s.cycleBegins s.rpe.wanted = none := by
        unfold State.cycleBegins
        rw [hs.2]
        split <;> rfl
      have hend : State.cycleAfter s c s.rpe.wanted = y := by
        unfold State.cycleAfter
        rw [hbeg, hy]
      have hqa : s.queueAfter s.rpe.wanted s.obs.queue = q := by
        unfold State.queueAfter
        rw [hbeg, ← hq]
        simp
      rw [hend, hqa, if_pos ⟨ha, hs⟩, if_pos ⟨ha, hs⟩]
      unfold State.finishCatchup
      simp only [hs.1, hs.2, decide_true, Bool.and_self, if_true]
      unfold State.startCycle State.notify
      simp only
      split <;> rfl
    · rw [if_neg (fun h => hs h.2), if_neg (fun h => hs h.2)]
      have e2 : State.finishCatchup { s with
          rpe := { s.rpe with cycle := y }, obs := { queue := q, build := build } } = { s with
          rpe := { s.rpe with cycle := y }, obs := { queue := q, build := build } } := by
        unfold State.finishCatchup
        rw [if_neg (by simpa using hs)]
      rw [e2]
      unfold State.startCycle
      by_cases hgo : s.nct.node ≠ .leaving ∧ y = none
      · rw [if_pos (by simpa [hgo.2] using hiff.2 hgo.1)]
        have hbeg : s.cycleBegins s.rpe.wanted = s.rpe.wanted.head? := by
          unfold State.cycleBegins
          rw [if_pos ⟨ha, hgo.1, hnone.1 hgo.2⟩]
        simp only
        cases hw : s.rpe.wanted with
        | nil =>
          rw [hw] at hbeg
          have hend : State.cycleAfter s c [] = y := by
            unfold State.cycleAfter
            rw [hbeg, hy, hw]
            rfl
          have hqa : s.queueAfter [] s.obs.queue = q := by
            unfold State.queueAfter
            rw [hbeg, hq, hw]
            simp
          simp only
          rw [hend, hqa]
        | cons first rest =>
          rw [hw] at hbeg
          have hend : State.cycleAfter s c (first :: rest) = some (.fresh first (windowLast first c.activeSlots)) := by
            unfold State.cycleAfter
            rw [hbeg]
            rfl
          have hqa : s.queueAfter (first :: rest) s.obs.queue =
              if q.any (fun e => FrameKind.clashes .ask e.kind) then q
                else q ++ [{ kind := .ask, ref := .askTry 1, attempts := 0, queued := s.nct.now }] := by
            unfold State.queueAfter
            rw [hbeg, hq, hw]
            simp only [List.head?_cons, Option.isSome_some, true_and]
            generalize (if s.cycleEnds (first :: rest) = true then _ else s.obs.queue : List OutEntry) = left
            by_cases h : ∀ e ∈ left, e.kind ≠ .ask
            · rw [if_pos h, if_neg]
              rw [Bool.not_eq_true, List.any_eq_false]
              intro e he
              simp [FrameKind.clashes, FrameKind.isOperation, (h e he).symm]
            · rw [if_neg h, if_pos]
              push Not at h
              obtain ⟨e, he, hk⟩ := h
              exact List.any_eq_true.2 ⟨e, he, by rw [hk]; rfl⟩
          simp only
          rw [hend, hqa, State.useConfig_good (c := c) (by exact hc)]
          unfold State.place
          simp only
          split <;> rfl
      · rw [if_neg]
        · have hbeg : s.cycleBegins s.rpe.wanted = none := by
            unfold State.cycleBegins
            rw [if_neg (fun h => hgo ⟨h.2.1, hnone.2 h.2.2⟩)]
          have hend : State.cycleAfter s c s.rpe.wanted = y := by
            unfold State.cycleAfter
            rw [hbeg, hy]
          have hqa : s.queueAfter s.rpe.wanted s.obs.queue = q := by
            unfold State.queueAfter
            rw [hbeg, ← hq]
            simp
          rw [hend, hqa]
        · intro h
          simp only [Bool.and_eq_true, Bool.or_eq_true, decide_eq_true_eq, Option.isNone_iff_eq_none] at h
          exact hgo ⟨hiff.1 h.1, h.2⟩
  · have hends : s.cycleEnds s.rpe.wanted = false := by
      unfold State.cycleEnds
      rw [Bool.eq_false_iff.2 ha]
      rfl
    have hbeg : s.cycleBegins s.rpe.wanted = none := by
      unfold State.cycleBegins
      rw [if_neg (fun h => ha h.1)]
    have hend : State.cycleAfter s c s.rpe.wanted = s.rpe.cycle := by
      unfold State.cycleAfter
      rw [hbeg, hends]
      rfl
    have hqa : s.queueAfter s.rpe.wanted s.obs.queue = s.obs.queue := by
      unfold State.queueAfter
      rw [hbeg, hends]
      simp
    rw [if_neg (by simp [ha]), if_neg (fun h => ha h.1), if_neg (fun h => ha h.1), hend, hqa]
    exact ⟨s.obs.build, id, rfl⟩

/-- While a give-up is due the repair engine's steps wait (R122). -/
theorem State.settle_due {s : State} {d : DueGiveUp} (h : s.rpe.due = some d) : s.settle = s := by
  unfold State.settle
  rw [h]
  simp

/-- A due give-up is made (R121, R122). -/
theorem State.makeGiveUp_spec {s : State} {c : NodeConfig} {d : DueGiveUp} (hd : sparseWf DirEntry.blank s.dir)
    (hg : s.entriesGood) (hn : s.nct.node ≠ .halted) (hc : s.hasConfig c) (hdue : s.rpe.due = some d) :
    s.givenUp s.makeGiveUp c (d.slots.filter fun n => s.rpe.wanted.contains n) ∧ s.makeGiveUp.nct.node ≠ .halted ∧
      ∃ nct dir rpe obs ntq, s.makeGiveUp = { s with nct := nct, dir := dir, rpe := rpe, obs := obs, ntq := ntq } := by
  unfold State.makeGiveUp
  rw [hdue]
  simp only
  generalize hgv : (d.slots.filter fun n => s.rpe.wanted.contains n) = given
  obtain ⟨⟨count, e⟩, he⟩ := State.giveUpSlots_spec given s hd hg hn
  have hcount := State.giveUpSlots_count given s hd hg hn
  generalize given.foldl State.giveUpSlot s = x at *
  have hxn : x.nct = s.nct := by rw [e]
  rw [State.andThen_running (by rw [hxn]; exact hn), State.notifyAll_eq]
  obtain ⟨y, hy⟩ : ∃ y : State, y = { x with
      ntq := x.ntq.arriveAll (given.map Notice.slotUnresolved), rpe := { x.rpe with cycle := none, due := none } } :=
    ⟨_, rfl⟩
  have yn : y.nct = s.nct := by rw [hy]; exact hxn
  have ya : y.active = s.active := by unfold State.active; rw [yn]
  have yr : y.rpe = { x.rpe with cycle := none, due := none } := by rw [hy]
  have yw : y.rpe.wanted = s.rpe.wanted.filter fun n => !given.contains n := by rw [yr, e]
  have yan : y.rpe.answers = s.rpe.answers := by rw [yr, e]
  have yu : y.rpe.unresolved = x.rpe.unresolved := by rw [yr]
  have yq : y.ntq = s.ntq.arriveAll (given.map Notice.slotUnresolved) := by rw [hy, e]
  have yo : y.obs = s.obs := by rw [hy, e]
  have ye : ∀ n, y.entry n =
      if n ∈ given then { s.entry n with wanted := false, unresolved := true } else s.entry n := by
    intro n
    rw [← he n, hy]
    rfl
  have yf : y = { s with dir := y.dir, rpe := y.rpe, ntq := y.ntq } := by rw [hy, e]
  obtain ⟨build, -, k⟩ := State.settle_eq (s := y) (c := c) (by rw [yf]; exact hc) (by rw [yr])
  rw [ya, yn] at k
  suffices hfin : s.givenUp y.settle c given ∧ y.settle.nct.node ≠ .halted ∧
      ∃ nct dir rpe obs ntq, y.settle = { s with nct := nct, dir := dir, rpe := rpe, obs := obs, ntq := ntq } by
    rw [hy] at hfin
    exact hfin
  have hcyc : y.rpe.cycle = none := by rw [yr]
  rw [k]
  refine ⟨⟨ye, yw, fun h1 h2 => yu.trans (hcount h1 h2), ?_, yan, by rw [yr], rfl, ?_, ?_⟩, ?_, ?_⟩
  · exact State.cycleAfter_congr (t := { s with rpe := { s.rpe with cycle := none } }) yn hcyc c y.rpe.wanted
  · show (if _ then _ else _) = _
    rw [Ntq.arriveAll_append, ← yq]
    split <;> rfl
  · show y.queueAfter y.rpe.wanted y.obs.queue = _
    rw [yo]
    exact State.queueAfter_congr (t := { s with rpe := { s.rpe with cycle := none } }) yn hcyc y.rpe.wanted s.obs.queue
  · show (if _ then _ else _) ≠ _
    split
    · decide
    · exact hn
  · rw [yf]
    exact ⟨_, _, _, _, _, rfl⟩

/-- An access at whose end a give-up is due makes it, and then hands the store over (R121, R122). -/
theorem State.endAccess_due {s : State} {c : NodeConfig} {d : DueGiveUp} {p : Purpose} (hp : s.fck.purpose = some p)
    (hk : s.sar.grant = some .fck) (hd : sparseWf DirEntry.blank s.dir) (hg : s.entriesGood)
    (hn : s.nct.node ≠ .halted) (hc : s.hasConfig c) (hdue : s.rpe.due = some d) :
    s.givenUp s.endAccess c (d.slots.filter fun n => s.rpe.wanted.contains n) ∧
      ∃ nct dir rpe obs ntq, s.endAccess = { s with
        nct := nct, dir := dir, rpe := rpe, obs := obs, ntq := ntq,
        fck := { s.fck with purpose := none }, sar := s.sar.handOver } := by
  obtain ⟨k1, k2, nct, dir, rpe, obs, ntq, e⟩ := State.makeGiveUp_spec hd hg hn hc hdue
  have h : s.endAccess = { s.makeGiveUp with fck := { s.fck with purpose := none }, sar := s.sar.handOver } := by
    unfold State.endAccess
    rw [hp]
    simp only [Option.isSome_some, if_true]
    rw [State.andThen_running k2]
    unfold State.letGoStore
    have hs : s.makeGiveUp.sar = s.sar := by rw [e]
    have hf : s.makeGiveUp.fck = s.fck := by rw [e]
    simp only [hs, hf]
    rw [Sar.letGo_held hk]
  rw [h]
  exact ⟨k1, nct, dir, rpe, obs, ntq, by rw [e]⟩

/-- An access that took a give-up over makes it when it opens (R122). -/
theorem State.openAccess_taken {s : State} {d : DueGiveUp} (hdue : s.rpe.due = some d) (ht : d.takenOver = true) :
    s.openAccess = s.makeGiveUp := by
  unfold State.openAccess
  rw [hdue]
  exact if_pos ht

/-- An access opens as it is where no give-up is due that it took over (R122). -/
theorem State.openAccess_open {s : State} (h : ∀ d, s.rpe.due = some d → d.takenOver = false) : s.openAccess = s := by
  unfold State.openAccess
  split
  · rename_i d hd
    rw [h d hd]
    rfl
  · rfl

end Sys2Proof.Machine
end

