-- ==== Sys2Proof/Laws/Apply.lean ====
section
/-!
SUPPORT. What an applied frame leaves: the items of a POST and the records of a SYNC in the directory, the data store
and the wanted set, what its hand-offs keep, and the tables of a node that founds a group or enters CATCHUP.
-/

set_option Elab.async false

namespace Sys2Proof.Machine

/-- The directory and the data store stay as they are, and no give-up falls due. -/
def SameStore (s t : State) : Prop := t.dir = s.dir ∧ t.dst = s.dst ∧ (s.rpe.due = none → t.rpe.due = none)

theorem SameStore.refl (s : State) : SameStore s s := ⟨rfl, rfl, id⟩
theorem SameStore.trans {s t u : State} (h : SameStore s t) (k : SameStore t u) : SameStore s u :=
    ⟨k.1.trans h.1, k.2.1.trans h.2.1, fun x => k.2.2 (h.2.2 x)⟩

theorem State.halt_sameStore (s : State) (c) : SameStore s (s.halt c) := by
  by_cases h : s.nct.node = .halted
  · rw [State.halt_halted h]; exact SameStore.refl s
  · have := State.halt_spec h c
    exact ⟨this.2.2.2.2.2.2.2.2.2.2.2.1, this.2.2.2.2.2.2.2.2.2.2.2.2.1, fun _ => by rw [this.2.2.2.2.2.2.1]⟩

theorem State.place_sameStore (s : State) (k r) : SameStore s (s.place k r) := by
  rw [State.place_frame]; exact ⟨rfl, rfl, id⟩

theorem State.settle_sameStore (s : State) : SameStore s s.settle := by
  unfold State.settle
  split
  · refine SameStore.trans (SameStore.trans (t := s.endFilledCycle) ?_ (u := s.endFilledCycle.finishCatchup) ?_) ?_
    · unfold State.endFilledCycle
      split
      · exact SameStore.refl s
      · split
        · exact ⟨rfl, rfl, id⟩
        · exact SameStore.refl s
    · unfold State.finishCatchup
      split
      · exact ⟨rfl, rfl, id⟩
      · exact SameStore.refl _
    · generalize s.endFilledCycle.finishCatchup = x
      unfold State.startCycle
      split
      · split
        · exact SameStore.refl _
        · unfold State.useConfig
          split
          · exact SameStore.refl _
          · split
            · exact SameStore.trans (t := { x with rpe := { x.rpe with cycle := _ } }) ⟨rfl, rfl, id⟩
                (State.place_sameStore _ _ _)
            · exact SameStore.trans (t := x.report _ _) ⟨rfl, rfl, id⟩ (State.halt_sameStore _ _)
      · exact SameStore.refl _
  · exact SameStore.refl s

theorem State.notifyAll_sameStore (s : State) (l) : SameStore s (s.notifyAll l) := by
  rw [State.notifyAll_eq]; exact ⟨rfl, rfl, id⟩

theorem State.dataChanges_sameStore (s : State) (l) : SameStore s (s.dataChanges l) := by
  unfold State.dataChanges
  induction l generalizing s with
  | nil => exact SameStore.refl s
  | cons p l ih =>
    refine SameStore.trans ?_ (ih _)
    unfold State.dataChange
    exact SameStore.trans (t := { s with wch := _ }) ⟨rfl, rfl, id⟩ (State.notifyAll_sameStore _ _)

theorem State.endAccess_sameStore {s : State} (h : s.rpe.due = none) : SameStore s s.endAccess := by
  unfold State.endAccess State.makeGiveUp
  simp only [h]
  split
  · unfold State.andThen
    split
    · exact SameStore.refl s
    · exact ⟨rfl, rfl, id⟩
  · exact SameStore.refl s

/-- What a frame's writes have done to the directory, the cells and the wanted set (R28, R64, R66, R113). -/
structure Written (s t : State) (ws : List SlotWrite) : Prop where
  frame : t = { s with dir := t.dir, dst := { s.dst with cells := t.dst.cells }, rpe := t.rpe }
  engine : t.rpe = { s.rpe with
    wanted := s.rpe.wanted.filter (fun n => !(ws.map fun w => w.slot.toNat).contains n),
    unresolved := s.rpe.unresolved - (ws.filter fun w => (s.entry w.slot.toNat).unresolved).length }
  dirWf : sparseWf DirEntry.blank t.dir
  memWf : Memory.wf t.dst.cells
  good : t.entriesGood
  entries : ∀ w ∈ ws, t.entry w.slot.toNat =
        { state := w.state, version := w.version, length := w.words.length,
          health := if (s.dst.rowInUse w.slot.toNat).isSome then .good else .failed,
          wanted := false, unresolved := false, parityGood := true }
  others : ∀ n, (∀ w ∈ ws, w.slot.toNat ≠ n) → t.entry n = s.entry n
  cells : ∀ row p, p < 16 → (∀ w ∈ ws, s.dst.rowInUse w.slot.toNat = some row → w.words.length ≤ p) →
        t.dst.cell row p = s.dst.cell row p
  words : (∀ w ∈ ws, ∀ row, s.dst.rowInUse w.slot.toNat = some row →
        (∀ v ∈ ws, v ≠ w → s.dst.rowInUse v.slot.toNat ≠ some row) →
        ∀ p x, w.words[p]? = some x → t.dst.cell row p = { word := x, flips := 0 })

/-- The node controller is as it was. -/
theorem Written.nct {s t : State} {ws : List SlotWrite} (h : Written s t ws) : t.nct = s.nct := by
  rw [h.frame]

theorem Written.running {s t : State} {ws : List SlotWrite} (h : Written s t ws) (hn : s.nct.node ≠ .halted) :
    t.nct.node ≠ .halted := by
  rw [h.nct]
  exact hn

/-- The writes hold of every later state that keeps the directory, the rows and the wanted set. -/
theorem Written.wrote {s t u : State} {ws : List SlotWrite} (h : Written s t ws) (hd : u.dir = t.dir)
    (hs : u.dst = t.dst) (hw : u.rpe.wanted = t.rpe.wanted) (hu : u.rpe.unresolved = t.rpe.unresolved) :
    s.wrote u ws := by
  have he : ∀ n, u.entry n = t.entry n := fun n => by unfold State.entry; rw [hd]
  have k := h.engine
  refine ⟨fun w m => by rw [he]; exact h.entries w m, fun n m => by rw [he]; exact h.others n m, ?_, ?_, ?_, ?_, ?_⟩
  · rw [hs]; exact h.words
  · rw [hs]; exact h.cells
  · rw [hs]; exact congrArg State.dst h.frame
  · rw [hw, k]
  · rw [hu, k]

/-- No write leaves everything as it was. -/
theorem Written.nil {s : State} (hd : sparseWf DirEntry.blank s.dir) (hm : Memory.wf s.dst.cells)
    (hg : s.entriesGood) : Written s s [] :=
  ⟨rfl, by simp, hd, hm, hg, fun _ h => absurd h (List.not_mem_nil), fun _ _ => rfl,
    fun _ _ _ _ => rfl, fun _ h => absurd h (List.not_mem_nil)⟩

/-- One slot's words are written (R28). -/
theorem State.writeSlot_spec {s : State} (hd : sparseWf DirEntry.blank s.dir) (hm : Memory.wf s.dst.cells)
    (hg : s.entriesGood) (w : SlotWrite) (hl : w.words.length ≤ 16) :
    Written s (s.writeSlot w.slot.toNat w.state w.version w.words) [w] := by
  have count : ([w].filter fun w => (s.entry w.slot.toNat).unresolved).length =
      (s.entry w.slot.toNat).unresolved.toNat := by
    cases h : (s.entry w.slot.toNat).unresolved <;> simp [h]
  have engine : ∀ health : Health, s.rpe.follow w.slot.toNat (s.entry w.slot.toNat) {
      state := w.state, version := w.version, length := w.words.length, health := health,
      wanted := false, unresolved := false, parityGood := true } = { s.rpe with
        wanted := s.rpe.wanted.filter (fun n => !([w].map fun w => w.slot.toNat).contains n),
        unresolved := s.rpe.unresolved - ([w].filter fun w => (s.entry w.slot.toNat).unresolved).length } := fun _ => by
    rw [count]
    exact Rpe.follow_cleared _ _ _ rfl rfl
  unfold State.writeSlot
  cases hr : s.dst.rowInUse w.slot.toNat with
  | none =>
    simp only
    refine ⟨rfl, engine _, State.putEntry_wf hd _ _, hm, ?_, ?_, ?_, ?_, ?_⟩
    · intro n; rw [State.entry_putFlags hd]; split
      · rfl
      · exact hg n
    · intro v hv; obtain rfl := List.mem_singleton.1 hv
      rw [State.entry_putFlags hd]; simp [hr]
    · intro n hn; rw [State.entry_putFlags hd, if_neg (fun h => hn w (List.mem_singleton.2 rfl) h.symm)]
    · intro row p _ _; rfl
    · intro v hv row hrow; obtain rfl := List.mem_singleton.1 hv; rw [hr] at hrow; cases hrow
  | some row =>
    simp only
    have hf := Dst.putWords_frame w.words s.dst row 0
    refine ⟨?_, engine _, State.putEntry_wf (s := { s with dst := _ }) hd _ _,
        Dst.putWords_wf _ hm _ _, ?_, ?_, ?_, ?_, ?_⟩
    · show ({ s with dst := _, dir := _, rpe := _ } : State) = { s with dst := _, dir := _, rpe := _ }
      congr 1
    · intro n; rw [State.entry_putFlags (s := { s with dst := s.dst.putWords row 0 _ }) hd]; split
      · rfl
      · exact hg n
    · intro v hv; obtain rfl := List.mem_singleton.1 hv
      rw [State.entry_putFlags (s := { s with dst := s.dst.putWords row 0 _ }) hd]; simp [hr]
    · intro n hn
      rw [State.entry_putFlags (s := { s with dst := s.dst.putWords row 0 _ }) hd,
        if_neg (fun h => hn w (List.mem_singleton.2 rfl) h.symm)]
      rfl
    · intro row' p hp h
      show Dst.cell (s.dst.putWords row 0 w.words) row' p = _
      rw [Dst.cell_putWords _ hm _ _ _ _ hp (by omega), if_neg]
      rintro ⟨rfl, _, hp2⟩
      have := h w (List.mem_singleton.2 rfl) hr
      omega
    · intro v hv row' hrow _ p x hx; obtain rfl := List.mem_singleton.1 hv
      rw [hr] at hrow; obtain rfl := Option.some.inj hrow
      have hp : p < v.words.length := by
        rw [List.getElem?_eq_some_iff] at hx; exact hx.1
      show Dst.cell (s.dst.putWords row 0 v.words) row p = _
      rw [Dst.cell_putWords _ hm _ _ _ _ (by omega) (by omega), if_pos ⟨rfl, by omega, by omega⟩]
      simp [List.getD_eq_getElem?_getD, hx]

/-- A write and then others, to other slots. -/
theorem Written.cons {s t u : State} {w : SlotWrite} {ws : List SlotWrite} (h : Written s t [w])
    (k : Written t u ws) (hi : ∀ v ∈ ws, v.slot.toNat ≠ w.slot.toNat) (hl : w.words.length ≤ 16) :
    Written s u (w :: ws) := by
  have hrow : ∀ n, t.dst.rowInUse n = s.dst.rowInUse n := by
    intro n; rw [h.frame]; rfl
  have hne : w ∉ ws := fun hx => hi w hx rfl
  refine ⟨?_, ?_, k.dirWf, k.memWf, k.good, ?_, ?_, ?_, ?_⟩
  · rw [k.frame, h.frame]
  · rw [k.engine, h.engine]
    have hc : ws.filter (fun v => (t.entry v.slot.toNat).unresolved) =
        ws.filter fun v => (s.entry v.slot.toNat).unresolved := List.filter_congr fun v hv => by
      rw [h.others _ fun x hx => by rw [List.mem_singleton.1 hx]; exact (hi v hv).symm]
    have hw : ∀ l : List Nat, (l.filter fun n => !([w].map fun w => w.slot.toNat).contains n).filter
        (fun n => !(ws.map fun w => w.slot.toNat).contains n) =
          l.filter fun n => !((w :: ws).map fun w => w.slot.toNat).contains n := fun l => by
      rw [List.filter_filter]
      congr 1
      funext n
      simp [Bool.and_comm]
    have hl : ∀ n : Nat, n - ([w].filter fun w => (s.entry w.slot.toNat).unresolved).length -
        (ws.filter fun v => (s.entry v.slot.toNat).unresolved).length =
          n - ((w :: ws).filter fun w => (s.entry w.slot.toNat).unresolved).length := fun n => by
      cases hb : (s.entry w.slot.toNat).unresolved <;> simp [hb]
      omega
    simp only [hc, hw, hl]
  · intro v hv
    rcases List.mem_cons.1 hv with rfl | hv
    · rw [k.others _ (fun x hx => hi x hx)]; exact h.entries _ (List.mem_singleton.2 rfl)
    · rw [k.entries v hv, hrow]
  · intro n hn
    rw [k.others n (fun x hx => hn x (List.mem_cons_of_mem _ hx)),
      h.others n (fun x hx => by rw [List.mem_singleton.1 hx]; exact hn w (List.mem_cons_self ..))]
  · intro row p hp hx
    rw [k.cells row p hp (fun x hx' => by rw [hrow]; exact hx x (List.mem_cons_of_mem _ hx')),
      h.cells row p hp (fun x hx' => by rw [List.mem_singleton.1 hx']; exact hx w (List.mem_cons_self ..))]
  · intro v hv row hr ho p x hx
    rcases List.mem_cons.1 hv with rfl | hv
    · have hp : p < v.words.length := by
        rw [List.getElem?_eq_some_iff] at hx; exact hx.1
      rw [k.cells row p (by omega) (fun y hy hy' => absurd (by rw [← hrow]; exact hy')
        (ho y (List.mem_cons_of_mem _ hy) (fun he => hne (he ▸ hy))))]
      exact h.words v (List.mem_singleton.2 rfl) row hr (fun y hy hy' => absurd (List.mem_singleton.1 hy) hy') p x hx
    · refine k.words v hv row (by rw [hrow]; exact hr) (fun y hy hy' => ?_) p x hx
      rw [hrow]; exact ho y (List.mem_cons_of_mem _ hy) hy'

/-- The items of a POST are written one by one (R64). -/
theorem State.applyItems_spec (items : List Item) (s : State) (sender : Station) (hd : sparseWf DirEntry.blank s.dir)
    (hm : Memory.wf s.dst.cells) (hg : s.entriesGood) (hn : s.nct.node ≠ .halted) (hnd : (items.map Item.slot).Nodup)
    (hl : ∀ i ∈ items, i.words.length ≤ 16) :
    Written s (items.foldl (State.applyItem sender) s) (items.map (Item.write sender)) := by
  induction items generalizing s with
  | nil => exact Written.nil hd hm hg
  | cons i items ih =>
    rw [List.foldl_cons, List.map_cons]
    have e : State.applyItem sender s i = s.writeSlot i.slot.toNat (.owned sender) i.version i.words := by
      unfold State.applyItem
      rw [State.andThen_running hn, State.examine_good (hg _)]
    rw [e]
    have h := State.writeSlot_spec hd hm hg (i.write sender) (hl i (List.mem_cons_self ..))
    rw [List.map_cons, List.nodup_cons] at hnd
    have k := ih (s.writeSlot i.slot.toNat (.owned sender) i.version i.words) h.dirWf h.memWf h.good
      (h.running hn) hnd.2 (fun j hj => hl j (List.mem_cons_of_mem _ hj))
    refine Written.cons h k (fun v hv hx => hnd.1 ?_) (hl i (List.mem_cons_self ..))
    obtain ⟨j, hj, rfl⟩ := List.mem_map.1 hv
    rw [← BitVec.eq_of_toNat_eq (show j.slot.toNat = i.slot.toNat from hx)]
    exact List.mem_map_of_mem hj

/-- The records of a SYNC that the receiver takes are written one by one (R66); each decision reads the entry as it
stood before the frame, since the slots differ. -/
theorem State.applyRecords_spec (records : List Record) (s : State) (hd : sparseWf DirEntry.blank s.dir)
    (hm : Memory.wf s.dst.cells) (hg : s.entriesGood) (hn : s.nct.node ≠ .halted)
    (hnd : (records.map Record.slot).Nodup) (hl : ∀ r ∈ records, r.words.length ≤ 16) :
    Written s (records.foldl State.applyRecord s)
      ((records.filter fun r => decide (s.decideRecord r ≠ .passedOver)).map Record.write) := by
  induction records generalizing s with
  | nil => exact Written.nil hd hm hg
  | cons r records ih =>
    rw [List.foldl_cons]
    rw [List.map_cons, List.nodup_cons] at hnd
    have hl' : ∀ x ∈ records, x.words.length ≤ 16 := fun x hx => hl x (List.mem_cons_of_mem _ hx)
    have e : s.applyRecord r = if s.decideRecord r = .passedOver then s
        else s.writeSlot r.slot.toNat r.slotState r.version r.words := by
      unfold State.applyRecord
      rw [State.andThen_running hn, State.examine_good (hg _)]
      rfl
    rw [e]
    by_cases hp : s.decideRecord r = .passedOver
    · rw [if_pos hp, List.filter_cons_of_neg (by simpa using hp)]
      exact ih s hd hm hg hn hnd.2 hl'
    · rw [if_neg hp, List.filter_cons_of_pos (by simpa using hp), List.map_cons]
      have h := State.writeSlot_spec hd hm hg r.write (hl r (List.mem_cons_self ..))
      have k := ih (s.writeSlot r.slot.toNat r.slotState r.version r.words) h.dirWf h.memWf h.good
        (h.running hn) hnd.2 hl'
      have hne : ∀ x ∈ records, x.slot.toNat ≠ r.slot.toNat := by
        intro x hx hx'
        refine hnd.1 ?_
        rw [← BitVec.eq_of_toNat_eq hx']
        exact List.mem_map_of_mem hx
      have hf : (records.filter fun x => decide ((s.writeSlot r.slot.toNat r.slotState r.version r.words).decideRecord x
          ≠ .passedOver)) = records.filter fun x => decide (s.decideRecord x ≠ .passedOver) := by
        refine List.filter_congr fun x hx => ?_
        unfold State.decideRecord
        have h1 := h.others x.slot.toNat (fun v hv => by
          rw [List.mem_singleton.1 hv]; exact (hne x hx).symm)
        have h2 : (s.writeSlot r.slot.toNat r.slotState r.version r.words).nct = s.nct := h.nct
        change State.entry (s.writeSlot r.slot.toNat r.slotState r.version r.words) x.slot.toNat = _ at h1
        rw [h1, h2]
      rw [hf] at k
      refine Written.cons h k (fun v hv hx => ?_) (hl r (List.mem_cons_self ..))
      obtain ⟨x, hx', rfl⟩ := List.mem_map.1 hv
      exact hne x (List.mem_filter.1 hx').1 hx

/-! ### Frames of this node (R49, R69, R146) -/

/-- The sender raises no RECORD_CHANGED for its own frame. -/
theorem State.notifyChange_own {s : State} {sender : Station} (h : s.isOwn sender = true) (before : SlotState)
    (slot : Nat) (c : ChangeCause) : s.notifyChange sender before slot c = s := by
  unfold State.notifyChange
  rw [h]
  rfl

/-- The sender's own CLAIM ends no pending CLAIM as TAKEN. -/
theorem State.overheard_own {s : State} {sender : Station} (h : s.isOwn sender = true) (slot : Nat) :
    s.overheard sender slot = s := by
  unfold State.overheard
  rw [h]
  rfl

/-! ### Founding and entry to CATCHUP (R75, R98, R99) -/

theorem sparseGet_append_map {α : Type} (d : α) (f : Nat → α) (l : List Nat) (m : List (Nat × α)) {n : Nat}
    (h : n ∈ l) : sparseGet d (l.map (fun k => (k, f k)) ++ m) n = f n := by
  induction l with
  | nil => cases h
  | cons k l ih =>
    rw [List.map_cons, List.cons_append]
    unfold sparseGet
    split
    · rename_i hk
      rw [hk]
    · rename_i hk
      rcases List.mem_cons.1 h with rfl | h
      · exact absurd rfl hk
      · exact ih h

/-- Every active slot has taken its entry. -/
theorem fillSlots_get {k n : Nat} (h : n < k) (f : Nat → DirEntry) (dir : List (Nat × DirEntry)) :
    sparseGet DirEntry.blank (fillSlots k f dir) n = f n :=
  sparseGet_append_map _ f _ _ (List.mem_range.2 h)

theorem sparseGet_append_of_not_mem {α : Type} (d : α) (l m : List (Nat × α)) {n : Nat}
    (h : ∀ p ∈ l, p.1 ≠ n) : sparseGet d (l ++ m) n = sparseGet d m n := by
  induction l with
  | nil => rfl
  | cons p l ih =>
    show (if p.1 = n then p.2 else sparseGet d (l ++ m) n) = _
    rw [if_neg (h p (List.mem_cons_self ..))]
    exact ih fun q hq => h q (List.mem_cons_of_mem _ hq)

theorem sparseGet_filter_ge {α : Type} (d : α) (l : List (Nat × α)) {k n : Nat} (h : k ≤ n) :
    sparseGet d (l.filter fun p => decide (k ≤ p.1)) n = sparseGet d l n := by
  induction l with
  | nil => rfl
  | cons p l ih =>
    by_cases hp : k ≤ p.1
    · rw [List.filter_cons_of_pos (by simpa using hp)]
      unfold sparseGet
      rw [ih]
    · rw [List.filter_cons_of_neg (by simpa using hp), ih]
      have : p.1 ≠ n := by omega
      conv_rhs => unfold sparseGet
      rw [if_neg this]

/-- Every other slot keeps its entry. -/
theorem fillSlots_beyond {k n : Nat} (h : ¬n < k) (f : Nat → DirEntry) (dir : List (Nat × DirEntry)) :
    sparseGet DirEntry.blank (fillSlots k f dir) n = sparseGet DirEntry.blank dir n := by
  unfold fillSlots
  rw [sparseGet_append_of_not_mem, sparseGet_filter_ge _ _ (Nat.le_of_not_lt h)]
  intro p hp
  obtain ⟨m, hm, rfl⟩ := List.mem_map.1 hp
  have := List.mem_range.1 hm
  simp only
  omega

theorem sparseGet_filterMap {α : Type} (d : α) (f : Nat → Option α) (l : List Nat) (n : Nat) :
    sparseGet d (l.filterMap fun k => (f k).map fun v => (k, v)) n =
      if n ∈ l then (f n).getD d else d := by
  induction l with
  | nil => rfl
  | cons k l ih =>
    rw [List.filterMap_cons]
    cases hf : f k with
    | none =>
      simp only [Option.map_none]
      rw [ih]
      by_cases h : n = k
      · subst h
        simp [hf]
      · simp [h]
    | some v =>
      simp only [Option.map_some]
      unfold sparseGet
      by_cases h : k = n
      · subst h
        simp [hf]
      · rw [if_neg h, ih]
        have h' : n ≠ k := fun h' => h h'.symm
        simp [h']

/-- The membership table after the node's own HELLO (Table 4-3). -/
theorem freshTable_get (own : Station) (set : StationMask) (e : MemberEntry) (n : Nat) :
    sparseGet MemberEntry.absent (freshTable own set e) n =
      if n = own.toNat then MemberEntry.own
      else if n < 16 ∧ set.getLsbD n = true then e else MemberEntry.absent := by
  have hf : freshTable own set e = (List.range 16).filterMap fun k =>
      ((if k = own.toNat then some MemberEntry.own else if set.getLsbD k then some e else none) :
          Option MemberEntry).map
        fun v => (k, v) := by
    unfold freshTable
    congr 1
    funext k
    split
    · rfl
    · split <;> rfl
  rw [hf, sparseGet_filterMap]
  have := own.isLt
  by_cases h : n = own.toNat
  · have hn : n < 16 := by omega
    simp [h, this]
  · by_cases h2 : n < 16
    · simp only [List.mem_range, h2, if_true, h, if_false, true_and]
      split <;> rfl
    · simp [h, h2]

end Sys2Proof.Machine
end

