-- ==== Sys2Proof/Laws/Decision.lean ====
section
/-!
SUPPORT. The decision and its timer: what a decision leaves, and how the timer starts anew when a DROP entry has left
the queue (R79–R82).
-/

set_option Elab.async false

namespace Sys2Proof.Machine

/-- Two times of which each has come at the other are one time. -/
theorem reached_antisymm {a b : Time} (h1 : reached a b = true) (h2 : reached b a = true) : a = b := by
  unfold reached at h1 h2
  simp only [decide_eq_true_eq] at h1 h2
  bv_omega

/-- The mask of a list of stations holds them and no other station (R73, R81). -/
theorem maskOf_bit (l : List Nat) {n : Nat} (hn : n < 16) : (maskOf l).getLsbD n = decide (n ∈ l) := by
  have key : ∀ (l : List Nat) (m : StationMask),
      (l.foldl (fun m n => m ||| ((1 : StationMask) <<< n)) m).getLsbD n = (m.getLsbD n || decide (n ∈ l)) := by
    intro l
    induction l with
    | nil => intro m; simp
    | cons a l ih =>
      intro m
      rw [List.foldl_cons, ih, BitVec.getLsbD_or, BitVec.getLsbD_shiftLeft]
      by_cases ha : n = a
      · subst ha
        simp [hn]
      · have : (1 : StationMask).getLsbD (n - a) = decide (n - a = 0) := by
          cases n - a <;> simp
        rw [this]
        by_cases hl : n < a
        · simp [hl, ha]
        · have : n - a ≠ 0 := by omega
          simp [this, ha]
  unfold maskOf
  rw [key]
  simp

/-- The mask of G holds the stations whose entry is not absent, where the nodes that take part, or kept their table,
report it (R73, R198). -/
theorem State.statusMask_bit {s : State}
    (h : s.nct.node.participating = true ∨ s.nct.node = .isolated ∨ s.nct.node = .halted) {n : Nat} (hn : n < 16) :
    s.statusMask.getLsbD n = true ↔ (s.mbu.entry n).state ≠ .absent := by
  have e : s.statusMask = s.memberMask := by
    unfold State.statusMask
    cases hs : s.nct.node <;> first | rfl | (rw [hs] at h; simp [NodeState.participating] at h)
  rw [e, State.memberMask, maskOf_bit _ hn, decide_eq_true_iff, State.memberSet, List.mem_filter]
  exact ⟨fun h => of_decide_eq_true h.2, fun h => ⟨List.mem_range.2 hn, decide_eq_true h⟩⟩

theorem maskOf_has {l : List Nat} {n : Nat} (h : n ∈ l) (hn : n < 16) : (maskOf l).getLsbD n = true := by
  rw [maskOf_bit l hn]
  exact decide_eq_true h

/-- The earliest suspect-since is the one that no other precedes (R80). -/
theorem State.earliestSuspect_of_first {s : State} {first : Time} (h : s.firstSuspicion s.suspects first) :
    s.earliestSuspect = some first := by
  obtain ⟨⟨n, hn, hf⟩, hall⟩ := h
  unfold State.earliestSuspect
  have hmem : first ∈ s.suspects.filterMap fun n => (s.mbu.entry n).suspectSince :=
    List.mem_filterMap.2 ⟨n, hn, hf⟩
  have hle : ∀ t ∈ s.suspects.filterMap fun n => (s.mbu.entry n).suspectSince, reached t first = true := by
    intro t ht
    obtain ⟨m, hm, e⟩ := List.mem_filterMap.1 ht
    exact decide_eq_true (hall m hm t e)
  revert hmem hle
  generalize (s.suspects.filterMap fun n => (s.mbu.entry n).suspectSince) = l
  have hself : reached first first = true := by
    unfold reached
    simp
  have stays : ∀ l : List Time, (∀ t ∈ l, reached t first = true) → l.foldl earlier first = first := by
    intro l
    induction l with
    | nil => exact fun _ => rfl
    | cons a l ih =>
      intro h
      rw [List.foldl_cons, show earlier first a = first from if_pos (h a (List.mem_cons_self ..))]
      exact ih fun t ht => h t (List.mem_cons_of_mem _ ht)
  have reaches : ∀ (l : List Time) (a : Time), first ∈ a :: l → (∀ t ∈ a :: l, reached t first = true) →
      l.foldl earlier a = first := by
    intro l
    induction l with
    | nil => exact fun a h _ => (List.mem_singleton.1 h).symm
    | cons b l ih =>
      intro a h hl
      by_cases ha : a = first
      · rw [ha]
        exact stays _ fun t ht => hl t (List.mem_cons_of_mem _ ht)
      · rw [List.foldl_cons]
        have hle : ∀ t ∈ earlier a b :: l, reached t first = true := by
          intro t ht
          rcases List.mem_cons.1 ht with rfl | ht
          · unfold earlier
            split
            · exact hl a (List.mem_cons_self ..)
            · exact hl b (by simp)
          · exact hl t (by simp [ht])
        refine ih _ ?_ hle
        rcases List.mem_cons.1 h with h | h
        · exact absurd h.symm ha
        · rcases List.mem_cons.1 h with h | h
          · refine List.mem_cons.2 (Or.inl ?_)
            unfold earlier
            rw [if_neg, h]
            intro hr
            rw [← h] at hr
            exact ha (reached_antisymm (hl a (List.mem_cons_self ..)) hr)
          · exact List.mem_cons_of_mem _ h
  intro hmem hle
  cases l with
  | nil => cases hmem
  | cons a l => exact congrArg some (reaches l a hmem hle)

/-- A station is SUSPECT where a suspicion is the first of the suspects. -/
theorem State.firstSuspicion.suspects_ne {s : State} {ns : List Nat} {first : Time} (h : s.firstSuspicion ns first) :
    ns ≠ [] := by
  obtain ⟨⟨n, hn, -⟩, -⟩ := h
  intro h
  rw [h] at hn
  cases hn

/-- The decision with quorum, where no DROP entry stands (R79, R81). -/
theorem State.takeDecision_quorum {s : State} (hm : s.membersGood) (hq : s.hasQuorum)
    (hh : s.obs.holds .drop = false) : s.takeDecision = { s with
      mbu := { s.mbu with decision := none },
      obs := if s.suspects = [] then s.obs else { s.obs with queue := s.obs.queue ++ [s.dropEntry s.nct.now] } } := by
  have hne : State.quorum { s with mbu := { s.mbu with decision := none } } = true :=
    (State.quorum_iff { s with mbu := { s.mbu with decision := none } }).2 hq
  unfold State.takeDecision
  rw [State.useMembers_good hm]
  simp only [hne, if_true]
  by_cases hz : s.suspects = []
  · have : State.suspects { s with mbu := { s.mbu with decision := none } } = [] := hz
    rw [if_pos this, if_pos hz]
  · have : ¬State.suspects { s with mbu := { s.mbu with decision := none } } = [] := hz
    rw [if_neg this, if_neg hz]
    exact (State.place_eq rfl _).trans (if_neg (by show ¬s.obs.holds .drop = true; rw [hh]; decide))

/-- The decision without quorum (R79). -/
theorem State.takeDecision_isolates {s : State} (hp : s.nct.node.participating = true)
    (hd : sparseWf DirEntry.blank s.dir) (hm : s.membersGood) (hq : ¬s.hasQuorum) :
    s.isolatedFrom s.takeDecision .noQuorum := by
  have hne : ¬State.quorum { s with mbu := { s.mbu with decision := none } } = true :=
    fun h => hq ((State.quorum_iff { s with mbu := { s.mbu with decision := none } }).1 h)
  unfold State.takeDecision
  rw [State.useMembers_good hm]
  simp only [if_neg hne]
  exact State.isolate_spec (s := { s with mbu := { s.mbu with decision := none } }) hp hd .noQuorum

/-- The decision timer stays stopped where no station is SUSPECT (R80). -/
theorem State.restartDecision_none {s : State} (hm : s.membersGood) (hs : s.suspects = []) :
    s.restartDecision = s := by
  unfold State.restartDecision
  rw [State.useMembers_good hm]
  unfold State.earliestSuspect
  rw [hs]
  rfl

/-- The decision timer starts anew, or the decision places a new DROP entry at once (R80). -/
theorem State.restartDecision_restarted {s u : State} {c : NodeConfig} {first : Time} (hm : s.membersGood)
    (hc : s.hasConfig c) (hf : s.firstSuspicion s.suspects first) (hh : s.obs.holds .drop = false)
    (hu : s.restarted u s.nct.now c first) : s.restartDecision = u := by
  unfold State.restartDecision
  rw [State.useMembers_good hm, State.earliestSuspect_of_first hf]
  simp only
  rw [State.useConfig_good hc]
  rcases hu with ⟨h1, rfl⟩ | ⟨h1, h2, rfl⟩
  · rw [if_neg (by simpa [reached, passed, after, NodeConfig.grace] using h1)]
    rfl
  · rw [if_pos (by simpa [reached, passed, after, NodeConfig.grace] using h1), State.takeDecision_quorum hm h2 hh,
      if_neg hf.suspects_ne]

/-- The decision that is taken at once isolates a node without quorum (R79, R80). -/
theorem State.restartDecision_isolates {s : State} {c : NodeConfig} {first : Time}
    (hp : s.nct.node.participating = true) (hd : sparseWf DirEntry.blank s.dir) (hm : s.membersGood)
    (hc : s.hasConfig c) (hf : s.firstSuspicion s.suspects first)
    (ht : passed s.nct.now (first + BitVec.ofNat 32 c.beat)) (hq : ¬s.hasQuorum) :
    s.isolatedFrom s.restartDecision .noQuorum := by
  unfold State.restartDecision
  rw [State.useMembers_good hm, State.earliestSuspect_of_first hf]
  simp only
  rw [State.useConfig_good hc, if_pos (by simpa [reached, passed, after, NodeConfig.grace] using ht)]
  exact State.takeDecision_isolates hp hd hm hq

end Sys2Proof.Machine
end

