-- ==== Sys2Proof/Laws/Build.lean ====
section
/-!
SUPPORT. The build of a frame: the order in which the standing entries are offered, the frame that the present state
gives, and a build that finds nothing to send (R82, R127, R135, R136, R144, R145).
-/

set_option Elab.async false

namespace Sys2Proof.Machine

/-- Where no standing entry has a lower code than `k`, the offer begins at `k`. -/
theorem State.offer_from (k : FrameKind) : ∃ ks, ∀ s : State, (∀ e ∈ s.obs.queue, k.code ≤ e.kind.code) →
    State.offer kindOrder s = State.offer (k :: ks) s := by
  have skip : ∀ (j : FrameKind), j.code < k.code → ∀ s : State, (∀ e ∈ s.obs.queue, k.code ≤ e.kind.code) →
      ∀ ks, State.offer (j :: ks) s = State.offer ks s := by
    intro j hj s h ks
    refine State.offer_skip ?_
    have : s.obs.holds j = false := Obs.holds_false.2 fun e he hk => by
      have := h e he
      rw [hk] at this
      exact absurd hj (by simpa using this)
    rw [this]
    rfl
  have pass : ∀ (pre ks : List FrameKind), (∀ j ∈ pre, j.code < k.code) → ∀ s : State,
      (∀ e ∈ s.obs.queue, k.code ≤ e.kind.code) → State.offer (pre ++ ks) s = State.offer ks s := by
    intro pre ks hp s h
    induction pre with
    | nil => rfl
    | cons j pre ih =>
      rw [List.cons_append, skip j (hp j (List.mem_cons_self ..)) s h]
      exact ih fun i hi => hp i (List.mem_cons_of_mem _ hi)
  have split : ∃ pre ks, kindOrder = pre ++ k :: ks ∧ ∀ j ∈ pre, j.code < k.code := by
    cases k
    · exact ⟨[], _, rfl, by decide⟩
    · exact ⟨[.leave], _, rfl, by decide⟩
    · exact ⟨[.leave, .drop, .drop], _, rfl, by decide⟩
    · exact ⟨[.leave, .drop, .drop, .hello], _, rfl, by decide⟩
    · exact ⟨[.leave, .drop, .drop, .hello, .claim], _, rfl, by decide⟩
    · exact ⟨[.leave, .drop, .drop, .hello, .claim, .yield], _, rfl, by decide⟩
    · exact ⟨[.leave, .drop, .drop, .hello, .claim, .yield, .post], _, rfl, by decide⟩
    · exact ⟨[.leave, .drop, .drop, .hello, .claim, .yield, .post, .sync], _, rfl, by decide⟩
    · exact ⟨[.leave, .drop, .drop, .hello, .claim, .yield, .post, .sync, .ask], _, rfl, by decide⟩
  obtain ⟨pre, ks, e, hp⟩ := split
  exact ⟨ks, fun s h => by rw [e]; exact pass pre (k :: ks) hp s h⟩

/-- The entry that may start is of a kind the node may send. -/
theorem State.maySend_of_mayStart {s : State} {k : FrameKind} (h : s.mayStart k) : s.maySend k = true := by
  obtain ⟨-, -, -, -, -, hm, -⟩ := h
  unfold State.maySend
  rcases hm with ⟨h1, h2⟩ | ⟨h1, h2, h3⟩
  · rw [h2, h1]
    rfl
  · by_cases hp : s.nct.phase = .pfailLeave
    · have := h3 hp
      rw [this]
      cases hn : s.nct.node <;> rw [hn] at h2 <;> simp [NodeState.participating, hp] at h2 ⊢
    · cases hn : s.nct.node <;> rw [hn] at h2 <;> simp [NodeState.participating, hp, h1] at h2 ⊢

/-- A kind that needs an access is built within one where the store is free, and the access leaves nothing behind. -/
theorem State.offer_store {k : FrameKind} {ks : List FrameKind} {s : State} {p : Payload}
    (hh : s.obs.holds k = true) (hm : s.maySend k = true) (hn : k.needsStore = true) (hr : s.nct.node ≠ .halted)
    (hf : s.fck.purpose = none) (hd : s.rpe.due = none) (hs : s.sar = Sar.idle)
    (hb : ∀ t : State, t = { s with fck := { s.fck with purpose := some .build }, sar := t.sar } →
      t.buildKind k = (t, some p)) :
    State.offer (k :: ks) s = (s, some p) := by
  unfold State.offer
  have hask : s.askFck .build =
      { s with fck := { s.fck with purpose := some .build }, sar := { Sar.idle with grant := some .fck } } := by
    rw [State.askFck_free hf, hs]; rfl
  simp only [hh, hm, hn, Bool.and_self, if_true, hask]
  have hg : State.granted
    { s with fck := { s.fck with purpose := some .build }, sar := { Sar.idle with grant := some .fck } } .fck =
        true := rfl
  rw [hg]
  simp only [Bool.not_true, Bool.and_false, Bool.false_eq_true, if_false]
  unfold State.offerOne
  simp only [hn, if_true]
  rw [State.openAccess_free (by exact hd), if_neg (by exact hr), hb _ rfl]
  simp only
  rw [State.andThen_running (by exact hr),
    State.endAccess_held (p := .build) (by exact ⟨rfl, rfl, hd⟩) (by exact hr)]
  have e : ({ s with
      fck := { s.fck with purpose := none }, sar := Sar.handOver { Sar.idle with grant := some .fck } } :
          State) = s := by
    have e1 : ({ s.fck with purpose := none } : Fck) = s.fck := by rw [← hf]
    have e2 : Sar.handOver { Sar.idle with grant := some .fck } = s.sar := hs.symm
    rw [e1, e2]
  simp only [hr, if_false]
  exact congrArg (fun x => (x, some p)) e

/-- The records of slots that are sound are read as they were written, and nothing changes. -/
theorem State.gather_sound (room : Nat) (l : List Nat) (s : State) (hn : s.nct.node ≠ .halted)
    (h : ∀ n ∈ l.take room, s.sound n) :
    State.gather room l s = (s, (l.take room).map fun n => recordOf n (s.entry n) (s.wordsOf n)) := by
  induction l generalizing room with
  | nil => simp [State.gather]
  | cons n l ih =>
    unfold State.gather
    cases room with
    | zero => simp
    | succ room =>
      obtain ⟨h1, h2, row, h3, h4⟩ := h n (by simp)
      rw [if_neg (by simp [hn]), if_neg (by simp [h1]), if_neg (by simp [h2]), State.readSlot_clean h3 h4]
      simp only [Nat.add_sub_cancel]
      rw [ih room (fun m hm => h m (by simp [hm]))]
      simp only [List.take_succ_cons, List.map_cons]
      congr 3
      unfold State.wordsOf; rw [h3]

/-- A frame that the present state gives is built, and an ASK's range is kept (R116). -/
theorem State.buildKind_of_builds {s : State} {p : Payload} (hn : s.nct.node ≠ .halted) (h : s.builds p) :
    s.buildKind p.kind = ({ s with rpe := match (generalizing := false) p with
        | .ask first _ count => { s.rpe with
            cycle := s.rpe.cycle.map fun c => { c with sent := some (first.toNat, count.toNat) } }
        | _ => s.rpe }, some p) := by
  have buildMembers : s.membersGood → ∀ k, s.buildMembers k = k := fun hm k => by
    unfold State.buildMembers; rw [State.badMember_good hm]
  have buildConfig : ∀ c, s.hasConfig c → ∀ k, s.buildConfig k = k c := fun c hc k => by
    unfold State.buildConfig; rw [hc.1]; simp only [hc.2, if_true]
  cases p with
  | leave => rfl
  | drop mask =>
    obtain ⟨hm, hz, e, o, h1, h2, rfl⟩ := h
    show s.buildDrop = _
    unfold State.buildDrop
    rw [buildMembers hm, h1]
    obtain ⟨k, r, a, q⟩ := e
    subst h2
    exact if_neg hz
  | hello p =>
    obtain ⟨c, hc, rfl⟩ := h
    exact buildConfig c hc _
  | claim slot version =>
    obtain ⟨⟨b, ho⟩, hp, hst, rfl⟩ := h
    show s.buildClaim = _
    unfold State.buildClaim State.buildEntry
    rw [ho]; simp only [hp, if_true]
    rcases hst with hst | hst <;> rw [hst] <;> simp
  | yield slot version =>
    obtain ⟨⟨b, ho⟩, hp, hst, rfl⟩ := h
    show s.buildYield = _
    unfold State.buildYield State.buildEntry
    rw [ho]; simp only [hp, if_true]
    rw [if_pos hst]; simp
  | post items =>
    obtain ⟨h1, rfl⟩ := h
    show s.buildPost = _
    unfold State.buildPost
    have e1 : (s.opu.drafts.find? fun d => !(s.entry d.slot).parityGood) = none := by
      rw [List.find?_eq_none]; intro d hd; simp [(h1 d hd).1]
    have e2 : (s.opu.drafts.all fun d => s.owns d.slot) = true := by
      rw [List.all_eq_true]; intro d hd; simp [State.owns, (h1 d hd).2]
    rw [e1]; simp only [e2, if_true]
  | sync records =>
    obtain ⟨h1, h2, rfl⟩ := h
    show s.buildSync = _
    unfold State.buildSync
    rw [State.gather_sound _ _ _ hn h2]
    simp only
    rw [if_neg hn, if_neg (by simpa using h1)]
  | ask first mode count =>
    obtain ⟨c, rest, h1, h2, h3, rfl, rfl⟩ := h
    show s.buildAsk = _
    unfold State.buildAsk
    rw [h1]; simp only [h2]
    have : (BitVec.ofNat 5 (c.last - first.toNat + 1)).toNat = c.last - first.toNat + 1 := by
      rw [BitVec.toNat_ofNat]; omega
    simp only [this, Option.map_some, askMode, BitVec.ofNat_toNat, BitVec.setWidth_eq]
  | beat mask p =>
    obtain ⟨hm, rfl, c, hc, rfl⟩ := h
    show s.buildBeat = _
    unfold State.buildBeat
    rw [buildMembers hm, buildConfig c hc]

/-- The scheduler's frame is the one the standing entry of lowest code gives. -/
theorem State.buildFrame_of_mayStart {s : State} {p : Payload} (h : s.mayStart p.kind) (hb : s.builds p) :
    s.buildFrame = { s with
      obs := { s.obs with build := some { sender := s.nct.station, payload := p } },
      rpe := match (generalizing := false) p with
        | .ask first _ count => { s.rpe with
            cycle := s.rpe.cycle.map fun c => { c with sent := some (first.toNat, count.toNat) } }
        | _ => s.rpe } := by
  have hms := State.maySend_of_mayStart h
  obtain ⟨hr, -, -, hh, hl, hm, hs⟩ := h
  obtain ⟨ks, e⟩ := State.offer_from p.kind
  have ho : State.offer kindOrder s = s.buildKind p.kind := by
    rw [e s hl]
    by_cases hn : p.kind.needsStore = true
    · rw [if_pos hn] at hs
      obtain ⟨hf, hd, hsar⟩ := hs
      have hrpe : (s.buildKind p.kind) = (s, some p) := by
        rw [State.buildKind_of_builds hr.2 hb]
        cases p <;> first | rfl | (cases hn)
      rw [hrpe]
      refine State.offer_store hh hms hn hr.2 hf hd hsar fun t ht => ?_
      have : t.builds p := by rw [ht]; cases p <;> exact hb
      rw [State.buildKind_of_builds (by rw [ht]; exact hr.2) this]
      cases p <;> first | rfl | (cases hn)
    · have hn' : p.kind.needsStore = false := by simpa using hn
      rw [if_neg hn] at hs
      have hc : s.cutBuild = s := by unfold State.cutBuild; rw [if_neg hs]
      rw [State.buildKind_of_builds hr.2 hb]
      refine State.offer_take hh hms hn' (by rw [hc]; exact hr.2) ?_
      rw [hc, State.buildKind_of_builds hr.2 hb]
  unfold State.buildFrame
  rw [ho, State.buildKind_of_builds hr.2 hb]

/-- BUS_FREE is the start of a frame after the idle time (R4, R135). -/
theorem State.busFree_at {s : State} (hr : s.running) (hi : s.pbi.mayIdle = true) (b : Bool) :
    (s.onBus fun s => s.busFree b) = ((s.idleFor s.pbi.freeCount).setShift .idle).startFrame b := by
  rw [State.onBus_running hr]
  unfold State.busFree
  rw [if_pos hi]

/-- A frame that the present state gives is started, or stays in hand (R5, R136). -/
theorem State.startFrame_built {s : State} {p : Payload} (h : s.mayStart p.kind) (hb : s.builds p) (b : Bool) :
    s.startFrame b =
      if b then s.buildFrame else s.buildFrame.giveStart { sender := s.nct.station, payload := p } := by
  unfold State.startFrame
  rw [State.buildFrame_of_mayStart h hb]
  simp only [h.2.2.1, Option.isSome_none, Bool.false_eq_true, if_false]

/-- Nothing starts where nothing is built. -/
theorem State.startFrame_none {s : State} (hb : s.obs.build = none) (h : s.buildFrame = s) (b : Bool) :
    s.startFrame b = s := by
  unfold State.startFrame
  simp only [hb, Option.isSome_none, Bool.false_eq_true, if_false, h]

/-! ### A build that takes a give-up access over (R122) -/

/-- The flags of a give-up change no frame that needs the store. -/
theorem State.builds_givenUp {s t : State} {c : NodeConfig} {given : List Nat} {p : Payload} (h : s.builds p)
    (hk : p.kind.needsStore = true) (hg : s.givenUp t c given) (hopu : t.opu = s.opu) (hdst : t.dst = s.dst) :
    t.builds p := by
  have hst : t.nct.station = s.nct.station := by rw [hg.2.2.2.2.2.2.1]
  have ha : t.rpe.answers = s.rpe.answers := hg.2.2.2.2.1
  have he : ∀ n, t.entry n = { s.entry n with wanted := (t.entry n).wanted, unresolved := (t.entry n).unresolved } := by
    intro n
    rw [hg.1 n]
    split <;> rfl
  have e1 : ∀ n, (t.entry n).state = (s.entry n).state := fun n => by rw [he]
  have e2 : ∀ n, (t.entry n).version = (s.entry n).version := fun n => by rw [he]
  have e3 : ∀ n, (t.entry n).parityGood = (s.entry n).parityGood := fun n => by rw [he]
  have e4 : ∀ n, (t.entry n).health = (s.entry n).health := fun n => by rw [he]
  have e5 : ∀ n, (t.entry n).length = (s.entry n).length := fun n => by rw [he]
  cases p with
  | claim slot version =>
    obtain ⟨h1, h2, h3, h4⟩ := h
    refine ⟨?_, ?_, ?_, ?_⟩
    · rw [hopu]; exact h1
    · rw [e3]; exact h2
    · rw [e1]; exact h3
    · rw [e2]; exact h4
  | yield slot version =>
    obtain ⟨h1, h2, h3, h4⟩ := h
    refine ⟨?_, ?_, ?_, ?_⟩
    · rw [hopu]; exact h1
    · rw [e3]; exact h2
    · rw [e1, hst]; exact h3
    · rw [e2]; exact h4
  | post items =>
    obtain ⟨h1, h2⟩ := h
    refine ⟨fun d hd => ?_, ?_⟩
    · rw [e3, e1, hst]
      rw [hopu] at hd
      exact h1 d hd
    · rw [hopu, h2]
      simp only [e2]
  | sync records =>
    obtain ⟨h1, h2, h3⟩ := h
    refine ⟨by rw [ha]; exact h1, fun n hn => ?_, ?_⟩
    · rw [ha] at hn
      obtain ⟨k1, k2, row, k3, k4⟩ := h2 n hn
      refine ⟨by rw [e3]; exact k1, by rw [e4]; exact k2, row, by rw [hdst]; exact k3, fun p hp => ?_⟩
      rw [hdst]
      exact k4 p (by rw [e5] at hp; exact hp)
    · rw [ha, h3]
      refine List.map_congr_left fun n _ => ?_
      have hw : t.wordsOf n = s.wordsOf n := by
        unfold State.wordsOf
        rw [hdst, e5]
      unfold recordOf
      rw [hw, e1, e2]
  | _ => cases hk

/-- A kind that needs an access takes a held give-up access over: the give-up is made first, the frame is then built,
and the access ends (R122, R136). -/
theorem State.offer_takesOver {ks : List FrameKind} {s : State} {c : NodeConfig} {d : DueGiveUp} {p : Payload}
    (hh : s.obs.holds p.kind = true) (hm : s.maySend p.kind = true) (hn : p.kind.needsStore = true)
    (hr : s.nct.node ≠ .halted) (hf : s.fck.purpose = some .giveUp) (hk : s.sar.grant = some .fck)
    (hdue : s.rpe.due = some d) (hb : s.builds p) (hd : sparseWf DirEntry.blank s.dir) (hg : s.entriesGood)
    (hc : s.hasConfig c) :
    ∃ t, State.offer (p.kind :: ks) s = (t, some p) ∧
      s.givenUp t c (d.slots.filter fun n => s.rpe.wanted.contains n) ∧ t.nct.node ≠ .halted ∧
      ∃ nct dir rpe obs ntq, t = { s with
        nct := nct, dir := dir, rpe := rpe, obs := obs, ntq := ntq,
        fck := { s.fck with purpose := none }, sar := s.sar.handOver } := by
  obtain ⟨x, hx⟩ : ∃ x : State, x = { s with
      fck := { s.fck with purpose := some .build },
      rpe := { s.rpe with due := some { d with takenOver := true } } } := ⟨_, rfl⟩
  have hask : s.askFck .build = x := by
    unfold State.askFck
    rw [hf, hdue, hx]
    rfl
  obtain ⟨k1, k2, nct, dir, rpe, obs, ntq, e⟩ := State.makeGiveUp_spec (s := x) (c := c)
    (d := { d with takenOver := true }) (by rw [hx]; exact hd) (by rw [hx]; exact hg) (by rw [hx]; exact hr)
    (by rw [hx]; exact hc) (by rw [hx])
  have hop : x.openAccess = x.makeGiveUp := State.openAccess_taken (d := { d with takenOver := true }) (by rw [hx]) rfl
  have hgu : s.givenUp x.makeGiveUp c (d.slots.filter fun n => s.rpe.wanted.contains n) := by
    rw [hx] at k1 ⊢
    exact k1
  generalize x.makeGiveUp = v at *
  have hvb : v.builds p := State.builds_givenUp hb hn hgu (by rw [e, hx]) (by rw [e, hx])
  have hkind : v.buildKind p.kind = (v, some p) := by
    rw [State.buildKind_of_builds k2 hvb]
    cases p <;> first | rfl | (cases hn)
  have hvp : v.fck.purpose = some .build := by rw [e, hx]
  have hvk : v.sar.grant = some .fck := by rw [e, hx]; exact hk
  have hvd : v.rpe.due = none := hgu.2.2.2.2.2.1
  have hend := State.endAccess_held (s := v) (p := .build) ⟨hvp, hvk, hvd⟩ k2
  refine ⟨{ v with fck := { v.fck with purpose := none }, sar := v.sar.handOver }, ?_, ?_, k2, nct, dir, rpe, obs, ntq, ?_⟩
  · unfold State.offer
    simp only [hh, hm, hn, Bool.and_self, if_true, hask]
    have hgr : x.granted .fck = true := by rw [hx]; simpa [State.granted] using hk
    rw [hgr]
    simp only [Bool.not_true, Bool.and_false, Bool.false_eq_true, if_false]
    unfold State.offerOne
    simp only [hn, if_true]
    rw [hop, if_neg k2, hkind]
    simp only
    rw [State.andThen_running k2, hend]
    simp only [k2, if_false]
  · exact hgu
  · rw [e, hx]

/-! ### A build that finds nothing -/

/-- Slots with valid parity that are not GOOD give no record, and leave the answer set. -/
theorem State.gather_none (room : Nat) (l : List Nat) (s : State) (hn : s.nct.node ≠ .halted) (hr : room ≠ 0)
    (h : ∀ n ∈ l, (s.entry n).parityGood = true ∧ (s.entry n).health ≠ .good) :
    ∃ answers, State.gather room l s = ({ s with rpe := { s.rpe with answers := answers } }, []) := by
  induction l generalizing s with
  | nil =>
    unfold State.gather
    exact ⟨s.rpe.answers, rfl⟩
  | cons n l ih =>
    obtain ⟨h1, h2⟩ := h n (List.mem_cons_self ..)
    obtain ⟨answers, e⟩ := ih (s.dropAnswer n) hn fun m hm => h m (List.mem_cons_of_mem _ hm)
    refine ⟨answers, ?_⟩
    unfold State.gather
    rw [if_neg (by simp [hr, hn]), if_neg (by simp [h1]), if_pos h2, e]
    rfl

/-- The entry of the kind stands no more. -/
theorem State.holds_withoutEntry (s : State) (k : FrameKind) : (s.withoutEntry k).obs.holds k = false :=
  Obs.holds_false.2 fun x hx => by
    have := (List.mem_filter.1 hx).2
    simpa using this

/-- Without a build in hand, an entry's removal reaches the queue alone. -/
theorem State.removeEntry_withoutEntry {s : State} (hb : s.obs.build = none) (k : FrameKind) :
    s.removeEntry k = s.withoutEntry k := by
  refine congrArg (fun b => ({ s with obs := {
    queue := s.obs.queue.filter fun e => !OutEntry.isKind k e, build := b } } : State)) (?_ : _ = s.obs.build)
  rw [hb]

/-- The build of a DROP that would name nobody removes the entry, and the decision timer starts anew (R80, R82). -/
theorem State.buildDrop_nobody {s : State} (h : s.dropsNobody) (hb : s.obs.build = none) :
    s.buildDrop = ((s.withoutEntry .drop).restartDecision, none) := by
  obtain ⟨hm, e, original, he, hr, ho⟩ := h
  unfold State.buildDrop State.buildMembers
  rw [State.badMember_good hm, he]
  obtain ⟨k, r, a, q⟩ := e
  simp only at hr
  subst hr
  simp only
  have : s.suspects.filter (StationMask.has original) = [] := by
    rw [List.filter_eq_nil_iff]
    intro n hn
    rw [StationMask.has, ho n hn]
    decide
  rw [this, State.removeEntry_withoutEntry hb]
  exact if_pos rfl

/-- A build that finds nothing to send. -/
theorem State.buildKind_of_leavesNothing {s u : State} {k : FrameKind} (hn : s.nct.node ≠ .halted)
    (hb : s.obs.build = none) (h : s.leavesNothing s.nct.now k u) : s.buildKind k = (u, none) := by
  have ho : s.obs = { s.obs with build := none } := by rw [← hb]
  have removed := State.removeEntry_withoutEntry hb
  cases k with
  | drop =>
    obtain ⟨hd, hu⟩ := h
    rw [show s.buildKind .drop = _ from State.buildDrop_nobody hd hb]
    refine congrArg (fun x => (x, none)) ?_
    rcases hu with ⟨hs, rfl⟩ | ⟨c, first, hc, hf, hr⟩
    · exact State.restartDecision_none (by exact hd.1) hs
    · exact State.restartDecision_restarted (s := s.withoutEntry .drop) (by exact hd.1) hc hf
        (State.holds_withoutEntry s .drop) hr
  | claim =>
    obtain ⟨slot, o, h1, h2, h3, h4, h5, rfl⟩ := h
    obtain ⟨kind, b⟩ := o
    simp only at h2
    subst h2
    show s.buildClaim = _
    unfold State.buildClaim State.buildEntry
    rw [h1, removed, State.endOp_eq]
    unfold State.withoutEntry
    simp only [h3, if_true, h1]
    rfl
  | yield =>
    obtain ⟨slot, o, h1, h2, h3, h4, rfl⟩ := h
    obtain ⟨kind, b⟩ := o
    simp only at h2
    subst h2
    show s.buildYield = _
    unfold State.buildYield State.buildEntry
    rw [h1, removed, State.endOp_eq]
    unfold State.withoutEntry
    simp only [h3, if_true, h1]
    rw [if_neg h4]
    rfl
  | post =>
    obtain ⟨o, h1, h2, ⟨d, h3, h4⟩, rfl⟩ := h
    show s.buildPost = _
    unfold State.buildPost
    rw [show (s.opu.drafts.find? fun d => !(s.entry d.slot).parityGood) = none by
      rw [List.find?_eq_none]; intro d hd; simp [h2 d hd]]
    simp only
    rw [if_neg (by rw [List.all_eq_true]; intro h; exact h4 (by simpa [State.owns] using h d h3)), State.endOp_eq]
    unfold State.removeEntry State.withoutEntry
    simp only [hb, h1]
    rw [ho]
    rfl
  | sync =>
    obtain ⟨h1, rfl⟩ := h
    obtain ⟨answers, e⟩ := State.gather_none 4 s.rpe.answers s hn (by decide) h1
    show s.buildSync = _
    unfold State.buildSync
    rw [e]
    simp only
    rw [if_neg hn]
    unfold State.setAnswers State.removeEntry State.withoutEntry
    simp only [if_true, hb]
    rw [ho]
    rfl
  | ask =>
    obtain ⟨h1, rfl⟩ := h
    show s.buildAsk = _
    unfold State.buildAsk
    rw [removed]
    cases hc : s.rpe.cycle with
    | none => rfl
    | some c =>
      simp only
      rw [h1 c hc]
  | leave | hello | beat => exact h.elim

/-- What a build that finds nothing reaches: for a DROP the membership unit and the queue, for any other kind the
queue without its entry, the repair engine, the operation unit and the notices. -/
theorem State.leavesNothing_frame {s u : State} {now : Time} {k : FrameKind} (h : s.leavesNothing now k u) :
    (∃ obs mbu rpe opu ntq, u = { s with obs := obs, mbu := mbu, rpe := rpe, opu := opu, ntq := ntq }) ∧
      u.obs.build = s.obs.build ∧ u.rpe.due = s.rpe.due ∧
      (∀ e ∈ u.obs.queue, e ∈ s.obs.queue ∧ e.kind ≠ k ∨ k = .drop ∧ e = s.dropEntry now) := by
  have without : ∀ e ∈ (s.withoutEntry k).obs.queue, e ∈ s.obs.queue ∧ e.kind ≠ k ∨ k = .drop ∧ e = s.dropEntry now :=
    fun e he => Or.inl ⟨(List.mem_filter.1 he).1, by simpa using (List.mem_filter.1 he).2⟩
  cases k with
  | drop =>
    obtain ⟨-, ⟨-, rfl⟩ | ⟨_, _, -, -, ⟨-, rfl⟩ | ⟨-, -, rfl⟩⟩⟩ := h
    · exact ⟨⟨_, _, _, _, _, rfl⟩, rfl, rfl, without⟩
    · exact ⟨⟨_, _, _, _, _, rfl⟩, rfl, rfl, without⟩
    · refine ⟨⟨_, _, _, _, _, rfl⟩, rfl, rfl, fun e he => ?_⟩
      rcases List.mem_append.1 he with h | h
      · exact without e h
      · exact Or.inr ⟨rfl, List.mem_singleton.1 h⟩
  | claim =>
    obtain ⟨_, _, _, _, _, _, _, rfl⟩ := h
    exact ⟨⟨_, _, _, _, _, rfl⟩, rfl, rfl, without⟩
  | yield =>
    obtain ⟨_, _, _, _, _, _, rfl⟩ := h
    exact ⟨⟨_, _, _, _, _, rfl⟩, rfl, rfl, without⟩
  | post =>
    obtain ⟨_, _, _, _, rfl⟩ := h
    exact ⟨⟨_, _, _, _, _, rfl⟩, rfl, rfl, without⟩
  | sync =>
    obtain ⟨_, rfl⟩ := h
    exact ⟨⟨_, _, _, _, _, rfl⟩, rfl, rfl, without⟩
  | ask =>
    obtain ⟨_, rfl⟩ := h
    exact ⟨⟨_, _, _, _, _, rfl⟩, rfl, rfl, without⟩
  | leave | hello | beat => exact h.elim

/-- A kind that stands and may be sent is passed over where its build finds nothing, with what that build leaves. -/
theorem State.offer_nothing {k : FrameKind} {ks : List FrameKind} {s u : State} (hh : s.obs.holds k = true)
    (hm : s.maySend k = true) (hr : s.nct.node ≠ .halted)
    (hs : if k.needsStore then s.fck.purpose = none ∧ s.rpe.due = none ∧ s.sar = Sar.idle
      else s.fck.purpose ≠ some .build)
    (hb : s.obs.build = none) (h : s.leavesNothing s.nct.now k u) : State.offer (k :: ks) s = State.offer ks u := by
  conv => lhs; unfold State.offer
  rw [if_pos (by rw [hh, hm]; rfl)]
  by_cases hn : k.needsStore = true
  · rw [if_pos hn] at hs
    obtain ⟨hf, hd, hsar⟩ := hs
    have hask : s.askFck .build =
        { s with fck := { s.fck with purpose := some .build }, sar := { Sar.idle with grant := some .fck } } := by
      rw [State.askFck_free hf, hsar]
      rfl
    obtain ⟨x, hx⟩ : ∃ x : State, x =
        { s with fck := { s.fck with purpose := some .build }, sar := { Sar.idle with grant := some .fck } } := ⟨_, rfl⟩
    rw [← hx] at hask
    have xn : x.nct = s.nct := by rw [hx]
    have xl : x.leavesNothing x.nct.now k { u with
        fck := { s.fck with purpose := some .build }, sar := { Sar.idle with grant := some .fck } } := by
      rw [hx]
      cases k with
      | claim =>
        obtain ⟨_, _, h1, h2, h3, h4, h5, rfl⟩ := h
        exact ⟨_, _, h1, h2, h3, h4, h5, rfl⟩
      | yield =>
        obtain ⟨_, _, h1, h2, h3, h4, rfl⟩ := h
        exact ⟨_, _, h1, h2, h3, h4, rfl⟩
      | post =>
        obtain ⟨_, h1, h2, h3, rfl⟩ := h
        exact ⟨_, h1, h2, h3, rfl⟩
      | sync =>
        obtain ⟨h1, rfl⟩ := h
        exact ⟨h1, rfl⟩
      | _ => cases hn
    have e := State.buildKind_of_leavesNothing (by rw [xn]; exact hr) (by rw [hx]; exact hb) xl
    simp only [hn, if_true, hask]
    rw [if_neg (by rw [hx]; simp [State.granted])]
    unfold State.offerOne
    simp only [hn, if_true]
    rw [State.openAccess_free (by rw [hx]; exact hd), if_neg (by rw [xn]; exact hr), e]
    simp only
    obtain ⟨⟨obs, mbu, rpe, opu, ntq, hu⟩, -, hdue, -⟩ := State.leavesNothing_frame h
    have ud : u.rpe.due = none := hdue.trans hd
    have un : u.nct.node ≠ .halted := by rw [hu]; exact hr
    rw [State.andThen_running (by exact un),
      State.endAccess_held (p := .build) (by exact ⟨rfl, rfl, ud⟩) (by exact un)]
    rw [if_neg (by exact un)]
    have e1 : ({ s.fck with purpose := none } : Fck) = u.fck := by rw [hu, ← hf]
    have e2 : Sar.handOver { Sar.idle with grant := some .fck } = u.sar := by rw [hu]; exact hsar.symm
    simp only
    rw [e1, e2]
  · rw [if_neg hn] at hs
    have hc : s.cutBuild = s := by unfold State.cutBuild; rw [if_neg hs]
    simp only [hn, Bool.false_and, Bool.false_eq_true, if_false]
    unfold State.offerOne
    rw [if_neg hn]
    simp only [hc]
    rw [if_neg hr, State.buildKind_of_leavesNothing hr hb h]

/-- What a DROP's build leaves holds no DROP entry, or a new one that is built (R80, R82; log entry 30). -/
theorem State.offer_drop_again {s u : State} (ks : List FrameKind) (h : s.mayStart .drop)
    (hu : s.leavesNothing s.nct.now .drop u) :
    State.offer (.drop :: .drop :: ks) u = State.offer (.drop :: ks) u := by
  obtain ⟨hd, ⟨-, rfl⟩ | ⟨c, first, hc, hf, hr⟩⟩ := hu
  · exact State.offer_skip (by rw [State.holds_withoutEntry]; rfl)
  · rcases hr with ⟨-, rfl⟩ | ⟨-, -, rfl⟩
    · exact State.offer_skip (by
        show ((s.withoutEntry .drop).obs.holds .drop && _) = false
        rw [State.holds_withoutEntry]
        rfl)
    · obtain ⟨y, hy⟩ : ∃ y : State, y = { s.withoutEntry .drop with
          mbu := { s.mbu with decision := none },
          obs := { s.obs with queue := (s.withoutEntry .drop).obs.queue ++ [s.dropEntry s.nct.now] } } := ⟨_, rfl⟩
      have hh : y.obs.holds .drop = true := by
        rw [hy]
        exact Obs.holds_true.2 ⟨_, List.mem_append.2 (Or.inr (List.mem_singleton.2 rfl)), rfl⟩
      have hfind : y.obs.find .drop = some (s.dropEntry s.nct.now) := by
        rw [hy]
        show ((s.withoutEntry .drop).obs.queue ++ [s.dropEntry s.nct.now]).find? (OutEntry.isKind .drop) = _
        have : (s.withoutEntry .drop).obs.queue.find? (OutEntry.isKind .drop) = none := by
          rw [List.find?_eq_none]
          intro x hx
          have := (List.mem_filter.1 hx).2
          simpa [OutEntry.isKind] using this
        rw [List.find?_append, this]
        rfl
      have hsus : y.suspects = s.suspects := by rw [hy]; rfl
      have hall : s.suspects.filter (fun n => (maskOf s.suspects).getLsbD n) = s.suspects :=
        List.filter_eq_self.2 fun n hn => maskOf_has hn (List.mem_range.1 (List.mem_filter.1 hn).1)
      have hz : maskOf s.suspects ≠ 0 := by
        obtain ⟨⟨n, hn, -⟩, -⟩ := hf
        intro hz
        have := maskOf_has hn (List.mem_range.1 (List.mem_filter.1 hn).1)
        rw [hz] at this
        simp at this
      have hb : y.builds (.drop (maskOf s.suspects)) := by
        refine ⟨by rw [hy]; exact hd.1, hz, _, _, hfind, rfl, ?_⟩
        rw [hsus, hall]
      have hms : y.maySend .drop = true := by
        have := State.maySend_of_mayStart h
        rw [hy]
        exact this
      have hn : y.nct.node ≠ .halted := by rw [hy]; exact h.1.2
      have hp : y.fck.purpose ≠ some .build := by
        have := h.2.2.2.2.2.2
        rw [hy]
        exact this
      have hcut : y.cutBuild = y := by
        unfold State.cutBuild
        rw [if_neg hp]
      have hk := State.buildKind_of_builds hn hb
      rw [show ({ s.withoutEntry .drop with
          mbu := { (s.withoutEntry .drop).mbu with decision := none },
          obs := { (s.withoutEntry .drop).obs with
            queue := (s.withoutEntry .drop).obs.queue ++ [(s.withoutEntry .drop).dropEntry s.nct.now] } } : State) = y
        from hy.symm]
      have ho : ∀ ks, State.offer (.drop :: ks) y = (y, some (.drop (maskOf s.suspects))) := fun ks =>
        State.offer_take hh hms rfl (by rw [hcut]; exact hn) (by rw [hcut]; exact hk)
      rw [ho, ho]

/-- The scheduler passes over a build that finds nothing (R135). -/
theorem State.buildFrame_of_leavesNothing {s u : State} {k : FrameKind} (h : s.mayStart k)
    (hu : s.leavesNothing s.nct.now k u) : s.buildFrame = u.buildFrame := by
  have hms := State.maySend_of_mayStart h
  have hw := h
  obtain ⟨hr, -, hb, hh, hl, hm, hs⟩ := h
  obtain ⟨-, -, -, hq⟩ := State.leavesNothing_frame hu
  have hul : ∀ e ∈ u.obs.queue, k.code ≤ e.kind.code := fun x hx => by
    rcases hq x hx with h | ⟨rfl, rfl⟩
    · exact hl x h.1
    · exact le_refl _
  suffices State.offer kindOrder s = State.offer kindOrder u by
    unfold State.buildFrame
    rw [this]
  by_cases hk : k = .drop
  · subst hk
    have skip : ∀ v : State, (∀ e ∈ v.obs.queue, FrameKind.drop.code ≤ e.kind.code) →
        State.offer kindOrder v = State.offer (kindOrder.drop 1) v := fun v hv => by
      refine State.offer_skip ?_
      have : v.obs.holds .leave = false := Obs.holds_false.2 fun e he hk => by
        have := hv e he
        rw [hk] at this
        exact absurd this (by decide)
      rw [this]
      rfl
    rw [skip s hl, skip u hul]
    exact (State.offer_nothing hh hms hr.2 hs hb hu).trans (State.offer_drop_again _ hw hu).symm
  · obtain ⟨ks, e⟩ := State.offer_from k
    have huk : u.obs.holds k = false := Obs.holds_false.2 fun x hx h => by
      rcases hq x hx with h' | ⟨h', -⟩
      · exact h'.2 h
      · exact hk h'
    rw [e s hl, e u hul, State.offer_skip (s := u) (by rw [huk]; rfl), State.offer_nothing hh hms hr.2 hs hb hu]

/-! ### The idle time before the build -/

/-- The idle time of the bus reaches the time, the bus interface and the scrubber alone, and depends on them alone. -/
theorem State.idleFor_alike (s : State) (bits : Nat) :
    ∃ nct pbi scb, nct.config = s.nct.config ∧ nct.node = s.nct.node ∧ nct.phase = s.nct.phase ∧
      nct.station = s.nct.station ∧ nct.nrstLow = s.nct.nrstLow ∧
      ∀ obs mbu rpe opu ntq, State.idleFor { s with obs := obs, mbu := mbu, rpe := rpe, opu := opu, ntq := ntq } bits =
        { s with
          obs := obs, mbu := mbu, rpe := rpe, opu := opu, ntq := ntq, nct := nct, pbi := pbi, scb := scb } := by
  refine ⟨(s.idleFor bits).nct, (s.idleFor bits).pbi, (s.idleFor bits).scb, ?_, ?_, ?_, ?_, ?_, fun _ _ _ _ _ => ?_⟩
  all_goals
    unfold State.idleFor State.elapse
    by_cases hl : s.pbi.lines = .high <;> by_cases hr : s.nct.nrstLow = true <;>
      simp only [hl, hr, if_true, if_false] <;> rfl

/-- The entry that may start before the idle time of the bus may start after it. -/
theorem State.mayStart_idle {s : State} {k : FrameKind} {nct : Nct} {pbi : Pbi} (scb : Scb) (h : s.mayStart k)
    (hn : nct.node = s.nct.node) (hp : nct.phase = s.nct.phase) (hr : nct.nrstLow = s.nct.nrstLow)
    (hi : pbi.shift = .idle) : State.mayStart { s with nct := nct, pbi := pbi, scb := scb } k := by
  obtain ⟨h1, h2, h3, h4, h5, h6, h7⟩ := h
  refine ⟨⟨?_, ?_⟩, ?_, h3, h4, h5, ?_, h7⟩
  · show nct.nrstLow = false
    rw [hr]
    exact h1.1
  · show nct.node ≠ _
    rw [hn]
    exact h1.2
  · show pbi.mayIdle = true
    unfold Pbi.mayIdle
    rw [hi]
    rfl
  · show (_ ∧ nct.node = _) ∨ (_ ∧ nct.node.participating = true ∧ (nct.phase = _ → _))
    rw [hn, hp]
    exact h6

/-- Quorum is over the membership table and the station alone (R79). -/
theorem State.hasQuorum_idle {s : State} {nct : Nct} (pbi : Pbi) (scb : Scb) (hn : nct.station = s.nct.station) :
    State.hasQuorum { s with nct := nct, pbi := pbi, scb := scb } ↔ s.hasQuorum := by
  unfold State.hasQuorum State.liveSet
  rw [show State.memberSet { s with nct := nct, pbi := pbi, scb := scb } = s.memberSet from rfl]
  simp only [hn]
  exact Iff.rfl

/-- A build that finds nothing before the idle time of the bus finds nothing after it. -/
theorem State.leavesNothing_idle {s u : State} {now : Time} {k : FrameKind} {nct : Nct} (pbi : Pbi) (scb : Scb)
    (h : s.leavesNothing now k u) (hn : nct.station = s.nct.station) (hc : nct.config = s.nct.config) :
    State.leavesNothing { s with nct := nct, pbi := pbi, scb := scb } now k
      { u with nct := nct, pbi := pbi, scb := scb } := by
  cases k with
  | drop =>
    obtain ⟨h1, h2⟩ := h
    refine ⟨h1, ?_⟩
    rcases h2 with ⟨h3, rfl⟩ | ⟨c, first, h3, h4, h5⟩
    · exact Or.inl ⟨h3, rfl⟩
    · have hc' : State.hasConfig { s with nct := nct, pbi := pbi, scb := scb } c := ⟨hc.trans h3.1, h3.2⟩
      refine Or.inr ⟨c, first, hc', h4, ?_⟩
      have hsus : State.suspects { s with nct := nct, pbi := pbi, scb := scb } = s.suspects := rfl
      have hq := State.hasQuorum_idle (s := s) pbi scb hn
      rcases h5 with ⟨h6, rfl⟩ | ⟨h6, h7, rfl⟩
      · exact Or.inl ⟨h6, rfl⟩
      · exact Or.inr ⟨h6, hq.2 h7, rfl⟩
  | claim =>
    obtain ⟨_, _, h1, h2, h3, h4, h5, rfl⟩ := h
    exact ⟨_, _, h1, h2, h3, h4, h5, rfl⟩
  | yield =>
    obtain ⟨_, _, h1, h2, h3, h4, rfl⟩ := h
    refine ⟨_, _, h1, h2, h3, ?_, rfl⟩
    show (s.entry _).state ≠ .owned nct.station
    rw [hn]
    exact h4
  | post =>
    obtain ⟨_, h1, h2, ⟨d, h3, h4⟩, rfl⟩ := h
    refine ⟨_, h1, h2, ⟨d, h3, ?_⟩, ?_⟩
    · show (s.entry _).state ≠ .owned nct.station
      rw [hn]
      exact h4
    · show _ = ({ s with
        nct := nct, pbi := pbi, scb := scb, obs := _, ntq := _,
        opu := {
          op := none,
          drafts := s.opu.drafts.filter (fun d => decide ((s.entry d.slot).state = .owned nct.station)) } } : State)
      rw [hn]
      rfl
  | sync =>
    obtain ⟨h1, rfl⟩ := h
    exact ⟨h1, rfl⟩
  | ask =>
    obtain ⟨h1, rfl⟩ := h
    exact ⟨h1, rfl⟩
  | leave | hello | beat => exact h.elim

/-- Local time when the bus is free for the node. -/
theorem State.idleFor_now {s : State} (hr : s.nct.nrstLow = false) :
    (s.idleFor s.pbi.freeCount).nct.now = s.freeTime := by
  unfold State.idleFor State.elapse State.freeTime Pbi.freeCount bitsPerMs after
  by_cases hl : s.pbi.lines = .high <;> simp [hl, hr, Pbi.goHigh, Config.flaggedFreeBits, Config.freeBits]

/-- Of the scrubber, idle time moves the timer alone. -/
theorem State.idleFor_scb (s : State) (bits : Nat) :
    (s.idleFor bits).scb = { s.scb with timer := (s.idleFor bits).scb.timer } := by
  unfold State.idleFor State.elapse
  by_cases hl : s.pbi.lines = .high <;> by_cases hr : s.nct.nrstLow = true <;> simp only [hl, hr, if_true, if_false] <;>
    rfl

/-- A DROP that names nobody, with the grace of the earliest suspicion past and no quorum, isolates the node and
leaves nothing to start (R80, R82, R84). -/
theorem State.startFrame_isolates {s : State} {c : NodeConfig} {first : Time} (hd : sparseWf DirEntry.blank s.dir)
    (h : s.mayStart .drop) (hc : s.hasConfig c) (hn : s.dropsNobody) (hf : s.firstSuspicion s.suspects first)
    (ht : passed s.nct.now (first + BitVec.ofNat 32 c.beat)) (hq : ¬s.hasQuorum) (startSeen : Bool) :
    s.isolatedFrom (s.startFrame startSeen) .noQuorum := by
  have hms := State.maySend_of_mayStart h
  obtain ⟨hr, -, hb, hh, hl, hm, hs⟩ := h
  have hp : s.nct.node.participating = true := by
    rcases hm with ⟨h, -⟩ | ⟨-, h, -⟩
    · cases h
    · exact h
  have iso : State.isolatedFrom s (s.withoutEntry .drop).restartDecision .noQuorum :=
    State.restartDecision_isolates (s := s.withoutEntry .drop) hp hd hn.1 hc hf ht hq
  have hbd : s.buildKind .drop = _ := State.buildDrop_nobody hn hb
  generalize (s.withoutEntry .drop).restartDecision = t at iso hbd
  have ho : t.obs = { queue := [], build := none } := iso.2.2.1
  have hk : ∀ k, t.obs.holds k = false := fun k => by rw [ho]; rfl
  have hcut : s.cutBuild = s := by unfold State.cutBuild; exact if_neg hs
  have hoff : State.offer kindOrder s = (t, none) := by
    have hleave : s.obs.holds .leave = false := Obs.holds_false.2 fun e he hk => by
      have := hl e he
      rw [hk] at this
      exact absurd this (by decide)
    unfold kindOrder
    rw [State.offer_skip (by rw [hleave]; rfl)]
    conv => lhs; unfold State.offer
    rw [if_pos (by rw [hh, hms]; rfl)]
    simp only [FrameKind.needsStore, Bool.false_and, Bool.false_eq_true, if_false]
    unfold State.offerOne
    simp only [FrameKind.needsStore, Bool.false_eq_true, if_false, hcut]
    rw [if_neg hr.2, hbd]
    simp only
    repeat rw [State.offer_skip (by rw [hk]; rfl)]
    unfold State.offer State.cutBuild
    rw [if_neg (by rw [iso.2.2.2.2.2.2.1]; nofun)]
  unfold State.startFrame State.buildFrame
  simp only [hb, Option.isSome_none, Bool.false_eq_true, if_false, hoff, ho]
  exact iso

end Sys2Proof.Machine
end

