-- ==== Sys2Proof/Laws/Checks.lean ====
section
/-!
SUPPORT. What the four groups of tests on a frame answer, with a valid configuration and valid parities (R43–R46,
Table 3-2).
-/

set_option Elab.async false

namespace Sys2Proof.Machine

/-- The comparison of versions is that of R25. -/
theorem newer_iff (v u : Word) : newer v u = true ↔ newerThan v u := by
  unfold newer newerThan
  simp

/-! ### The sender test -/

theorem State.senderTest_eq (f : Frame) {s : State} (hm : s.membersGood) : s.senderTest f =
    if f.kind = .hello ∨ (s.mbu.entry f.sender.toNat).state ≠ .absent then .pass
    else .veto (some .nonmemberFrame) := by
  unfold State.senderTest State.checkMember
  rw [if_pos (hm _ f.sender.isLt)]
  obtain ⟨sender, p⟩ := f
  cases p <;> simp only [Frame.kind, Payload.kind] <;>
    by_cases h : (s.mbu.entry sender.toNat).state = .absent <;> simp [h]

/-! ### The format test -/

theorem formatGood_iff (n : Nat) (f : Frame) : formatGood n f = true ↔ f.formatHolds n := by
  obtain ⟨sender, p⟩ := f
  cases p with
  | post items =>
    simp only [formatGood, Frame.formatHolds, listFormat, repeatsSlot, Config.rowWords, List.length_map,
      Bool.and_eq_true, decide_eq_true_eq, Bool.not_not, List.all_eq_true, List.mem_map, forall_exists_index,
      and_imp, forall_apply_eq_imp_iff₂]
    constructor
    · rintro ⟨⟨⟨⟨h1, h2⟩, h3⟩, h4⟩, h5⟩
      exact ⟨h1, h2, h5, fun i hi => ⟨h3 i hi, h4 i hi⟩⟩
    · rintro ⟨h1, h2, h5, h⟩
      exact ⟨⟨⟨⟨h1, h2⟩, fun i hi => (h i hi).1⟩, fun i hi => (h i hi).2⟩, h5⟩
  | sync records =>
    simp only [formatGood, Frame.formatHolds, listFormat, repeatsSlot, Config.rowWords, List.length_map,
      Bool.and_eq_true, decide_eq_true_eq, Bool.not_not, List.all_eq_true, List.mem_map, forall_exists_index,
      and_imp, forall_apply_eq_imp_iff₂]
    constructor
    · rintro ⟨⟨⟨⟨⟨h1, h2⟩, h3⟩, h4⟩, h5⟩, h6⟩
      exact ⟨h1, h2, h5, fun i hi => ⟨h3 i hi, h4 i hi, h6 i hi⟩⟩
    · rintro ⟨h1, h2, h5, h⟩
      exact ⟨⟨⟨⟨⟨h1, h2⟩, fun i hi => (h i hi).1⟩, fun i hi => (h i hi).2.1⟩, h5⟩, fun i hi => (h i hi).2.2⟩
  | ask a b c => simp only [formatGood, Frame.formatHolds, Bool.and_eq_true, decide_eq_true_eq, and_assoc]
  | drop m => simp [formatGood, Frame.formatHolds, StationMask.has]
  | beat m p => simp [formatGood, Frame.formatHolds, StationMask.has]
  | _ => simp [formatGood, Frame.formatHolds]

theorem State.formatTest_eq (f : Frame) {c : NodeConfig} {s : State} (hc : s.hasConfig c) :
    (f.formatHolds c.activeSlots → s.formatTest f = .pass) ∧
      (¬f.formatHolds c.activeSlots → s.formatTest f = .veto (some .frameFormat)) := by
  have key : s.formatTest f =
      if formatGood c.activeSlots f then .pass else .veto (some .frameFormat) := by
    unfold State.formatTest State.checkConfig
    rw [hc.1]
    simp only [hc.2, if_true]
    obtain ⟨sender, p⟩ := f
    cases p <;> rfl
  rw [key]
  exact ⟨fun h => if_pos ((formatGood_iff _ _).2 h), fun h => if_neg fun h' => h ((formatGood_iff _ _).1 h')⟩

/-! ### The parameter test -/

theorem State.paramTest_eq (f : Frame) {c : NodeConfig} {s : State} (hc : s.hasConfig c) :
    (f.paramsHold c s.nct.rate → s.paramTest f = .pass) ∧
      (¬f.paramsHold c s.nct.rate → s.paramTest f = .veto (some .configMismatch)) := by
  obtain ⟨sender, p⟩ := f
  unfold State.paramTest State.checkConfig Frame.paramsHold
  rw [hc.1]
  simp only [hc.2, if_true]
  cases p with
  | hello p => exact ⟨fun h => if_pos h, fun h => if_neg h⟩
  | beat m p => exact ⟨fun h => if_pos h, fun h => if_neg h⟩
  | _ => simp

/-! ### The state test -/

/-- A test passes where `P` holds, and otherwise vetoes without a report. -/
def Says (r : CheckResult) (P : Prop) : Prop := (P → r = .pass) ∧ (¬P → r = .veto none)

theorem Says.require {b : Bool} {P : Prop} (h : b = true ↔ P) : Says (.require b) P := by
  unfold CheckResult.require
  exact ⟨fun h' => if_pos (h.2 h'), fun h' => if_neg (fun h'' => h' (h.1 h''))⟩

/-- The tests of a list, one after the other. -/
theorem Says.fold {α : Type} (l : List α) (t : α → CheckResult) (P : α → Prop) (h : ∀ a ∈ l, Says (t a) (P a)) :
    Says (l.foldr (fun a r => (t a).andNext r) .pass) (∀ a ∈ l, P a) := by
  induction l with
  | nil => exact ⟨fun _ => rfl, fun h => absurd (fun a ha => by cases ha) h⟩
  | cons a l ih =>
    have h1 := h a (by simp)
    have h2 := ih (fun b hb => h b (by simp [hb]))
    rw [List.foldr_cons]
    by_cases hp : P a
    · rw [h1.1 hp]
      constructor
      · intro hall
        exact h2.1 (fun b hb => hall b (by simp [hb]))
      · intro hn
        exact h2.2 (fun hl => hn (fun b hb => by rcases List.mem_cons.1 hb with rfl | hb; exacts [hp, hl b hb]))
    · rw [h1.2 hp]
      exact ⟨fun hall => absurd (hall a (by simp)) hp, fun _ => rfl⟩

theorem State.ownerTest_says {s : State} (sender : Station) (slot : Byte) (v : Word) (hg : s.entriesGood) :
    Says (s.ownerTest sender slot.toNat v) (s.ownerHolds sender slot v) := by
  unfold State.ownerTest State.checkEntry State.ownerHolds
  rw [if_pos (hg _)]
  simp only
  cases h : (s.entry slot.toNat).state with
  | unlearned => exact ⟨fun _ => rfl, fun h => absurd (Or.inl rfl) h⟩
  | _ => exact Says.require (by simp [newer_iff])

theorem State.claimTest_says {s : State} (slot : Byte) (v : Word) (hg : s.entriesGood) :
    Says (s.claimTest slot.toNat v) ((s.entry slot.toNat).state = .unlearned ∨
      (((s.entry slot.toNat).state = .free ∨ (s.entry slot.toNat).state = .orphaned) ∧
        newerThan v (s.entry slot.toNat).version)) := by
  unfold State.claimTest State.checkEntry
  rw [if_pos (hg _)]
  simp only
  cases h : (s.entry slot.toNat).state with
  | unlearned => exact ⟨fun _ => rfl, fun h => absurd (Or.inl rfl) h⟩
  | owned o => exact ⟨fun h => by simp at h, fun _ => rfl⟩
  | _ => exact Says.require (by simp [newer_iff])

theorem State.stateTest_says {s : State} (f : Frame) (hm : s.membersGood) (hg : s.entriesGood) :
    Says (s.stateTest f) (s.stateHolds f) := by
  obtain ⟨sender, p⟩ := f
  cases p with
  | hello p =>
    unfold State.stateTest State.checkMember
    simp only
    rw [if_pos (hm _ sender.isLt)]
    exact Says.require (by simp [State.stateHolds])
  | claim slot v => exact State.claimTest_says slot v hg
  | yield slot v => exact State.ownerTest_says sender slot v hg
  | post items => exact Says.fold _ _ _ (fun i _ => State.ownerTest_says sender i.slot i.version hg)
  | sync records =>
    refine Says.fold _ _ _ (fun r _ => ?_)
    unfold State.recordTest State.checkMember
    split
    · rename_i h
      rw [if_pos (hm _ r.owner.isLt)]
      exact Says.require (by simp [h])
    · rename_i h
      exact ⟨fun _ => rfl, fun h' => absurd (fun h2 => absurd h2 h) h'⟩
  | _ => exact ⟨fun _ => rfl, fun h => absurd trivial h⟩

end Sys2Proof.Machine
end

