-- ==== Sys2Proof/Laws/Frames.lean ====
section
/-!
SUPPORT. The layouts of frames read back what they wrote (R19, R201).
-/

set_option Elab.async false

namespace Sys2Proof.Machine

/-- The parameter byte of Table 12-2. -/
theorem params_bits : ∀ (r : BitVec 2) (c : BitVec 2) (n : BitVec 4),
    ((r ++ c ++ n : BitVec 8) >>> 6).setWidth 2 = r ∧ ((r ++ c ++ n : BitVec 8) >>> 4).setWidth 2 = c ∧
        (r ++ c ++ n : BitVec 8).setWidth 4 = n := by decide +kernel
theorem nibbles : ∀ (a b : BitVec 4), ((a ++ b : BitVec 8) >>> 4).setWidth 4 = a ∧
    (a ++ b : BitVec 8).setWidth 4 = b ∧ ((a ++ b : BitVec 8) >>> 4).toNat = a.toNat := by decide +kernel
theorem ask_bits : ∀ (m : BitVec 3) (c : BitVec 5), ((m ++ c : BitVec 8) >>> 5).setWidth 3 = m ∧
    (m ++ c : BitVec 8).setWidth 5 = c := by decide +kernel

/-- Each layout reads back what it wrote. -/
theorem takeParams_bytes (p : WireParams) (more : List Byte) : takeParams (p.bytes ++ more) = some (p, more) := by
  obtain ⟨r, c, n, b⟩ := p
  show takeParams ((r ++ c ++ n : BitVec 8) :: (b >>> 8).setWidth 8 :: b.setWidth 8 :: more) = _
  unfold takeParams; simp only
  obtain ⟨h1, h2, h3⟩ := params_bits r c n
  rw [h1, h2, h3, wordOf_bytes]

theorem takeItem_bytes (i : Item) (more : List Byte) (h : i.words.length < 256) :
    takeItem (i.bytes ++ more) = some (i, more) := by
  obtain ⟨s, v, ws⟩ := i
  show takeItem (s :: (v >>> 8).setWidth 8 :: v.setWidth 8 :: BitVec.ofNat 8 ws.length :: (wordsBytes ws ++ more)) = _
  unfold takeItem; simp only
  have : (BitVec.ofNat 8 ws.length).toNat = ws.length := by rw [BitVec.toNat_ofNat]; exact Nat.mod_eq_of_lt h
  rw [this, takeWords_bytes]
  simp only [wordOf_bytes]

theorem takeRecord_bytes (i : Record) (more : List Byte) (h : i.words.length < 256) :
    takeRecord (i.bytes ++ more) = some (i, more) := by
  obtain ⟨s, c, o, v, ws⟩ := i
  show takeRecord (s :: (c ++ o : BitVec 8) :: (v >>> 8).setWidth 8 :: v.setWidth 8 :: BitVec.ofNat 8 ws.length ::
    (wordsBytes ws ++ more)) = _
  unfold takeRecord; simp only
  have : (BitVec.ofNat 8 ws.length).toNat = ws.length := by rw [BitVec.toNat_ofNat]; exact Nat.mod_eq_of_lt h
  rw [this, takeWords_bytes]
  obtain ⟨h1, h2, _⟩ := nibbles c o
  simp only [wordOf_bytes, h1, h2]

theorem takeItems_bytes (l : List Item) (h : ∀ i ∈ l, i.words.length < 256) :
    takeItems l.length (l.flatMap Item.bytes) = some (l, []) := by
  induction l with
  | nil => rfl
  | cons i l ih =>
    rw [List.length_cons, List.flatMap_cons]
    unfold takeItems
    rw [takeItem_bytes i _ (h i (List.mem_cons_self ..))]
    simp only
    rw [ih (fun j hj => h j (List.mem_cons_of_mem _ hj))]

theorem takeRecords_bytes (l : List Record) (h : ∀ i ∈ l, i.words.length < 256) :
    takeRecords l.length (l.flatMap Record.bytes) = some (l, []) := by
  induction l with
  | nil => rfl
  | cons i l ih =>
    rw [List.length_cons, List.flatMap_cons]
    unfold takeRecords
    rw [takeRecord_bytes i _ (h i (List.mem_cons_self ..))]
    simp only
    rw [ih (fun j hj => h j (List.mem_cons_of_mem _ hj))]

/-- A payload that fits is read back from its bytes (R19). -/
theorem readPayload_bytes (p : Payload) (h : match p with
    | .post items => items.length < 256 ∧ ∀ i ∈ items, i.words.length < 256
    | .sync records => records.length < 256 ∧ ∀ r ∈ records, r.words.length < 256
    | _ => True) : readPayload p.kind.code p.bytes = some p := by
  cases p with
  | leave => rfl
  | drop m =>
    show some (Payload.drop (wordOf _ _)) = _
    rw [wordOf_bytes]
  | hello p =>
    show (match takeParams p.bytes with | some (p, []) => some (Payload.hello p) | _ => none) = _
    have := takeParams_bytes p []
    rw [List.append_nil] at this
    rw [this]
  | claim s v =>
    show some (Payload.claim s (wordOf _ _)) = _
    rw [wordOf_bytes]
  | yield s v =>
    show some (Payload.yield s (wordOf _ _)) = _
    rw [wordOf_bytes]
  | post items =>
    show (match takeItems (BitVec.ofNat 8 items.length).toNat (items.flatMap Item.bytes) with
      | some (l, []) => some (Payload.post l)
      | _ => none) = _
    have : (BitVec.ofNat 8 items.length).toNat = items.length := by rw [BitVec.toNat_ofNat]; exact Nat.mod_eq_of_lt h.1
    rw [this, takeItems_bytes _ h.2]
  | sync records =>
    show (match takeRecords (BitVec.ofNat 8 records.length).toNat (records.flatMap Record.bytes) with
      | some (l, []) => some (Payload.sync l)
      | _ => none) = _
    have : (BitVec.ofNat 8 records.length).toNat = records.length := by
      rw [BitVec.toNat_ofNat]
      exact Nat.mod_eq_of_lt h.1
    rw [this, takeRecords_bytes _ h.2]
  | ask first mode count =>
    show some (Payload.ask first (((mode ++ count : BitVec 8) >>> 5).setWidth 3)
      ((mode ++ count : BitVec 8).setWidth 5)) = _
    rw [(ask_bits mode count).1, (ask_bits mode count).2]
  | beat m p =>
    show (match takeParams p.bytes with | some (p, []) => some (Payload.beat (wordOf _ _) p) | _ => none) = _
    have := takeParams_bytes p []
    rw [List.append_nil] at this
    rw [this, wordOf_bytes]

end Sys2Proof.Machine
end

