-- ==== Sys2Proof/Laws/Classify.lean ====
section
/-!
SUPPORT. Which payloads a receiver can read: those of the length that R19 gives, and the frame it reads has the bytes it
came in (R8, R19, R201).
-/

set_option Elab.async false

namespace Sys2Proof.Machine

theorem paramByte_bits : ∀ p : Byte,
    ((p >>> 6).setWidth 2 ++ (p >>> 4).setWidth 2 ++ p.setWidth 4 : BitVec 8) = p := by decide +kernel
theorem nibbles_bits : ∀ b : Byte, ((b >>> 4).setWidth 4 ++ b.setWidth 4 : BitVec 8) = b := by decide +kernel
theorem askByte_bits : ∀ b : Byte, ((b >>> 5).setWidth 3 ++ b.setWidth 5 : BitVec 8) = b := by decide +kernel

/-- A word read from two bytes goes out as them. -/
theorem bytes_wordOf (hi lo : Byte) : Word.bytes (wordOf hi lo) = [hi, lo] := by
  unfold Word.bytes wordOf
  congr 1
  · apply BitVec.eq_of_toNat_eq
    rw [BitVec.toNat_setWidth, BitVec.toNat_ushiftRight, BitVec.toNat_append, Nat.shiftRight_eq_div_pow,
      Nat.shiftLeft_eq]
    have h1 := hi.isLt
    have h2 := lo.isLt
    rw [← Nat.shiftLeft_eq, ← Nat.shiftLeft_add_eq_or_of_lt h2, Nat.shiftLeft_eq]
    omega
  · congr 1
    apply BitVec.eq_of_toNat_eq
    rw [BitVec.toNat_setWidth, BitVec.toNat_append]
    have h1 := hi.isLt
    have h2 := lo.isLt
    rw [← Nat.shiftLeft_add_eq_or_of_lt h2, Nat.shiftLeft_eq]
    omega

/-- Words are read where there are enough bytes for them. -/
theorem takeWords_spec (n : Nat) (bytes : List Byte) :
    (2 * n ≤ bytes.length → ∃ ws, takeWords n bytes = some (ws, bytes.drop (2 * n)) ∧ ws.length = n ∧
      wordsBytes ws = bytes.take (2 * n)) ∧
    (bytes.length < 2 * n → takeWords n bytes = none) := by
  induction n generalizing bytes with
  | zero => exact ⟨fun _ => ⟨[], rfl, rfl, by simp [wordsBytes]⟩, fun h => by omega⟩
  | succ n ih =>
    match bytes with
    | [] => exact ⟨fun h => by simp at h, fun _ => rfl⟩
    | [b] => exact ⟨fun h => by simp at h; omega, fun _ => rfl⟩
    | hi :: lo :: rest =>
      obtain ⟨h1, h2⟩ := ih rest
      rw [show 2 * (n + 1) = 2 * n + 2 by omega]
      unfold takeWords
      refine ⟨fun h => ?_, fun h => ?_⟩
      · obtain ⟨ws, e, hl, hb⟩ := h1 (by simpa using h)
        rw [e]
        refine ⟨wordOf hi lo :: ws, by simp, by simp [hl], ?_⟩
        show Word.bytes (wordOf hi lo) ++ wordsBytes ws = _
        rw [bytes_wordOf, hb]
        rfl
      · rw [h2 (by simpa using h)]

/-- One entry of a list is read where its length field and all its words are there. -/
def TakesOne {α : Type} (take : List Byte → Option (α × List Byte)) (bytesOf : α → List Byte)
    (fixed place : Nat) : Prop :=
  ∀ bytes : List Byte, (bytes[place]? = none → take bytes = none) ∧
    ∀ length, bytes[place]? = some length →
      (fixed + 2 * length.toNat ≤ bytes.length → ∃ a, take bytes = some (a, bytes.drop (fixed + 2 * length.toNat)) ∧
        bytesOf a = bytes.take (fixed + 2 * length.toNat)) ∧
      (bytes.length < fixed + 2 * length.toNat → take bytes = none)

theorem takeItem_spec : TakesOne takeItem Item.bytes 4 3 := by
  intro bytes
  match bytes with
  | [] => exact ⟨fun _ => rfl, fun _ h => by simp at h⟩
  | [_] => exact ⟨fun _ => rfl, fun _ h => by simp at h⟩
  | [_, _] => exact ⟨fun _ => rfl, fun _ h => by simp at h⟩
  | [_, _, _] => exact ⟨fun _ => rfl, fun _ h => by simp at h⟩
  | slot :: vhi :: vlo :: len :: rest =>
    refine ⟨fun h => by simp at h, fun length h => ?_⟩
    have : len = length := by simpa using h
    subst this
    obtain ⟨h1, h2⟩ := takeWords_spec len.toNat rest
    refine ⟨fun h => ?_, fun h => ?_⟩
    · obtain ⟨ws, e, hl, hb⟩ := h1 (by simp at h; omega)
      refine ⟨{ slot := slot, version := wordOf vhi vlo, words := ws }, ?_, ?_⟩
      · unfold takeItem
        simp only [e]
        rw [show 4 + 2 * len.toNat = 2 * len.toNat + 4 by omega]
        rfl
      · show slot :: (Word.bytes (wordOf vhi vlo) ++ BitVec.ofNat 8 ws.length :: wordsBytes ws) = _
        rw [bytes_wordOf, hb, hl, show 4 + 2 * len.toNat = 2 * len.toNat + 4 by omega]
        simp
    · unfold takeItem
      simp only [h2 (by simp at h; omega)]

theorem takeRecord_spec : TakesOne takeRecord Record.bytes 5 4 := by
  intro bytes
  match bytes with
  | [] => exact ⟨fun _ => rfl, fun _ h => by simp at h⟩
  | [_] => exact ⟨fun _ => rfl, fun _ h => by simp at h⟩
  | [_, _] => exact ⟨fun _ => rfl, fun _ h => by simp at h⟩
  | [_, _, _] => exact ⟨fun _ => rfl, fun _ h => by simp at h⟩
  | [_, _, _, _] => exact ⟨fun _ => rfl, fun _ h => by simp at h⟩
  | slot :: so :: vhi :: vlo :: len :: rest =>
    refine ⟨fun h => by simp at h, fun length h => ?_⟩
    have : len = length := by simpa using h
    subst this
    obtain ⟨h1, h2⟩ := takeWords_spec len.toNat rest
    refine ⟨fun h => ?_, fun h => ?_⟩
    · obtain ⟨ws, e, hl, hb⟩ := h1 (by simp at h; omega)
      refine ⟨{ slot := slot, stateCode := (so >>> 4).setWidth 4, owner := so.setWidth 4,
                version := wordOf vhi vlo, words := ws }, ?_, ?_⟩
      · unfold takeRecord
        simp only [e]
        rw [show 5 + 2 * len.toNat = 2 * len.toNat + 5 by omega]
        rfl
      · show slot :: ((so >>> 4).setWidth 4 ++ so.setWidth 4 : BitVec 8) ::
          (Word.bytes (wordOf vhi vlo) ++ BitVec.ofNat 8 ws.length :: wordsBytes ws) = _
        rw [nibbles_bits, bytes_wordOf, hb, hl, show 5 + 2 * len.toNat = 2 * len.toNat + 5 by omega]
        simp
    · unfold takeRecord
      simp only [h2 (by simp at h; omega)]

/-- A list is read to its end where its entries take exactly the bytes there are. -/
theorem takeList_spec {α : Type} {take : List Byte → Option (α × List Byte)} {bytesOf : α → List Byte}
    {takeN : Nat → List Byte → Option (List α × List Byte)} {fixed place : Nat}
    (one : TakesOne take bytesOf fixed place)
    (zero : ∀ bytes, takeN 0 bytes = some ([], bytes))
    (succ : ∀ n bytes, takeN (n + 1) bytes = match take bytes with
      | none => none
      | some (a, rest) => match takeN n rest with
        | some (l, rest) => some (a :: l, rest)
        | none => none)
    (n : Nat) (bytes : List Byte) :
    (listLength fixed place n bytes = some bytes.length →
      ∃ l, takeN n bytes = some (l, []) ∧ l.length = n ∧ l.flatMap bytesOf = bytes) ∧
    (∀ l, takeN n bytes = some (l, []) → listLength fixed place n bytes = some bytes.length) := by
  induction n generalizing bytes with
  | zero =>
    refine ⟨fun h => ?_, fun l h => ?_⟩
    · have : bytes = [] := by
        rw [listLength] at h
        exact List.length_eq_zero_iff.1 (Option.some.inj h).symm
      subst this
      exact ⟨[], zero _, rfl, rfl⟩
    · rw [zero] at h
      rw [listLength, (Prod.mk.inj (Option.some.inj h)).2]
      rfl
  | succ n ih =>
    obtain ⟨h0, h1⟩ := one bytes
    refine ⟨fun h => ?_, fun l h => ?_⟩
    · rw [listLength] at h
      cases hp : bytes[place]? with
      | none => rw [hp] at h; cases h
      | some length =>
        rw [hp] at h
        simp only [Option.map_eq_some_iff] at h
        obtain ⟨m, hm, hs⟩ := h
        have hle : fixed + 2 * length.toNat ≤ bytes.length := by omega
        obtain ⟨a, e, hb⟩ := (h1 length hp).1 hle
        obtain ⟨l, e2, hl, hb2⟩ := (ih (bytes.drop (fixed + 2 * length.toNat))).1 (by
          rw [hm, List.length_drop]
          congr 1
          omega)
        refine ⟨a :: l, ?_, by simp [hl], ?_⟩
        · rw [succ, e]
          simp only [e2]
        · rw [List.flatMap_cons, hb, hb2, List.take_append_drop]
    · rw [succ] at h
      cases hp : bytes[place]? with
      | none => rw [h0 hp] at h; cases h
      | some length =>
        by_cases hle : fixed + 2 * length.toNat ≤ bytes.length
        · obtain ⟨a, e, -⟩ := (h1 length hp).1 hle
          rw [e] at h
          simp only at h
          cases hn : takeN n (bytes.drop (fixed + 2 * length.toNat)) with
          | none => rw [hn] at h; cases h
          | some r =>
            obtain ⟨l', rest⟩ := r
            rw [hn] at h
            have hr : rest = [] := (Prod.mk.inj (Option.some.inj h)).2
            subst hr
            have := (ih _).2 l' hn
            rw [listLength, hp]
            simp only [this, Option.map_some, List.length_drop]
            congr 1
            omega
        · rw [(h1 length hp).2 (by omega)] at h
          cases h

theorem takeItems_spec (n : Nat) (bytes : List Byte) :
    (listLength 4 3 n bytes = some bytes.length →
      ∃ l, takeItems n bytes = some (l, []) ∧ l.length = n ∧ l.flatMap Item.bytes = bytes) ∧
    (∀ l, takeItems n bytes = some (l, []) → listLength 4 3 n bytes = some bytes.length) :=
  takeList_spec takeItem_spec (fun _ => rfl) (fun n bytes => by
    rw [takeItems]
    cases takeItem bytes with
    | none => rfl
    | some r =>
      simp only
      cases takeItems n r.2 <;> rfl) n bytes

theorem takeRecords_spec (n : Nat) (bytes : List Byte) :
    (listLength 5 4 n bytes = some bytes.length →
      ∃ l, takeRecords n bytes = some (l, []) ∧ l.length = n ∧ l.flatMap Record.bytes = bytes) ∧
    (∀ l, takeRecords n bytes = some (l, []) → listLength 5 4 n bytes = some bytes.length) :=
  takeList_spec takeRecord_spec (fun _ => rfl) (fun n bytes => by
    rw [takeRecords]
    cases takeRecord bytes with
    | none => rfl
    | some r =>
      simp only
      cases takeRecords n r.2 <;> rfl) n bytes

theorem takeParams_spec (a b c : Byte) :
    ∃ p, takeParams [a, b, c] = some (p, []) ∧ p.bytes = [a, b, c] :=
  ⟨_, rfl, by
    show ((a >>> 6).setWidth 2 ++ (a >>> 4).setWidth 2 ++ a.setWidth 4 : BitVec 8) :: Word.bytes (wordOf b c) = _
    rw [paramByte_bits, bytes_wordOf]⟩

/-- A payload is read exactly where its length is the one that R19 gives, and has the bytes it came in. -/
theorem readPayload_spec (kind : Nat) (bytes : List Byte) :
    (payloadLength kind bytes = some bytes.length →
      ∃ p, readPayload kind bytes = some p ∧ p.kind.code = kind ∧ p.bytes = bytes) ∧
    (payloadLength kind bytes ≠ some bytes.length → readPayload kind bytes = none) := by
  match kind, bytes with
  | 0, bytes => exact ⟨fun h => (nomatch h), fun _ => rfl⟩
  | 1, [] => exact ⟨fun _ => ⟨_, rfl, rfl, rfl⟩, fun h => absurd rfl h⟩
  | 1, _ :: _ => exact ⟨fun h => (nomatch Option.some.inj h), fun _ => rfl⟩
  | 2, [] | 2, [_] | 2, _ :: _ :: _ :: _ => exact ⟨fun h => by simp [payloadLength] at h, fun _ => rfl⟩
  | 2, [a, b] => exact ⟨fun _ => ⟨_, rfl, rfl, bytes_wordOf a b⟩, fun h => absurd rfl h⟩
  | 3, [] | 3, [_] | 3, [_, _] | 3, _ :: _ :: _ :: _ :: _ =>
    exact ⟨fun h => by simp [payloadLength] at h, fun _ => rfl⟩
  | 3, [a, b, c] =>
    obtain ⟨p, e, hb⟩ := takeParams_spec a b c
    refine ⟨fun _ => ⟨.hello p, ?_, rfl, hb⟩, fun h => absurd rfl h⟩
    rw [readPayload, e]
  | 4, [] | 4, [_] | 4, [_, _] | 4, _ :: _ :: _ :: _ :: _ =>
    exact ⟨fun h => by simp [payloadLength] at h, fun _ => rfl⟩
  | 4, [a, b, c] =>
    exact ⟨fun _ => ⟨_, rfl, rfl, congrArg (a :: ·) (bytes_wordOf b c)⟩, fun h => absurd rfl h⟩
  | 5, [] | 5, [_] | 5, [_, _] | 5, _ :: _ :: _ :: _ :: _ =>
    exact ⟨fun h => by simp [payloadLength] at h, fun _ => rfl⟩
  | 5, [a, b, c] =>
    exact ⟨fun _ => ⟨_, rfl, rfl, congrArg (a :: ·) (bytes_wordOf b c)⟩, fun h => absurd rfl h⟩
  | 6, [] => exact ⟨fun h => (nomatch h), fun _ => rfl⟩
  | 6, count :: rest =>
    obtain ⟨h1, h2⟩ := takeItems_spec count.toNat rest
    have hl : payloadLength 6 (count :: rest) = some (count :: rest).length ↔
        listLength 4 3 count.toNat rest = some rest.length := by
      simp only [payloadLength, Option.map_eq_some_iff, List.length_cons]
      exact ⟨fun ⟨m, e, h⟩ => by rw [e]; congr 1; omega, fun h => ⟨_, h, by omega⟩⟩
    rw [ne_eq, hl]
    refine ⟨fun h => ?_, fun h => ?_⟩
    · obtain ⟨l, e, hn, hb⟩ := h1 h
      refine ⟨.post l, ?_, rfl, ?_⟩
      · rw [readPayload, e]
      · show BitVec.ofNat 8 l.length :: l.flatMap Item.bytes = _
        rw [hn, hb]
        simp
    · rw [readPayload]
      split
      · exact absurd (h2 _ (by assumption)) h
      · rfl
  | 7, [] => exact ⟨fun h => (nomatch h), fun _ => rfl⟩
  | 7, count :: rest =>
    obtain ⟨h1, h2⟩ := takeRecords_spec count.toNat rest
    have hl : payloadLength 7 (count :: rest) = some (count :: rest).length ↔
        listLength 5 4 count.toNat rest = some rest.length := by
      simp only [payloadLength, Option.map_eq_some_iff, List.length_cons]
      exact ⟨fun ⟨m, e, h⟩ => by rw [e]; congr 1; omega, fun h => ⟨_, h, by omega⟩⟩
    rw [ne_eq, hl]
    refine ⟨fun h => ?_, fun h => ?_⟩
    · obtain ⟨l, e, hn, hb⟩ := h1 h
      refine ⟨.sync l, ?_, rfl, ?_⟩
      · rw [readPayload, e]
      · show BitVec.ofNat 8 l.length :: l.flatMap Record.bytes = _
        rw [hn, hb]
        simp
    · rw [readPayload]
      split
      · exact absurd (h2 _ (by assumption)) h
      · rfl
  | 8, [] | 8, [_] | 8, _ :: _ :: _ :: _ => exact ⟨fun h => by simp [payloadLength] at h, fun _ => rfl⟩
  | 8, [a, b] =>
    refine ⟨fun _ => ⟨_, rfl, rfl, ?_⟩, fun h => absurd rfl h⟩
    show [a, ((b >>> 5).setWidth 3 ++ b.setWidth 5 : BitVec 8)] = _
    rw [askByte_bits]
  | 9, [] | 9, [_] | 9, [_, _] | 9, [_, _, _] | 9, [_, _, _, _] | 9, _ :: _ :: _ :: _ :: _ :: _ :: _ =>
    exact ⟨fun h => by simp [payloadLength] at h, fun _ => rfl⟩
  | 9, [a, b, c, d, e] =>
    obtain ⟨p, h, hb⟩ := takeParams_spec c d e
    refine ⟨fun _ => ⟨.beat (wordOf a b) p, ?_, rfl, ?_⟩, fun h => absurd rfl h⟩
    · rw [readPayload, h]
    · show Word.bytes (wordOf a b) ++ p.bytes = _
      rw [hb, bytes_wordOf]
      rfl
  | _ + 10, bytes => exact ⟨fun h => (nomatch h), fun _ => rfl⟩

/-- A header and a payload make a frame whose bytes they are, where the payload has the length of R19. -/
theorem readFrame_spec (header : Byte) (payload : List Byte) :
    (payloadLength (headerKind header) payload = some payload.length →
      ∃ f, readFrame header payload = some f ∧ f.covered = header :: payload) ∧
    (payloadLength (headerKind header) payload ≠ some payload.length → readFrame header payload = none) := by
  obtain ⟨h1, h2⟩ := readPayload_spec (headerKind header) payload
  refine ⟨fun h => ?_, fun h => ?_⟩
  · obtain ⟨p, e, hk, hb⟩ := h1 h
    refine ⟨{ sender := headerStation header, payload := p }, ?_, ?_⟩
    · unfold readFrame
      rw [e]
    · show headerByte (BitVec.ofNat 4 p.kind.code) (headerStation header) :: p.bytes = _
      rw [hk, hb]
      have : ∀ h : Byte, headerByte (BitVec.ofNat 4 (headerKind h)) (headerStation h) = h := by decide +kernel
      rw [this]
  · unfold readFrame
    rw [h2 h]

end Sys2Proof.Machine
end

