-- ==== Sys2Proof/Laws/Damage.lean ====
section
/-!
SUPPORT. Reads of disturbed words: a correction of one bit delivers the word as it was written, a read corrects what it
can and finds the lowest word that it cannot, what a spare holds when it is assigned, and what damage handling leaves.
-/

set_option Elab.async false

namespace Sys2Proof.Machine

/-! ### One code word (R29) -/

/-- A correction of the only disturbed bit delivers the word as it was written. -/
theorem Cell.correctedAt_one {c : Cell} {bit : Nat} (h : flippedBits c.flips = [bit]) : c.correctedAt bit = c.word := by
  have hm : ∀ n, n < 22 → (c.flips.getLsbD n = true ↔ n = bit) := by
    intro n hn
    have : n ∈ flippedBits c.flips ↔ n = bit := by rw [h, List.mem_singleton]
    rw [← this]
    unfold flippedBits
    rw [List.mem_filter, List.mem_range]
    exact ⟨fun h => ⟨hn, h⟩, fun h => h.2⟩
  unfold Cell.correctedAt
  apply BitVec.eq_of_getLsbD_eq
  intro i hi
  have hf : c.flips.getLsbD i = decide (i = bit) := by
    rw [Bool.eq_iff_iff, decide_eq_true_eq]
    exact hm i (by omega)
  rw [BitVec.getLsbD_xor, BitVec.getLsbD_xor, BitVec.getLsbD_setWidth, hf]
  by_cases hb : bit < 16
  · have h1 : (1 : Word).getLsbD (i - bit) = decide (i - bit = 0) := by simp
    rw [if_pos hb, BitVec.getLsbD_shiftLeft, h1]
    by_cases hi2 : i = bit
    · subst hi2
      simp [hi]
    · by_cases h3 : i < bit
      · simp [hi2, h3]
      · have h4 : ¬i - bit = 0 := by omega
        simp [hi2, h4]
  · rw [if_neg hb]
    have : ¬ i = bit := by omega
    simp [this]

/-- One disturbed bit is corrected. -/
theorem Cell.decode_one {c : Cell} {bit : Nat} (h : flippedBits c.flips = [bit]) :
    c.decode = .corrected c.word bit := by
  unfold Cell.decode
  rw [h]
  simp only
  rw [Cell.correctedAt_one h]

/-- Three or more disturbed bits are uncorrectable, or taken for one: the bit at the reported position of the stored
word is inverted, and the word so delivered is not the one written. -/
theorem Cell.decode_many {c : Cell} (h : 3 ≤ (flippedBits c.flips).length) :
    c.decode = .uncorrectable ∨ ∃ x bit, bit < 22 ∧ c.decode = .corrected x bit ∧ x ≠ c.word ∧
      ∀ i, i < 16 → x.getLsbD i = ((c.word.getLsbD i != c.flips.getLsbD i) != decide (i = bit)) := by
  have hd : c.decode = match Config.multiBitOutcome c.word c.flips with
      | none => .uncorrectable
      | some bit =>
        if c.correctedAt bit.val = c.word then .uncorrectable else .corrected (c.correctedAt bit.val) bit.val := by
    unfold Cell.decode
    split <;> rename_i hl <;> first | rfl | (rw [hl] at h; simp at h)
  rw [hd]
  split
  · exact Or.inl rfl
  · rename_i bit _
    split
    · exact Or.inl rfl
    · rename_i hx
      refine Or.inr ⟨_, bit.val, bit.isLt, rfl, hx, fun i hi => ?_⟩
      unfold Cell.correctedAt
      rw [BitVec.getLsbD_xor, BitVec.getLsbD_xor, BitVec.getLsbD_setWidth]
      have hb : (if bit.val < 16 then (1 : Word) <<< bit.val else 0).getLsbD i = decide (i = bit.val) := by
        split
        · rename_i hb
          have h1 : (1 : Word).getLsbD (i - bit.val) = decide (i - bit.val = 0) := by simp
          rw [BitVec.getLsbD_shiftLeft, h1, Bool.eq_iff_iff]
          simp only [Bool.and_eq_true, Bool.not_eq_true', decide_eq_true_eq, decide_eq_false_iff_not]
          omega
        · simp
          omega
      rw [hb]
      simp only [hi, decide_true, Bool.true_and]

/-! ### The words of a row (R36, R37) -/

/-- A written-back word is the word after its read. -/
theorem State.cell_writeBack {s : State} {slot row p : Nat} {x : Word} {bit : Nat} (hm : Memory.wf s.dst.cells)
    (hp : p < 16) (h : (s.dst.cell row p).decode = .corrected x bit) (r q : Nat) (hq : q < 16) :
    (s.writeBack slot row p x bit).dst.cell r q =
      if r = row ∧ q = p then (s.dst.cell r q).afterRead else s.dst.cell r q := by
  show (s.dst.putCell row p _).cell r q = _
  rw [Dst.cell_putCell hm _ _ _ _ _ hq hp]
  split
  · rename_i he
    obtain ⟨rfl, rfl⟩ := he
    unfold Cell.afterRead
    rw [h]
  · rfl

/-- The reports of the positions after the first. -/
theorem State.correctionsLogged_cons {s t : State} {slot row p : Nat} {ps : List Nat} (hn : t.nct.now = s.nct.now)
    (he : t.elg = (match (s.dst.cell row p).correctedBit with
      | some bit => s.elg.take { kind := .eccCorrected, time := s.nct.now, fields := {
          slot := some slot, station := none, word := some p, bit := some bit } }
      | none => s.elg))
    (hc : ∀ q ∈ ps, t.dst.cell row q = s.dst.cell row q) :
    t.correctionsLogged slot row ps = s.correctionsLogged slot row (p :: ps) := by
  unfold State.correctionsLogged
  have hl : (ps.filterMap fun q => (t.dst.cell row q).correctedBit.map fun bit => (q, bit)) =
      ps.filterMap fun q => (s.dst.cell row q).correctedBit.map fun bit => (q, bit) :=
    List.filterMap_congr fun q hq => by rw [hc q hq]
  rw [hl, hn, he, List.filterMap_cons]
  cases (s.dst.cell row p).correctedBit <;> rfl

/-- A read of `n` words of a row from position `p` on: the corrected ones are written back and reported in ascending
position, every word is delivered, and the lowest uncorrectable position is found. -/
theorem State.readWords_spec (slot row : Nat) (n p : Nat) (s : State) (hm : Memory.wf s.dst.cells) (hn : p + n ≤ 16) :
    let r := State.readWords slot row n p s
    r.1 = { s with
        dst := { s.dst with cells := r.1.dst.cells }, elg := s.correctionsLogged slot row (List.range' p n) } ∧
      Memory.wf r.1.dst.cells ∧
      (∀ x q, q < 16 → r.1.dst.cell x q =
        if x = row ∧ p ≤ q ∧ q < p + n then (s.dst.cell x q).afterRead else s.dst.cell x q) ∧
      r.2.1 = (List.range' p n).map (fun q => (s.dst.cell row q).delivers) ∧
      ((∀ q, p ≤ q → q < p + n → (s.dst.cell row q).decode ≠ .uncorrectable) → r.2.2 = none) ∧
      ∀ w, p ≤ w → w < p + n → (s.dst.cell row w).decode = .uncorrectable →
        (∀ q, p ≤ q → q < w → (s.dst.cell row q).decode ≠ .uncorrectable) → r.2.2 = some w := by
  induction n generalizing p s with
  | zero =>
    refine ⟨rfl, hm, fun x q _ => ?_, rfl, fun _ => rfl, fun w h1 h2 => by omega⟩
    rw [if_neg (by omega)]
    rfl
  | succ n ih =>
    intro r
    obtain ⟨t, ht⟩ : ∃ t, t = match (s.dst.cell row p).decode with
      | .corrected x bit => s.writeBack slot row p x bit
      | _ => s := ⟨_, rfl⟩
    have hr : r = ((State.readWords slot row n (p + 1) t).1,
        (s.dst.cell row p).delivers :: (State.readWords slot row n (p + 1) t).2.1,
        if (s.dst.cell row p).decode = .uncorrectable then some p
          else (State.readWords slot row n (p + 1) t).2.2) := by
      refine (State.readWords.eq_2 slot row p s n).trans ?_
      unfold Cell.delivers
      rw [ht]
      cases (s.dst.cell row p).decode <;> simp
    have hcell : ∀ x q, q < 16 → t.dst.cell x q =
        if x = row ∧ q = p then (s.dst.cell x q).afterRead else s.dst.cell x q := by
      intro x q hq
      cases hd : (s.dst.cell row p).decode with
      | corrected w bit =>
        rw [ht, hd]
        exact State.cell_writeBack hm (by omega) hd x q hq
      | clean w =>
        rw [ht, hd]
        simp only
        split
        · rename_i he
          rw [he.1, he.2]
          unfold Cell.afterRead
          rw [hd]
        · rfl
      | uncorrectable =>
        rw [ht, hd]
        simp only
        split
        · rename_i he
          rw [he.1, he.2]
          unfold Cell.afterRead
          rw [hd]
        · rfl
    have hrest : ∀ q, p < q → q < 16 → t.dst.cell row q = s.dst.cell row q := fun q h1 h2 => by
      rw [hcell _ _ h2, if_neg (by omega)]
    have htm : Memory.wf t.dst.cells := by
      rw [ht]
      cases (s.dst.cell row p).decode with
      | corrected w bit => exact Dst.putCell_wf hm _ _ _
      | _ => exact hm
    have htf : t = { s with
        dst := { s.dst with cells := t.dst.cells },
        elg := (match (s.dst.cell row p).correctedBit with
          | some bit => s.elg.take { kind := .eccCorrected, time := s.nct.now, fields := {
              slot := some slot, station := none, word := some p, bit := some bit } }
          | none => s.elg) } := by
      unfold Cell.correctedBit
      rw [ht]
      cases (s.dst.cell row p).decode <;> rfl
    have hlog := State.correctionsLogged_cons (s := s) (t := t) (slot := slot) (row := row) (p := p)
      (ps := List.range' (p + 1) n) (by rw [htf]) (by rw [htf]) fun q hq => by
        have := List.mem_range'_1.1 hq
        exact hrest q (by omega) (by omega)
    obtain ⟨k1, k2, k3, k4, k5, k6⟩ := ih (p + 1) t htm (by omega)
    rw [hr]
    simp only
    refine ⟨?_, k2, fun x q hq => ?_, ?_, fun h => ?_, fun w h1 h2 h3 h4 => ?_⟩
    · rw [List.range'_succ, ← hlog]
      refine k1.trans ?_
      rw [htf]
    · rw [k3 x q hq, hcell x q hq]
      by_cases hx : x = row
      · subst hx
        by_cases hp : q = p
        · subst hp
          rw [if_neg (by omega), if_pos ⟨rfl, rfl⟩, if_pos (by omega)]
        · by_cases hq2 : p + 1 ≤ q ∧ q < p + 1 + n
          · rw [if_pos ⟨rfl, hq2⟩, if_neg (by omega), if_pos (by omega)]
          · rw [if_neg (by omega), if_neg (by omega), if_neg (by omega)]
      · rw [if_neg (fun h => hx h.1), if_neg (fun h => hx h.1), if_neg (fun h => hx h.1)]
    · rw [List.range'_succ, List.map_cons, k4]
      refine congrArg _ (List.map_congr_left fun q hq => ?_)
      have := List.mem_range'_1.1 hq
      rw [hrest q (by omega) (by omega)]
    · rw [if_neg (h p (le_refl _) (by omega))]
      exact k5 fun q h1 h2 => by
        rw [hrest q (by omega) (by omega)]
        exact h q (by omega) (by omega)
    · by_cases hp : w = p
      · subst hp
        rw [if_pos h3]
      · rw [if_neg (h4 p (le_refl _) (by omega))]
        refine k6 w (by omega) (by omega) ?_ fun q h5 h6 => ?_
        · rw [hrest w (by omega) (by omega)]
          exact h3
        · rw [hrest q (by omega) (by omega)]
          exact h4 q (by omega) h6

/-- A read of a slot's words: what it leaves, and the words, or damage handling at the lowest uncorrectable position
(R36, R37). -/
theorem State.readSlot_spec {s : State} {slot row : Nat} (hm : Memory.wf s.dst.cells)
    (hr : s.dst.rowInUse slot = some row) (hl : (s.entry slot).length ≤ 16) :
    ∃ u, s.readThrough u slot row ∧
      ((∀ p, p < (s.entry slot).length → (s.dst.cell row p).decode ≠ .uncorrectable) →
        s.readSlot slot = (u, some ((List.range (s.entry slot).length).map fun p => (s.dst.cell row p).delivers))) ∧
      ∀ w, s.lowestBad slot row w → s.readSlot slot = (u.damage slot row w, none) := by
  obtain ⟨k1, k2, k3, k4, k5, k6⟩ := State.readWords_spec slot row (s.entry slot).length 0 s hm (by omega)
  rw [← List.range_eq_range'] at k1 k4
  refine ⟨(State.readWords slot row (s.entry slot).length 0 s).1, ⟨k1, k2, fun r p hp => ?_⟩, fun h => ?_,
    fun w h => ?_⟩
  · rw [k3 r p hp]
    simp only [Nat.zero_le, true_and, Nat.zero_add]
  · have := k5 fun q _ hq => h q (by omega)
    unfold State.readSlot
    rw [hr]
    simp only
    rw [← k4]
    generalize State.readWords slot row (s.entry slot).length 0 s = r at *
    obtain ⟨a, b, c⟩ := r
    simp only at this
    subst this
    rfl
  · have := k6 w (Nat.zero_le _) (by have := h.1; omega) h.2.1 fun q _ hq => h.2.2 q hq
    unfold State.readSlot
    rw [hr]
    simp only
    generalize State.readWords slot row (s.entry slot).length 0 s = r at *
    obtain ⟨a, b, c⟩ := r
    simp only at this
    subst this
    rfl
/-! ### The damaged copy (R160) -/

/-- Damage handling leaves every entry but the slot's own, which keeps its state, version and length. -/
theorem State.entry_markDamaged {s : State} (hd : sparseWf DirEntry.blank s.dir) {slot : Nat}
    (hp : (s.entry slot).parityGood = true) (n : Nat) :
    (s.markDamaged slot).entry n =
      if n = slot then
        { s.entry slot with health := .damaged, wanted := s.nct.node.participating, unresolved := false }
      else s.entry n := by
  unfold State.markDamaged
  rw [State.entry_putFlags hd]
  split
  · simp only [DirEntry.mk.injEq, true_and]
    exact hp.symm
  · rfl

/-- The repair engine seeks the slot exactly where the node participates. -/
theorem State.wanted_markDamaged (s : State) (slot : Nat) :
    slot ∈ (s.markDamaged slot).rpe.wanted ↔ s.nct.node.participating = true := by
  unfold State.markDamaged
  rw [State.putFlags_rpe, Rpe.mem_follow, if_pos rfl]

/-! ### A row retired (R31, R162) -/

/-- A retired row is in use no more; the first spare is, and holds zeros. -/
theorem Dst.retire_assignSpare {d : Dst} (hm : Memory.wf d.cells) (slot row spare : Nat) (rest : List Nat) :
    let e := (d.retire slot row).assignSpare slot spare rest
    e.rowInUse slot = some spare ∧ e.spares = rest ∧ e.retired = insertSorted row d.retired ∧
      e.struck = d.struck.filter (fun r => !(r == spare)) ∧
      ∀ r p, p < 16 → e.cell r p = if r = spare then { word := 0, flips := 0 } else d.cell r p := by
  have hf : (d.retire slot row).assignSpare slot spare rest = { d with
      spares := rest, retired := insertSorted row d.retired,
      rowMap := (d.rowMap.filter fun p => !(p.1 == slot)) ++ [(slot, spare)],
      struck := d.struck.filter fun r => !(r == spare),
      cells := ((d.retire slot row).assignSpare slot spare rest).cells } := Dst.putWords_frame _ _ _ _
  intro e
  refine ⟨?_, ?_, ?_, ?_, fun r p hp => ?_⟩
  · show Dst.rowInUse ((d.retire slot row).assignSpare slot spare rest) slot = _
    rw [hf]
    unfold Dst.rowInUse
    simp only
    rw [List.find?_append, List.find?_eq_none.2]
    · simp
    · intro x hx
      simpa using (List.mem_filter.1 hx).2
  · show ((d.retire slot row).assignSpare slot spare rest).spares = _
    rw [hf]
  · show ((d.retire slot row).assignSpare slot spare rest).retired = _
    rw [hf]
  · show ((d.retire slot row).assignSpare slot spare rest).struck = _
    rw [hf]
  · show ((d.retire slot row).assignSpare slot spare rest).cell r p = _
    unfold Dst.assignSpare
    rw [Dst.cell_putWords _ (by exact hm) _ _ _ _ hp (by rw [List.length_replicate]; exact Nat.le_refl 16)]
    simp only [Nat.zero_le, Nat.zero_add, Nat.sub_zero, List.length_replicate, Config.rowWords, hp, and_true]
    split
    · rw [List.getD_eq_getElem?_getD, List.getElem?_replicate]
      simp [hp]
    · rfl

/-- A retirement with a spare at hand. -/
theorem State.retireRow_spare {s : State} {slot row spare : Nat} {rest : List Nat} (h : s.dst.spares = spare :: rest) :
    s.retireRow slot row = State.markDamaged { s with
      dst := (s.dst.retire slot row).assignSpare slot spare rest,
      elg := s.elg.take { kind := .rowRetired, time := s.nct.now, fields := .ofSlot slot } } slot := by
  unfold State.retireRow
  simp only
  split
  · rename_i a b hs
    have hs' : s.dst.spares = a :: b := hs
    rw [h] at hs'
    cases hs'
    rfl
  · rename_i hs
    have hs' : s.dst.spares = [] := hs
    rw [h] at hs'
    cases hs'

/-- A retirement without a spare (R163). -/
theorem State.retireRow_exhausted {s : State} {slot row : Nat} (h : s.dst.spares = []) :
    s.retireRow slot row = { s.putFlags slot { s.entry slot with
        health := .failed, wanted := false, unresolved := false } with
      dst := s.dst.retire slot row,
      elg := (s.elg.take { kind := .rowRetired, time := s.nct.now, fields := .ofSlot slot }).take {
        kind := .sparesExhausted, time := s.nct.now, fields := .ofSlot slot },
      ntq := s.ntq.arrive (.slotFailed slot) } := by
  unfold State.retireRow
  simp only
  split
  · rename_i a b hs
    have hs' : s.dst.spares = a :: b := hs
    rw [h] at hs'
    cases hs'
  · rfl

/-! ### Damage handling as a whole (R160–R163) -/

/-- The copy's own mark reaches its entry and the wanted set, and nothing else (R160). -/
theorem State.markDamaged_spec {s u : State} (hd : sparseWf DirEntry.blank s.dir) {slot : Nat}
    (hp : (s.entry slot).parityGood = true) (h1 : u.dir = s.dir) (h2 : u.nct = s.nct) (h3 : u.rpe = s.rpe) :
    (∃ dir rpe, u.markDamaged slot = { u with dir := dir, rpe := rpe }) ∧
    (∀ n, n ≠ slot → (u.markDamaged slot).entry n = s.entry n) ∧
    (u.markDamaged slot).entry slot = { s.entry slot with
      health := .damaged, wanted := s.nct.node.participating, unresolved := false } ∧
    ∀ n, n ∈ (u.markDamaged slot).rpe.wanted ↔
      (n ∈ s.rpe.wanted ∧ n ≠ slot) ∨ (n = slot ∧ s.nct.node.participating = true) := by
  have he : ∀ n, u.entry n = s.entry n := fun n => by
    unfold State.entry
    rw [h1]
  have hd' : sparseWf DirEntry.blank u.dir := h1 ▸ hd
  have hp' : (u.entry slot).parityGood = true := by rw [he, hp]
  refine ⟨⟨_, _, rfl⟩, fun n h => ?_, ?_, fun n => ?_⟩
  · rw [State.entry_markDamaged hd' hp', if_neg h, he]
  · rw [State.entry_markDamaged hd' hp', if_pos rfl, he, h2]
  · unfold State.markDamaged
    rw [State.putFlags_rpe, Rpe.mem_follow, h3, ← h2]
    by_cases h : n = slot <;> simp [h]

/-- The rows of the other slots stay in use at a retirement (R162). -/
theorem Dst.rowInUse_retire (d : Dst) {slot row n : Nat} (h : n ≠ slot) (hr : n ≠ row) :
    (d.retire slot row).rowInUse n = d.rowInUse n := by
  have hf : (d.retire slot row).rowMap.find? (fun p => p.1 == n) = d.rowMap.find? fun p => p.1 == n := by
    show (d.rowMap.filter fun p => !(p.1 == slot)).find? _ = _
    rw [List.find?_filter]
    congr 1
    funext p
    by_cases hp : p.1 = n <;> simp [hp, h]
  unfold Dst.rowInUse
  rw [hf]
  have : (d.retire slot row).retired.contains n = d.retired.contains n := by
    rw [Bool.eq_iff_iff, List.contains_iff_mem, List.contains_iff_mem]
    show n ∈ insertSorted row d.retired ↔ _
    rw [mem_insertSorted]
    simp [hr]
  rw [this]

/-- The spare that a slot is given is no other slot's (R31). -/
theorem Dst.rowInUse_assignSpare (d : Dst) {slot n : Nat} (spare : Nat) (rest : List Nat) (h : n ≠ slot) :
    (d.assignSpare slot spare rest).rowInUse n = d.rowInUse n := by
  unfold Dst.assignSpare
  rw [Dst.putWords_frame]
  unfold Dst.rowInUse
  simp only
  rw [List.find?_append]
  have : [(slot, spare)].find? (fun p => p.1 == n) = none := by simp [Ne.symm h]
  rw [this, Option.or_none]

/-- A first strike, before the repair engine's steps (R161). -/
theorem State.strike_damaged {s u t : State} {slot row w : Nat} (hd : sparseWf DirEntry.blank s.dir)
    (hp : (s.entry slot).parityGood = true) (hs : s.dst.struck.contains row = false)
    (hu : u = { s with elg := s.elg.take { kind := .eccUncorrectable, time := s.nct.now, fields := {
      slot := some slot, station := none, word := some w, bit := none } } })
    (ht : t = { u.strike slot row with
      nct := t.nct, obs := t.obs, ntq := t.ntq, rpe := { (u.strike slot row).rpe with cycle := t.rpe.cycle } }) :
    s.damageMarks t slot row w := by
  obtain ⟨⟨dir, rpe, e⟩, h2, h3, h4⟩ := State.markDamaged_spec (s := s)
    (u := { u with dst := { u.dst with struck := insertSorted row u.dst.struck } }) hd hp
    (by rw [hu]) (by rw [hu]) (by rw [hu])
  have ent : ∀ n, t.entry n = (u.strike slot row).entry n := fun n => by rw [ht]; rfl
  have hw : t.rpe.wanted = (u.strike slot row).rpe.wanted := by rw [ht]
  have eu : u.strike slot row = { u with
    dst := { u.dst with struck := insertSorted row u.dst.struck }, dir := dir, rpe := rpe } := e
  have h2 : ∀ n, n ≠ slot → (u.strike slot row).entry n = s.entry n := h2
  have h3 : (u.strike slot row).entry slot = _ := h3
  have h4 : ∀ n, n ∈ (u.strike slot row).rpe.wanted ↔ _ := h4
  generalize u.strike slot row = x at *
  subst eu hu
  have td : t.dst = { s.dst with struck := insertSorted row s.dst.struck } := by rw [ht]
  refine ⟨fun n h => (ent n).trans (h2 n h), fun n _ _ => ?_, ?_, ?_, ?_, ?_, ?_, ?_, fun _ => ⟨?_, ?_⟩,
    fun _ => ⟨?_, ?_, ?_⟩, fun h => ?_⟩
  · rw [td]
    rfl
  · rw [ht]
  · rw [ht]
  · rw [ht]
  · rw [ht]
  · rw [ht]
  · rw [ht]
  · exact (ent slot).trans h3
  · intro n
    rw [hw]
    exact h4 n
  · rw [td]
  · intro r
    rw [td]
    exact mem_insertSorted
  · rw [ht]
  · rw [hs] at h
    cases h

/-- A second strike with a spare at hand, before the repair engine's steps (R162). -/
theorem State.retireRow_damaged {s u t : State} {slot row w spare : Nat} {rest : List Nat} (hcan : s.canonical)
    (hp : (s.entry slot).parityGood = true) (hs : s.dst.struck.contains row = true) (hsp : s.dst.spares = spare :: rest)
    (hu : u = { s with elg := s.elg.take { kind := .eccUncorrectable, time := s.nct.now, fields := {
      slot := some slot, station := none, word := some w, bit := none } } })
    (ht : t = { u.retireRow slot row with
      nct := t.nct, obs := t.obs, ntq := t.ntq, rpe := { (u.retireRow slot row).rpe with cycle := t.rpe.cycle } }) :
    s.damageMarks t slot row w := by
  obtain ⟨k1, k2, k3, k4, k5⟩ := Dst.retire_assignSpare hcan.2.1 slot row spare rest
  have k0 : ∀ n, n ≠ slot → n ≠ row →
      ((s.dst.retire slot row).assignSpare slot spare rest).rowInUse n = s.dst.rowInUse n := fun n h h' => by
    rw [Dst.rowInUse_assignSpare _ _ _ h, Dst.rowInUse_retire _ h h']
  have er := State.retireRow_spare (s := u) (slot := slot) (row := row) (by rw [hu]; exact hsp)
  have ud : u.dst = s.dst := by rw [hu]
  rw [ud] at er
  generalize (s.dst.retire slot row).assignSpare slot spare rest = d at *
  obtain ⟨⟨dir, rpe, e⟩, h2, h3, h4⟩ := State.markDamaged_spec (s := s)
    (u := { u with
      dst := d,
      elg := u.elg.take { kind := .rowRetired, time := u.nct.now, fields := .ofSlot slot } }) hcan.1 hp
    (by rw [hu]) (by rw [hu]) (by rw [hu])
  rw [← er] at e h2 h3 h4
  have ent : ∀ n, t.entry n = (u.retireRow slot row).entry n := fun n => by rw [ht]; rfl
  have hw : t.rpe.wanted = (u.retireRow slot row).rpe.wanted := by rw [ht]
  clear er
  generalize u.retireRow slot row = x at *
  subst e hu
  have td : t.dst = d := by rw [ht]
  refine ⟨fun n h => (ent n).trans (h2 n h), fun n h h' => ?_, ?_, ?_, ?_, ?_, ?_, ?_, fun _ => ⟨?_, ?_⟩,
    fun h => ?_, fun _ => ⟨?_, fun spare' rest' he => ?_, fun he => ?_⟩⟩
  · rw [td]
    exact k0 n h h'
  · rw [ht]
  · rw [ht]
  · rw [ht]
  · rw [ht]
  · rw [ht]
  · rw [ht]
  · exact (ent slot).trans h3
  · intro n
    rw [hw]
    exact h4 n
  · rw [hs] at h
    cases h
  · intro r
    rw [td, k3]
    exact mem_insertSorted
  · rw [hsp] at he
    cases he
    rw [td]
    refine ⟨k1, k2, k4, k5, ?_⟩
    rw [ht]
    rfl
  · rw [hsp] at he
    cases he

/-- A second strike without a spare, before the repair engine's steps (R163). -/
theorem State.retireRow_failed {s u t : State} {slot row w : Nat} (hd : sparseWf DirEntry.blank s.dir)
    (hp : (s.entry slot).parityGood = true) (hs : s.dst.struck.contains row = true) (hsp : s.dst.spares = [])
    (hu : u = { s with elg := s.elg.take { kind := .eccUncorrectable, time := s.nct.now, fields := {
      slot := some slot, station := none, word := some w, bit := none } } })
    (ht : t = { u.retireRow slot row with
      nct := t.nct, obs := t.obs, ntq := t.ntq, rpe := { (u.retireRow slot row).rpe with cycle := t.rpe.cycle } }) :
    s.damageMarks t slot row w := by
  have er := State.retireRow_exhausted (s := u) (slot := slot) (row := row) (by rw [hu]; exact hsp)
  have ent : ∀ n, t.entry n = if n = slot then
      { s.entry slot with health := .failed, wanted := false, unresolved := false } else s.entry n := by
    intro n
    have h1 : t.entry n = (u.retireRow slot row).entry n := by rw [ht]; rfl
    have h2 : (u.retireRow slot row).entry n =
        (s.putFlags slot { s.entry slot with health := .failed, wanted := false, unresolved := false }).entry n := by
      rw [er, hu]
      rfl
    rw [h1, h2, State.entry_putFlags hd]
    split
    · simp only [DirEntry.mk.injEq, true_and]
      exact hp.symm
    · rfl
  have hw : ∀ n, n ∈ t.rpe.wanted ↔ n ∈ s.rpe.wanted ∧ n ≠ slot := by
    intro n
    have h1 : t.rpe.wanted = (s.rpe.follow slot (s.entry slot) { s.entry slot with
        health := .failed, wanted := false, unresolved := false }).wanted := by
      rw [ht, er, hu]
      rfl
    rw [h1, Rpe.mem_follow]
    by_cases h : n = slot <;> simp [h]
  have td : t.dst = s.dst.retire slot row := by rw [ht, er, hu]
  refine ⟨fun n h => ?_, fun n h h' => ?_, ?_, ?_, ?_, ?_, ?_, ?_, fun h => ?_, fun h => ?_,
    fun _ => ⟨?_, fun spare' rest' he => ?_, fun _ => ⟨?_, hw, ?_, ?_, ?_⟩⟩⟩
  · rw [ent, if_neg h]
  · rw [td, Dst.rowInUse_retire _ h h']
  · rw [ht, er, hu]
    rfl
  · rw [ht, er, hu]
    rfl
  · rw [ht, er, hu]
    rfl
  · rw [ht, er, hu]
    rfl
  · rw [ht, er, hu]
    rfl
  · rw [ht, er, hu]
    rfl
  · rcases h with h | h
    · rw [hs] at h
      cases h
    · exact absurd hsp h
  · rw [hs] at h
    cases h
  · intro r
    rw [td]
    exact mem_insertSorted
  · rw [hsp] at he
    cases he
  · rw [ent, if_pos rfl]
  · intro h
    have hc : (insertSorted row s.dst.retired).contains slot = true := by
      rw [List.contains_iff_mem, mem_insertSorted]
      exact h
    have hf : (s.dst.rowMap.filter fun p => !(p.1 == slot)).find? (fun p => p.1 == slot) = none := by
      rw [List.find?_eq_none]
      intro p hp
      simpa using (List.mem_filter.1 hp).2
    rw [td]
    unfold Dst.rowInUse Dst.retire
    simp only
    rw [hf]
    simp only
    rw [if_pos hc]
  · rw [td]
    rfl
  · rw [ht, er, hu]
    rfl

/-- The flags that damage handling writes reach the wanted set and the unresolved count of the repair engine (R112,
R114). -/
theorem Rpe.follow_flags (r : Rpe) (slot : Nat) (old new : DirEntry) (hn : new.unresolved = false) :
    (r.follow slot old new).unresolved = r.unresolved - old.unresolved.toNat ∧
      (r.wanted.Pairwise (· < ·) → (r.follow slot old new).wanted.Pairwise (· < ·)) ∧
      r.follow slot old new = { r with
        wanted := (r.follow slot old new).wanted, unresolved := (r.follow slot old new).unresolved } := by
  unfold Rpe.follow
  refine ⟨by rw [hn]; rfl, fun h => ?_, rfl⟩
  simp only
  split
  · exact pairwise_insertSorted _ h
  · exact h.filter _

/-- The copy's mark is one write of its entry's flags. -/
theorem State.markDamaged_eq (s : State) (slot : Nat) : s.markDamaged slot = { s with
    dir := (s.markDamaged slot).dir,
    rpe := s.rpe.follow slot (s.entry slot) { s.entry slot with
      health := .damaged, wanted := s.nct.node.participating, unresolved := false } } := rfl

/-- The repair engine's steps after the marks of damage handling: `x` is the state with the marks, whose flags the
wanted set follows, and every state that differs from it as the steps make it differ has them too. -/
theorem State.settle_damaged {s x : State} {c : NodeConfig} {slot row w : Nat} {e : DirEntry}
    (hn : s.nct.node ≠ .halted) (hc : s.hasConfig c) (he : e.unresolved = false)
    (hx : x = { s with
      dir := x.dir, dst := x.dst, elg := x.elg, rpe := s.rpe.follow slot (s.entry slot) e,
      ntq := s.ntq.arriveAll (if s.dst.struck.contains row = true ∧ s.dst.spares = [] then [.slotFailed slot]
        else []) })
    (k : ∀ t : State,
      t = { x with nct := t.nct, obs := t.obs, ntq := t.ntq, rpe := { x.rpe with cycle := t.rpe.cycle } } →
      s.damageMarks t slot row w) :
    s.damagedTo x.settle c slot row w ∧ x.settle.nct.node ≠ .halted ∧
      ∃ node dir rpe obs dst ntq elg, x.settle = { s with
        nct := { s.nct with node := node }, dir := dir, dst := dst, obs := obs, ntq := ntq, elg := elg,
        rpe := rpe } := by
  obtain ⟨f1, f2, f3⟩ := Rpe.follow_flags s.rpe slot (s.entry slot) e he
  generalize s.rpe.follow slot (s.entry slot) e = r at *
  have xr : x.rpe = r := by rw [hx]
  have xn : x.nct = s.nct := by rw [hx]
  have xo : x.obs = s.obs := by rw [hx]
  have xa : x.active = s.active := by unfold State.active; rw [xn]
  have rc : r.cycle = s.rpe.cycle := by rw [f3]
  have ra : r.answers = s.rpe.answers := by rw [f3]
  have rd : r.due = s.rpe.due := by rw [f3]
  by_cases hd : s.rpe.due = none
  · obtain ⟨build, hb, e1⟩ := State.settle_eq (s := x) (c := c) (by rw [hx]; exact hc) (by rw [xr, rd]; exact hd)
    have hcy : x.cycleAfter c x.rpe.wanted = s.cycleAfter c x.rpe.wanted :=
      State.cycleAfter_congr xn (by rw [xr, rc]) c _
    have hqu : x.queueAfter x.rpe.wanted x.obs.queue = s.queueAfter x.rpe.wanted s.obs.queue := by
      rw [xo]
      exact State.queueAfter_congr xn (by rw [xr, rc]) _ _
    rw [hcy, hqu, xa, xn, xr] at e1
    rw [xo] at hb
    refine ⟨⟨k _ ?_, ?_, ?_, ?_, ?_, fun _ => ?_, fun h => absurd hd h, ?_, ?_⟩, ?_, ?_⟩
    · rw [e1, xr]
    · rw [e1]
      exact f2
    · rw [e1]
      exact f1
    · rw [e1]
      exact ra
    · rw [e1]
      exact rd
    · rw [e1]
      exact ⟨rfl, rfl, hb⟩
    · rw [e1]
      simp only [hd, true_and]
    · rw [e1]
      simp only [hd, true_and]
      rw [Ntq.arriveAll_append]
      have xq : x.ntq = s.ntq.arriveAll (if s.dst.struck.contains row = true ∧ s.dst.spares = [] then
          [.slotFailed slot] else []) := by rw [hx]
      rw [← xq]
      split <;> rfl
    · rw [e1]
      show (if _ then _ else _) ≠ _
      split
      · decide
      · exact hn
    · rw [e1, hx]
      exact ⟨_, _, _, _, _, _, _, rfl⟩
  · have e1 : x.settle = x := by
      unfold State.settle
      rw [if_neg]
      rw [xr, rd]
      cases hq : s.rpe.due with
      | none => exact absurd hq hd
      | some d => simp
    rw [e1]
    refine ⟨⟨k _ rfl, ?_, ?_, ?_, ?_, fun h => absurd h hd, fun _ => ⟨?_, xo⟩, ?_, ?_⟩, ?_, ?_⟩
    · rw [xr]
      exact f2
    · rw [xr]
      exact f1
    · rw [xr]
      exact ra
    · rw [xr]
      exact rd
    · rw [xr]
      exact rc
    · rw [xn, if_neg fun h => hd h.2.1]
    · have hns : ¬(s.active = true ∧ s.rpe.due = none ∧ s.nct.node = .catchup ∧ x.rpe.wanted = []) := fun h =>
        hd h.2.1
      rw [if_neg hns, List.append_nil, hx]
    · rw [xn]
      exact hn
    · rw [hx]
      exact ⟨_, _, _, _, _, _, _, rfl⟩

/-- What damage handling leaves: its marks, and what the repair engine's steps make of them (R113–R115, R160–R163). -/
theorem State.damage_spec {s : State} {c : NodeConfig} {slot row w : Nat} (hcan : s.canonical)
    (hn : s.nct.node ≠ .halted) (hc : s.hasConfig c) (hp : (s.entry slot).parityGood = true) :
    s.damagedTo (s.damage slot row w) c slot row w ∧ (s.damage slot row w).nct.node ≠ .halted ∧
      ∃ node dir rpe obs dst ntq elg, s.damage slot row w = { s with
        nct := { s.nct with node := node }, dir := dir, dst := dst, obs := obs, ntq := ntq, elg := elg,
        rpe := rpe } := by
  unfold State.damage
  simp only
  obtain ⟨u, hu⟩ : ∃ u, u = s.report .eccUncorrectable { ErrorFields.ofSlot slot with word := some w } := ⟨_, rfl⟩
  rw [← hu]
  have hue : u = { s with elg := s.elg.take { kind := .eccUncorrectable, time := s.nct.now, fields := {
      slot := some slot, station := none, word := some w, bit := none } } } := hu
  have ud : u.dst = s.dst := by rw [hue]
  rw [ud]
  by_cases hs : s.dst.struck.contains row = true
  · rw [if_pos hs]
    cases hsp : s.dst.spares with
    | cons spare rest =>
      refine State.settle_damaged (e := { s.entry slot with
        health := .damaged, wanted := s.nct.node.participating, unresolved := false })
        hn hc rfl ?_ fun t ht => State.retireRow_damaged hcan hp hs hsp hue ht
      have hno : ¬(s.dst.struck.contains row = true ∧ s.dst.spares = []) := by
        rw [hsp]
        exact fun h => nomatch h.2
      rw [State.retireRow_spare (by rw [ud]; exact hsp), State.markDamaged_eq, hue, if_neg hno]
      rfl
    | nil =>
      refine State.settle_damaged (e := { s.entry slot with health := .failed, wanted := false, unresolved := false })
        hn hc rfl ?_ fun t ht => State.retireRow_failed hcan.1 hp hs hsp hue ht
      rw [State.retireRow_exhausted (by rw [ud]; exact hsp), hue, if_pos ⟨hs, hsp⟩]
      rfl
  · rw [if_neg hs]
    refine State.settle_damaged (e := { s.entry slot with
      health := .damaged, wanted := s.nct.node.participating, unresolved := false })
        hn hc rfl ?_ fun t ht => State.strike_damaged hcan.1 hp (by simpa using hs) hue ht
    have hno : ¬(s.dst.struck.contains row = true ∧ s.dst.spares = []) := fun h => hs h.1
    unfold State.strike
    rw [State.markDamaged_eq, hue, if_neg hno]
    rfl

/-! ### A scrub step (R158) -/

/-- A granted step scrubs the pointed-to slot where it is GOOD, and passes it over otherwise. -/
theorem State.scrubStep_granted {c : NodeConfig} {s : State} (hc : s.hasConfig c) (hg : s.sar.grant = some .scb)
    (hp : (s.entry s.scb.pointer).parityGood = true) :
    s.scrubStep =
      if (s.entry s.scb.pointer).health = .good then
        (s.readSlot s.scb.pointer).1.andThen fun s => s.scrubbed c.activeSlots
      else s.passedOver c.activeSlots := by
  unfold State.scrubStep
  rw [if_pos (by simp [State.granted, hg]), State.examine_good hp, State.useConfig_good hc]

end Sys2Proof.Machine
end

