-- ==== Sys2Proof/Laws/Watches.lean ====
section
/-!
SUPPORT. What a data change does to the watch entries, and the notices it raises (R172, R173).
-/

set_option Elab.async false

namespace Sys2Proof.Machine

/-- Each entry in use on the slot takes the change; the others stay (R172). -/
theorem changeWatches_fst (now : Time) (slot : Nat) (words : List Word) (k : Nat) (l : List (Option Watch))
    (i : Nat) (w : Watch) (h : l[i]? = some (some w)) :
    (changeWatches now slot words k l).1[i]? =
      some (some (if w.slot = slot then (w.change now (k + i) words).1 else w)) := by
  induction l generalizing k i with
  | nil => simp at h
  | cons o l ih =>
    cases i with
    | zero =>
      simp at h; subst h
      unfold changeWatches
      simp only; split <;> simp
    | succ i =>
      rw [List.getElem?_cons_succ] at h
      have := ih (k + 1) i h
      cases o with
      | none =>
        unfold changeWatches
        simp only [List.getElem?_cons_succ]
        rw [this, show k + 1 + i = k + (i + 1) by omega]
      | some o =>
        unfold changeWatches
        simp only
        split <;> (simp only [List.getElem?_cons_succ]; rw [this, show k + 1 + i = k + (i + 1) by omega])

/-- The notices stand in entry order (R172). -/
theorem changeWatches_snd (now : Time) (slot : Nat) (words : List Word) (k : Nat) (l : List (Option Watch)) :
   (changeWatches now slot words k l).2 = (List.range l.length).flatMap fun i => match l[i]? with
      | some (some w) => if w.slot = slot then (w.change now (k + i) words).2 else []
      | _ => [] := by
  induction l generalizing k with
  | nil => rfl
  | cons o l ih =>
    rw [List.length_cons, List.range_succ_eq_map, List.flatMap_cons, List.flatMap_map]
    have := ih (k + 1)
    have e : (fun i : Nat => match (o :: l)[i + 1]? with
        | some (some w) => if w.slot = slot then (w.change now (k + (i + 1)) words).2 else []
        | _ => []) = (fun i : Nat => match l[i]? with
        | some (some w) => if w.slot = slot then (w.change now (k + 1 + i) words).2 else []
        | _ => []) := by
      funext i
      rw [List.getElem?_cons_succ, show k + (i + 1) = k + 1 + i by omega]
    show _ = _ ++ (List.range l.length).flatMap (fun i : Nat => match (o :: l)[i + 1]? with
      | some (some w) => if w.slot = slot then (w.change now (k + (i + 1)) words).2 else []
      | _ => [])
    rw [e, ← this]
    cases o with
    | none => rfl
    | some o =>
      conv => lhs; unfold changeWatches
      simp only [List.getElem?_cons_zero, Nat.add_zero]
      split <;> rfl

/-- The entries keep their number, and those not in use stay so. -/
theorem changeWatches_rest (now : Time) (slot : Nat) (words : List Word) (k : Nat) (l : List (Option Watch)) :
    (changeWatches now slot words k l).1.length = l.length ∧
      ∀ i : Nat, l[i]? = some none → (changeWatches now slot words k l).1[i]? = some none := by
  induction l generalizing k with
  | nil => exact ⟨rfl, fun i h => by simp at h⟩
  | cons o l ih =>
    obtain ⟨h1, h2⟩ := ih (k + 1)
    refine ⟨?_, fun i h => ?_⟩
    · cases o with
      | none => simp only [changeWatches, List.length_cons, h1]
      | some w =>
        simp only [changeWatches]
        split <;> simp only [List.length_cons, h1]
    · cases i with
      | zero =>
        simp at h
        subst h
        simp only [changeWatches, List.getElem?_cons_zero]
      | succ i =>
        rw [List.getElem?_cons_succ] at h
        cases o with
        | none => simpa only [changeWatches, List.getElem?_cons_succ] using h2 i h
        | some w =>
          simp only [changeWatches]
          split <;> simpa only [List.getElem?_cons_succ] using h2 i h

/-- One data change. -/
theorem State.dataChange_eq (s : State) (slot : Nat) (words : List Word) :
    s.dataChange slot words = { s with
      wch := (changeWatches s.nct.now slot words 0 s.wch).1,
      ntq := s.ntq.arriveAll (changeWatches s.nct.now slot words 0 s.wch).2 } := by
  unfold State.dataChange
  rw [State.notifyAll_eq]

/-- The notices of the data changes follow those that stand already. -/
theorem watchesAfter_from (now : Time) (l : List (Nat × List Word)) (wch : List (Option Watch)) (ns : List Notice) :
    l.foldl (fun r p => let c := changeWatches now p.1 p.2 0 r.1; (c.1, r.2 ++ c.2)) (wch, ns) =
      ((watchesAfter now l wch).1, ns ++ (watchesAfter now l wch).2) := by
  unfold watchesAfter
  induction l generalizing wch ns with
  | nil => simp
  | cons p l ih =>
    simp only [List.foldl_cons]
    rw [ih, ih _ ([] ++ _)]
    simp [List.append_assoc]

theorem watchesAfter_cons (now : Time) (p : Nat × List Word) (l : List (Nat × List Word)) (wch : List (Option Watch)) :
    watchesAfter now (p :: l) wch =
      ((watchesAfter now l (changeWatches now p.1 p.2 0 wch).1).1,
        (changeWatches now p.1 p.2 0 wch).2 ++ (watchesAfter now l (changeWatches now p.1 p.2 0 wch).1).2) := by
  conv => lhs; unfold watchesAfter
  rw [List.foldl_cons, watchesAfter_from]
  rfl

/-- The data changes of an application change the watch entries, and raise the notices of their limits (R172, R173). -/
theorem State.dataChanges_spec (l : List (Nat × List Word)) (s : State) :
    s.dataChanges l = { s with
      wch := (watchesAfter s.nct.now l s.wch).1, ntq := s.ntq.arriveAll (watchesAfter s.nct.now l s.wch).2 } := by
  induction l generalizing s with
  | nil => rfl
  | cons p l ih =>
    show State.dataChanges (s.dataChange p.1 p.2) l = _
    rw [ih, State.dataChange_eq, watchesAfter_cons, Ntq.arriveAll_append]

end Sys2Proof.Machine
end

