-- ==== Sys2Proof/Laws/DataFrames.lean ====
section
/-!
SUPPORT. What an applied POST and an applied SYNC leave: the slots' words, the notices in their order, the end of a
catch-up and the pruned answer set (R64, R66, R67, R100, R113, R129).
-/

set_option Elab.async false

namespace Sys2Proof.Machine

/-! ### The decision on a record (R66, Table 3-4) -/

theorem State.decideRecord_taken (s : State) (r : Record) :
    decide (s.decideRecord r ≠ .passedOver) = s.takesRecord r := by
  unfold State.decideRecord syncDecision syncTable State.takesRecord
  by_cases h1 : r.slotState = .owned s.nct.station <;>
    by_cases h2 : (s.entry r.slot.toNat).state = .owned s.nct.station <;>
    by_cases h3 : newer r.version (s.entry r.slot.toNat).version = true <;>
    by_cases h4 : r.version = (s.entry r.slot.toNat).version <;>
    cases h5 : (s.entry r.slot.toNat).health <;> cases h6 : (s.entry r.slot.toNat).state <;> simp_all

/-- A record that is taken raises REPAIRED where the slot was known and its words were. -/
theorem State.decideRecord_repaired (s : State) (r : Record) :
    decide (s.decideRecord r = .repaired) =
      (s.takesRecord r && decide ((s.entry r.slot.toNat).state ≠ .unlearned) &&
        decide ((s.entry r.slot.toNat).health ≠ .unknown)) := by
  unfold State.decideRecord syncDecision syncTable State.takesRecord
  by_cases h1 : r.slotState = .owned s.nct.station <;>
    by_cases h2 : (s.entry r.slot.toNat).state = .owned s.nct.station <;>
    by_cases h3 : newer r.version (s.entry r.slot.toNat).version = true <;>
    by_cases h4 : r.version = (s.entry r.slot.toNat).version <;>
    cases h5 : (s.entry r.slot.toNat).health <;> cases h6 : (s.entry r.slot.toNat).state <;> simp_all

/-! ### The end of an application -/

/-- The catch-up of `s` ends where an application leaves it in the state `t`. -/
def State.endsCatchup (s t : State) : Prop := s.active = true ∧ s.nct.node = .catchup ∧ t.rpe.wanted = []

/-- What the application of a data frame leaves: `ws` written, the watches after the data changes, the notices `pre`,
those of limits and the end of a catch-up, an answer set, and the cycle and the entries, which were `queue` before the
repair engine's steps; nothing else. -/
structure Applied (s t : State) (c : NodeConfig) (ws : List SlotWrite) (pre : List Notice)
    (changes : List (Nat × List Word)) (answers : List Nat) (queue : List OutEntry) : Prop where
  writes : s.wrote t ws
  watches : t.wch = (watchesAfter s.nct.now changes s.wch).1
  ended : s.endsCatchup t → t.nct = { s.nct with node := .member } ∧
    t.ntq = s.ntq.arriveAll (pre ++ (watchesAfter s.nct.now changes s.wch).2 ++ [.catchupDone t.rpe.unresolved])
  goesOn : ¬s.endsCatchup t →
    t.nct = s.nct ∧ t.ntq = s.ntq.arriveAll (pre ++ (watchesAfter s.nct.now changes s.wch).2)
  answers : t.rpe.answers = answers
  due : t.rpe.due = none
  cycle : t.rpe.cycle = s.cycleAfter c t.rpe.wanted
  queue : t.obs.queue = s.queueAfter t.rpe.wanted queue
  build : s.obs.build = none → t.obs.build = none
  frame : t = { s with
    nct := t.nct, dir := t.dir, dst := t.dst, obs := t.obs, rpe := t.rpe, wch := t.wch, ntq := t.ntq }

/-- The node state and the notices that an application leaves, with the end of a catch-up as a case. -/
theorem Applied.ends {s t : State} {c : NodeConfig} {ws : List SlotWrite} {pre : List Notice}
    {changes : List (Nat × List Word)} {answers : List Nat} {queue : List OutEntry}
    (h : Applied s t c ws pre changes answers queue) :
    t.nct = { s.nct with node :=
        if s.active = true ∧ s.nct.node = .catchup ∧ t.rpe.wanted = [] then .member else s.nct.node } ∧
      t.ntq = s.ntq.arriveAll (pre ++ (watchesAfter s.nct.now changes s.wch).2 ++
        (if s.active = true ∧ s.nct.node = .catchup ∧ t.rpe.wanted = [] then [.catchupDone t.rpe.unresolved]
          else [])) := by
  by_cases he : s.active = true ∧ s.nct.node = .catchup ∧ t.rpe.wanted = []
  · obtain ⟨a, b⟩ := h.ended he
    rw [if_pos he, if_pos he, a, b]
    exact ⟨rfl, rfl⟩
  · obtain ⟨a, b⟩ := h.goesOn he
    rw [if_neg he, if_neg he, a, b, List.append_nil]
    exact ⟨rfl, rfl⟩

/-- The hand-offs to the watch unit and the repair engine, after the writes and the first notices. -/
theorem State.handOffs_spec {x y z : State} {ws : List SlotWrite} {c : NodeConfig} (hd : x.rpe.due = none)
    (hc : x.hasConfig c) (hw : Written x y ws) (pre : List Notice) (l : List (Nat × List Word))
    (hb : x.obs.build = none → z.obs.build = none)
    (hz : z = { y with ntq := y.ntq.arriveAll pre, rpe := { y.rpe with answers := z.rpe.answers }, obs := z.obs }) :
    Applied x (z.dataChanges l).settle c ws pre l z.rpe.answers z.obs.queue := by
  have he := hw.engine
  have hf := hw.frame
  have e1 := State.dataChanges_spec l z
  have hn : z.nct = x.nct := by rw [hz]; exact hw.nct
  have hq : z.ntq = x.ntq.arriveAll pre := by rw [hz, hf]
  have hzd : z.rpe.due = none := by rw [hz]; show y.rpe.due = none; rw [he]; exact hd
  have hzc : z.rpe.cycle = x.rpe.cycle := by rw [hz]; show y.rpe.cycle = _; rw [he]
  have ha : z.active = x.active := by unfold State.active; rw [hn]
  have hw' : watchesAfter z.nct.now l z.wch = watchesAfter x.nct.now l x.wch := by
    rw [hn, show z.wch = x.wch by rw [hz, hf]]
  rw [hw'] at e1
  obtain ⟨build, kb, k⟩ := State.settle_eq (s := z.dataChanges l) (c := c) (by
    rw [e1]
    refine ⟨?_, hc.2⟩
    show z.nct.config = some c
    rw [hn]
    exact hc.1) (by rw [e1]; exact hzd)
  have hbn : x.obs.build = none → build = none := fun h => kb (by rw [e1]; exact hb h)
  have hwr : ∀ u : State, u.dir = z.dir → u.dst = z.dst → u.rpe.wanted = z.rpe.wanted →
      u.rpe.unresolved = z.rpe.unresolved → x.wrote u ws := by
    intro u h1 h2 h3 h4
    refine hw.wrote ?_ ?_ ?_ ?_
    · rw [h1, hz]
    · rw [h2, hz]
    · rw [h3, hz]
    · rw [h4, hz]
  have kc : (z.dataChanges l).cycleAfter c z.rpe.wanted = x.cycleAfter c z.rpe.wanted :=
    State.cycleAfter_congr (by rw [e1]; exact hn) (by rw [e1]; exact hzc) c _
  have kq : ∀ q, (z.dataChanges l).queueAfter z.rpe.wanted q = x.queueAfter z.rpe.wanted q := fun q =>
    State.queueAfter_congr (by rw [e1]; exact hn) (by rw [e1]; exact hzc) _ q
  have ks : (z.dataChanges l).active = x.active := by rw [e1]; exact ha
  rw [show (z.dataChanges l).rpe = z.rpe by rw [e1], show (z.dataChanges l).obs = z.obs by rw [e1],
    show (z.dataChanges l).nct = x.nct by rw [e1]; exact hn, kc, kq, ks] at k
  rw [k, e1]
  refine ⟨hwr _ rfl rfl rfl rfl, rfl, fun h => ⟨?_, ?_⟩, fun h => ⟨?_, ?_⟩, rfl, hzd, rfl, rfl, hbn, ?_⟩
  · exact congrArg (fun n => ({ x.nct with node := n } : Nct)) (if_pos h)
  · refine (if_pos h).trans ?_
    rw [Ntq.arriveAll_append, Ntq.arriveAll_append, ← hq]
    rfl
  · exact congrArg (fun n => ({ x.nct with node := n } : Nct)) (if_neg h)
  · refine (if_neg h).trans ?_
    rw [Ntq.arriveAll_append, ← hq]
  · rw [hz, hf]

/-! ### POST (R64) -/

/-- An applied POST writes its items; a receiver raises RECORD_CHANGED for the slots it knew. -/
theorem State.applyPost_spec {x : State} {c : NodeConfig} (sender : Station) (items : List Item) {own : Bool}
    (ho : x.isOwn sender = own) (hn : x.nct.node ≠ .halted) (hdue : x.rpe.due = none) (hc : x.hasConfig c)
    (hd : sparseWf DirEntry.blank x.dir) (hm : Memory.wf x.dst.cells) (hg : x.entriesGood)
    (hnd : (items.map Item.slot).Nodup) (hl : ∀ i ∈ items, i.words.length ≤ 16) :
    Applied x (x.applyPost sender items) c (items.map (Item.write sender))
      ((items.filter fun i => !own && decide ((x.entry i.slot.toNat).state ≠ .unlearned)).map fun i =>
        .recordChanged i.slot.toNat .posted) (items.map fun i => (i.slot.toNat, i.words)) x.rpe.answers
      x.obs.queue := by
  subst ho
  have hit := State.applyItems_spec items x sender hd hm hg hn hnd hl
  unfold State.applyPost
  simp only
  rw [State.andThen_running (hit.running hn), State.notifyAll_eq]
  have hobs : (items.foldl (State.applyItem sender) x).obs = x.obs := by rw [hit.frame]
  have h := State.handOffs_spec (z := { items.foldl (State.applyItem sender) x with
      ntq := (items.foldl (State.applyItem sender) x).ntq.arriveAll
        ((items.filter fun i => !x.isOwn sender && decide ((x.entry i.slot.toNat).state ≠ .unlearned)).map fun i =>
          .recordChanged i.slot.toNat .posted) }) hdue hc hit _ (items.map fun i => (i.slot.toNat, i.words))
    (by rw [hobs]; exact id) rfl
  have he := hit.engine
  have hans : (items.foldl (State.applyItem sender) x).rpe.answers = x.rpe.answers := by rw [he]
  rw [← hans, ← hobs]
  exact h

/-- An applied POST while a give-up is due: the writes, the notices and the data changes, without the repair engine's
steps (R64, R122). -/
theorem State.applyPost_due {x : State} {d : DueGiveUp} (sender : Station) (items : List Item) {own : Bool}
    (ho : x.isOwn sender = own) (hn : x.nct.node ≠ .halted) (hdue : x.rpe.due = some d)
    (hd : sparseWf DirEntry.blank x.dir) (hm : Memory.wf x.dst.cells) (hg : x.entriesGood)
    (hnd : (items.map Item.slot).Nodup) (hl : ∀ i ∈ items, i.words.length ≤ 16) :
    ∃ y, Written x y (items.map (Item.write sender)) ∧
      x.applyPost sender items = { y with
        wch := (watchesAfter x.nct.now (items.map fun i => (i.slot.toNat, i.words)) x.wch).1,
        ntq := x.ntq.arriveAll
          (((items.filter fun i => !own && decide ((x.entry i.slot.toNat).state ≠ .unlearned)).map fun i =>
              .recordChanged i.slot.toNat .posted) ++
            (watchesAfter x.nct.now (items.map fun i => (i.slot.toNat, i.words)) x.wch).2) } := by
  subst ho
  have hit := State.applyItems_spec items x sender hd hm hg hn hnd hl
  refine ⟨_, hit, ?_⟩
  unfold State.applyPost
  simp only
  rw [State.andThen_running (hit.running hn), State.notifyAll_eq, State.dataChanges_spec]
  have he := hit.engine
  have hf := hit.frame
  have hnct := hit.nct
  generalize items.foldl (State.applyItem sender) x = y at *
  have hw : y.wch = x.wch := by rw [hf]
  have hq : y.ntq = x.ntq := by rw [hf]
  rw [State.settle_due (d := d) (by
    show y.rpe.due = _
    rw [he]
    exact hdue)]
  simp only [hnct, hw, hq, Ntq.arriveAll_append]

/-! ### SYNC (R66, R67, R129) -/

/-- The entries after a SYNC of another station covered `slots`: an answer set emptied so loses its SYNC entry (R126,
R129). -/
def State.prunedQueue (s : State) (slots : List Nat) : List OutEntry :=
  if slots ≠ [] ∧ (s.rpe.answers.filter fun n => !slots.contains n) = [] then
    s.obs.queue.filter fun e => !decide (e.kind = .sync)
  else s.obs.queue

/-- Pruning filters the answer set, and takes the SYNC entry of one that it empties. -/
theorem State.prune_eq (s : State) (slots : List Nat) :
    ∃ build, (s.obs.build = none → build = none) ∧ s.prune slots = { s with
      rpe := { s.rpe with answers := s.rpe.answers.filter fun n => !slots.contains n },
      obs := { queue := s.prunedQueue slots, build := build } } := by
  unfold State.prune State.prunedQueue
  by_cases h : slots = []
  · subst h
    exact ⟨s.obs.build, id, by simp⟩
  · rw [if_neg h]
    unfold State.setAnswers
    by_cases h' : (s.rpe.answers.filter fun n => !slots.contains n) = []
    · simp only [h, h', ne_eq, not_false_eq_true, and_self, if_true]
      exact ⟨_, fun hb => by rw [hb], rfl⟩
    · simp only [h', and_false, if_false]
      exact ⟨s.obs.build, id, rfl⟩

/-- An applied SYNC writes the records that are taken; a receiver raises REPAIRED and prunes its answer set. -/
theorem State.applySync_spec {x : State} {c : NodeConfig} (sender : Station) (records : List Record) {own : Bool}
    (ho : x.isOwn sender = own) (hn : x.nct.node ≠ .halted) (hdue : x.rpe.due = none) (hc : x.hasConfig c)
    (hd : sparseWf DirEntry.blank x.dir) (hm : Memory.wf x.dst.cells) (hg : x.entriesGood)
    (hnd : (records.map Record.slot).Nodup) (hl : ∀ r ∈ records, r.words.length ≤ 16) :
    Applied x (x.applySync sender records) c ((records.filter x.takesRecord).map Record.write)
      ((records.filter fun r => !own && (x.takesRecord r && decide ((x.entry r.slot.toNat).state ≠ .unlearned) &&
          decide ((x.entry r.slot.toNat).health ≠ .unknown))).map fun r => .recordChanged r.slot.toNat .repaired)
      ((records.filter x.takesRecord).map fun r => (r.slot.toNat, r.words))
      (x.rpe.answers.filter fun n => !(if own then [] else x.prunable records).contains n)
      (x.prunedQueue (if own then [] else x.prunable records)) := by
  subst ho
  have hit := State.applyRecords_spec records x hd hm hg hn hnd hl
  unfold State.applySync
  simp only
  rw [State.andThen_running (hit.running hn), State.notifyAll_eq]
  simp only [State.decideRecord_repaired, State.decideRecord_taken] at hit ⊢
  generalize records.foldl State.applyRecord x = y at hit
  have he := hit.engine
  generalize (if x.isOwn sender = true then [] else x.prunable records) = covered
  generalize (List.map (fun r : Record => Notice.recordChanged r.slot.toNat .repaired) _) = pre
  obtain ⟨build, hb, e⟩ := State.prune_eq { y with ntq := y.ntq.arriveAll pre } covered
  have hobs : y.obs = x.obs := by rw [hit.frame]
  have h := State.handOffs_spec
      (z := State.prune { y with ntq := y.ntq.arriveAll pre } covered) hdue hc hit
    pre ((records.filter x.takesRecord).map fun r => (r.slot.toNat, r.words))
    (by rw [e]; intro h; exact hb (by rw [← h, ← hobs])) (by rw [e])
  have hans : (State.prune { y with ntq := y.ntq.arriveAll pre } covered).rpe.answers =
      x.rpe.answers.filter fun n => !covered.contains n := by
    rw [e]
    show y.rpe.answers.filter _ = _
    rw [he]
  have hqueue : (State.prune { y with ntq := y.ntq.arriveAll pre } covered).obs.queue = x.prunedQueue covered := by
    rw [e]
    show State.prunedQueue _ _ = _
    unfold State.prunedQueue
    simp only [he, hobs]
  rw [hans, hqueue] at h
  exact h

end Sys2Proof.Machine
end

