-- ==== Sys2Proof/Laws/Keeps.lean ====
section
/-!
SUPPORT. Every operation keeps the invariant: `Keeps s t` says that what holds of `s` of the canonical forms, of the
bounds and of the wanted set holds of `t`. Each lemma adds one operation at the end of a chain that keeps them.
-/

set_option Elab.async false

namespace Sys2Proof.Machine

/-- The bounds of the node's lists. -/
def State.bounds (s : State) : Prop := s.bounded ∧ s.queueSingle ∧ s.buffersBounded

/-- The canonical forms, the bounds, the agreement of the wanted set with the flags and the valid parity of the
configuration pass on from `s` to `t`. -/
structure Keeps (s t : State) : Prop where
  canonical : s.canonical → t.canonical
  bounds : s.bounds → t.bounds
  follows : s.canonical → s.follows → t.follows
  level : s.levelGood → t.levelGood

namespace Keeps

variable {s t : State}

theorem refl (s : State) : Keeps s s := ⟨id, id, fun _ => id, id⟩

theorem trans {u : State} (h : Keeps s t) (g : Keeps t u) : Keeps s u :=
  ⟨g.canonical ∘ h.canonical, g.bounds ∘ h.bounds, fun hc hf => g.follows (h.canonical hc) (h.follows hc hf),
    g.level ∘ h.level⟩

/-- A state that agrees in everything the invariant reads. -/
theorem same {u : State} (h : Keeps s t) (hdir : u.dir = t.dir) (hdst : u.dst.cells = t.dst.cells)
    (hmbu : u.mbu.table = t.mbu.table) (hntq : u.ntq = t.ntq) (helg : u.elg = t.elg)
    (hobs : u.obs.queue = t.obs.queue) (hwch : u.wch = t.wch) (hopu : u.opu.drafts = t.opu.drafts)
    (hrpe : u.rpe.wanted = t.rpe.wanted := by rfl) (hnct : u.nct.config = t.nct.config := by rfl) : Keeps s u := by
  refine ⟨fun hs => ?_, fun hs => ?_, fun hs hf => ?_, fun hs => ?_⟩
  · have := h.canonical hs
    unfold State.canonical at this ⊢
    rw [hdir, hdst, hmbu]
    exact this
  · have := h.bounds hs
    unfold State.bounds State.bounded State.queueSingle State.buffersBounded at this ⊢
    rw [hntq, helg, hobs, hwch, hopu]
    exact this
  · have := h.follows hs hf
    unfold State.follows State.entry at this ⊢
    rw [hrpe, hdir]
    exact this
  · unfold State.levelGood
    rw [hnct]
    exact h.level hs

/-- Updates of the fields that the invariant does not read. -/
theorem upd (h : Keeps s t) {nct : Nct} {pbi : Pbi} {fck : Fck} {dst : Dst} {sar : Sar} {mbu : Mbu} {obs : Obs}
    {rpe : Rpe} {opu : Opu} {scb : Scb} {lpt : Lpt} {pending : List Instr} (hdst : dst.cells = t.dst.cells)
    (hmbu : mbu.table = t.mbu.table) (hobs : obs.queue = t.obs.queue) (hopu : opu.drafts = t.opu.drafts)
    (hrpe : rpe.wanted = t.rpe.wanted := by rfl) (hnct : nct.config = t.nct.config := by rfl) :
    Keeps s { nct := nct, pbi := pbi, fck := fck, dir := t.dir, dst := dst, sar := sar, mbu := mbu, obs := obs,
              rpe := rpe, opu := opu, scb := scb, wch := t.wch, ntq := t.ntq, elg := t.elg, lpt := lpt,
              pending := pending } :=
  h.same rfl hdst hmbu rfl rfl hobs rfl hopu hrpe hnct

theorem foldl {β : Type} {f : State → β → State} (hf : ∀ t x, Keeps s t → Keeps s (f t x)) (h : Keeps s t)
    (l : List β) :
    Keeps s (l.foldl f t) := by
  induction l generalizing t with
  | nil => exact h
  | cons x l ih => exact ih (hf t x h)

/-! ### Continuations -/

theorem andThen {k : State → State} (h : Keeps s t) (hk : ∀ u, Keeps s u → Keeps s (k u)) : Keeps s (t.andThen k) := by
  unfold State.andThen
  split
  · exact h
  · exact hk t h

theorem live {k : State → State} (h : Keeps s t) (hk : ∀ u, Keeps s u → Keeps s (k u)) : Keeps s (t.live k) := by
  unfold State.live
  split
  · exact h
  · exact hk t h

theorem onBus {k : State → State} (h : Keeps s t) (hk : ∀ u, Keeps s u → Keeps s (k u)) : Keeps s (t.onBus k) :=
  h.live fun _ hu => hu.andThen hk

/-! ### Notices and reports -/

theorem report (h : Keeps s t) (k : ErrorKind) (f : ErrorFields) : Keeps s (t.report k f) := by
  refine ⟨h.canonical, fun hs => ?_, h.follows, h.level⟩
  have hb := h.bounds hs
  exact ⟨⟨hb.1.1, Elg.take_length_le _ _ hb.1.2.1, Elg.take_counter_le _ _ hb.1.2.2⟩, hb.2⟩

theorem notify (h : Keeps s t) (n : Notice) : Keeps s (t.notify n) := by
  refine ⟨h.canonical, fun hs => ?_, h.follows, h.level⟩
  have hb := h.bounds hs
  exact ⟨⟨Ntq.arrive_length_le _ _ hb.1.1, hb.1.2⟩, hb.2⟩

theorem notifyAll (h : Keeps s t) (l : List Notice) : Keeps s (t.notifyAll l) :=
  foldl (fun _ n h => h.notify n) h l

/-! ### The outbound queue -/

theorem place (h : Keeps s t) (k : FrameKind) (r : EntryRef) : Keeps s (t.place k r) := by
  unfold State.place
  split
  · exact h
  · rename_i hn
    refine ⟨h.canonical, fun hs => ?_, h.follows, h.level⟩
    have hb := h.bounds hs
    refine ⟨hb.1, ?_, hb.2.2⟩
    refine List.pairwise_append.2 ⟨hb.2.1, List.pairwise_singleton _ _, ?_⟩
    intro a ha b hb'
    rw [List.mem_singleton.1 hb', FrameKind.clashes_symm]
    have : (t.obs.queue.any fun e => k.clashes e.kind) = false := by simpa using hn
    rw [List.any_eq_false] at this
    simpa using this a ha

theorem removeEntry (h : Keeps s t) (k : FrameKind) : Keeps s (t.removeEntry k) := by
  refine ⟨h.canonical, fun hs => ?_, h.follows, h.level⟩
  have hb := h.bounds hs
  exact ⟨hb.1, hb.2.1.filter _, hb.2.2⟩

theorem setAttempts (h : Keeps s t) (k : FrameKind) (n : Nat) : Keeps s (t.setAttempts k n) := by
  refine ⟨h.canonical, fun hs => ?_, h.follows, h.level⟩
  have hb := h.bounds hs
  refine ⟨hb.1, ?_, hb.2.2⟩
  show List.Pairwise _ (List.map _ _)
  rw [List.pairwise_map]
  refine hb.2.1.imp ?_
  intro a b hab
  have hkind : ∀ e : OutEntry, (if OutEntry.isKind k e = true then { e with attempts := n } else e).kind = e.kind := by
    intro e
    split <;> rfl
  simpa only [hkind] using hab

theorem emptyQueue (h : Keeps s t) : Keeps s t.emptyQueue :=
  ⟨h.canonical, fun hs => ⟨(h.bounds hs).1, List.Pairwise.nil, (h.bounds hs).2.2⟩, h.follows, h.level⟩

/-! ### The directory, the store and the membership table -/

/-- A write of an entry that leaves its wanted flag. -/
theorem putEntry (h : Keeps s t) {n : Nat} {e : DirEntry} (hg : (t.entry n).parityGood = true)
    (hw : e.wanted = (t.entry n).wanted := by rfl) : Keeps s (t.putEntry n e) := by
  refine ⟨fun hs => ⟨State.putEntry_wf (h.canonical hs).1 _ _, (h.canonical hs).2⟩, h.bounds, fun hs hf => ?_, h.level⟩
  have h' := h.follows hs hf
  refine ⟨h'.1, fun m hm => ?_⟩
  rw [State.entry_putEntry (h.canonical hs).1] at hm ⊢
  show m ∈ t.rpe.wanted ↔ _
  split
  · rename_i heq
    rw [heq, h'.2 n hg, ← hw]
  · rename_i hne
    rw [if_neg hne] at hm
    exact h'.2 m hm

/-- A write of an entry whose flags the wanted set follows. -/
theorem putFlags (h : Keeps s t) (n : Nat) (e : DirEntry) : Keeps s (t.putFlags n e) := by
  refine ⟨fun hs => ⟨State.putEntry_wf (h.canonical hs).1 _ _, (h.canonical hs).2⟩, h.bounds, fun hs hf => ?_, h.level⟩
  have h' := h.follows hs hf
  refine ⟨Rpe.follow_pairwise h'.1 _ _ _, fun m hm => ?_⟩
  rw [State.entry_putFlags (h.canonical hs).1] at hm ⊢
  refine (Rpe.mem_follow _ _ _ _ _).trans ?_
  split
  · rfl
  · rename_i hne
    rw [if_neg hne] at hm
    exact h'.2 m hm

theorem setMember (h : Keeps s t) (n : Nat) (e : MemberEntry) : Keeps s (t.setMember n e) :=
  ⟨fun hs => ⟨(h.canonical hs).1, (h.canonical hs).2.1, Mbu.putEntry_wf (h.canonical hs).2.2 _ _⟩, h.bounds,
    h.follows, h.level⟩

/-- A change of the data store that keeps its canonical form. -/
theorem setStore (h : Keeps s t) {d : Dst} (hd : Memory.wf t.dst.cells → Memory.wf d.cells) :
    Keeps s { t with dst := d } :=
  ⟨fun hs => ⟨(h.canonical hs).1, hd (h.canonical hs).2.1, (h.canonical hs).2.2⟩, h.bounds, h.follows, h.level⟩

theorem putCell (h : Keeps s t) (r p : Nat) (c : Cell) : Keeps s { t with dst := t.dst.putCell r p c } :=
  h.setStore fun hm => Dst.putCell_wf hm _ _ _

theorem putWords (h : Keeps s t) (r p : Nat) (ws : List Word) : Keeps s { t with dst := t.dst.putWords r p ws } :=
  h.setStore fun hm => Dst.putWords_wf ws hm _ _

/-! ### Small updates -/

theorem requestStore (h : Keeps s t) (c : Claimant) : Keeps s (t.requestStore c) :=
  h.same rfl rfl rfl rfl rfl rfl rfl rfl

theorem letGoStore (h : Keeps s t) (c : Claimant) : Keeps s (t.letGoStore c) := h.same rfl rfl rfl rfl rfl rfl rfl rfl

theorem setOnBus (h : Keeps s t) (b : Bool) : Keeps s (t.setOnBus b) := h.same rfl rfl rfl rfl rfl rfl rfl rfl

theorem setShift (h : Keeps s t) (x : Shift) : Keeps s (t.setShift x) := h.same rfl rfl rfl rfl rfl rfl rfl rfl

theorem dropAnswer (h : Keeps s t) (n : Nat) : Keeps s (t.dropAnswer n) := h.same rfl rfl rfl rfl rfl rfl rfl rfl

theorem dropFck (h : Keeps s t) : Keeps s t.dropFck := h.same rfl rfl rfl rfl rfl rfl rfl rfl

theorem leaveBus (h : Keeps s t) : Keeps s t.leaveBus := h.same rfl rfl rfl rfl rfl rfl rfl rfl

theorem haltRelease (h : Keeps s t) : Keeps s t.haltRelease := h.same rfl rfl rfl rfl rfl rfl rfl rfl

theorem respondWith (h : Keeps s t) (c : Byte) (r : ResultCode) (f : List Byte) : Keeps s (t.respondWith c r f) :=
  h.same rfl rfl rfl rfl rfl rfl rfl rfl

theorem respond (h : Keeps s t) (c : Command) (r : ResultCode) : Keeps s (t.respond c r) :=
  h.same rfl rfl rfl rfl rfl rfl rfl rfl

theorem finishInHand (h : Keeps s t) (c : Command) (r : ResultCode) (f : List Byte) :
    Keeps s (t.finishInHand c r f) := h.same rfl rfl rfl rfl rfl rfl rfl rfl

theorem carryVerdict (h : Keeps s t) (f : Frame) (v : Verdict) : Keeps s (t.carryVerdict f v) :=
  h.same rfl rfl rfl rfl rfl rfl rfl rfl

theorem slotsPast (h : Keeps s t) (own : Option FrameKind) : Keeps s (t.slotsPast own) :=
  h.same rfl rfl rfl rfl rfl rfl rfl rfl

theorem elapse (h : Keeps s t) (bits : Nat) : Keeps s (t.elapse bits) := by
  unfold State.elapse
  split
  · exact h
  · exact h.upd rfl rfl rfl rfl

theorem elapseMs (h : Keeps s t) (ms : Nat) : Keeps s (t.elapseMs ms) := by
  unfold State.elapseMs
  split
  · exact h
  · exact h.elapse _

theorem reach (h : Keeps s t) (d : Time) : Keeps s (t.reach d) := by
  unfold State.reach
  split
  · exact h
  · exact h.elapseMs _

/-- Drafts that leave the buffer. -/
theorem filterDrafts (h : Keeps s t) (f : Draft → Bool) :
    Keeps s { t with opu := { t.opu with drafts := t.opu.drafts.filter f } } := by
  refine ⟨h.canonical, fun hs => ?_, h.follows, h.level⟩
  have hb := h.bounds hs
  exact ⟨hb.1, hb.2.1, hb.2.2.1, le_trans (List.length_filter_le _ _) hb.2.2.2⟩

theorem noDrafts (h : Keeps s t) : Keeps s { t with opu := { t.opu with drafts := [] } } :=
  ⟨h.canonical, fun hs => ⟨(h.bounds hs).1, (h.bounds hs).2.1, (h.bounds hs).2.2.1, Nat.zero_le _⟩, h.follows, h.level⟩

theorem setWatch (h : Keeps s t) (n : Nat) (w : Option Watch) : Keeps s { t with wch := t.wch.set n w } := by
  refine ⟨h.canonical, fun hs => ?_, h.follows, h.level⟩
  have hb := h.bounds hs
  exact ⟨hb.1, hb.2.1, by simpa using hb.2.2.1, hb.2.2.2⟩

/-! ### The end of an operation, of a join and of a leave; the halt; isolation -/

theorem endOp (h : Keeps s t) (r : DoneResult) : Keeps s (t.endOp r) := by
  unfold State.endOp
  split
  · exact h
  · refine Keeps.notify ?_ _
    exact h.upd rfl rfl rfl rfl

theorem abortJoin (h : Keeps s t) : Keeps s t.abortJoin := by
  unfold State.abortJoin
  split
  · exact h.notify _
  · exact h

theorem abortLeave (h : Keeps s t) : Keeps s t.abortLeave := by
  unfold State.abortLeave
  split
  · exact h.notify _
  · exact h

theorem haltEmpty (h : Keeps s t) : Keeps s t.haltEmpty :=
  ⟨h.canonical, fun hs => ⟨(h.bounds hs).1, List.Pairwise.nil, rfl, Nat.zero_le _⟩, h.follows, h.level⟩

theorem halt (h : Keeps s t) (c : HaltCause) : Keeps s (t.halt c) := by
  unfold State.halt
  exact h.andThen fun u hu => ((((hu.haltRelease.endOp _).abortJoin).abortLeave.haltEmpty).upd rfl rfl rfl rfl).notify _

theorem internalFault (h : Keeps s t) (f : ErrorFields) : Keeps s (t.internalFault f) := (h.report _ _).halt _

theorem duplicate (h : Keeps s t) : Keeps s t.duplicate := (h.report _ _).halt _

theorem examine (h : Keeps s t) {slot : Nat} {k : DirEntry → State}
    (hk : (t.entry slot).parityGood = true → Keeps s (k (t.entry slot))) : Keeps s (t.examine slot k) := by
  unfold State.examine
  split
  · rename_i hg
    exact hk hg
  · exact h.internalFault _

theorem useConfig (h : Keeps s t) {k : NodeConfig → State} (hk : ∀ c, Keeps s (k c)) : Keeps s (t.useConfig k) := by
  unfold State.useConfig
  split
  · exact h
  · split
    · exact hk _
    · exact h.internalFault _

theorem useMember (h : Keeps s t) {n : Nat} {k : MemberEntry → State} (hk : ∀ e, Keeps s (k e)) :
    Keeps s (t.useMember n k) := by
  unfold State.useMember
  split
  · exact hk _
  · exact h.internalFault _

theorem useMembers (h : Keeps s t) {k : State} (hk : Keeps s k) : Keeps s (t.useMembers k) := by
  unfold State.useMembers
  split
  · exact hk
  · exact h.internalFault _

/-- Cleared flags beside an empty wanted set. -/
theorem follows_clearFlags {u : State} (hc : sparseWf DirEntry.blank u.dir) (h : u.rpe.wanted = []) :
    u.clearFlags.follows := by
  refine ⟨by show u.rpe.wanted.Pairwise _; rw [h]; exact .nil, fun n _ => ?_⟩
  have : u.clearFlags.entry n = (u.entry n).clearFlags := sparseGet_map hc.1 _ rfl n
  rw [this]
  show n ∈ u.rpe.wanted ↔ _
  rw [h]
  exact ⟨fun hn => absurd hn List.not_mem_nil, fun hn => Bool.noConfusion hn⟩

theorem isolateEmpty (h : Keeps s t) : Keeps s t.isolateEmpty :=
  ⟨fun hs => ⟨sparseMap_wf (h.canonical hs).1 _, (h.canonical hs).2⟩,
    fun hs => ⟨(h.bounds hs).1, List.Pairwise.nil, rfl, Nat.zero_le _⟩,
    fun hs _ => follows_clearFlags (h.canonical hs).1 rfl, h.level⟩

theorem isolate (h : Keeps s t) (c : IsolationCause) : Keeps s (t.isolate c) := by
  unfold State.isolate
  split
  · exact ((((h.leaveBus.endOp _).abortLeave).isolateEmpty).upd rfl rfl rfl rfl).notify _
  · exact h

theorem endJoin (h : Keeps s t) (r : DoneResult) : Keeps s (t.endJoin r) :=
  ((h.removeEntry _).upd rfl rfl rfl rfl).notify _

theorem endLeave (h : Keeps s t) (r : DoneResult) : Keeps s (t.endLeave r) := by
  unfold State.endLeave
  refine Keeps.notify ?_ _
  refine Keeps.upd ?_ rfl rfl rfl rfl
  exact ⟨fun hs => ⟨sparseMap_wf (h.canonical hs).1 _, (h.canonical hs).2.1, sparseWf_nil⟩,
    fun hs => ⟨(h.bounds hs).1, List.Pairwise.nil, rfl, Nat.zero_le _⟩,
    fun hs _ => follows_clearFlags (h.canonical hs).1 rfl, h.level⟩

end Keeps

end Sys2Proof.Machine
end

