-- ==== Sys2Proof/Laws/KeepsUnits.lean ====
section
/-!
SUPPORT. The repair engine, the rows, the watches, the application of frames, the outcomes and the builds keep the
invariant.
-/

set_option Elab.async false

namespace Sys2Proof.Machine.Keeps

variable {s t : State}

/-! ### The repair engine -/

theorem startCycle (h : Keeps s t) : Keeps s t.startCycle := by
  unfold State.startCycle
  split
  · split
    · exact h
    · exact h.useConfig fun c => (h.upd rfl rfl rfl rfl).place _ _
  · exact h

theorem endFilledCycle (h : Keeps s t) : Keeps s t.endFilledCycle := by
  unfold State.endFilledCycle
  split
  · exact h
  · split
    · exact (h.upd rfl rfl rfl rfl).removeEntry _
    · exact h

theorem finishCatchup (h : Keeps s t) : Keeps s t.finishCatchup := by
  unfold State.finishCatchup
  split
  · exact (h.upd rfl rfl rfl rfl).notify _
  · exact h

theorem settle (h : Keeps s t) : Keeps s t.settle := by
  unfold State.settle
  split
  · exact h.endFilledCycle.finishCatchup.startCycle
  · exact h

theorem giveUpSlot (h : Keeps s t) (n : Nat) : Keeps s (t.giveUpSlot n) :=
  h.andThen fun _ hu => hu.examine fun _ => hu.putFlags _ _

theorem makeGiveUp (h : Keeps s t) : Keeps s t.makeGiveUp := by
  unfold State.makeGiveUp
  split
  · exact h
  · exact (foldl (fun _ n h => h.giveUpSlot n) h _).andThen fun u hu => ((hu.notifyAll _).upd rfl rfl rfl rfl).settle

theorem askFck (h : Keeps s t) (p : Purpose) : Keeps s (t.askFck p) := by
  unfold State.askFck
  split
  · exact h.upd rfl rfl rfl rfl
  · exact h
  · exact (h.upd rfl rfl rfl rfl).requestStore _

theorem openAccess (h : Keeps s t) : Keeps s t.openAccess := by
  unfold State.openAccess
  split
  · split
    · exact h.makeGiveUp
    · exact h
  · exact h

theorem endAccess (h : Keeps s t) : Keeps s t.endAccess := by
  unfold State.endAccess
  split
  · exact h.makeGiveUp.andThen fun u hu => (hu.upd rfl rfl rfl rfl).letGoStore _
  · exact h

theorem giveUpDue (h : Keeps s t) (l : List Nat) : Keeps s (t.giveUpDue l) := by
  unfold State.giveUpDue
  have h' : Keeps s { t with rpe := { t.rpe with due := some { slots := l, takenOver := false } } } :=
    h.upd rfl rfl rfl rfl
  simp only
  split
  · exact h'.askFck _
  · exact h'

theorem cutAccess (h : Keeps s t) : Keeps s t.cutAccess := by
  unfold State.cutAccess
  split
  · exact h
  · exact h
  · split
    · exact h.endAccess
    · have h' : Keeps s ({ t with fck := { t.fck with purpose := none } }.letGoStore .fck) :=
        (h.upd rfl rfl rfl rfl).letGoStore _
      simp only
      split
      · exact h'.giveUpDue _
      · exact h'

theorem setAnswers (h : Keeps s t) (l : List Nat) : Keeps s (t.setAnswers l) := by
  unfold State.setAnswers
  have h' : Keeps s { t with rpe := { t.rpe with answers := l } } := h.upd rfl rfl rfl rfl
  simp only
  split
  · exact h'.removeEntry _
  · exact h'

theorem addAnswers (h : Keeps s t) (l : List Nat) : Keeps s (t.addAnswers l) := by
  unfold State.addAnswers
  split
  · exact h
  · exact (h.upd rfl rfl rfl rfl).place _ _

/-! ### Rows -/

theorem strike (h : Keeps s t) (n r : Nat) : Keeps s (t.strike n r) := by
  unfold State.strike State.markDamaged
  refine Keeps.putFlags ?_ _ _
  exact h.upd rfl rfl rfl rfl

theorem assignSpare_wf {d : Dst} (h : Memory.wf d.cells) (n r : Nat) (l : List Nat) :
    Memory.wf (d.assignSpare n r l).cells := by
  unfold Dst.assignSpare
  generalize List.replicate Config.rowWords (0 : Word) = ws
  refine Dst.putWords_wf ws ?_ _ _
  exact h

theorem assignSpare (h : Keeps s t) (n r : Nat) (l : List Nat) :
    Keeps s { t with dst := t.dst.assignSpare n r l } := by
  exact h.setStore fun hm => assignSpare_wf hm _ _ _

theorem retireRow (h : Keeps s t) (n r : Nat) : Keeps s (t.retireRow n r) := by
  unfold State.retireRow
  have h' : Keeps s ({ t with dst := t.dst.retire n r }.report .rowRetired (.ofSlot n)) := by
    refine Keeps.report ?_ _ _
    exact h.upd rfl rfl rfl rfl
  simp only
  split
  · exact (h'.assignSpare _ _ _).putFlags _ _
  · exact ((h'.putFlags _ _).report _ _).notify _

theorem damage (h : Keeps s t) (n r p : Nat) : Keeps s (t.damage n r p) := by
  unfold State.damage
  simp only
  split
  · exact ((h.report _ _).retireRow _ _).settle
  · exact ((h.report _ _).strike _ _).settle

theorem writeBack (h : Keeps s t) (n r p : Nat) (w : Word) (b : Nat) : Keeps s (t.writeBack n r p w b) :=
  (h.putCell _ _ _).report _ _

theorem readWords (slot row : Nat) (n : Nat) : ∀ {t : State} (p : Nat), Keeps s t →
    Keeps s (State.readWords slot row n p t).1 := by
  induction n with
  | zero => exact fun _ h => h
  | succ n ih =>
    intro t p h
    unfold State.readWords
    split
    · exact ih _ h
    · exact ih _ (h.writeBack _ _ _ _ _)
    · exact ih _ h

theorem readSlot (h : Keeps s t) (n : Nat) : Keeps s (t.readSlot n).1 := by
  unfold State.readSlot
  split
  · exact h
  · rename_i row _
    have hr := readWords n row (t.entry n).length 0 h
    split
    · rename_i heq
      rw [heq] at hr
      exact hr
    · rename_i heq
      rw [heq] at hr
      exact hr.damage _ _ _

theorem writeSlot (h : Keeps s t) (n : Nat) (st : SlotState) (v : Word) (ws : List Word) :
    Keeps s (t.writeSlot n st v ws) := by
  unfold State.writeSlot
  simp only
  split
  · exact (h.putWords _ _ _).putFlags _ _
  · exact h.putFlags _ _

/-! ### Watches -/

theorem changeWatches_length (now : Time) (slot : Nat) (ws : List Word) (l : List (Option Watch)) (i : Nat) :
    (changeWatches now slot ws i l).1.length = l.length := by
  induction l generalizing i with
  | nil => rfl
  | cons w l ih =>
    cases w with
    | none => simp [changeWatches, ih]
    | some w =>
      unfold changeWatches
      simp only
      split <;> simp [ih]

theorem dataChange (h : Keeps s t) (n : Nat) (ws : List Word) : Keeps s (t.dataChange n ws) := by
  unfold State.dataChange
  refine Keeps.notifyAll ?_ _
  refine ⟨h.canonical, fun hs => ?_, h.follows, h.level⟩
  have hb := h.bounds hs
  exact ⟨hb.1, hb.2.1, (changeWatches_length _ _ _ _ _).trans hb.2.2.1, hb.2.2.2⟩

theorem dataChanges (h : Keeps s t) (l : List (Nat × List Word)) : Keeps s (t.dataChanges l) :=
  foldl (fun _ p h => h.dataChange p.1 p.2) h l

/-! ### Membership changes -/

theorem stopIfNoSuspect (h : Keeps s t) : Keeps s t.stopIfNoSuspect := by
  unfold State.stopIfNoSuspect
  split
  · exact h.upd rfl rfl rfl rfl
  · exact h

theorem hear (h : Keeps s t) (n : Nat) : Keeps s (t.hear n) := by
  unfold State.hear
  refine h.useMember fun e => ?_
  split
  · exact h
  · split
    · exact h
    · exact h.useConfig fun c => h.setMember _ _
    · exact h.useMembers (h.useConfig fun c => ((h.setMember _ _).stopIfNoSuspect).notify _)

theorem setMembers (h : Keeps s t) (e : MemberEntry) (ns : List Nat) :
    Keeps s (ns.foldl (fun s n => s.setMember n e) t) :=
  foldl (fun _ n h => h.setMember n e) h ns

theorem addStations (h : Keeps s t) (ns : List Nat) : Keeps s (t.addStations ns) := by
  unfold State.addStations
  exact h.useMembers (h.useConfig fun c =>
    (foldl (fun u n (hu : Keeps s u) => hu.setMember n (.heard u.nct.now c)) h ns).notifyAll _)

theorem orphanSlot (h : Keeps s t) (ns : List Nat) (n : Nat) : Keeps s (State.orphanSlot ns t n) := by
  unfold State.orphanSlot
  refine h.andThen fun u hu => hu.examine fun hg => ?_
  split
  · split
    · exact hu.putEntry hg
    · exact hu
  · exact hu

theorem removeStations (h : Keeps s t) (ns : List Nat) : Keeps s (t.removeStations ns) := by
  unfold State.removeStations
  refine h.useMembers ?_
  split
  · exact h
  · exact (foldl (fun _ n h => h.orphanSlot ns n) h _).andThen fun u hu =>
      ((hu.setMembers _ _).stopIfNoSuspect).notifyAll _

/-! ### Applications -/

theorem notifyChange (h : Keeps s t) (n : Station) (b : SlotState) (slot : Nat) (c : ChangeCause) :
    Keeps s (t.notifyChange n b slot c) := by
  unfold State.notifyChange
  split
  · exact h
  · exact h.notify _

theorem overheard (h : Keeps s t) (n : Station) (slot : Nat) : Keeps s (t.overheard n slot) := by
  unfold State.overheard
  split
  · exact h
  · split
    · split
      · exact (h.removeEntry _).endOp _
      · exact h
    · exact h

theorem applyClaim (h : Keeps s t) (n : Station) (slot : Nat) (v : Word) : Keeps s (t.applyClaim n slot v) :=
  h.examine fun hg => ((h.putEntry hg).notifyChange _ _ _ _).overheard _ _

theorem removeDraft (h : Keeps s t) (n : Nat) : Keeps s (t.removeDraft n) := h.filterDrafts _

theorem applyYield (h : Keeps s t) (n : Station) (slot : Nat) (v : Word) : Keeps s (t.applyYield n slot v) := by
  unfold State.applyYield
  refine h.examine fun hg => ?_
  simp only
  split
  · exact ((h.putEntry hg).notifyChange _ _ _ _).removeDraft _
  · exact (h.putEntry hg).notifyChange _ _ _ _

theorem applyItem (h : Keeps s t) (n : Station) (i : Item) : Keeps s (State.applyItem n t i) :=
  h.andThen fun _ hu => hu.examine fun _ => hu.writeSlot _ _ _ _

theorem applyPost (h : Keeps s t) (n : Station) (items : List Item) : Keeps s (t.applyPost n items) :=
  (foldl (fun _ i h => h.applyItem n i) h items).andThen fun _ hu => ((hu.notifyAll _).dataChanges _).settle

theorem applyRecord (h : Keeps s t) (r : Record) : Keeps s (t.applyRecord r) := by
  unfold State.applyRecord
  refine h.andThen fun u hu => hu.examine fun e => ?_
  split
  · exact hu
  · exact hu.writeSlot _ _ _ _

theorem prune (h : Keeps s t) (l : List Nat) : Keeps s (t.prune l) := by
  unfold State.prune
  split
  · exact h
  · exact h.setAnswers _

theorem applySync (h : Keeps s t) (n : Station) (records : List Record) : Keeps s (t.applySync n records) :=
  (foldl (fun _ r h => h.applyRecord r) h records).andThen fun _ hu =>
    (((hu.notifyAll _).prune _).dataChanges _).settle

theorem examineAll (h : Keeps s t) (l : List Nat) {k : State} (hk : Keeps s k) : Keeps s (t.examineAll l k) := by
  unfold State.examineAll
  split
  · exact h.internalFault _
  · exact hk

theorem applyAsk (h : Keeps s t) (n : Station) (f : Byte) (m : BitVec 3) (c : BitVec 5) :
    Keeps s (t.applyAsk n f m c) := by
  unfold State.applyAsk
  split
  · have ht : Keeps s (t.examineAll (askRange f.toNat c.toNat) (t.addAnswers
        ((askRange f.toNat c.toNat).filter (t.answersFor n m)))) := h.examineAll _ (h.addAnswers _)
    simp only
    split
    · exact ht
    · exact h.useMembers ht
  · exact h

theorem applyBeat (h : Keeps s t) (m : StationMask) : Keeps s (t.applyBeat m) := by
  unfold State.applyBeat
  split
  · exact h.isolate _
  · split
    · exact h.addStations _
    · exact h

theorem applyDrop (h : Keeps s t) (m : StationMask) : Keeps s (t.applyDrop m) := by
  unfold State.applyDrop
  refine (h.removeStations _).andThen fun u hu => ?_
  split
  · exact hu.isolate _
  · exact hu

theorem applyReceived (h : Keeps s t) (f : Frame) : Keeps s (t.applyReceived f) := by
  unfold State.applyReceived
  split
  · exact h.removeStations _
  · exact h.applyDrop _
  · exact h.addStations _
  · exact h.applyClaim _ _ _
  · exact h.applyYield _ _ _
  · exact h.applyPost _ _
  · exact h.applySync _ _
  · exact h.applyAsk _ _ _ _
  · exact h.applyBeat _

theorem applyOwn (h : Keeps s t) (f : Frame) : Keeps s (t.applyOwn f) := by
  unfold State.applyOwn
  split
  · exact h.removeStations _
  · exact h.applyClaim _ _ _
  · exact h.applyYield _ _ _
  · exact h.applyPost _ _
  · exact h.applySync _ _
  all_goals exact h

/-! ### Entry to CATCHUP and founding -/

theorem fillSlots_wf (n : Nat) (f : Nat → DirEntry) (hf : ∀ m, f m ≠ DirEntry.blank) {l : List (Nat × DirEntry)}
    (h : sparseWf DirEntry.blank l) : sparseWf DirEntry.blank (fillSlots n f l) := by
  constructor
  · refine List.pairwise_append.2 ⟨?_, h.1.filter _, ?_⟩
    · rw [List.pairwise_map]
      exact List.pairwise_lt_range
    · intro p hp q hq
      obtain ⟨m, hm, rfl⟩ := List.mem_map.1 hp
      have h1 := List.mem_range.1 hm
      have h2 := (List.mem_filter.1 hq).2
      simp only [decide_eq_true_eq] at h2
      simp only
      omega
  · intro p hp
    rcases List.mem_append.1 hp with hp | hp
    · obtain ⟨m, _, rfl⟩ := List.mem_map.1 hp
      exact hf m
    · exact h.2 p (List.mem_filter.1 hp).1

/-- Below the bound the wanted flags are those written, and from it on those that stood. -/
theorem fillSlots_wanted {k n : Nat} (f : Nat → DirEntry)
    (hw : ∀ m, (t.entry m).parityGood = true → (m ∈ t.rpe.wanted ↔ (t.entry m).wanted = true))
    (hg : (sparseGet DirEntry.blank (fillSlots k f t.dir) n).parityGood = true) :
    (if n < k then (f n).wanted = true else n ∈ t.rpe.wanted) ↔
      (sparseGet DirEntry.blank (fillSlots k f t.dir) n).wanted = true := by
  split
  · rename_i h
    rw [fillSlots_get h]
  · rename_i h
    rw [fillSlots_beyond h] at hg ⊢
    exact hw n hg

theorem freshTable_wf (own : Station) (set : StationMask) (e : MemberEntry) (he : e ≠ MemberEntry.absent) :
    sparseWf MemberEntry.absent (freshTable own set e) := by
  constructor
  · unfold freshTable
    rw [List.pairwise_filterMap]
    refine List.pairwise_lt_range.imp ?_
    intro a b hab p hp q hq
    have key : ∀ n (r : Nat × MemberEntry), (if n = own.toNat then some (n, MemberEntry.own)
        else if set.getLsbD n = true then some (n, e) else none) = some r → r.1 = n := by
      intro n r hr
      split at hr
      · simp only [Option.some.injEq] at hr
        rw [← hr]
      · split at hr
        · simp only [Option.some.injEq] at hr
          rw [← hr]
        · cases hr
    rw [key a p hp, key b q hq]
    exact hab
  · intro p hp
    unfold freshTable at hp
    obtain ⟨n, _, hn⟩ := List.mem_filterMap.1 hp
    split at hn
    · simp only [Option.some.injEq] at hn
      rw [← hn]
      show MemberEntry.own ≠ MemberEntry.absent
      decide
    · split at hn
      · simp only [Option.some.injEq] at hn
        rw [← hn]
        exact he
      · cases hn

theorem heard_ne_absent (now : Time) (c : NodeConfig) : MemberEntry.heard now c ≠ MemberEntry.absent := by
  simp [MemberEntry.heard, MemberEntry.absent]

theorem founded_ne_blank (d : Dst) (n : Nat) : foundedEntry d n ≠ DirEntry.blank := by
  simp [foundedEntry, DirEntry.blank]

theorem enterCatchup (h : Keeps s t) : Keeps s t.enterCatchup := by
  unfold State.enterCatchup
  refine h.useConfig fun c => ?_
  refine Keeps.settle (Keeps.notify ?_ _)
  refine ⟨fun hs => ?_, h.bounds, fun hs hf => ?_, h.level⟩
  · have hc := h.canonical hs
    exact ⟨fillSlots_wf _ _ (by intro m; simp [DirEntry.blank]) hc.1, hc.2.1,
      freshTable_wf _ _ _ (heard_ne_absent _ _)⟩
  · have h' := h.follows hs hf
    refine ⟨?_, fun n hn => ?_⟩
    · refine List.pairwise_append.2 ⟨List.pairwise_lt_range, h'.1.filter _, fun a ha b hb => ?_⟩
      have := List.mem_range.1 ha
      have := of_decide_eq_true (List.mem_filter.1 hb).2
      omega
    · refine Iff.trans ?_ (fillSlots_wanted (fun _ => { DirEntry.blank with wanted := true }) h'.2 hn)
      by_cases hlt : n < c.activeSlots
      · simp [hlt]
      · simp [Rpe.beyond, hlt, Nat.le_of_not_lt hlt]

theorem found (h : Keeps s t) : Keeps s t.found := by
  unfold State.found
  refine h.useConfig fun c => ?_
  refine Keeps.notifyAll ?_ _
  refine ⟨fun hs => ?_, h.bounds, fun hs hf => ?_, h.level⟩
  · have hc := h.canonical hs
    exact ⟨fillSlots_wf _ _ (founded_ne_blank _) hc.1, hc.2.1, freshTable_wf _ _ _ (heard_ne_absent _ _)⟩
  · have h' := h.follows hs hf
    refine ⟨h'.1.filter _, fun n hn => ?_⟩
    refine Iff.trans ?_ (fillSlots_wanted (foundedEntry t.dst) h'.2 hn)
    by_cases hlt : n < c.activeSlots
    · simp [Rpe.beyond, hlt, foundedEntry, DirEntry.blank]
    · simp [Rpe.beyond, hlt, Nat.le_of_not_lt hlt]

theorem hearJoining (h : Keeps s t) (f : Frame) : Keeps s (t.hearJoining f) := by
  unfold State.hearJoining
  have h' : Keeps s { t with mbu := { t.mbu with
      provisional := provisionalAfter t.nct.station t.mbu.provisional f } } := h.upd rfl rfl rfl rfl
  simp only
  split
  · refine h'.useConfig fun c => ?_
    split
    · exact h'
    · exact h'.endJoin _
  · exact h'

/-! ### The decision and the outcomes -/

theorem takeDecision (h : Keeps s t) : Keeps s t.takeDecision := by
  unfold State.takeDecision
  refine h.useMembers ?_
  have h' : Keeps s { t with mbu := { t.mbu with decision := none } } := h.upd rfl rfl rfl rfl
  simp only
  split
  · split
    · exact h'
    · exact h'.place _ _
  · exact h'.isolate _

theorem restartDecision (h : Keeps s t) : Keeps s t.restartDecision := by
  unfold State.restartDecision
  refine h.useMembers ?_
  split
  · exact h
  · refine h.useConfig fun c => ?_
    split
    · exact h.takeDecision
    · exact h.upd rfl rfl rfl rfl

theorem delayDecision (h : Keeps s t) : Keeps s t.delayDecision := h.useConfig fun _ => h.upd rfl rfl rfl rfl

theorem logOutcome (h : Keeps s t) (f : Frame) (o : FrameOutcome) : Keeps s (t.logOutcome f o) := by
  unfold State.logOutcome
  simp only
  split
  · exact h.report _ _
  · exact h.report _ _
  · exact h

theorem nextTry (h : Keeps s t) (c : AskCycle) : Keeps s (t.nextTry c) := Keeps.place (h.upd rfl rfl rfl rfl) _ _

theorem tryEnds (h : Keeps s t) (c : AskCycle) : Keeps s (t.tryEnds c) := by
  unfold State.tryEnds
  split
  · exact h.nextTry c
  · exact h.giveUpDue _

theorem askAccepted (h : Keeps s t) : Keeps s t.askAccepted := by
  unfold State.askAccepted
  split
  · exact h
  · exact h.useConfig fun _ => h.upd rfl rfl rfl rfl

theorem askFailed (h : Keeps s t) : Keeps s t.askFailed := by
  unfold State.askFailed
  split
  · exact h
  · refine Keeps.tryEnds ?_ _
    exact h.upd rfl rfl rfl rfl

theorem syncSent (h : Keeps s t) (r : List Record) : Keeps s (t.syncSent r) := by
  unfold State.syncSent
  simp only
  split
  · exact h.setAnswers _
  · exact (h.setAnswers _).place _ _

theorem ownAccepted (h : Keeps s t) (f : Frame) (alone : Bool) : Keeps s (t.ownAccepted f alone) := by
  unfold State.ownAccepted
  split
  · have h' := h.removeEntry f.kind
    simp only
    split
    · exact h'.endLeave _
    · exact h'.restartDecision
    · split
      · exact h'.found
      · exact h'.enterCatchup
    · exact h'.endOp _
    · exact h'.endOp _
    · exact h'.noDrafts.endOp _
    · exact h'.syncSent _
    · exact h'.askAccepted
    · exact h'
  · exact h

theorem goneAtOnce (h : Keeps s t) (k : FrameKind) : Keeps s (t.goneAtOnce k) := by
  unfold State.goneAtOnce
  simp only
  split
  · exact (h.removeEntry _).endOp _
  · exact h.removeEntry _

theorem eighthFailure (h : Keeps s t) (k : FrameKind) (b : Bool) : Keeps s (t.eighthFailure k b) := by
  have h' := h.removeEntry k
  cases k
  · exact h'.endLeave _
  · exact h'.delayDecision
  · exact h'.endJoin _
  · exact h'.endOp _
  · exact h'.endOp _
  · exact h'.endOp _
  · exact h'.setAnswers []
  · exact h'.askFailed
  · exact h'

theorem backToQueue (h : Keeps s t) (k : FrameKind) : Keeps s (t.backToQueue k) := by
  unfold State.backToQueue
  split
  · exact h.setOnBus _
  · exact h

theorem ownFailed (h : Keeps s t) (f : Frame) (b : Bool) : Keeps s (t.ownFailed f b) := by
  unfold State.ownFailed
  split
  · exact h
  · split
    · exact h.goneAtOnce _
    · split
      · exact (h.setAttempts _ _).backToQueue _
      · exact h.eighthFailure _ _

theorem ownOutcome (h : Keeps s t) (f : Frame) (o : FrameOutcome) : Keeps s (t.ownOutcome f o) := by
  unfold State.ownOutcome
  split
  · exact (h.applyOwn f).andThen fun _ hu => hu.ownAccepted _ _
  · exact (h.applyOwn f).andThen fun _ hu => hu.ownAccepted _ _
  · exact h.ownFailed _ _
  · exact h.ownFailed _ _

theorem ownCut (h : Keeps s t) (k : FrameKind) : Keeps s (t.ownCut k) := by
  unfold State.ownCut
  split
  · split
    · exact h.goneAtOnce _
    · exact h.backToQueue _
  · exact h

theorem pfailEnd (h : Keeps s t) : Keeps s t.pfailEnd := (h.removeEntry _).halt _

/-! ### The builds -/

theorem buildConfig (h : Keeps s t) {k : NodeConfig → State × Option Payload} (hk : ∀ c, Keeps s (k c).1) :
    Keeps s (t.buildConfig k).1 := by
  unfold State.buildConfig
  split
  · exact h
  · split
    · exact hk _
    · exact h.internalFault _

theorem buildMembers (h : Keeps s t) {k : State × Option Payload} (hk : Keeps s k.1) :
    Keeps s (t.buildMembers k).1 := by
  unfold State.buildMembers
  split
  · exact hk
  · exact h.internalFault _

theorem buildEntry (h : Keeps s t) {n : Nat} {k : DirEntry → State × Option Payload} (hk : ∀ e, Keeps s (k e).1) :
    Keeps s (t.buildEntry n k).1 := by
  unfold State.buildEntry
  split
  · exact hk _
  · exact h.internalFault _

theorem buildDrop (h : Keeps s t) : Keeps s t.buildDrop.1 := by
  unfold State.buildDrop
  refine h.buildMembers ?_
  simp only
  generalize (maskOf (t.suspects.filter (StationMask.has _))) = m
  split
  · exact (h.removeEntry _).restartDecision
  · exact h

theorem buildAsk (h : Keeps s t) : Keeps s t.buildAsk.1 := by
  unfold State.buildAsk
  split
  · exact h.removeEntry _
  · split
    · exact h.removeEntry _
    · exact h.upd rfl rfl rfl rfl

theorem buildClaim (h : Keeps s t) : Keeps s t.buildClaim.1 := by
  unfold State.buildClaim
  split
  · refine h.buildEntry fun e => ?_
    split
    · exact h
    · exact h
    · exact (h.removeEntry _).endOp _
  · exact h.removeEntry _

theorem buildYield (h : Keeps s t) : Keeps s t.buildYield.1 := by
  unfold State.buildYield
  split
  · refine h.buildEntry fun e => ?_
    split
    · exact h
    · exact (h.removeEntry _).endOp _
  · exact h.removeEntry _

theorem buildPost (h : Keeps s t) : Keeps s t.buildPost.1 := by
  unfold State.buildPost
  split
  · exact h.internalFault _
  · split
    · exact h
    · exact ((h.filterDrafts _).removeEntry _).endOp _

theorem gather (slots : List Nat) : ∀ (room : Nat) {t : State}, Keeps s t → Keeps s (State.gather room slots t).1 := by
  induction slots with
  | nil => exact fun _ _ h => h
  | cons n rest ih =>
    intro room t h
    unfold State.gather
    split
    · exact h
    · split
      · exact h.internalFault _
      · split
        · exact ih _ (h.dropAnswer _)
        · have hr := h.readSlot n
          split
          · rename_i heq
            rw [heq] at hr
            exact ih _ hr
          · rename_i heq
            rw [heq] at hr
            exact ih _ (hr.dropAnswer _)

theorem buildSync (h : Keeps s t) : Keeps s t.buildSync.1 := by
  unfold State.buildSync
  have hg := gather t.rpe.answers 4 h
  split
  rename_i heq
  rw [heq] at hg
  split
  · exact hg
  · split
    · show Keeps s (State.setAnswers _ [])
      exact Keeps.setAnswers hg []
    · exact hg

theorem buildKind (h : Keeps s t) (k : FrameKind) : Keeps s (t.buildKind k).1 := by
  cases k
  · exact h
  · exact h.buildDrop
  · exact h.buildConfig fun _ => h
  · exact h.buildClaim
  · exact h.buildYield
  · exact h.buildPost
  · exact h.buildSync
  · exact h.buildAsk
  · exact h.buildMembers (h.buildConfig fun _ => h)

theorem cutBuild (h : Keeps s t) : Keeps s t.cutBuild := by
  unfold State.cutBuild
  split
  · exact h.cutAccess
  · exact h

theorem offerOne (h : Keeps s t) (k : FrameKind) : Keeps s (t.offerOne k).1 := by
  unfold State.offerOne
  split
  · simp only
    split
    · exact h.openAccess
    · exact (h.openAccess.buildKind k).andThen fun _ hu => hu.endAccess
  · simp only
    split
    · exact h.cutBuild
    · exact h.cutBuild.buildKind k

theorem offer (l : List FrameKind) : ∀ {t : State}, Keeps s t → Keeps s (State.offer l t).1 := by
  induction l with
  | nil => exact fun h => h.cutBuild
  | cons k rest ih =>
    intro t h
    unfold State.offer
    split
    · have h' : Keeps s (if k.needsStore then t.askFck .build else t) := by
        split
        · exact h.askFck _
        · exact h
      simp only
      generalize (if k.needsStore then t.askFck .build else t) = u at h' ⊢
      split
      · exact h'
      · have ho := h'.offerOne k
        split
        · rename_i heq
          rw [heq] at ho
          exact ho
        · rename_i heq
          rw [heq] at ho
          exact ih ho
    · exact ih h

theorem buildFrame (h : Keeps s t) : Keeps s t.buildFrame := by
  unfold State.buildFrame
  have ho := offer kindOrder h
  split
  · rename_i heq
    rw [heq] at ho
    exact Keeps.upd ho rfl rfl rfl rfl
  · rename_i heq
    rw [heq] at ho
    exact ho

theorem giveStart (h : Keeps s t) (f : Frame) : Keeps s (t.giveStart f) := by
  unfold State.giveStart
  have h' : Keeps s { t with
      obs := { t.obs with build := none },
      pbi := { t.pbi.goActive with shift := .sending f } } := h.upd rfl rfl rfl rfl
  simp only
  split
  · exact h'.setOnBus _
  · exact h'

end Sys2Proof.Machine.Keeps
end

