-- ==== Sys2Proof/Laws/KeepsRows.lean ====
section
/-!
SUPPORT. What each row of the table does keeps the invariant. The rows' meanings are compositions of the operations
named here.
-/

set_option Elab.async false

namespace Sys2Proof.Machine.Keeps

variable {s t : State}

/-! ### The pins -/

/-- A blank directory beside an empty wanted set. -/
theorem follows_blank {u : State} (hd : u.dir = []) (h : u.rpe.wanted = []) : u.follows := by
  unfold State.follows State.entry
  rw [hd, h]
  exact ⟨List.Pairwise.nil, fun n _ => ⟨fun hn => absurd hn List.not_mem_nil, fun hn => Bool.noConfusion hn⟩⟩

theorem hardReset (_h : Keeps s t) (p : ResetPins) (b : Bool) : Keeps s (t.hardReset p b) := by
  refine ⟨fun _ => ⟨sparseWf_nil, sparseWf_nil, sparseWf_nil⟩, fun _ => ?_, fun _ _ => follows_blank rfl rfl,
    fun _ _ hc => by cases hc⟩
  exact ⟨⟨Nat.zero_le _, Nat.zero_le _, Nat.zero_le _⟩, List.Pairwise.nil, rfl, Nat.zero_le _⟩

theorem softReset (h : Keeps s t) (p : ResetPins) : Keeps s (t.softReset p) := by
  refine ⟨fun hs => ⟨sparseWf_nil, sparseWf_filter (h.canonical hs).2.1 _, sparseWf_nil⟩, fun hs => ?_,
    fun _ _ => follows_blank rfl rfl, fun _ _ hc => by cases hc⟩
  have hb := h.bounds hs
  exact ⟨⟨Nat.zero_le _, hb.1.2⟩, List.Pairwise.nil, rfl, Nat.zero_le _⟩

theorem holdReset (h : Keeps s t) : Keeps s t.holdReset := h.same rfl rfl rfl rfl rfl rfl rfl rfl

theorem startPfailLeave (h : Keeps s t) : Keeps s t.startPfailLeave := by
  unfold State.startPfailLeave
  refine Keeps.upd ?_ rfl rfl rfl rfl
  exact ((((h.leaveBus.endOp _).abortLeave).emptyQueue).place _ _)

theorem pfailEdge (h : Keeps s t) : Keeps s t.pfailEdge := by
  unfold State.pfailEdge
  split
  · exact h
  · have h' : Keeps s { t with nct := { t.nct with pfailLatch := true } } := h.upd rfl rfl rfl rfl
    simp only
    split
    · exact h'.startPfailLeave
    · exact h'.halt _

theorem pfailExpiry (h : Keeps s t) : Keeps s t.pfailExpiry := by
  unfold State.pfailExpiry
  split
  · exact h
  · split
    · exact h
    · exact (h.elapse _).halt _

theorem disturbCell (h : Keeps s t) (r p : Nat) (f : BitVec 22) : Keeps s (t.disturbCell r p f) := h.putCell _ _ _

theorem disturbEntry (h : Keeps s t) (n : Nat) (b : EntryBits) : Keeps s (t.disturbEntry n b) :=
  ⟨fun hs => ⟨sparsePut_wf (h.canonical hs).1 _ _, (h.canonical hs).2⟩, h.bounds, fun hs hf => by
    have h' := h.follows hs hf
    refine ⟨h'.1, fun m hm => ?_⟩
    have he : (t.disturbEntry n b).entry m = _ := sparseGet_put (h.canonical hs).1.1 _ _ _
    rw [he] at hm ⊢
    split at hm
    · exact absurd hm (by simp)
    · rename_i hne
      rw [if_neg hne]
      exact h'.2 m hm, h.level⟩

theorem disturbMember (h : Keeps s t) (n : Nat) : Keeps s (t.disturbMember n) :=
  ⟨fun hs => ⟨(h.canonical hs).1, (h.canonical hs).2.1, sparsePut_wf (h.canonical hs).2.2 _ _⟩, h.bounds,
    h.follows, h.level⟩

/-! ### The timers and engines -/

theorem listenEnds (h : Keeps s t) : Keeps s t.listenEnds := by
  unfold State.listenEnds
  split
  · refine Keeps.place ?_ _ _
    exact (h.reach _).upd rfl rfl rfl rfl
  · exact h

theorem startDecision (h : Keeps s t) : Keeps s t.startDecision := by
  unfold State.startDecision
  split
  · exact h
  · exact h.useConfig fun _ => h.upd rfl rfl rfl rfl

theorem deadlinePasses (h : Keeps s t) (n : Nat) : Keeps s (t.deadlinePasses n) := by
  unfold State.deadlinePasses
  split
  · refine h.useMember fun e => ?_
    split
    · exact (((h.reach _).setMember _ _).notify _).startDecision
    · exact h
  · exact h

theorem decisionDue (h : Keeps s t) : Keeps s t.decisionDue := by
  unfold State.decisionDue
  split
  · split
    · exact (h.reach _).takeDecision
    · exact h
  · exact h

theorem beatDue (h : Keeps s t) : Keeps s t.beatDue := by
  unfold State.beatDue
  split
  · split
    · refine h.useConfig fun c => ?_
      refine Keeps.place ?_ _ _
      exact (h.reach _).upd rfl rfl rfl rfl
    · exact h
  · exact h

theorem waitEnds (h : Keeps s t) : Keeps s t.waitEnds := by
  unfold State.waitEnds
  split
  · split
    · split
      · exact (h.reach _).tryEnds _
      · exact h
    · exact h
  · exact h

theorem giveUpHeld (h : Keeps s t) : Keeps s t.giveUpHeld := by
  unfold State.giveUpHeld
  split
  · exact h.endAccess
  · exact h

theorem turnBegins (h : Keeps s t) : Keeps s t.turnBegins := by
  unfold State.turnBegins
  split
  · split
    · refine h.useConfig fun c => ?_
      refine Keeps.requestStore ?_ _
      exact (h.elapseMs _).upd rfl rfl rfl rfl
    · exact h
  · exact h

theorem scrubbed (h : Keeps s t) (n : Nat) : Keeps s (t.scrubbed n) := by
  unfold State.scrubbed
  refine Keeps.letGoStore ?_ _
  exact h.upd rfl rfl rfl rfl

theorem passedOver (h : Keeps s t) (n : Nat) : Keeps s (t.passedOver n) := by
  unfold State.passedOver
  simp only
  split
  · split
    · refine Keeps.requestStore (Keeps.letGoStore ?_ _) _
      exact h.upd rfl rfl rfl rfl
    · refine Keeps.letGoStore ?_ _
      exact h.upd rfl rfl rfl rfl
  · refine Keeps.letGoStore ?_ _
    exact h.upd rfl rfl rfl rfl

theorem scrubStep (h : Keeps s t) : Keeps s t.scrubStep := by
  unfold State.scrubStep
  split
  · refine h.examine fun _ => h.useConfig fun c => ?_
    split
    · exact (h.readSlot _).andThen fun _ hu => hu.scrubbed _
    · exact h.passedOver _
  · exact h

theorem ageEnds (h : Keeps s t) (n : Nat) : Keeps s (t.ageEnds n) := by
  unfold State.ageEnds
  split
  · split
    · exact ((h.reach _).setWatch _ _).notify _
    · exact h
  · exact h

/-! ### The bus -/

theorem idleFor (h : Keeps s t) (n : Nat) : Keeps s (t.idleFor n) := by
  unfold State.idleFor
  have h' : Keeps s (if t.pbi.lines = .high then t else { t with pbi := t.pbi.goHigh }) := by
    split
    · exact h
    · exact h.upd rfl rfl rfl rfl
  exact h'.elapse _

theorem startFrame (h : Keeps s t) (b : Bool) : Keeps s (t.startFrame b) := by
  unfold State.startFrame
  have h' : Keeps s (if t.obs.build.isSome then t else t.buildFrame) := by
    split
    · exact h
    · exact h.buildFrame
  simp only
  generalize (if t.obs.build.isSome then t else t.buildFrame) = u at h' ⊢
  split
  · split
    · exact h'
    · exact h'.giveStart _
  · exact h'

theorem busFree (h : Keeps s t) (b : Bool) : Keeps s (t.busFree b) := by
  unfold State.busFree
  split
  · exact ((h.idleFor _).setShift _).startFrame _
  · exact h

theorem ownTruncated (h : Keeps s t) (f : Option Frame) : Keeps s (t.ownTruncated f) := by
  unfold State.ownTruncated
  split
  · exact h
  · split
    · exact h.pfailEnd
    · exact h.ownCut _

theorem truncate (h : Keeps s t) (b : Option Byte) : Keeps s (t.truncate b) := by
  unfold State.truncate
  have h' : Keeps s (if t.nct.node.taking then t.report .frameTruncated (headerFields b) else t) := by
    split
    · exact h.report _ _
    · exact h
  refine Keeps.andThen (Keeps.cutAccess ?_) fun _ hu => hu.ownTruncated _
  exact h'.upd rfl rfl rfl rfl

theorem ownStop (h : Keeps s t) (k : FrameKind) : Keeps s (t.ownStop k) := by
  unfold State.ownStop
  have h' : Keeps s { t with pbi := { t.pbi with lastSender := true } } := h.upd rfl rfl rfl rfl
  simp only
  split
  · exact h'.halt _
  · split
    · exact h'.upd rfl rfl rfl rfl
    · exact h'

theorem stop (h : Keeps s t) (b : Option Byte) : Keeps s (t.stop b) := by
  unfold State.stop
  split
  · have h' : Keeps s { t with pbi := { t.pbi.goHigh with shift := .idle } } := h.upd rfl rfl rfl rfl
    simp only
    split
    · exact h'.ownStop _
    · exact h'
  · exact h.upd rfl rfl rfl rfl
  · refine Keeps.truncate ?_ _
    exact h.upd rfl rfl rfl rfl

theorem missedStop (h : Keeps s t) : Keeps s t.missedStop := by
  unfold State.missedStop
  split
  · split
    · exact h.halt _
    · exact h
  · exact h

theorem start (h : Keeps s t) (b : Option Byte) : Keeps s (t.start b) := by
  unfold State.start
  have h' : Keeps s (if t.pbi.shift.inFrame then t.truncate b else t.missedStop) := by
    split
    · exact h.truncate _
    · exact h.missedStop
  refine h'.andThen fun u hu => ?_
  refine Keeps.andThen (Keeps.cutBuild ?_) fun v hv => ?_
  · exact hu.upd rfl rfl rfl rfl
  · exact hv.upd rfl rfl rfl rfl

theorem idleEnd (h : Keeps s t) (b : Option Byte) : Keeps s (t.idleEnd b) := by
  unfold State.idleEnd
  split
  · exact (h.idleFor _).truncate _
  · split
    · exact (h.idleFor _).setShift _
    · exact h

theorem frameEnds (h : Keeps s t) (c : TruncationCause) (b : Option Byte) : Keeps s (t.frameEnds c b) := by
  cases c
  · exact h.idleEnd b
  · exact h.stop b
  · exact h.start b

theorem loseArbitration (h : Keeps s t) (n : Nat) : Keeps s (t.loseArbitration n) := by
  unfold State.loseArbitration
  split
  · split
    · exact (h.setShift _).ownCut _
    · exact h.duplicate
  · exact h

theorem senderPause (h : Keeps s t) (f : Frame) : Keeps s (t.senderPause f) := by
  unfold State.senderPause
  have h' : Keeps s { t with pbi := { t.pbi.goPause with shift := .sendingPaused f } } := h.upd rfl rfl rfl rfl
  simp only
  split
  · exact h'
  · split
    · exact (h'.askFck _).openAccess
    · exact h'.askFck _

theorem badBody (h : Keeps s t) (k : ErrorKind) (n : Option Station) : Keeps s (t.badBody k n) := by
  unfold State.badBody
  exact Keeps.upd (h.report _ _) rfl rfl rfl rfl

theorem intactFrame (h : Keeps s t) (f : Frame) : Keeps s (t.intactFrame f) := by
  unfold State.intactFrame
  have h' : Keeps s (if t.nct.node.participating then t.hear f.sender.toNat else t) := by
    split
    · exact h.hear _
    · exact h
  refine h'.andThen fun u hu => ?_
  split
  · exact hu.duplicate
  · have hu' : Keeps s { u with fck := { u.fck with inbound := some { frame := f, verdict := none } } } :=
      hu.upd rfl rfl rfl rfl
    simp only
    split
    · refine Keeps.askFck ?_ _
      exact hu'.upd rfl rfl rfl rfl
    · exact hu'

theorem receiverPause (h : Keeps s t) (b : List Byte) (n : Nat) : Keeps s (t.receiverPause b n) := by
  unfold State.receiverPause
  have h' : Keeps s { t with pbi := { t.pbi.goPause with shift := .paused } } := h.upd rfl rfl rfl rfl
  simp only
  split
  · split
    · exact h'.badBody _ _
    · exact h'.badBody _ _
    · exact h'.badBody _ _
    · exact h'.intactFrame _
  · exact h'

theorem checkPause (h : Keeps s t) (b : List Byte) (n : Nat) : Keeps s (t.checkPause b n) := by
  unfold State.checkPause
  split
  · exact h.senderPause _
  · exact h.receiverPause _ _
  · exact h

theorem judge (h : Keeps s t) (f : Frame) : Keeps s (t.judge f) := by
  unfold State.judge
  split
  · exact h.carryVerdict _ _
  · exact h.carryVerdict _ _
  · exact (h.report _ _).carryVerdict _ _
  · exact h.internalFault _

theorem runCheck (h : Keeps s t) : Keeps s t.runCheck := by
  unfold State.runCheck
  split
  · split
    · exact h.openAccess.andThen fun _ hu => hu.judge _
    · exact h
  · exact h

theorem receiverSlots (h : Keeps s t) (b : Bool) : Keeps s (t.receiverSlots b) := by
  unfold State.receiverSlots
  split
  · exact h
  · have h' : Keeps s { t.slotsPast none with fck := { (t.slotsPast none).fck with inbound := none } } :=
      (h.slotsPast none).upd rfl rfl rfl rfl
    simp only
    split
    · exact h'
    · split
      · split
        · exact h'
        · exact h'.hearJoining _
      · split
        · refine Keeps.andThen ?_ fun _ hu => hu.endAccess
          split
          · exact h'.applyReceived _
          · exact h'
        · exact h'

theorem classed (h : Keeps s t) (f : Frame) (a b : Bool) {k : State} (hk : Keeps s k) :
    Keeps s (t.classed f a b k) := by
  unfold State.classed
  split
  · exact hk
  · exact h.useMembers hk

theorem senderSlots (h : Keeps s t) (f : Frame) (a b : Bool) : Keeps s (t.senderSlots f a b) := by
  unfold State.senderSlots
  split
  · exact h.classed _ _ _ (((h.slotsPast _).logOutcome _ _).removeEntry _)
  · split
    · refine (h.slotsPast _).openAccess.andThen fun u hu => ?_
      exact hu.classed _ _ _ (((hu.logOutcome _ _).ownOutcome _ _).andThen fun _ hv => hv.endAccess)
    · exact h

theorem vetoSlot (h : Keeps s t) (a b : Bool) : Keeps s (t.vetoSlot a b) := by
  unfold State.vetoSlot
  split
  · exact h.receiverSlots _
  · exact h.senderSlots _ _ _
  · exact h

theorem stuck (h : Keeps s t) (l : Line) : Keeps s (t.stuck l) := by
  unfold State.stuck
  split
  · exact h
  · refine Keeps.notify (Keeps.report ?_ _ _) _
    refine Keeps.upd (Keeps.elapse ?_ _) rfl rfl rfl rfl
    exact h.upd rfl rfl rfl rfl

theorem episodeEnds (h : Keeps s t) : Keeps s t.episodeEnds := by
  unfold State.episodeEnds
  split
  · exact h.upd rfl rfl rfl rfl
  · exact h

/-! ### The local port -/

theorem transact (h : Keeps s t) {k : State → State} (hk : ∀ u, Keeps s u → Keeps s (k u)) :
    Keeps s (t.transact k) := by
  unfold State.transact
  refine h.live fun u hu => ?_
  have hu' : Keeps s u.nselRise := hu.upd rfl rfl rfl rfl
  split
  · exact hu'
  · exact hk _ hu'

theorem nselFall (h : Keeps s t) (x : Transaction) : Keeps s (t.nselFall x) := by
  cases x
  · exact h.upd rfl rfl rfl rfl
  · exact h.upd rfl rfl rfl rfl

theorem command (h : Keeps s t) (c : Command) (b : Bool) {k : State → State} (hk : ∀ u, Keeps s u → Keeps s (k u)) :
    Keeps s (t.command c b k) := by
  unfold State.command
  refine h.transact fun u hu => ?_
  split
  · exact hu.respond _ _
  · split
    · exact hu.respond _ _
    · split
      · exact hu.respond _ _
      · exact hk _ hu

theorem commandArgs {α : Type} (h : Keeps s t) (c : Command) (a : Option α) {k : State → α → State}
    (hk : ∀ u x, Keeps s u → Keeps s (k u x)) : Keeps s (t.commandArgs c a k) := by
  unfold State.commandArgs
  refine h.command c _ fun u hu => ?_
  split
  · exact hk _ _ hu
  · exact hu

theorem status (h : Keeps s t) : Keeps s t.status := by
  unfold State.status
  refine ⟨h.canonical, fun hs => ?_, h.follows, h.level⟩
  exact h.bounds hs

theorem configure (h : Keeps s t) (a : ConfigureArgs) : Keeps s (t.configure a) := by
  unfold State.configure
  split
  · exact h.respond _ _
  · refine Keeps.respond ?_ _ _
    refine ⟨h.canonical, h.bounds, h.follows, fun _ c hc => ?_⟩
    cases hc
    rfl

theorem join (h : Keeps s t) : Keeps s t.join := by
  unfold State.join
  refine h.useConfig fun c => ?_
  have h' : Keeps s t.forgetIsolation := by
    unfold State.forgetIsolation
    split
    · exact ⟨fun hs => ⟨sparseWf_nil, (h.canonical hs).2.1, sparseWf_nil⟩, h.bounds, fun _ _ => follows_blank rfl rfl,
        h.level⟩
    · exact h
  refine Keeps.respond ?_ _ _
  exact h'.upd rfl rfl rfl rfl

theorem leaveEntry (h : Keeps s t) (k : FrameKind) : Keeps s (t.leaveEntry k) := by
  unfold State.leaveEntry
  split
  · exact h
  · exact h.removeEntry _

theorem leaveOp (h : Keeps s t) : Keeps s t.leaveOp := by
  unfold State.leaveOp
  split
  · split
    · exact h
    · exact (h.removeEntry _).endOp _
  · exact h

theorem dropIdleAccess (h : Keeps s t) : Keeps s t.dropIdleAccess := by
  unfold State.dropIdleAccess
  split
  · exact h.dropFck
  · exact h

theorem leave (h : Keeps s t) : Keeps s t.leave := by
  unfold State.leave
  split
  · exact h.respond _ _
  · have h' : Keeps s { t.leaveOp with rpe := t.leaveOp.rpe.stop } := h.leaveOp.upd rfl rfl rfl rfl
    refine Keeps.respond (Keeps.place ?_ _ _) _ _
    exact ((h'.leaveEntry .ask).leaveEntry .sync).dropIdleAccess.upd rfl rfl rfl rfl

theorem inRange (h : Keeps s t) (c : Command) (n : Nat) {k : State} (hk : Keeps s k) : Keeps s (t.inRange c n k) := by
  unfold State.inRange
  refine h.useConfig fun cfg => ?_
  split
  · exact hk
  · exact h.respond _ _

theorem takeInHand (h : Keeps s t) (i : InHand) : Keeps s (t.takeInHand i) := by
  unfold State.takeInHand
  refine Keeps.requestStore ?_ _
  exact h.upd rfl rfl rfl rfl

theorem read (h : Keeps s t) (n v : Nat) : Keeps s (t.read n v) := by
  unfold State.read
  refine h.inRange _ _ ?_
  split
  · exact h.respond _ _
  · exact h.takeInHand _

theorem stage (h : Keeps s t) (n : Nat) (ws : List Word) : Keeps s (t.stage n ws) := by
  unfold State.stage
  refine h.inRange _ _ ?_
  split
  · exact h.respond _ _
  · exact h.takeInHand _

theorem startOp (h : Keeps s t) (c : Command) (n : Nat) (i : InHand) : Keeps s (t.startOp c n i) := by
  unfold State.startOp
  refine h.inRange _ _ ?_
  split
  · exact h.respond _ _
  · exact h.takeInHand _

theorem discard (h : Keeps s t) : Keeps s t.discard := by
  unfold State.discard
  split
  · exact h.respond _ _
  · exact h.noDrafts.respond _ _

theorem beginOp (h : Keeps s t) (k : OpKind) : Keeps s (t.beginOp k) := by
  unfold State.beginOp
  refine Keeps.place ?_ _ _
  exact h.upd rfl rfl rfl rfl

theorem publish (h : Keeps s t) : Keeps s t.publish := by
  unfold State.publish
  split
  · exact h.respond _ _
  · split
    · exact h.respond _ _
    · exact (h.beginOp _).respond _ _

theorem takeNotice (h : Keeps s t) : Keeps s t.takeNotice := by
  unfold State.takeNotice
  split
  · exact h.respond _ _
  · rename_i n q heq
    refine Keeps.respondWith ?_ _ _ _
    refine ⟨h.canonical, fun hs => ?_, h.follows, h.level⟩
    have hb := h.bounds hs
    refine ⟨⟨?_, hb.1.2⟩, hb.2⟩
    have hq : q.notices.length ≤ t.ntq.notices.length := by
      unfold Ntq.takeNotice at heq
      split at heq
      · cases heq
      · split at heq
        · cases heq
        · cases heq
          exact List.eraseP_sublist.length_le
    exact le_trans hq hb.1.1

theorem peekLog (h : Keeps s t) : Keeps s t.peekLog := by
  unfold State.peekLog
  split
  · exact h.respond _ _
  · exact h.respondWith _ _ _

theorem takeLog (h : Keeps s t) : Keeps s t.takeLog := by
  unfold State.takeLog
  split
  · exact h.respond _ _
  · rename_i e rest heq
    refine Keeps.respondWith ?_ _ _ _
    refine ⟨h.canonical, fun hs => ?_, h.follows, h.level⟩
    have hb := h.bounds hs
    refine ⟨⟨hb.1.1, ?_, hb.1.2.2⟩, hb.2⟩
    have := hb.1.2.1
    rw [heq, List.length_cons] at this
    exact Nat.le_of_succ_le this

theorem takeCount (h : Keeps s t) : Keeps s t.takeCount := by
  unfold State.takeCount
  refine Keeps.respondWith ?_ _ _ _
  refine ⟨h.canonical, fun hs => ?_, h.follows, h.level⟩
  have hb := h.bounds hs
  exact ⟨⟨hb.1.1, hb.1.2.1, Nat.zero_le _⟩, hb.2⟩

theorem members (h : Keeps s t) : Keeps s t.members := h.useMembers (h.respondWith _ _ _)

theorem watch (h : Keeps s t) (a : WatchArgs) : Keeps s (t.watch a) := by
  unfold State.watch
  refine h.useConfig fun c => ?_
  split
  · exact (h.setWatch _ _).respond _ _
  · exact h.respond _ _

theorem unwatch (h : Keeps s t) (n : Nat) : Keeps s (t.unwatch n) := by
  unfold State.unwatch
  split
  · exact h.respond _ _
  · exact (h.setWatch _ _).respond _ _

/-! ### The command in hand -/

theorem readCommitted (h : Keeps s t) (n : Nat) (e : DirEntry) : Keeps s (t.readCommitted n e) := by
  unfold State.readCommitted
  split
  · exact h.finishInHand _ _ _
  · split
    · exact h.finishInHand _ _ _
    · exact h.finishInHand _ _ _
    · exact h.finishInHand _ _ _
    · have hr := h.readSlot n
      split
      · rename_i heq
        rw [heq] at hr
        exact Keeps.finishInHand hr _ _ _
      · rename_i heq
        rw [heq] at hr
        exact Keeps.andThen hr fun _ hu => hu.finishInHand _ _ _

theorem grantedRead (h : Keeps s t) (n : Nat) (b : Bool) : Keeps s (t.grantedRead n b) := by
  unfold State.grantedRead
  refine h.examine fun e => ?_
  split
  · exact h.finishInHand _ _ _
  · exact h.readCommitted _ _

theorem stageDraft_length (d : Draft) (l : List Draft)
    (h : l.length < Config.draftRoom ∨ (l.any fun x => x.slot == d.slot) = true) (hl : l.length ≤ Config.draftRoom) :
    (stageDraft d l).length ≤ Config.draftRoom := by
  unfold stageDraft
  split
  · simpa using hl
  · rename_i hn
    rcases h with h | h
    · simp only [List.length_append, List.length_singleton]; omega
    · exact absurd h hn

theorem grantedStage (h : Keeps s t) (n : Nat) (ws : List Word) : Keeps s (t.grantedStage n ws) := by
  unfold State.grantedStage
  refine h.examine fun e => ?_
  split
  · exact h.finishInHand _ _ _
  · split
    · exact h.finishInHand _ _ _
    · split
      · exact h.finishInHand _ _ _
      · rename_i hfull
        refine Keeps.finishInHand ?_ _ _ _
        refine ⟨h.canonical, fun hs => ?_, h.follows, h.level⟩
        have hb := h.bounds hs
        refine ⟨hb.1, hb.2.1, hb.2.2.1, stageDraft_length _ _ ?_ hb.2.2.2⟩
        simp only [Bool.and_eq_true, decide_eq_true_eq, not_and, Bool.not_eq_true, Option.isNone_eq_false_iff] at hfull
        by_cases hlt : t.opu.drafts.length < Config.draftRoom
        · exact .inl hlt
        · right
          have hd := hfull (by omega)
          unfold Opu.draft at hd
          rw [List.find?_isSome] at hd
          obtain ⟨x, hx, hs⟩ := hd
          exact List.any_eq_true.2 ⟨x, hx, hs⟩

theorem grantedClaim (h : Keeps s t) (n : Nat) : Keeps s (t.grantedClaim n) := by
  unfold State.grantedClaim
  refine h.examine fun e => ?_
  split
  · exact (h.beginOp _).finishInHand _ _ _
  · exact (h.beginOp _).finishInHand _ _ _
  · exact h.finishInHand _ _ _

theorem grantedYield (h : Keeps s t) (n : Nat) : Keeps s (t.grantedYield n) := by
  unfold State.grantedYield
  refine h.examine fun e => ?_
  split
  · exact (h.beginOp _).finishInHand _ _ _
  · exact h.finishInHand _ _ _

theorem grantInHand (h : Keeps s t) : Keeps s t.grantInHand := by
  unfold State.grantInHand
  split
  · exact h
  · split
    · exact h
    · split
      · exact h.finishInHand _ _ _
      · split
        · exact h.grantedRead _ _
        · exact h.grantedStage _ _
        · exact h.grantedClaim _
        · exact h.grantedYield _

/-! ### The notice line -/

theorem driveNirq (h : Keeps s t) (before : List Notice) : Keeps s (t.driveNirq before) := by
  unfold State.driveNirq
  split
  · exact h
  · exact h.useConfig fun _ => h

/-! ### Every command -/

/-- A command that answers a next state keeps the invariant, and a configuration of valid parity unless it disturbs
it. -/
theorem exec_of (c : Instr) (s t : State) (hc : c ≠ .disturbance .config) (h : exec c s = .next t) : Keeps s t := by
  have r := Keeps.refl s
  cases c <;> unfold exec at h
  case hardReset p b => cases h; exact r.hardReset _ _
  case pfailEdge => cases h; exact (r.live fun _ h => h.pfailEdge).driveNirq _
  case pfailWaitExpiry => cases h; exact r.live fun _ h => h.pfailExpiry
  case nselFall x => cases h; exact r.live fun _ h => h.nselFall x
  case repeatResponse => cases h; exact r.transact fun _ h => h
  case status => cases h; exact r.command _ _ fun _ h => h.status
  case configure a => cases h; exact r.commandArgs _ _ fun _ _ h => h.configure _
  case join => cases h; exact r.command _ _ fun _ h => h.join
  case leave => cases h; exact (r.command _ _ fun _ h => h.leave).driveNirq _
  case read a => cases h; exact r.commandArgs _ _ fun _ _ h => h.read _ _
  case stage a => cases h; exact r.commandArgs _ _ fun _ _ h => h.stage _ _
  case discard => cases h; exact r.command _ _ fun _ h => h.discard
  case publish => cases h; exact r.command _ _ fun _ h => h.publish
  case claim a => cases h; exact r.commandArgs _ _ fun _ _ h => h.startOp _ _ _
  case yieldSlot a => cases h; exact r.commandArgs _ _ fun _ _ h => h.startOp _ _ _
  case takeNotice => cases h; exact (r.command _ _ fun _ h => h.takeNotice).driveNirq _
  case peekLog => cases h; exact r.command _ _ fun _ h => h.peekLog
  case takeLog => cases h; exact r.command _ _ fun _ h => h.takeLog
  case takeCount => cases h; exact r.command _ _ fun _ h => h.takeCount
  case members => cases h; exact r.command _ _ fun _ h => h.members
  case watch a => cases h; exact r.commandArgs _ _ fun _ _ h => h.watch _
  case unwatch a => cases h; exact r.commandArgs _ _ fun _ _ h => h.unwatch _
  case reset p => cases h; exact r.command _ _ fun _ h => h.softReset _
  case illegalCommand code =>
    cases h
    split
    · exact r
    · exact r.transact fun _ h => h.respondWith _ _ _
  case commandInHandGranted => cases h; exact (r.live fun _ h => h.grantInHand).driveNirq _
  case busFree b => cases h; exact (r.onBus fun _ h => h.busFree _).driveNirq _
  case startCondition b => cases h; exact (r.onBus fun _ h => h.start _).driveNirq _
  case arbitrationLost b => cases h; exact (r.onBus fun _ h => h.loseArbitration _).driveNirq _
  case checkPause b n => cases h; exact (r.onBus fun _ h => h.checkPause _ _).driveNirq _
  case frameCheck => cases h; exact (r.onBus fun _ h => h.runCheck).driveNirq _
  case vetoSlot a b => cases h; exact (r.onBus fun _ h => h.vetoSlot _ _).driveNirq _
  case stopCondition b => cases h; exact (r.onBus fun _ h => h.stop _).driveNirq _
  case truncation c b => cases h; exact (r.onBus fun _ h => h.frameEnds _ _).driveNirq _
  case busStuck l => cases h; exact (r.onBus fun _ h => h.stuck _).driveNirq _
  case stuckEpisodeEnd => cases h; exact r.onBus fun _ h => h.episodeEnds
  case listenDeadline => cases h; exact r.live fun _ h => h.listenEnds
  case deadlinePasses n => cases h; exact (r.live fun _ h => h.deadlinePasses _).driveNirq _
  case decision => cases h; exact (r.live fun _ h => h.decisionDue).driveNirq _
  case beatRequest => cases h; exact r.live fun _ h => h.beatDue
  case answerWaitExpiry => cases h; exact r.live fun _ h => h.waitEnds
  case giveUp => cases h; exact (r.live fun _ h => h.giveUpHeld).driveNirq _
  case scrubTurn => cases h; exact r.live fun _ h => h.turnBegins
  case scrubStep => cases h; exact (r.live fun _ h => h.scrubStep).driveNirq _
  case ageExpiry i => cases h; exact (r.live fun _ h => h.ageEnds _).driveNirq _
  case nrstHeldLow => cases h; exact r.holdReset
  case disturbance tg =>
    cases tg with
    | cell row p f =>
      simp only [execDisturbance, State.disturb] at h
      split at h
      · cases h; exact r.disturbCell _ _ _
      · cases h
    | entry n b => cases h; exact r.disturbEntry _ _
    | member n => cases h; exact r.disturbMember _
    | config => exact absurd rfl hc
  case faultCheckerAlarm => cases h; exact r.live fun _ h => h.internalFault _

/-- Every command that answers a next state keeps the invariant. -/
theorem exec_inv (c : Instr) (s t : State) (h : exec c s = .next t) :
    (s.canonical → t.canonical) ∧ (s.bounds → t.bounds) ∧ (s.canonical → s.follows → t.follows) := by
  by_cases hc : c = .disturbance .config
  · subst hc
    cases h
    exact ⟨id, id, fun _ => id⟩
  · have k := exec_of c s t hc h
    exact ⟨k.canonical, k.bounds, k.follows⟩

end Sys2Proof.Machine.Keeps
end

