-- ==== Sys2Proof/Laws/Members.lean ====
section
/-!
SUPPORT. What the membership operations can do: entries set one after another, the decision timer's stop, a hearing,
the orphaning scan, and the removal and the addition of stations (R47, R52, R54–R56, R58, R78).
-/

set_option Elab.async false

namespace Sys2Proof.Machine

/-! ### Entries set one after another -/

/-- The listed stations take the entry, every other station keeps its own, and nothing else changes. -/
theorem State.setMembers_spec (e : Nct → MemberEntry) (ns : List Nat) (s : State)
    (h : sparseWf MemberEntry.absent s.mbu.table) (hp : ∀ k, (e k).parityGood = true) :
    ∃ table, ns.foldl (fun s n => s.setMember n (e s.nct)) s = { s with mbu := { s.mbu with table := table } } ∧
      ∀ n, ({ s.mbu with table := table } : Mbu).entry n = if n ∈ ns then e s.nct else s.mbu.entry n := by
  induction ns generalizing s with
  | nil => exact ⟨s.mbu.table, rfl, fun n => by simp⟩
  | cons m ns ih =>
    obtain ⟨table, h1, h2⟩ := ih (s.setMember m (e s.nct)) (Mbu.putEntry_wf h _ _)
    refine ⟨table, ?_, fun n => ?_⟩
    · rw [List.foldl_cons, h1]; rfl
    · rw [show ({ s.mbu with table := table } : Mbu).entry n =
        ({ (s.setMember m (e s.nct)).mbu with table := table } : Mbu).entry n from rfl, h2]
      show (if n ∈ ns then e s.nct else (s.mbu.putEntry m (e s.nct)).entry n) = _
      rw [Mbu.entry_putEntry h]
      by_cases h3 : n ∈ ns
      · simp [h3]
      · by_cases h4 : n = m
        · have : ({ e s.nct with parityGood := true } : MemberEntry) = e s.nct := by rw [← hp s.nct]
          simp [h4, this]
        · simp [h3, h4]

/-- The suspects where the listed stations are SUSPECT no more. -/
theorem State.suspects_without {s t : State} {ns : List Nat}
    (h : ∀ n, t.memberState n = .suspect ↔ s.memberState n = .suspect ∧ n ∉ ns) :
    t.suspects = s.suspects.filter fun n => !ns.contains n := by
  unfold State.suspects
  rw [List.filter_filter]
  refine List.filter_congr fun n _ => ?_
  by_cases h1 : s.memberState n = .suspect <;> by_cases h2 : n ∈ ns <;> simp [h, h1, h2]

/-- The decision timer stops where no suspect is left, and nothing else changes (R78). -/
theorem State.stopIfNoSuspect_eq (s : State) :
    s.stopIfNoSuspect =
      { s with mbu := { s.mbu with decision := if s.suspects = [] then none else s.mbu.decision } } := by
  unfold State.stopIfNoSuspect
  split <;> rfl

/-! ### A hearing (R47, R78) -/

/-- A hearing of another station, whose entry is good: a member becomes PRESENT with a fresh deadline, a suspect's
return raises its notice and may end the decision timer, and a station that is ABSENT stays so. -/
theorem State.hear_spec {s : State} {n : Nat} {c : NodeConfig} (ht : sparseWf MemberEntry.absent s.mbu.table)
    (hc : s.hasConfig c) (hp : (s.mbu.entry n).parityGood = true)
    (hm : (s.mbu.entry n).state = .suspect → s.membersGood) (hn : n ≠ s.nct.station.toNat) (h16 : n < 16) :
    ∃ table decision, s.hear n = { s with
        mbu := { s.mbu with table := table, decision := decision },
        ntq := if (s.mbu.entry n).state = .suspect then s.ntq.arrive (.memberChanged n .present) else s.ntq } ∧
      (∀ m, ({ s.mbu with table := table } : Mbu).entry m =
        if m = n ∧ (s.mbu.entry n).state ≠ .absent then MemberEntry.heard s.nct.now c else s.mbu.entry m) ∧
      decision = if s.suspects = [n] then none else s.mbu.decision := by
  have hlone : (s.mbu.entry n).state ≠ .suspect → s.suspects ≠ [n] := fun h1 h2 => by
    have : n ∈ s.suspects := by rw [h2]; exact List.mem_singleton.2 rfl
    exact h1 (of_decide_eq_true (List.mem_filter.1 this).2)
  have hset := State.setMembers_spec (fun k => MemberEntry.heard k.now c) [n] s ht (fun _ => rfl)
  obtain ⟨table, e, he⟩ := hset
  have e' : s.setMember n (.heard s.nct.now c) = { s with mbu := { s.mbu with table := table } } := e
  unfold State.hear
  rw [State.useMember_good hp, if_neg hn]
  cases hst : (s.mbu.entry n).state with
  | absent =>
    refine ⟨s.mbu.table, s.mbu.decision, rfl, fun m => by simp, ?_⟩
    rw [if_neg (hlone (by rw [hst]; simp))]
  | present =>
    refine ⟨table, s.mbu.decision, ?_, fun m => ?_, ?_⟩
    · simp only
      rw [State.useConfig_good hc, e']
      rfl
    · rw [he]; simp
    · rw [if_neg (hlone (by rw [hst]; simp))]
  | suspect =>
    refine ⟨table,
      if State.suspects { s with mbu := { s.mbu with table := table } } = [] then none else s.mbu.decision, ?_,
          fun m => ?_, ?_⟩
    · simp only
      rw [State.useMembers_good (hm hst), State.useConfig_good hc, e', State.stopIfNoSuspect_eq]
      rfl
    · rw [he]; simp
    · have hs : State.suspects { s with mbu := { s.mbu with table := table } } =
          s.suspects.filter fun m => !([n] : List Nat).contains m := by
        refine State.suspects_without fun m => ?_
        show (({ s.mbu with table := table } : Mbu).entry m).state = _ ↔ _
        rw [he]
        by_cases h : m = n
        · simp [h, MemberEntry.heard]
        · simp [h, State.memberState]
      rw [hs]
      have hiff : (s.suspects.filter fun m => !([n] : List Nat).contains m) = [] ↔ s.suspects = [n] := by
        constructor
        · intro h
          rw [List.filter_eq_nil_iff] at h
          have hin : n ∈ s.suspects := by
            simp [State.suspects, State.memberState, hst, h16]
          have hnd : s.suspects.Nodup := List.Nodup.filter _ List.nodup_range
          have hall : ∀ m ∈ s.suspects, m = n := fun m hm => by simpa using h m hm
          match hl : s.suspects with
          | [] => rw [hl] at hin; cases hin
          | [a] => rw [hl] at hin; rw [List.mem_singleton.1 hin]
          | a :: b :: l =>
            rw [hl] at hall hnd
            have h1 := hall a (by simp)
            have h2 := hall b (by simp)
            rw [h1, h2] at hnd
            simp at hnd
        · intro h
          simp [h]
      by_cases h : s.suspects = [n]
      · rw [if_pos (hiff.2 h), if_pos h]
      · rw [if_neg (fun h' => h (hiff.1 h')), if_neg h]

/-! ### The orphaning scan (R56) -/

theorem DirEntry.orphanedBy_parity (e : DirEntry) (ns : List Nat) : (e.orphanedBy ns).parityGood = e.parityGood := by
  unfold DirEntry.orphanedBy
  split
  · split <;> rfl
  · rfl

/-- One entry of the scan. -/
theorem State.orphanSlot_spec {s : State} (ns : List Nat) (slot : Nat) (h : sparseWf DirEntry.blank s.dir)
    (hg : s.entriesGood) (hn : s.nct.node ≠ .halted) :
    ∃ dir, State.orphanSlot ns s slot = { s with dir := dir } ∧ sparseWf DirEntry.blank dir ∧
      ∀ n, sparseGet DirEntry.blank dir n = if n = slot then (s.entry slot).orphanedBy ns else s.entry n := by
  unfold State.orphanSlot
  rw [State.andThen_running hn, State.examine_good (hg slot)]
  have same : (s.entry slot).orphanedBy ns = s.entry slot → ∃ dir, s = { s with dir := dir } ∧
      sparseWf DirEntry.blank dir ∧
      ∀ n, sparseGet DirEntry.blank dir n = if n = slot then (s.entry slot).orphanedBy ns else s.entry n :=
    fun e => ⟨s.dir, rfl, h, fun n => by
      rw [e]; split
      · rename_i h1; rw [h1]; rfl
      · rfl⟩
  cases hs : (s.entry slot).state with
  | owned o =>
    simp only
    by_cases hc : ns.contains o.toNat = true
    · rw [if_pos hc]
      refine ⟨(s.putEntry slot { s.entry slot with state := .orphaned }).dir, rfl, State.putEntry_wf h _ _, fun n => ?_⟩
      rw [show sparseGet DirEntry.blank (s.putEntry slot { s.entry slot with state := .orphaned }).dir n = _ from
        State.entry_putEntry h slot n { s.entry slot with state := .orphaned }]
      have e : (s.entry slot).orphanedBy ns = { s.entry slot with state := .orphaned } := by
        unfold DirEntry.orphanedBy; rw [hs]; simp only; rw [if_pos hc]
      have g := hg slot
      rw [e]
      split
      · rw [← g]
      · rfl
    · rw [if_neg hc]
      exact same (by unfold DirEntry.orphanedBy; rw [hs]; simp only; rw [if_neg hc])
  | unlearned => exact same (by unfold DirEntry.orphanedBy; rw [hs])
  | free => exact same (by unfold DirEntry.orphanedBy; rw [hs])
  | orphaned => exact same (by unfold DirEntry.orphanedBy; rw [hs])

theorem DirEntry.orphanedBy_twice (e : DirEntry) (ns : List Nat) :
    (e.orphanedBy ns).orphanedBy ns = e.orphanedBy ns := by
  unfold DirEntry.orphanedBy
  cases h : e.state with
  | owned o =>
    by_cases hc : o.toNat ∈ ns
    · simp [hc]
    · simp [h, hc]
  | unlearned => simp [h]
  | free => simp [h]
  | orphaned => simp [h]

/-- The scan over a list of slots. -/
theorem State.orphanSlots_spec (ns : List Nat) (slots : List Nat) (s : State) (h : sparseWf DirEntry.blank s.dir)
    (hg : s.entriesGood) (hn : s.nct.node ≠ .halted) :
    ∃ dir, slots.foldl (State.orphanSlot ns) s = { s with dir := dir } ∧ sparseWf DirEntry.blank dir ∧
      ∀ n, sparseGet DirEntry.blank dir n = if n ∈ slots then (s.entry n).orphanedBy ns else s.entry n := by
  induction slots generalizing s with
  | nil => exact ⟨s.dir, rfl, h, fun n => by simp; rfl⟩
  | cons m slots ih =>
    obtain ⟨dir, e, hw, hget⟩ := State.orphanSlot_spec ns m h hg hn
    have hget' : ∀ n, State.entry { s with dir := dir } n =
      if n = m then (s.entry m).orphanedBy ns else s.entry n := hget
    obtain ⟨dir', e', hw', hget2⟩ := ih { s with dir := dir } hw (fun n => by
      rw [hget']; split
      · rw [DirEntry.orphanedBy_parity]; exact hg m
      · exact hg n) hn
    refine ⟨dir', by rw [List.foldl_cons, e, e'], hw', fun n => ?_⟩
    rw [hget2, hget']
    by_cases h1 : n = m
    · subst h1; by_cases h2 : n ∈ slots <;> simp [h2, DirEntry.orphanedBy_twice]
    · by_cases h2 : n ∈ slots <;> simp [h1, h2]

/-- The scan of the whole directory orphans every slot of the stations. -/
theorem State.orphanScan_spec (ns : List Nat) {s : State} (h : sparseWf DirEntry.blank s.dir)
    (hg : s.entriesGood) (hn : s.nct.node ≠ .halted) :
    ∃ dir, (s.dir.map Prod.fst).foldl (State.orphanSlot ns) s = { s with dir := dir } ∧ sparseWf DirEntry.blank dir ∧
      ∀ n, sparseGet DirEntry.blank dir n = (s.entry n).orphanedBy ns := by
  obtain ⟨dir, e, hw, hget⟩ := State.orphanSlots_spec ns (s.dir.map Prod.fst) s h hg hn
  refine ⟨dir, e, hw, fun n => ?_⟩
  rw [hget]
  split
  · rfl
  · rename_i hm
    have : s.entry n = DirEntry.blank := by
      unfold State.entry
      have := sparseGet_append_of_not_mem DirEntry.blank s.dir [] (n := n)
        (fun p hp he => hm (List.mem_map.2 ⟨p, hp, he⟩))
      simpa using this
    rw [this]; rfl

/-- Stations become ABSENT: their slots are orphaned, and each has its notice (R55, R56, R58, R78). -/
theorem State.removeStations_spec {s : State} (ns : List Nat) (h : sparseWf DirEntry.blank s.dir)
    (ht : sparseWf MemberEntry.absent s.mbu.table) (hg : s.entriesGood) (hm : s.membersGood)
    (hn : s.nct.node ≠ .halted) :
    s.lost (s.removeStations ns) ns ∧ sparseWf DirEntry.blank (s.removeStations ns).dir ∧
      s.removeStations ns = { s with
        dir := (s.removeStations ns).dir, mbu := (s.removeStations ns).mbu,
        ntq := s.ntq.arriveAll (ns.map fun n => .memberChanged n .absent) } := by
  unfold State.removeStations
  rw [State.useMembers_good hm]
  by_cases hz : ns = []
  · subst hz
    rw [if_pos rfl]
    refine ⟨⟨fun n => ?_, fun n => by simp, rfl, by simp⟩, h, rfl⟩
    unfold DirEntry.orphanedBy
    cases (s.entry n).state <;> simp
  · rw [if_neg hz]
    obtain ⟨dir, e, hw, hget⟩ := State.orphanScan_spec ns h hg hn
    rw [e, State.andThen_running (by exact hn)]
    obtain ⟨table, e2, h2⟩ := State.setMembers_spec (fun _ => MemberEntry.absent) ns
      { s with dir := dir } ht (fun _ => rfl)
    rw [e2, State.stopIfNoSuspect_eq, State.notifyAll_eq]
    refine ⟨⟨hget, h2, rfl, ?_⟩, hw, rfl⟩
    have hs : State.suspects { s with dir := dir, mbu := { s.mbu with table := table } } =
        s.suspects.filter fun n => !ns.contains n := by
      refine State.suspects_without fun n => ?_
      show (({ s.mbu with table := table } : Mbu).entry n).state = _ ↔ _
      have := h2 n
      rw [show ({ s.mbu with table := table } : Mbu).entry n = _ from this]
      by_cases h3 : n ∈ ns <;> simp [h3, MemberEntry.absent, State.memberState]
    show (if State.suspects { s with dir := dir, mbu := { s.mbu with table := table } } = [] then none
      else s.mbu.decision) = _
    rw [hs]
    simp only [hz, ne_eq, not_false_eq_true, true_and]

/-- Stations become PRESENT, each with its notice (R52, R54). -/
theorem State.addStations_spec {s : State} {c : NodeConfig} (ns : List Nat)
    (ht : sparseWf MemberEntry.absent s.mbu.table) (hc : s.hasConfig c) (hm : s.membersGood) :
    ∃ table, s.addStations ns = { s with
        mbu := { s.mbu with table := table },
        ntq := s.ntq.arriveAll (ns.map fun n => .memberChanged n .present) } ∧
      ∀ n, ({ s.mbu with table := table } : Mbu).entry n =
        if n ∈ ns then MemberEntry.heard s.nct.now c else s.mbu.entry n := by
  obtain ⟨table, e, he⟩ := State.setMembers_spec (fun k => MemberEntry.heard k.now c) ns s ht (fun _ => rfl)
  refine ⟨table, ?_, he⟩
  unfold State.addStations
  rw [State.useMembers_good hm, State.useConfig_good hc, e, State.notifyAll_eq]

end Sys2Proof.Machine
end

