-- ==== Sys2Proof/Laws/PerInstr.lean ====
section
/-!
SUPPORT. Per-instruction statements. Family CommandCode: the command code that the transaction of a well-formed row
carries names a command exactly where the row is not ILLEGAL_COMMAND (R193, R197, Table 11-3).
-/

set_option Elab.async false

namespace Sys2Proof.Laws.CommandCode

open Sys2Proof.Machine

/-- The command code of a row's transaction; none for a row that is no transaction. -/
def codeOf : Instr → Option Byte
  | .repeatResponse => some Command.repeatResponse.code
  | .status => some Command.status.code
  | .configure _ => some Command.configure.code
  | .join => some Command.join.code
  | .leave => some Command.leave.code
  | .read _ => some Command.read.code
  | .stage _ => some Command.stage.code
  | .discard => some Command.discard.code
  | .publish => some Command.publish.code
  | .claim _ => some Command.claim.code
  | .yieldSlot _ => some Command.yieldSlot.code
  | .takeNotice => some Command.takeNotice.code
  | .peekLog => some Command.peekLog.code
  | .takeLog => some Command.takeLog.code
  | .takeCount => some Command.takeCount.code
  | .members => some Command.members.code
  | .watch _ => some Command.watch.code
  | .unwatch _ => some Command.unwatch.code
  | .reset _ => some Command.reset.code
  | .illegalCommand code => some code
  | _ => none

/-- The row stands for a code that names no command. -/
def isIllegal : Instr → Bool
  | .illegalCommand _ => true
  | _ => false

/-- The statement of the family. -/
def Statement (i : Instr) : Prop :=
  i.wellFormed = true → ∀ code, codeOf i = some code → (knownCode code = true ↔ isIllegal i = false)

/-- No 8-bit code both names a command and lies in the ranges of unknown codes. -/
theorem known_or_unknown : ∀ code : Byte, knownCode code = !Instr.unknownCode code := by decide +kernel

theorem hardReset (pins : ResetPins) (nselLow : Bool) : Statement (.hardReset pins nselLow) := by
  intro _ c hc
  simp [codeOf] at hc

theorem pfailEdge : Statement (.pfailEdge) := by
  intro _ c hc
  simp [codeOf] at hc

theorem pfailWaitExpiry : Statement (.pfailWaitExpiry) := by
  intro _ c hc
  simp [codeOf] at hc

theorem nselFall (transaction : Transaction) : Statement (.nselFall transaction) := by
  intro _ c hc
  simp [codeOf] at hc

theorem repeatResponse : Statement (.repeatResponse) := by
  intro _ c hc
  simp only [codeOf, Option.some.injEq] at hc
  subst hc
  simp [isIllegal, Command.code, knownCode]

theorem status : Statement (.status) := by
  intro _ c hc
  simp only [codeOf, Option.some.injEq] at hc
  subst hc
  simp [isIllegal, Command.code, knownCode]

theorem configure (args : List Byte) : Statement (.configure args) := by
  intro _ c hc
  simp only [codeOf, Option.some.injEq] at hc
  subst hc
  simp [isIllegal, Command.code, knownCode]

theorem join : Statement (.join) := by
  intro _ c hc
  simp only [codeOf, Option.some.injEq] at hc
  subst hc
  simp [isIllegal, Command.code, knownCode]

theorem leave : Statement (.leave) := by
  intro _ c hc
  simp only [codeOf, Option.some.injEq] at hc
  subst hc
  simp [isIllegal, Command.code, knownCode]

theorem read (args : List Byte) : Statement (.read args) := by
  intro _ c hc
  simp only [codeOf, Option.some.injEq] at hc
  subst hc
  simp [isIllegal, Command.code, knownCode]

theorem stage (args : List Byte) : Statement (.stage args) := by
  intro _ c hc
  simp only [codeOf, Option.some.injEq] at hc
  subst hc
  simp [isIllegal, Command.code, knownCode]

theorem discard : Statement (.discard) := by
  intro _ c hc
  simp only [codeOf, Option.some.injEq] at hc
  subst hc
  simp [isIllegal, Command.code, knownCode]

theorem publish : Statement (.publish) := by
  intro _ c hc
  simp only [codeOf, Option.some.injEq] at hc
  subst hc
  simp [isIllegal, Command.code, knownCode]

theorem claim (args : List Byte) : Statement (.claim args) := by
  intro _ c hc
  simp only [codeOf, Option.some.injEq] at hc
  subst hc
  simp [isIllegal, Command.code, knownCode]

theorem yieldSlot (args : List Byte) : Statement (.yieldSlot args) := by
  intro _ c hc
  simp only [codeOf, Option.some.injEq] at hc
  subst hc
  simp [isIllegal, Command.code, knownCode]

theorem takeNotice : Statement (.takeNotice) := by
  intro _ c hc
  simp only [codeOf, Option.some.injEq] at hc
  subst hc
  simp [isIllegal, Command.code, knownCode]

theorem peekLog : Statement (.peekLog) := by
  intro _ c hc
  simp only [codeOf, Option.some.injEq] at hc
  subst hc
  simp [isIllegal, Command.code, knownCode]

theorem takeLog : Statement (.takeLog) := by
  intro _ c hc
  simp only [codeOf, Option.some.injEq] at hc
  subst hc
  simp [isIllegal, Command.code, knownCode]

theorem takeCount : Statement (.takeCount) := by
  intro _ c hc
  simp only [codeOf, Option.some.injEq] at hc
  subst hc
  simp [isIllegal, Command.code, knownCode]

theorem members : Statement (.members) := by
  intro _ c hc
  simp only [codeOf, Option.some.injEq] at hc
  subst hc
  simp [isIllegal, Command.code, knownCode]

theorem watch (args : List Byte) : Statement (.watch args) := by
  intro _ c hc
  simp only [codeOf, Option.some.injEq] at hc
  subst hc
  simp [isIllegal, Command.code, knownCode]

theorem unwatch (args : List Byte) : Statement (.unwatch args) := by
  intro _ c hc
  simp only [codeOf, Option.some.injEq] at hc
  subst hc
  simp [isIllegal, Command.code, knownCode]

theorem reset (pins : ResetPins) : Statement (.reset pins) := by
  intro _ c hc
  simp only [codeOf, Option.some.injEq] at hc
  subst hc
  simp [isIllegal, Command.code, knownCode]

theorem illegalCommand (code : Byte) : Statement (.illegalCommand code) := by
  intro h c hc
  simp only [codeOf, Option.some.injEq] at hc
  subst hc
  simp only [Instr.wellFormed] at h
  simp [known_or_unknown, h, isIllegal]

theorem commandInHandGranted : Statement (.commandInHandGranted) := by
  intro _ c hc
  simp [codeOf] at hc

theorem busFree (startSeen : Bool) : Statement (.busFree startSeen) := by
  intro _ c hc
  simp [codeOf] at hc

theorem startCondition (header : Option Byte) : Statement (.startCondition header) := by
  intro _ c hc
  simp [codeOf] at hc

theorem arbitrationLost (bit : Nat) : Statement (.arbitrationLost bit) := by
  intro _ c hc
  simp [codeOf] at hc

theorem checkPause (body : List Byte) (extraBits : Nat) : Statement (.checkPause body extraBits) := by
  intro _ c hc
  simp [codeOf] at hc

theorem frameCheck : Statement (.frameCheck) := by
  intro _ c hc
  simp [codeOf] at hc

theorem vetoSlot (heard veto : Bool) : Statement (.vetoSlot heard veto) := by
  intro _ c hc
  simp [codeOf] at hc

theorem stopCondition (header : Option Byte) : Statement (.stopCondition header) := by
  intro _ c hc
  simp [codeOf] at hc

theorem truncation (cause : TruncationCause) (header : Option Byte) : Statement (.truncation cause header) := by
  intro _ c hc
  simp [codeOf] at hc

theorem busStuck (line : Line) : Statement (.busStuck line) := by
  intro _ c hc
  simp [codeOf] at hc

theorem stuckEpisodeEnd : Statement (.stuckEpisodeEnd) := by
  intro _ c hc
  simp [codeOf] at hc

theorem listenDeadline : Statement (.listenDeadline) := by
  intro _ c hc
  simp [codeOf] at hc

theorem deadlinePasses (station : Station) : Statement (.deadlinePasses station) := by
  intro _ c hc
  simp [codeOf] at hc

theorem decision : Statement (.decision) := by
  intro _ c hc
  simp [codeOf] at hc

theorem beatRequest : Statement (.beatRequest) := by
  intro _ c hc
  simp [codeOf] at hc

theorem answerWaitExpiry : Statement (.answerWaitExpiry) := by
  intro _ c hc
  simp [codeOf] at hc

theorem giveUp : Statement (.giveUp) := by
  intro _ c hc
  simp [codeOf] at hc

theorem scrubTurn : Statement (.scrubTurn) := by
  intro _ c hc
  simp [codeOf] at hc

theorem scrubStep : Statement (.scrubStep) := by
  intro _ c hc
  simp [codeOf] at hc

theorem ageExpiry (index : Fin 4) : Statement (.ageExpiry index) := by
  intro _ c hc
  simp [codeOf] at hc

theorem nrstHeldLow : Statement (.nrstHeldLow) := by
  intro _ c hc
  simp [codeOf] at hc

theorem disturbance (target : Target) : Statement (.disturbance target) := by
  intro _ c hc
  simp [codeOf] at hc

theorem faultCheckerAlarm : Statement (.faultCheckerAlarm) := by
  intro _ c hc
  simp [codeOf] at hc

end Sys2Proof.Laws.CommandCode
end

