-- ==== Sys2Proof/Laws/Rows.lean ====
section
/-!
SUPPORT. The answer of each row that drives NIRQ, where the configuration has no parity mismatch: the level is driven
without a fault, so the row answers the state that its event leaves (R183).
-/

set_option Elab.async false

namespace Sys2Proof.Machine

/-- An event that keeps a configuration of valid parity drives NIRQ without a fault. -/
theorem State.driving_kept {s t : State} (h : s.levelGood) (k : Keeps s t) : s.driving t = .next t :=
  State.driving_quiet (Or.inr (Or.inr (k.level h)))

namespace Rows

variable {s : State}

theorem pfailEdge (h : s.levelGood) : exec .pfailEdge s = .next (s.live State.pfailEdge) :=
  State.driving_kept h ((Keeps.refl s).live fun _ k => k.pfailEdge)

theorem leave (h : s.levelGood) : exec .leave s = .next (s.command .leave true State.leave) :=
  State.driving_kept h ((Keeps.refl s).command _ _ fun _ k => k.leave)

theorem takeNotice (h : s.levelGood) : exec .takeNotice s = .next (s.command .takeNotice true State.takeNotice) :=
  State.driving_kept h ((Keeps.refl s).command _ _ fun _ k => k.takeNotice)

theorem commandInHandGranted (h : s.levelGood) :
    exec .commandInHandGranted s = .next (s.live State.grantInHand) :=
  State.driving_kept h ((Keeps.refl s).live fun _ k => k.grantInHand)

/-- The command in hand ends without a change of the notices, whatever the enables. -/
theorem commandInHandGranted_quiet {t : State} (hr : s.nct.nrstLow = false) (e : s.grantInHand = t)
    (hq : t.ntq.notices = s.ntq.notices) : exec .commandInHandGranted s = .next t := by
  show s.driving (s.live State.grantInHand) = _
  rw [State.live_out hr, e]
  exact State.driving_quiet (Or.inl hq)

theorem busFree (h : s.levelGood) (b : Bool) : exec (.busFree b) s = .next (s.onBus fun s => s.busFree b) :=
  State.driving_kept h ((Keeps.refl s).onBus fun _ k => k.busFree _)

theorem startCondition (h : s.levelGood) (b : Option Byte) :
    exec (.startCondition b) s = .next (s.onBus fun s => s.start b) :=
  State.driving_kept h ((Keeps.refl s).onBus fun _ k => k.start _)

theorem arbitrationLost (h : s.levelGood) (n : Nat) :
    exec (.arbitrationLost n) s = .next (s.onBus fun s => s.loseArbitration n) :=
  State.driving_kept h ((Keeps.refl s).onBus fun _ k => k.loseArbitration _)

theorem checkPause (h : s.levelGood) (body : List Byte) (n : Nat) :
    exec (.checkPause body n) s = .next (s.onBus fun s => s.checkPause body n) :=
  State.driving_kept h ((Keeps.refl s).onBus fun _ k => k.checkPause _ _)

theorem frameCheck (h : s.levelGood) : exec .frameCheck s = .next (s.onBus State.runCheck) :=
  State.driving_kept h ((Keeps.refl s).onBus fun _ k => k.runCheck)

theorem vetoSlot (h : s.levelGood) (heard veto : Bool) :
    exec (.vetoSlot heard veto) s = .next (s.onBus fun s => s.vetoSlot heard veto) :=
  State.driving_kept h ((Keeps.refl s).onBus fun _ k => k.vetoSlot _ _)

/-- A receiver that passed a frame applies it where nobody pulled the veto slot, and its access ends. -/
theorem vetoSlot_passed {f : Frame} (hl : s.levelGood) (h : s.passedFrame f) (heard veto : Bool) :
    exec (.vetoSlot heard veto) s = .next
      ((if veto then ({ s.slotsPast none with fck := { s.fck with inbound := none } } : State)
        else State.applyReceived { s.slotsPast none with fck := { s.fck with inbound := none } } f).andThen
        State.endAccess) := by
  have hn : s.nct.node ≠ .halted := by
    intro hx
    have := h.2.1
    rw [hx] at this
    cases this
  rw [vetoSlot hl, State.onBus_running ⟨h.1, hn⟩, State.vetoSlot_passed h]

/-- The same where a give-up is due (R122). -/
theorem vetoSlot_passedDue {f : Frame} (hl : s.levelGood) (h : s.withoutDue.passedFrame f) (heard veto : Bool) :
    exec (.vetoSlot heard veto) s = .next
      ((if veto then ({ s.slotsPast none with fck := { s.fck with inbound := none } } : State)
        else State.applyReceived { s.slotsPast none with fck := { s.fck with inbound := none } } f).andThen
        State.endAccess) := by
  have hr : s.nct.nrstLow = false := h.1
  have hp : s.nct.node.participating = true := h.2.1
  have hn : s.nct.node ≠ .halted := by
    intro hx
    rw [hx] at hp
    cases hp
  rw [vetoSlot hl, State.onBus_running ⟨hr, hn⟩, State.vetoSlot_passedDue h]

/-- The sender classifies its frame, and its access ends. -/
theorem vetoSlot_own {f : Frame} (hl : s.levelGood) (h : s.ownPaused f) (heard veto : Bool) :
    exec (.vetoSlot heard veto) s = .next
      ((s.slotsPast (some f.kind)).classed f heard veto
        ((((s.slotsPast (some f.kind)).logOutcome f (s.outcome f heard veto)).ownOutcome f
          (s.outcome f heard veto)).andThen State.endAccess)) := by
  obtain ⟨h1, h2, h3, h4, h5⟩ := h
  rw [vetoSlot hl, State.onBus_running ⟨h1, h2⟩]
  unfold State.vetoSlot
  rw [h4]
  simp only
  unfold State.senderSlots
  rw [if_neg h3, if_pos (by simp [h5.1, State.granted, h5.2.1]), State.openAccess_free (by exact h5.2.2),
    State.andThen_running (by exact h2)]
  rfl

/-- The same where a give-up is due: one that the access took over is made first (R122). -/
theorem vetoSlot_ownDue {f : Frame} (hl : s.levelGood) (h : s.withoutDue.ownPaused f) (heard veto : Bool) :
    exec (.vetoSlot heard veto) s = .next
      ((s.slotsPast (some f.kind)).openAccess.andThen fun t => t.classed f heard veto
        (((t.logOutcome f (t.outcome f heard veto)).ownOutcome f (t.outcome f heard veto)).andThen
          State.endAccess)) := by
  have h : s.nct.nrstLow = false ∧ s.nct.node ≠ .halted ∧ s.nct.phase ≠ .pfailLeave ∧
    s.pbi.shift = .sendingPaused f ∧ s.withoutDue.fckHolds .ownFrame := h
  obtain ⟨h1, h2, h3, h4, h5, h6, -⟩ := h
  have h5 : s.fck.purpose = some .ownFrame := h5
  have h6 : s.sar.grant = some .fck := h6
  rw [vetoSlot hl, State.onBus_running ⟨h1, h2⟩]
  unfold State.vetoSlot
  rw [h4]
  simp only
  unfold State.senderSlots
  rw [if_neg h3, if_pos (by simp [h5, State.granted, h6])]

/-- An own frame other than a HELLO that is accepted, or sent with nobody else, is applied and handled. -/
theorem vetoSlot_accepted {f : Frame} {heard : Bool} (hl : s.levelGood) (h : s.ownPaused f)
    (ha : s.ownAccepts f heard) (hk : f.kind ≠ .hello) :
    exec (.vetoSlot heard false) s = .next
      ((((s.slotsPast (some f.kind)).applyOwn f).andThen fun t => t.ownAccepted f (!heard)).andThen
        State.endAccess) := by
  have hcl : ∀ k, State.classed (s.slotsPast (some f.kind)) f heard false k = k := by
    intro k
    unfold State.classed
    split
    · rfl
    · rename_i h1
      rcases ha with ha | ha
      · simp [ha] at h1
      · exact State.useMembers_good (s := s.slotsPast (some f.kind)) ha.1 k
  rw [vetoSlot_own hl h, hcl]
  unfold State.outcome
  simp only [Bool.false_eq_true, if_false]
  cases heard with
  | true => rfl
  | false =>
    have : s.othersAfter f = [] := by
      rcases ha with ha | ⟨-, ha⟩
      · cases ha
      unfold State.othersAfter
      have gen : ∀ p : Nat → Bool, (∀ n ∈ s.memberSet, p n = false) → s.memberSet.filter p = [] := fun p hp => by
        rw [List.filter_eq_nil_iff]
        intro n hn
        simp [hp n hn]
      obtain ⟨snd, pl⟩ := f
      cases pl with
      | hello p => exact absurd rfl hk
      | drop mask =>
        refine gen _ fun n hn => ?_
        rcases ha n hn with h | h
        · simp [h]
        · simp [StationMask.has, show mask.getLsbD n = true from h]
      | _ =>
        refine gen _ fun n hn => ?_
        rcases ha n hn with h | h
        · simp [h]
        · exact absurd h (by simp)
    rw [this]
    rfl

/-- The sender handles a failed frame: its failure is logged before its entry is handled (R11, R137). -/
theorem vetoSlot_failed {f : Frame} {heard veto : Bool} (hl : s.levelGood) (h : s.ownPaused f)
    (hv : s.ownFails f heard veto) :
    exec (.vetoSlot heard veto) s = .next
      ((((s.slotsPast (some f.kind)).report (if veto then .frameRefused else .frameUnheard)
        { ErrorFields.ofStation s.nct.station.toNat with word := some f.kind.code }).ownFailed f veto).andThen
        State.endAccess) := by
  rw [vetoSlot_own hl h]
  have has : ∀ (p : Nat → Bool) (l : List Nat) (n : Nat), n ∈ l → p n = true → l.filter p ≠ [] := fun p l n h1 h2 h3 =>
    List.filter_eq_nil_iff.1 h3 n h1 h2
  rcases hv with rfl | ⟨rfl, hv⟩
  · have : s.outcome f heard true = .refused := rfl
    rw [this]
    unfold State.classed
    simp only [Bool.or_true, Bool.true_or, if_true]
    rfl
  · cases veto with
    | true => rfl
    | false =>
      have ho : s.othersAfter f ≠ [] ∧ (f.kind = .hello ∨ s.membersGood) := by
        obtain ⟨snd, pl⟩ := f
        unfold State.othersAfter
        cases pl with
        | hello p =>
          obtain ⟨n, h1, h2⟩ := hv
          exact ⟨has _ _ n (List.mem_range.2 h1) h2, Or.inl rfl⟩
        | drop mask =>
          obtain ⟨hg, n, h1, h2, h3⟩ := hv
          exact ⟨has _ _ n h1 (by simp [h2, StationMask.has, h3]), Or.inr hg⟩
        | _ =>
          obtain ⟨hg, n, h1, h2⟩ := hv
          exact ⟨has _ _ n h1 (by simp [h2]), Or.inr hg⟩
      have hu : s.outcome f false false = .unheard := by
        unfold State.outcome
        simp [ho.1]
      have hcl : ∀ k, State.classed (s.slotsPast (some f.kind)) f false false k = k := by
        intro k
        unfold State.classed
        split
        · rfl
        · rename_i h1
          rcases ho.2 with h2 | h2
          · simp [h2] at h1
          · exact State.useMembers_good (s := s.slotsPast (some f.kind)) h2 k
      rw [hu, hcl]
      rfl

theorem stopCondition (h : s.levelGood) (b : Option Byte) :
    exec (.stopCondition b) s = .next (s.onBus fun s => s.stop b) :=
  State.driving_kept h ((Keeps.refl s).onBus fun _ k => k.stop _)

theorem truncation (h : s.levelGood) (c : TruncationCause) (b : Option Byte) :
    exec (.truncation c b) s = .next (s.onBus fun s => s.frameEnds c b) :=
  State.driving_kept h ((Keeps.refl s).onBus fun _ k => k.frameEnds _ _)

theorem busStuck (h : s.levelGood) (l : Line) : exec (.busStuck l) s = .next (s.onBus fun s => s.stuck l) :=
  State.driving_kept h ((Keeps.refl s).onBus fun _ k => k.stuck _)

theorem deadlinePasses (h : s.levelGood) (n : Station) :
    exec (.deadlinePasses n) s = .next (s.live fun s => s.deadlinePasses n.toNat) :=
  State.driving_kept h ((Keeps.refl s).live fun _ k => k.deadlinePasses _)

theorem decision (h : s.levelGood) : exec .decision s = .next (s.live State.decisionDue) :=
  State.driving_kept h ((Keeps.refl s).live fun _ k => k.decisionDue)

theorem giveUp (h : s.levelGood) : exec .giveUp s = .next (s.live State.giveUpHeld) :=
  State.driving_kept h ((Keeps.refl s).live fun _ k => k.giveUpHeld)

theorem scrubStep (h : s.levelGood) : exec .scrubStep s = .next (s.live State.scrubStep) :=
  State.driving_kept h ((Keeps.refl s).live fun _ k => k.scrubStep)

theorem ageExpiry (h : s.levelGood) (i : Fin 4) : exec (.ageExpiry i) s = .next (s.live fun s => s.ageEnds i.val) :=
  State.driving_kept h ((Keeps.refl s).live fun _ k => k.ageEnds _)

/-- A row whose event leaves the notices as they are answers the state that its event leaves, whatever the enables. -/
theorem quiet {t u : State} (e : t = u) (h : u.ntq.notices = s.ntq.notices) : s.driving t = .next u :=
  e ▸ State.driving_quiet (Or.inl (e ▸ h))

/-- A row whose event halts the node answers the halted state. -/
theorem halted {t u : State} (e : t = u) (h : u.nct.node = .halted) : s.driving t = .next u :=
  e ▸ State.driving_quiet (Or.inr (Or.inl (e ▸ h)))

end Rows

end Sys2Proof.Machine
end

