-- ==== Sys2Proof/Tests/Slice0.lean ====
section
/-!
SUPPORT. Tests of the model's own: ill-formed commands that the check refuses, bytes and records of the spec's worked
examples, single steps on small states, and for each statement with conditions a state that meets them.
-/

set_option Elab.async false

namespace Sys2Proof.Tests

open Sys2Proof.Machine

/-! ### Small states -/

/-- A configuration: beat 100 ms, silence multiple 3, 64 slots, scrub interval 10 ms. -/
def cfg : NodeConfig :=
  { beat := 100, silence := 3, slotCode := 0, scrub := 10, enableHigh := true, enableLow := false, parityGood := true }

/-- Station 2 in a node state, configured, at local time 5000. -/
def node (n : NodeState) : State :=
  { State.reset with nct := { State.reset.nct with node := n, station := 2, config := some cfg, now := 5000 } }

/-- Stations 2, 5 and 6 are members; station 6 has a deadline that has been reached. -/
def table : List (Nat × MemberEntry) :=
  [(2, .own), (5, { state := .present, deadline := some 5300, suspectSince := none, parityGood := true }),
   (6, { state := .present, deadline := some 5000, suspectSince := none, parityGood := true })]

/-- A MEMBER in a group of three. -/
def grouped : State := { node .member with mbu := { State.reset.mbu with table := table } }

/-- An entry of a slot that holds no words. -/
def slotEntry (st : SlotState) (h : Health) : DirEntry :=
  { state := st, version := 7, length := 0, health := h, wanted := false, unresolved := false, parityGood := true }

/-- An entry of the outbound queue. -/
def queued (k : FrameKind) (r : EntryRef) : OutEntry := { kind := k, ref := r, attempts := 0, queued := 5000 }

/-- The state a command leads to; the given one where it leads to none. -/
def after (c : Instr) (s : State) : State :=
  match exec c s with
  | .next t => t
  | _ => s

/-! ### Ill-formed commands -/

theorem test_illFormed_illegalCommand : (Instr.illegalCommand 0x11).wellFormed = false := by decide
theorem test_illFormed_illegalReset : (Instr.illegalCommand 0x3C).wellFormed = false := by decide
theorem test_illFormed_arbitrationLost : (Instr.arbitrationLost 1216).wellFormed = false := by decide
theorem test_illFormed_checkPause : (Instr.checkPause [0x12] 8).wellFormed = false := by decide
theorem test_illFormed_cellRow : (Instr.disturbance (.cell 260 0 1)).wellFormed = false := by decide
theorem test_illFormed_cellPosition : (Instr.disturbance (.cell 0 16 1)).wellFormed = false := by decide
theorem test_illFormed_cellFlips : (Instr.disturbance (.cell 0 0 0)).wellFormed = false := by decide
theorem test_wellFormed_illegalCommand : (Instr.illegalCommand 0x12).wellFormed = true := by decide
theorem test_wellFormed_arbitrationLost : (Instr.arbitrationLost 1215).wellFormed = true := by decide
theorem test_wellFormed_cell : (Instr.disturbance (.cell 259 15 1)).wellFormed = true := by decide

/-! ### Bytes, written out from the spec -/

/-- The check value of the CRC over the digits 1 to 9 (R7's generator and initial value). -/
theorem test_crc : crcOf [0x31, 0x32, 0x33, 0x34, 0x35, 0x36, 0x37, 0x38, 0x39] = 0x29B1 := by decide +kernel

/-- A CLAIM of slot 40 at version 4 from station 5 (R6, Table 12-2). -/
theorem test_claimBytes : (Frame.mk 5 (.claim 40 4)).covered = [0x45, 0x28, 0x00, 0x04] := by decide +kernel

/-- A BEAT from station 2 has header 0x92 (R6). -/
theorem test_beatHeader : headerByte 9 2 = 0x92 := by decide

/-- The shortest body has 3 bytes, the longest 152 (R7). -/
theorem test_bodyLengths :
    (Frame.mk 2 .leave).body.length = 3 ∧
    (Frame.mk 2 (.sync ((List.range 4).map fun n =>
      { slot := BitVec.ofNat 8 n, stateCode := 1, owner := 0, version := 0,
        words := List.replicate 16 0 }))).body.length = 152 := by decide +kernel

theorem test_classifyIntact :
    classify (Frame.mk 5 (.claim 40 4)).body 0 = .intact (Frame.mk 5 (.claim 40 4)) := by decide +kernel

theorem test_classifyOthers :
    classify [] 0 = .noHeader ∧ classify [0x15, 0, 0] 0 = .crcError 5 ∧ classify [0x15] 0 = .formatError 5 ∧
    classify (Frame.mk 5 .leave).body 3 = .formatError 5 := by decide +kernel

/-- An OP_DONE for a refused CLAIM of slot 40 (Table 12-6). -/
theorem test_noticeRecord : (Notice.opDone .claim .refused (some 40)).bytes = [3, 1, 2, 40, 0, 0] := by decide

/-- A FRAME_REFUSED record of a CLAIM: station and word index present (Table 12-8, R11). -/
theorem test_logRecord :
    (LogEntry.mk .frameRefused 0x01020304 { slot := none, station := some 2, word := some 4, bit := none }).bytes =
      [10, 1, 2, 3, 4, 0x06, 0, 2, 4, 0] := by decide

theorem test_versionOrder : newer 1 0xFFFF = true ∧ newer 0x7FFF 0 = true ∧ newer 0x8000 0 = false ∧
    newer 5 5 = false := by decide

theorem test_clamp : clampBeat 9 = 10 ∧ clampBeat 10 = 10 ∧ clampBeat 1000 = 1000 ∧ clampBeat 1001 = 1000 := by decide

/-! ### Single steps -/

/-- The bounds of the slot and of the words of a command that comes in hand (R40, Table 7-5). -/
theorem test_storeCommandBounds :
    (after (.read [63, 1]) grouped).lpt.inHand = some (.read 63 true) ∧
    (after (.read [64, 0]) grouped).lpt.response.result = .range ∧
    (after (.read [63, 2]) grouped).lpt.response.result = .range ∧
    (after (.stage ([63, 16] ++ List.replicate 32 1)) grouped).lpt.inHand =
      some (.stage 63 (List.replicate 16 0x0101)) ∧
    (after (.stage ([63, 17] ++ List.replicate 34 1)) grouped).lpt.response.result = .range ∧
    (after (.claim [64]) grouped).lpt.response.result = .range := by decide +kernel

/-- The bounds of WATCH: the index, the period and the word index (R169). -/
theorem test_watchBounds :
    let age : Byte → Byte → Byte → State := fun i hi lo => after (.watch [i, 63, hi, lo, 0]) grouped
    (age 3 0 10).lpt.response.result = .ok ∧ (age 3 0 9).lpt.response.result = .range ∧
      (age 3 0xEA 0x60).lpt.response.result = .ok ∧ (age 3 0xEA 0x61).lpt.response.result = .range ∧
      (age 4 0 10).lpt.response.result = .range ∧ (age 3 0 0).lpt.response.result = .range ∧
      (after (.watch [0, 63, 0, 0, 1, 15, 0, 5, 0, 5]) grouped).lpt.response.result = .ok ∧
      (after (.watch [0, 63, 0, 0, 1, 16, 0, 5, 0, 5]) grouped).lpt.response.result = .range ∧
      (after (.watch [0, 63, 0, 0, 1, 15, 0, 5, 0, 4]) grouped).lpt.response.result = .range := by decide +kernel

/-- A transaction without a whole byte leaves NSEL high and SDO undriven (R190). -/
theorem test_withoutByte :
    let s := after (.nselFall (.inProgress [0x12])) State.reset
    s.sdoByte 0 = some 0x3C ∧ s.lpt.received = [0x12] ∧
      (after (.nselFall .withoutByte) s).sdoByte 0 = none ∧ (after (.nselFall .withoutByte) s).lpt.received = [] := by
  decide +kernel

/-- The stop condition of the HELLO leaves the staggered reference, that of another frame moves it (R85, R86). -/
theorem test_stagger :
    let s := after .listenDeadline (after .join (node .idle))
    let s := after (.checkPause [] 0) (after (.busFree false) s)
    let s := after (.stopCondition none) (after (.vetoSlot false false) s)
    s.mbu.beatRef = some 5318 ∧ (after .beatRequest s).nct.now = 5418 := by decide +kernel

/-- An empty queue: one bit time passes; at 125 kbit/s the 125th makes a millisecond. -/
theorem test_tick :
    (match step { node .member with nct := { (node .member).nct with subBits := 124 } } with
      | .next t => (t.nct.now, t.nct.subBits)
      | _ => (0, 1)) = (5001, 0) := by decide +kernel

theorem test_stepTakesTheFront :
    (match step { State.reset with pending := [.repeatResponse, .status] } with
      | .next t => t.pending
      | _ => []) = [.status] := by decide +kernel

theorem test_configure :
    ((after (.configure [0, 5, 3, 0, 10, 2]) State.reset).nct.config = some {
      beat := 10, silence := 3, slotCode := 0, scrub := 10, enableHigh := true, enableLow := false,
      parityGood := true }) ∧
    (after (.configure [0, 5, 16, 0, 10, 2]) State.reset).lpt.response.result = .range := by decide +kernel

theorem test_lastRise : (after .status { State.reset with lpt := { State.reset.lpt with
    nsel := .lowSinceReset } }).lpt.response.code = 0x3C := by decide +kernel

theorem test_join : (after .join (node .idle)).nct.listenDeadline = some 5400 := by decide +kernel

/-- The listen deadline passes, the HELLO goes out alone, and the node founds a group (R96, R99). -/
theorem test_founding :
    let s := after .listenDeadline (after .join (node .idle))
    let s := after (.busFree false) s
    let s := after (.vetoSlot false false) (after (.checkPause [] 0) s)
    s.nct.node = .member ∧ (s.entry 63).state = .free ∧ (s.entry 63).health = .good ∧
      (s.entry 64).state = .unlearned ∧ s.mbu.beatRef = some 5318 ∧
      s.ntq.notices = [.opDone .join .ok none, .catchupDone 0] := by decide +kernel

/-- A heard HELLO leads to CATCHUP, with the first window asked for (R98, R115). -/
theorem test_catchup :
    let s := after .listenDeadline (after .join (node .idle))
    let s := after (.busFree false) s
    let s := after (.vetoSlot true false) (after (.checkPause [] 0) s)
    s.nct.node = .catchup ∧ s.rpe.wanted.length = 64 ∧ s.obs.queue.map OutEntry.kind = [.ask] := by decide +kernel

/-- Two disturbed bits are damage; the second strike retires the row and takes the first spare (R161, R162). -/
theorem test_strikes :
    let s := { node .member with dir := [(0, { slotEntry .free .good with length := 1 })] }
    let read : State → State := fun s => after .commandInHandGranted (after (.read [0, 0]) s)
    let s1 := read (after (.disturbance (.cell 0 0 3)) s)
    let s2 := read { s1 with dir := s.dir }
    s1.lpt.response.result = .damaged ∧ s1.dst.struck = [0] ∧
      s2.dst.retired = [0] ∧ s2.dst.rowInUse 0 = some 256 ∧ s2.dst.spares = [257, 258, 259] ∧
      s2.elg.entries.map LogEntry.kind = [.eccUncorrectable, .eccUncorrectable, .rowRetired] := by decide +kernel

/-- A corrected bit is written back and logged with its position (R36). -/
theorem test_corrected :
    let s := { node .member with dir := [(3, { slotEntry .free .good with length := 2 })] }
    let s := after (.disturbance (.cell 3 1 0x10)) s
    let s := after .commandInHandGranted (after (.read [3, 0]) s)
    s.lpt.response.result = .ok ∧ s.dst.cells = [] ∧
      s.elg.entries.map LogEntry.fields = [{ slot := some 3, station := none, word := some 1, bit := some 4 }] := by
  decide +kernel

theorem test_noSuchCell :
    (match exec (.disturbance (.cell 260 0 1)) State.reset with
      | .fault (.noSuchCell row position) => some (row, position)
      | _ => none) = some (260, 0) := by decide

/-- A suspect, then a decision with quorum: the DROP of the suspect is placed (R77, R79). -/
theorem test_drop :
    let s := after (.deadlinePasses 6) grouped
    let s := after .decision s
    s.mbu.decision = none ∧
      s.obs.queue = [{ kind := .drop, ref := .dropMask 0x40, attempts := 0, queued := 5100 }] := by
  decide +kernel

/-- A line held low through the abort of an own frame keeps its stuck episode (R16, R106). -/
theorem test_stuckThroughAbort :
    let s := { grouped with pbi := { grouped.pbi with shift := .sending { sender := 2, payload := .leave } } };
    let s := after .pfailEdge (after (.busStuck .pck) s);
    s.pbi.lines = .low true false ∧ s.pbi.stuckEpisode = true ∧ s.pbi.shift = .idle ∧
      (after (.busStuck .pck) s).elg.counter = s.elg.counter := by decide +kernel

/-- A BEAT that leaves this station out isolates it (R52, R104). -/
theorem test_excluded :
    let s := { grouped with pbi := { grouped.pbi with shift := .receiving } }
    let f : Frame := { sender := 5, payload := .beat 0x0060 (cfg.wire 0) }
    let s := after (.vetoSlot false false) (after .frameCheck (after (.checkPause f.body 0) s))
    s.nct.node = .isolated ∧ s.nct.isolationCause = some .dropped ∧ s.nirqLow = true := by decide +kernel

/-! ### States that meet the conditions of the statements -/

/-- A command in hand with its grant. -/
def hand (h : InHand) (s : State) : State :=
  { s with lpt := { s.lpt with inHand := some h }, sar := { Sar.idle with grant := some .lpt } }

/-- A receiver before the veto slot of a frame it passed. -/
def passedAt (s : State) (f : Frame) : State :=
  { s with
    pbi := { s.pbi with shift := .paused, pullHeard := true },
    fck := { inbound := some { frame := f, verdict := some .pass }, purpose := some .check },
    sar := { Sar.idle with grant := some .fck } }

/-- A receiver of the group before the veto slot of a frame it passed. -/
def passed (f : Frame) : State := passedAt grouped f

/-- The sender before the veto slot of its own frame. -/
def ownFrame (k : FrameKind) (f : Frame) (s : State) : State :=
  { s with
    pbi := { s.pbi with shift := .sendingPaused f },
    fck := { inbound := none, purpose := some .ownFrame },
    obs := { queue := [queued k .operation], build := none },
    sar := { Sar.idle with grant := some .fck } }

/-- One entry stands in the outbound queue. -/
def lone (k : FrameKind) (r : EntryRef) (s : State) : State :=
  { s with obs := { queue := [queued k r], build := none } }

/-- A give-up of these slots is due. -/
def dueFor (slots : List Nat) (takenOver : Bool) (s : State) : State :=
  { s with rpe := { s.rpe with due := some { slots := slots, takenOver := takenOver } } }

/-- Slot 63 is GOOD with 16 words, and bits of the words at these positions are disturbed. -/
def disturbed (l : List (Nat × BitVec 22)) (s : State) : State :=
  l.foldl (fun s p => after (.disturbance (.cell 63 p.1 p.2)) s)
    { s with dir := [(63, { slotEntry .free .good with length := 16 })] }

/-- A pending CLAIM of slot 3. -/
def claiming : State :=
  { grouped with
    dir := [(3, slotEntry .free .good)],
    opu := { op := some { kind := .claim 3, onBus := false }, drafts := [] },
    obs := { queue := [queued .claim .operation], build := none } }

/-- Slot 3 is owned by this station. -/
def owning : State := { grouped with dir := [(3, slotEntry (.owned 2) .good)] }

/-- A pending PUBLISH with a draft of slot 3. -/
def publishing : State :=
  { owning with opu := { op := some { kind := .publish, onBus := false }, drafts := [{ slot := 3, words := [9] }] } }

/-- A CATCHUP node that wants slot 3 alone. -/
def catching : State :=
  { grouped with
    nct := { grouped.nct with node := .catchup },
    dir := [(3, { slotEntry .unlearned .unknown with wanted := true })],
    rpe := { Rpe.empty with wanted := [3] } }

/-- Station 6 is SUSPECT. -/
def suspecting : State :=
  { grouped with mbu := { grouped.mbu with
      decision := some 5000,
      table := [(2, .own), (5, { state := .present, deadline := some 5300, suspectSince := none, parityGood := true }),
        (6, { state := .suspect, deadline := some 4900, suspectSince := some 4900, parityGood := true })] } }

/-- An entry of a station that is SUSPECT since a time. -/
def doubted (since : Time) : MemberEntry :=
  { state := .suspect, deadline := some since, suspectSince := some since, parityGood := true }

/-- A MEMBER with these entries in its membership table. -/
def withTable (l : List (Nat × MemberEntry)) : State :=
  { grouped with mbu := { grouped.mbu with table := l } }

def params : WireParams := cfg.wire 0

theorem grouped_membersGood : grouped.membersGood := by
  unfold State.membersGood
  decide +kernel

theorem suspecting_membersGood : suspecting.membersGood := by
  unfold State.membersGood
  decide +kernel

theorem grouped_entriesGood : grouped.entriesGood := fun _ => rfl

/-- The configuration of these states has valid parity. -/
theorem levelGood_of {s : State} (h : s.nct.config = some cfg) : s.levelGood := fun c k => by
  rw [h] at k
  cases k
  rfl

/-- The suspect-since of one suspect is the earliest. -/
theorem firstSuspicion_of {s : State} {ns : List Nat} {n : Nat} {t : Time} (hs : ns = [n])
    (he : (s.mbu.entry n).suspectSince = some t) : s.firstSuspicion ns t := by
  subst hs
  refine ⟨⟨n, List.mem_singleton.2 rfl, he⟩, fun m hm since e => ?_⟩
  rw [List.mem_singleton.1 hm, he] at e
  cases e
  simp [Machine.passed]

/-- There is no quorum where at most half is live, and the lowest member is not. -/
theorem noQuorum_of {s : State} {n : Nat} (h1 : ¬s.memberSet.length < 2 * s.liveSet.length)
    (h2 : s.memberSet.head? = some n) (h3 : n ∉ s.liveSet) : ¬s.hasQuorum := by
  rintro (h | ⟨-, m, h, h'⟩)
  · exact h1 h
  · rw [h2] at h
    cases h
    exact h3 h'

/-- The configuration of the group has a parity mismatch. -/
def mismatched : State := { grouped with nct := { grouped.nct with config := some { cfg with parityGood := false } } }

theorem mismatched_levelBad : ¬mismatched.levelGood := fun h => absurd (h _ rfl) (by decide)

/-- Every listed entry has valid parity. -/
theorem entriesGood_of {s : State} (h : s.dir.all (fun p => p.2.parityGood) = true) : s.entriesGood := by
  intro n
  show (sparseGet DirEntry.blank s.dir n).parityGood = true
  revert h
  generalize s.dir = l
  intro h
  induction l with
  | nil => rfl
  | cons p l ih =>
    rw [List.all_cons, Bool.and_eq_true] at h
    obtain ⟨k, e⟩ := p
    unfold sparseGet
    split
    · exact h.1
    · exact ih h.2

/-! ### Witnesses: the machine -/

/-- An idle step with both lines high at the 19th and 20th bit time, with a frame on them, with each low, in HALTED, and
with NRST low. -/
theorem witness_StepTakesTheFrontCommand :
    let s : Lines → Nat → State := fun l n => { grouped with pbi := { grouped.pbi with
      lines := l, busFreeTimer := n, lastSender := true } };
    let halted := { s .high 18 with nct := { (s .high 18).nct with node := .halted } };
    let held := { s .high 18 with nct := { (s .high 18).nct with nrstLow := true } };
    let t : State → State := fun s => match step s with | .next t => t | _ => State.reset;
    grouped.pending = [] ∧ grouped.nct.nrstLow = false ∧ (held.pending = [] ∧ held.nct.nrstLow = true) ∧
      ((t (s .high 18)).pbi.lastSender = true ∧ (t (s .high 19)).pbi.lastSender = false ∧
        (t (s .high 19)).pbi.busFreeTimer = 20) ∧
      (t (s .active 18)).pbi.busFreeTimer = 18 ∧
      ((t (s (.low true false) 0)).pbi.stuckPck = 1 ∧ (t (s (.low true false) 0)).pbi.stuckPdt = 0) ∧
      (halted.pending = [] ∧ (t halted).pbi.busFreeTimer = 18 ∧ (t halted).nct.subBits = 1) ∧
      (t held).nct.subBits = 0 := by
  decide +kernel

/-! ### Witnesses: the local port -/

theorem witness_SoftResetKeepsLogAndRows :
    State.reset.portOpen ∧ Memory.wf State.reset.dst.cells ∧ 15 < 16 := by
  repeat' (first | decide +kernel | rfl | refine ⟨?_, ?_⟩)

theorem witness_ResetsEmptyTheMembershipUnit :
    (node .halted).portOpen := by
  repeat' (first | decide +kernel | rfl | refine ⟨?_, ?_⟩)

theorem witness_TransactionsReadTheResponseBuffer :
    State.reset.nct.nrstLow = false ∧ State.reset.portOpen := by
  repeat' (first | decide +kernel | rfl | refine ⟨?_, ?_⟩)

theorem witness_CommandTestsAnswerInTheirOrder_codes :
    Instr.unknownCode 0x12 = true ∧ Instr.unknownCode 0x3B = true ∧ Instr.unknownCode 0x3D = true ∧
      Instr.unknownCode 0xFF = true ∧ State.reset.portOpen := by
  repeat' (first | decide +kernel | rfl | refine ⟨?_, ?_⟩)

theorem witness_CommandTestsAnswerInTheirOrder_length :
    commandOf (.stage [0, 3, 1, 2, 3, 4, 5]) = some .stage ∧
      bytesBrought (.stage [0, 3, 1, 2, 3, 4, 5]) < bytesNeeded (.stage [0, 3, 1, 2, 3, 4, 5]) ∧
      bytesBrought (.watch [0, 0, 0, 10, 1, 0, 0, 0, 0]) < bytesNeeded (.watch [0, 0, 0, 10, 1, 0, 0, 0, 0]) := by
  decide +kernel

theorem witness_CommandTestsAnswerInTheirOrder_state :
    commandOf .join = some .join ∧ bytesNeeded .join ≤ bytesBrought .join ∧ (node .member).portOpen ∧
      (node .member).admits .join = false := by
  repeat' (first | decide +kernel | rfl | refine ⟨?_, ?_⟩)

theorem witness_CommandTestsAnswerInTheirOrder_busy :
    commandOf .discard = some .discard ∧ bytesNeeded .discard ≤ bytesBrought .discard ∧
      (hand (.claim 3) grouped).portOpen ∧ (hand (.claim 3) grouped).admits .discard = true ∧
      (hand (.claim 3) grouped).lpt.inHand ≠ none ∧ Command.discard.alongside = false := by
  repeat' (first | decide +kernel | rfl | refine ⟨?_, ?_⟩)

theorem witness_StatusReportsAndClearsTheLostFlag :
    State.reset.portOpen ∧ State.reset.nct.config = none ∧ State.reset.opu.op = none ∧
      State.reset.nct.phase = .none ∧ grouped.nct.config = some cfg ∧
      claiming.opu.op = some { kind := .claim 3, onBus := false } ∧
      (let s := lone .hello .none { node .announcing with nct := { (node .announcing).nct with phase := .joining } };
        s.nct.phase = .joining ∧ s.obs.find .hello = some (queued .hello .none) ∧
          queued .hello .none ∈ s.obs.queue) ∧
      (let s := lone .leave .none { node .leaving with nct := { (node .leaving).nct with phase := .leaving } };
        s.nct.phase = .leaving ∧ s.obs.find .leave = some (queued .leave .none)) ∧
      (let s := { node .listening with nct := { (node .listening).nct with phase := .joining } };
        s.nct.phase = .joining ∧ (∀ e ∈ s.obs.queue, e.kind ≠ .hello) ∧ s.nct.node = .listening) ∧
      (let s := { grouped with nct := { grouped.nct with phase := .leaving } };
        s.nct.phase = .leaving ∧ ∀ e ∈ s.obs.queue, e.kind ≠ .leave) ∧
      (State.reset.nct.node = .config ∧ (node .idle).nct.node = .idle ∧ (node .announcing).nct.node = .announcing) ∧
      (grouped.nct.node.participating = true ∧ (node .isolated).nct.node = .isolated ∧ 15 < 16 ∧
        (grouped.mbu.entry 2).state ≠ .absent ∧ (grouped.mbu.entry 15).state = .absent) := by
  repeat' (first | decide +kernel | rfl | refine ⟨?_, ?_⟩)

theorem witness_ConfigureStoresTheConfiguration :
    State.reset.accepts .configure := by
  repeat' (first | decide +kernel | rfl | refine ⟨?_, ?_⟩)

theorem witness_JoinBeginsListening :
    ((node .idle).accepts .join ∧ (node .idle).hasConfig cfg) ∧
      ((node .isolated).accepts .join ∧ (node .isolated).hasConfig cfg) := by
  repeat' (first | decide +kernel | rfl | refine ⟨?_, ?_⟩)

/-- In LEAVING; with no operation, with a queued one and with one on the bus; and an ASK entry whose frame is not on the
bus, is being sent, has failed before its stop condition, and has been accepted. -/
theorem witness_LeaveBeginsTheLeave :
    let asking : Nat → Shift → State := fun n sh => { grouped with
      obs := { queue := [{ queued .ask (.askTry 1) with attempts := n }], build := none },
      pbi := { grouped.pbi with shift := sh } };
    let f : Frame := { sender := 2, payload := .ask 0 0 16 };
    let sending := { claiming with opu := { op := some { kind := .claim 3, onBus := true }, drafts := [] } };
    ((node .leaving).accepts .leave ∧ (node .leaving).levelGood ∧ (node .leaving).nct.node = .leaving) ∧
      (grouped.accepts .leave ∧ grouped.levelGood ∧ grouped.nct.node ≠ .leaving ∧ grouped.opu.op = none ∧
        grouped.obs.holds .leave = false) ∧
      (claiming.accepts .leave ∧ claiming.levelGood ∧ claiming.nct.node ≠ .leaving ∧
        claiming.opu.op = some { kind := .claim 3, onBus := false } ∧
        (after .leave claiming).obs.holds .claim = false) ∧
      (sending.accepts .leave ∧ sending.opu.op = some { kind := .claim 3, onBus := true } ∧
        (after .leave sending).obs.holds .claim = true) ∧
      ((asking 0 .idle).accepts .leave ∧ (asking 0 .idle).obs.holds .ask = true ∧
        (after .leave (asking 0 .idle)).obs.holds .ask = false) ∧
      ((asking 0 (.sending f)).pbi.shift = .sending f ∧ f.kind = .ask ∧
        (after .leave (asking 0 (.sending f))).obs.holds .ask = true) ∧
      ((asking 1 (.slotsDone (some .ask))).pbi.shift = .slotsDone (some .ask) ∧
        (after .leave (asking 1 (.slotsDone (some .ask)))).obs.holds .ask = true) ∧
      (after .leave (asking 0 (.slotsDone (some .ask)))).obs.holds .ask = false ∧
      (let s := lone .drop (.dropMask 0x40) grouped;
        s.accepts .leave ∧ queued .drop (.dropMask 0x40) ∈ s.obs.queue) := by
  repeat' (first | exact levelGood_of rfl | decide +kernel | rfl | refine ⟨?_, ?_⟩)

theorem witness_DiscardAndPublishActOnTheDrafts :
    grouped.accepts .discard ∧ (grouped.accepts .publish ∧ grouped.opu.drafts = []) ∧
      (publishing.accepts .publish ∧ publishing.opu.drafts ≠ [] ∧ publishing.opu.op ≠ none) ∧
      (let s := { grouped with opu := { op := none, drafts := [{ slot := 3, words := [] }] } };
       s.accepts .publish ∧ s.opu.drafts ≠ [] ∧ s.opu.op = none ∧
         ∀ e ∈ s.obs.queue, e.kind.isOperation = false) := by
  repeat' (first | decide +kernel | rfl | refine ⟨?_, ?_⟩)

/-- Both sides of each bound: slots 63 and 64, views 1 and 2, 16 and 17 words, with and without an operation. -/
theorem witness_StoreCommandsComeInHand :
    grouped.hasConfig cfg ∧ grouped.accepts .read ∧ grouped.accepts .stage ∧ grouped.accepts .claim ∧
      grouped.accepts .yieldSlot ∧ (List.replicate 22 (0 : Word)).length ≤ 22 ∧
      ((63 : Byte).toNat < cfg.activeSlots ∧ ¬(64 : Byte).toNat < cfg.activeSlots) ∧
      ((1 : Byte).toNat ≤ 1 ∧ ¬(2 : Byte).toNat ≤ 1) ∧
      ((List.replicate 16 (0 : Word)).length ≤ 16 ∧ ¬(List.replicate 17 (0 : Word)).length ≤ 16) ∧
      (claiming.hasConfig cfg ∧ claiming.accepts .claim ∧ claiming.opu.op.isSome = true) := by
  repeat' (first | decide +kernel | rfl | refine ⟨?_, ?_⟩)

theorem witness_GrantedReadAnswersBySlotState :
    (let s := { hand (.read 0 true) grouped with opu := { op := none, drafts := [{ slot := 0, words := [1] }] } };
      s.handReady (.read 0 true) ∧ (s.entry 0).parityGood = true ∧
        s.opu.draft 0 = some { slot := 0, words := [1] }) ∧
    (let s := hand (.read 0 false) grouped;
      s.handReady (.read 0 false) ∧ (s.entry 0).parityGood = true ∧ (s.entry 0).state = .unlearned) ∧
    (let s : Nat → State := fun n => { hand (.read n false) grouped with
        dir := [(0, slotEntry .free .failed), (1, slotEntry .free .damaged), (2, slotEntry .free .unknown),
          (63, { slotEntry .free .good with length := 16 })] };
      ((s 0).handReady (.read 0 false) ∧ ((s 0).entry 0).parityGood = true ∧ ((s 0).entry 0).state ≠ .unlearned ∧
        ((s 0).entry 0).health = .failed) ∧
      ((s 1).handReady (.read 1 false) ∧ ((s 1).entry 1).health = .damaged ∧ ((s 1).entry 1).parityGood = true) ∧
      ((s 2).handReady (.read 2 false) ∧ ((s 2).entry 2).health = .unknown) ∧
      ((s 63).handReady (.read 63 false) ∧ ((s 63).entry 63).health = .good ∧ (s 63).dst.rowInUse 63 = some 63 ∧
        ((s 63).entry 63).parityGood = true ∧
        ∀ p, p < ((s 63).entry 63).length → ((s 63).dst.cell 63 p).flips = 0)) := by
  repeat' (first | decide +kernel | rfl | refine ⟨?_, ?_⟩)

/-- A command in hand that the state no longer admits. -/
theorem witness_GrantedReadAnswersBySlotState_wrongState :
    let s := hand (.stage 3 [1]) (node .leaving);
    s.nct.nrstLow = false ∧ s.lpt.inHand = some (.stage 3 [1]) ∧ s.sar.grant = some .lpt ∧
      s.admits (InHand.stage 3 [1]).command = false := by
  decide +kernel

/-- The first and the last word of a full row with one disturbed bit each, and two uncorrectable words between them,
in a MEMBER and while a give-up is due. -/
theorem witness_GrantedReadAnswersBySlotState_disturbed :
    let read : List (Nat × BitVec 22) → State := fun l => hand (.read 63 false) (disturbed l grouped);
    let one := read [(0, 1), (15, 0x200000)];
    let many := read [(0, 1), (5, 3), (9, 3), (15, 0x200000)];
    let t := after .commandInHandGranted many;
    (one.handReady (.read 63 false) ∧ (one.entry 63).parityGood = true ∧ (one.entry 63).state ≠ .unlearned ∧
      (one.entry 63).health = .good ∧ one.dst.rowInUse 63 = some 63 ∧ (one.entry 63).length ≤ 16 ∧ one.canonical ∧
      (∀ p, p < (one.entry 63).length → (one.dst.cell 63 p).decode ≠ .uncorrectable) ∧
      ((after .commandInHandGranted one).lpt.response.result = .ok ∧
        (after .commandInHandGranted one).dst.cells = [])) ∧
    (many.handReady (.read 63 false) ∧ (many.entry 63).parityGood = true ∧ (many.entry 63).health = .good ∧
      many.canonical ∧ many.lowestBad 63 63 5 ∧ many.hasConfig cfg ∧ many.nct.node ≠ .halted ∧ many.rpe.due = none) ∧
    (t.lpt.response.result = .damaged ∧ t.rpe.cycle.map (fun c => (c.first, c.last)) = some (63, 63) ∧
      t.obs.queue = [queued .ask (.askTry 1)] ∧
      t.elg.entries.map (fun e => (e.kind, e.fields.word)) =
        [(.eccCorrected, some 0), (.eccCorrected, some 15), (.eccUncorrectable, some 5)]) ∧
    ((dueFor [3] false many).rpe.due ≠ none ∧ (dueFor [3] false many).lowestBad 63 63 5 ∧
      (after .commandInHandGranted (dueFor [3] false many)).obs.queue = []) ∧
    ([1, 2] : List Word)[1]? = some 2 := by
  repeat' (first | decide +kernel | rfl | refine ⟨?_, ?_⟩)

/-- One state for each answer: NOT_OWNER, BUSY, FULL, a draft added and a draft replaced. -/
theorem witness_GrantedStageKeepsTheDraft :
    let s : State → State := hand (.stage 3 [1]);
    let full : List Nat → State := fun l => { owning with opu := {
      op := none, drafts := l.map fun n => { slot := n, words := [] } } };
    ((s grouped).handReady (.stage 3 [1]) ∧ ((s grouped).entry 3).parityGood = true ∧
      ((s grouped).entry 3).state ≠ .owned (s grouped).nct.station) ∧
    ((s publishing).handReady (.stage 3 [1]) ∧ ((s publishing).entry 3).state = .owned 2 ∧
      (s publishing).opu.op.map (·.kind) = some .publish) ∧
    (4 ≤ (s (full [4, 5, 6, 7])).opu.drafts.length ∧ (s (full [4, 5, 6, 7])).opu.draft 3 = none ∧
      (s (full [4, 5, 6, 7])).handReady (.stage 3 [1])) ∧
    ((s (full [4, 5, 6])).opu.drafts.length < 4 ∧ (s (full [4, 5, 6])).opu.draft 3 = none ∧
      (s (full [4, 5, 6])).handReady (.stage 3 [1])) ∧
    ((s (full [4, 3, 6, 7])).opu.draft 3 ≠ none ∧ (s (full [4, 3, 6, 7])).handReady (.stage 3 [1])) := by
  repeat' (first | decide +kernel | rfl | refine ⟨?_, ?_⟩)

/-- A CLAIM of a FREE, of an ORPHANED and of an OWNED slot, and a YIELD of an own slot and of another's. -/
theorem witness_GrantedClaimOrYieldBegins :
    let s : SlotState → InHand → State := fun st h => hand h { grouped with dir := [(3, slotEntry st .good)] };
    (((s .free (.claim 3)).entry 3).parityGood = true ∧
      (∀ e ∈ (s .free (.claim 3)).obs.queue, e.kind.isOperation = false) ∧ (s .free (.claim 3)).handReady (.claim 3) ∧
      ((s .free (.claim 3)).entry 3).state = .free) ∧
    ((s .orphaned (.claim 3)).handReady (.claim 3) ∧ ((s .orphaned (.claim 3)).entry 3).state = .orphaned) ∧
    ((s (.owned 5) (.claim 3)).handReady (.claim 3) ∧
      ¬(((s (.owned 5) (.claim 3)).entry 3).state = .free ∨ ((s (.owned 5) (.claim 3)).entry 3).state = .orphaned)) ∧
    ((s (.owned 2) (.yield 3)).handReady (.yield 3) ∧ ((s (.owned 2) (.yield 3)).entry 3).state = .owned 2) ∧
    ((s (.owned 5) (.yield 3)).handReady (.yield 3) ∧ ((s (.owned 5) (.yield 3)).entry 3).state ≠ .owned 2) := by
  repeat' (first | decide +kernel | rfl | refine ⟨?_, ?_⟩)

theorem witness_TakeNoticeTakesTheHighest :
    (State.reset.portOpen ∧ State.reset.ntq.notices = []) ∧
    (let l : List Notice := [.catchupDone 0, .busStuck, .slotFailed 1];
      let s := { State.reset with ntq := { notices := l, lost := false } };
      s.portOpen ∧ s.ntq.notices = [Notice.catchupDone 0] ++ Notice.busStuck :: [.slotFailed 1] ∧
        (∀ m ∈ [Notice.catchupDone 0], m.severity ≠ Notice.busStuck.severity) ∧
        ∀ m ∈ l, (m.severity = .critical → Notice.busStuck.severity = .critical) ∧
          (m.severity = .high → Notice.busStuck.severity ≠ .low)) := by
  repeat' (first | decide +kernel | rfl | refine ⟨?_, ?_⟩)

/-- The enables have valid parity; the node is HALTED; only CRITICAL notices stay; and a mismatch is met. -/
theorem witness_TakeNoticeTakesTheHighest_level :
    let s : State → List Notice → State := fun s l => { s with ntq := { notices := l, lost := false } };
    let l : List Notice := [.isolated .dropped, .busStuck];
    let halted := s { mismatched with nct := { mismatched.nct with node := .halted } } l;
    ((s grouped l).portOpen ∧ (s grouped l).levelGood ∧
      (s grouped l).ntq.notices = [] ++ .isolated .dropped :: [.busStuck] ∧
      ∀ m ∈ l, (m.severity = .critical → (Notice.isolated .dropped).severity = .critical) ∧
        (m.severity = .high → (Notice.isolated .dropped).severity ≠ .low)) ∧
    (halted.portOpen ∧ halted.nct.node = .halted) ∧
    ((s mismatched [.busStuck]).portOpen ∧ ∀ m ∈ ([] ++ [] : List Notice), m.severity = .critical) ∧
    (¬(s mismatched l).levelGood ∧ (s mismatched l).nct.node ≠ .halted ∧
      (∃ m ∈ ([] ++ [Notice.busStuck] : List Notice), m.severity ≠ .critical) ∧
      (after .takeNotice (s mismatched l)).nct.node = .halted) := by
  refine ⟨⟨?_, levelGood_of rfl, rfl, by decide⟩, ?_, ?_, mismatched_levelBad, by decide, by decide,
    by decide +kernel⟩
  all_goals repeat' (first | decide +kernel | rfl | refine ⟨?_, ?_⟩)

/-- NIRQ under each enable, and with NRST low. -/
theorem witness_TakeNoticeTakesTheHighest_nirq :
    let s : Bool → Bool → Bool → Notice → State := fun held high low n => { grouped with
      nct := { grouped.nct with
        nrstLow := held, config := some { cfg with enableHigh := high, enableLow := low } },
      ntq := { notices := [n], lost := false } };
    (s false false false (.isolated .dropped)).nirqLow = true ∧ (s false true false .busStuck).nirqLow = true ∧
      (s false false true .busStuck).nirqLow = false ∧ (s false false true (.catchupDone 0)).nirqLow = true ∧
      (s false true false (.catchupDone 0)).nirqLow = false ∧
      (s true true true (.isolated .dropped)).nirqLow = false := by
  decide +kernel

theorem witness_LogCommandsReadTheOldestEntry :
    (State.reset.portOpen ∧ State.reset.elg.entries = []) ∧
    (let e : LogEntry := { kind := .frameCrc, time := 0, fields := .none };
      let s := { State.reset with elg := { entries := [e, e], counter := 255 } };
      s.portOpen ∧ s.elg.entries = e :: [e]) := by
  repeat' (first | decide +kernel | rfl | refine ⟨?_, ?_⟩)

/-- A deadline ahead, one that has passed, and an entry without one. -/
theorem witness_MembersReportsTheTable :
    grouped.accepts .members ∧ grouped.membersGood ∧
      ((grouped.mbu.entry 5).state = .present ∧ (grouped.mbu.entry 5).deadline = some 5300 ∧
        ((5300 : Time) - grouped.nct.now).toNat ≤ 15000) ∧
      ((grouped.mbu.entry 6).state = .present ∧
        (let s := { grouped with nct := { grouped.nct with now := 5001 } };
          ¬((5000 : Time) - s.nct.now).toNat ≤ 15000)) ∧
      ((grouped.mbu.entry 15).state ≠ .present ∨ (grouped.mbu.entry 15).deadline = none) := by
  exact ⟨⟨⟨rfl, by decide⟩, by decide, Or.inl rfl⟩, grouped_membersGood, by decide +kernel, by decide +kernel,
    by decide +kernel⟩

/-- Both sides of each bound: periods 9, 10, 60000 and 60001, indices 3 and 4, words 15 and 16. -/
theorem witness_WatchAndUnwatchSetTheirEntry :
    (grouped.accepts .watch ∧ grouped.hasConfig cfg ∧ (1 : Byte) ≠ 0) ∧ grouped.accepts .unwatch ∧
      (256 * (0 : Byte).toNat + (9 : Byte).toNat < 10 ∧ 10 ≤ 256 * (0 : Byte).toNat + (10 : Byte).toNat ∧
        256 * (0xEA : Byte).toNat + (0x60 : Byte).toNat ≤ 60000 ∧
        60000 < 256 * (0xEA : Byte).toNat + (0x61 : Byte).toNat) ∧
      ((3 : Byte).toNat ≤ 3 ∧ ¬(4 : Byte).toNat ≤ 3) ∧ ((15 : Byte).toNat ≤ 15 ∧ ¬(16 : Byte).toNat ≤ 15) := by
  repeat' (first | decide +kernel | rfl | refine ⟨?_, ?_⟩)

/-! ### Witnesses: the pins -/

theorem witness_PowerFailHaltsOrLeaves :
    ((node .halted).nct.node = .halted) ∧
      (let s := { grouped with nct := { grouped.nct with pfailLatch := true } };
        s.running ∧ s.nct.pfailLatch = true) ∧
      ((node .announcing).running ∧ (node .announcing).nct.pfailLatch = false ∧
        (node .announcing).nct.node.participating = false) ∧
      (claiming.running ∧ claiming.levelGood ∧ claiming.nct.pfailLatch = false ∧
        claiming.nct.node.participating = true) ∧
      (let f : Frame := { sender := 2, payload := .leave };
        let s := ownFrame .leave f grouped;
        s.running ∧ s.nct.pfailLatch = false ∧ s.nct.node.participating = true ∧ s.pbi.shift = .sendingPaused f) ∧
      (let s : Nat → State := fun n => { grouped with nct := { grouped.nct with pfailWait := some n } };
        ((s 2047).running ∧ (s 2047).nct.pfailWait = some 2047 ∧ (s 2047).pbi.shift.transmitting = false) ∧
        ((s 0).nct.pfailWait = some 0 ∧ (s 2048).nct.pfailWait = some 2048)) := by
  repeat' (first | exact levelGood_of rfl | decide +kernel | rfl | refine ⟨?_, ?_⟩)

theorem witness_DisturbanceChangesStoredBits :
    grouped.canonical ∧ (259 < 260 ∧ 15 < 16) ∧ ¬(260 < 260 ∧ 15 < 16) ∧ ¬(259 < 260 ∧ 16 < 16) ∧
      grouped.nct.config = some cfg := by
  repeat' (first | decide +kernel | rfl | refine ⟨?_, ?_⟩)

theorem witness_FaultCheckerAlarmHalts :
    grouped.running ∧ (node .halted).nct.nrstLow = false ∧ (node .halted).nct.node = .halted := by
  repeat' (first | decide +kernel | rfl | refine ⟨?_, ?_⟩)

/-! ### Witnesses: starting and receiving -/

theorem witness_BusFreeStartsTheLowestEntry_leave :
    let s := { grouped with obs := { queue := [queued .beat .none, queued .leave .none], build := none } };
    s.mayStart .leave ∧ s.builds .leave := by
  refine ⟨?_, trivial⟩
  repeat' (first | decide +kernel | rfl | refine ⟨?_, ?_⟩)

theorem witness_BusFreeStartsTheLowestEntry_drop :
    let s := lone .drop (.dropMask 0x60) suspecting;
    s.mayStart .drop ∧ s.builds (.drop 0x40) := by
  refine ⟨?_, suspecting_membersGood, by decide, queued .drop (.dropMask 0x60), 0x60, rfl, rfl, by decide +kernel⟩
  repeat' (first | decide +kernel | rfl | refine ⟨?_, ?_⟩)

theorem witness_BusFreeStartsTheLowestEntry_hello :
    let s := lone .hello .none (node .announcing);
    s.mayStart .hello ∧ s.builds (.hello params) := by
  refine ⟨?_, cfg, ⟨rfl, rfl⟩, rfl⟩
  repeat' (first | decide +kernel | rfl | refine ⟨?_, ?_⟩)

theorem witness_BusFreeStartsTheLowestEntry_claim :
    claiming.mayStart .claim ∧ claiming.builds (.claim 3 8) := by
  refine ⟨?_, ⟨false, rfl⟩, rfl, Or.inl rfl, rfl⟩
  repeat' (first | decide +kernel | rfl | refine ⟨?_, ?_⟩)

theorem witness_BusFreeStartsTheLowestEntry_yield :
    let asked : Opu := { op := some { kind := .yield 3, onBus := false }, drafts := [] };
    let s := lone .yield .operation { owning with opu := asked };
    s.mayStart .yield ∧ s.builds (.yield 3 8) := by
  refine ⟨?_, ⟨false, rfl⟩, rfl, rfl, rfl⟩
  repeat' (first | decide +kernel | rfl | refine ⟨?_, ?_⟩)

theorem witness_BusFreeStartsTheLowestEntry_post :
    let s := lone .post .operation publishing;
    s.mayStart .post ∧ s.builds (.post [{ slot := 3, version := 8, words := [9] }]) := by
  refine ⟨?_, by decide +kernel, rfl⟩
  repeat' (first | decide +kernel | rfl | refine ⟨?_, ?_⟩)

/-- The build of a POST takes over a held give-up access, and the node becomes a MEMBER first. -/
theorem witness_BusFreeStartsTheLowestEntry_takesOver :
    let p : Payload := .post [{ slot := 3, version := 8, words := [9] }];
    let e : DirEntry := { slotEntry .unlearned .unknown with wanted := true };
    let s := dueFor [4] false { lone .post .operation publishing with
      nct := { publishing.nct with node := .catchup },
      dir := publishing.dir ++ [(4, e)], rpe := { Rpe.empty with wanted := [4] },
      fck := { inbound := none, purpose := some .giveUp }, sar := { Sar.idle with grant := some .fck } };
    s.canonical ∧
      State.mayStart { s.withoutDue with
        fck := { s.fck with purpose := none },
        sar := { grant := none, fckWaits := false, lptWaits := false, scbWaits := false } } p.kind ∧
      p.kind.needsStore = true ∧ s.builds p ∧ s.fck.purpose = some .giveUp ∧ s.sar.grant = some .fck ∧
      s.rpe.due = some { slots := [4], takenOver := false } ∧ s.entriesGood ∧ s.hasConfig cfg ∧
      (after (.busFree false) s).nct.node = .member ∧
      (after (.busFree false) s).ntq.notices = [.slotUnresolved 4, .catchupDone 1] ∧
      (after (.busFree false) s).pbi.shift = .sending { sender := 2, payload := p } := by
  refine ⟨?_, ?_, rfl, ⟨by decide +kernel, rfl⟩, rfl, rfl, rfl, entriesGood_of rfl, ⟨rfl, rfl⟩, by decide +kernel,
    by decide +kernel, by decide +kernel⟩
  all_goals repeat' (first | decide +kernel | rfl | refine ⟨?_, ?_⟩)

theorem witness_BusFreeStartsTheLowestEntry_sync :
    let s := lone .sync .none { owning with rpe := { Rpe.empty with answers := [3] } };
    s.mayStart .sync ∧ s.builds (.sync [{ slot := 3, stateCode := 2, owner := 2, version := 7, words := [] }]) := by
  refine ⟨?_, by decide, fun n hn => ?_, rfl⟩
  · repeat' (first | decide +kernel | rfl | refine ⟨?_, ?_⟩)
  · have h : n = 3 := by simpa [lone] using hn
    subst h
    exact ⟨rfl, rfl, 3, rfl, by decide +kernel⟩

/-- The second window of a cycle, at its second try. -/
theorem witness_BusFreeStartsTheLowestEntry_ask :
    let window : AskCycle :=
      { first := 16, last := 31, try_ := 2, phase := .queued, sent := none, deadline := none, asked := [] };
    let asking : Rpe := { Rpe.empty with wanted := [3, 20, 31], cycle := some window };
    let s := lone .ask (.askTry 2) { grouped with rpe := asking };
    s.mayStart .ask ∧ s.builds (.ask 20 1 12) := by
  refine ⟨?_, _, [31], rfl, by decide +kernel, by decide, by decide, by decide⟩
  repeat' (first | decide +kernel | rfl | refine ⟨?_, ?_⟩)

theorem witness_BusFreeStartsTheLowestEntry_beat :
    let s := lone .beat .none grouped;
    s.mayStart .beat ∧ s.builds (.beat 0x64 params) := by
  refine ⟨?_, grouped_membersGood, by decide +kernel, cfg, ⟨rfl, rfl⟩, rfl⟩
  repeat' (first | decide +kernel | rfl | refine ⟨?_, ?_⟩)

/-- Each build that finds nothing to send: no suspect is left, the slot is taken or lost, no answer is GOOD, and nothing
of the window is wanted. -/
theorem witness_BusFreeStartsTheLowestEntry_nothing :
    let taken := { claiming with dir := [(3, slotEntry (.owned 5) .good)] };
    let yielding : Opu := { op := some { kind := .yield 3, onBus := false }, drafts := [] };
    let lost := lone .yield .operation { grouped with dir := taken.dir, opu := yielding };
    let posting := lone .post .operation { publishing with dir := taken.dir };
    let answering := lone .sync .none { grouped with
      dir := [(3, slotEntry .free .damaged)], rpe := { Rpe.empty with answers := [3] } };
    let asking := lone .ask (.askTry 1) grouped;
    let dropping := lone .drop (.dropMask 0x40) grouped;
    (taken.mayStart .claim ∧ taken.levelGood ∧ ∃ u, taken.leavesNothing taken.freeTime .claim u ∧ u.obs.queue = []) ∧
    (lost.mayStart .yield ∧ ∃ u, lost.leavesNothing lost.freeTime .yield u ∧ u.obs.queue = []) ∧
    (posting.mayStart .post ∧ ∃ u, posting.leavesNothing posting.freeTime .post u ∧ u.opu.drafts = []) ∧
    (answering.mayStart .sync ∧ ∃ u, answering.leavesNothing answering.freeTime .sync u ∧ u.obs.queue = []) ∧
    (asking.mayStart .ask ∧ ∃ u, asking.leavesNothing asking.freeTime .ask u ∧ u.obs.queue = []) ∧
    (dropping.mayStart .drop ∧ ∃ u, dropping.leavesNothing dropping.freeTime .drop u ∧ u.obs.queue = []) := by
  refine ⟨⟨?_, levelGood_of rfl, _, ⟨3, _, rfl, rfl, rfl, by decide, by decide, rfl⟩, rfl⟩,
    ⟨?_, _, ⟨3, _, rfl, rfl, rfl, by decide, rfl⟩, rfl⟩,
    ⟨?_, _, ⟨_, rfl, by decide +kernel, by decide +kernel, rfl⟩, rfl⟩,
    ⟨?_, _, ⟨by decide +kernel, rfl⟩, rfl⟩,
    ⟨?_, _, ⟨fun c h => (nomatch (show (none : Option AskCycle) = some c from h)), rfl⟩, rfl⟩,
    ?_, _, ⟨⟨grouped_membersGood, _, _, rfl, rfl, by decide +kernel⟩, Or.inl ⟨by decide +kernel, rfl⟩⟩, rfl⟩
  all_goals repeat' (first | decide +kernel | rfl | refine ⟨?_, ?_⟩)

/-- A DROP that names nobody while station 6, or station 1, is SUSPECT: before the grace of the suspicion has passed,
at its end with quorum, and at its end without. -/
theorem witness_BusFreeStartsTheLowestEntry_suspects :
    let s : List (Nat × MemberEntry) → State := fun l => lone .drop (.dropMask 0x8000) (withTable l);
    let early := s [(2, .own), (6, doubted 4901)];
    let late := s [(2, .own), (6, doubted 4900)];
    let few := s [(1, doubted 4900), (2, .own)];
    (early.mayStart .drop ∧ early.levelGood ∧ ∃ u, early.leavesNothing early.freeTime .drop u ∧
      u.mbu.decision = some 5001 ∧ u.obs.queue = []) ∧
    (late.mayStart .drop ∧ late.levelGood ∧ ∃ u, late.leavesNothing late.freeTime .drop u ∧
      u.mbu.decision = none ∧ u.obs.queue = [queued .drop (.dropMask 0x40)] ∧
      (after (.busFree false) late).pbi.shift = .sending { sender := 2, payload := .drop 0x40 }) ∧
    (few.canonical ∧ few.mayStart .drop ∧ few.hasConfig cfg ∧ few.dropsNobody ∧
      few.firstSuspicion few.suspects 4900 ∧ Machine.passed few.freeTime (4900 + BitVec.ofNat 32 cfg.beat) ∧
      ¬few.hasQuorum ∧ (after (.busFree false) few).nct.isolationCause = some .noQuorum) := by
  refine ⟨⟨?_, levelGood_of rfl, _, ⟨⟨?_, _, _, rfl, rfl, by decide +kernel⟩,
      Or.inr ⟨cfg, 4901, ⟨rfl, rfl⟩, firstSuspicion_of (n := 6) (by decide +kernel) (by decide +kernel),
        Or.inl ⟨by unfold Machine.passed; decide +kernel, rfl⟩⟩⟩, by decide +kernel, by decide +kernel⟩,
    ⟨?_, levelGood_of rfl, _, ⟨⟨?_, _, _, rfl, rfl, by decide +kernel⟩,
      Or.inr ⟨cfg, 4900, ⟨rfl, rfl⟩, firstSuspicion_of (n := 6) (by decide +kernel) (by decide +kernel),
        Or.inr ⟨by unfold Machine.passed; decide +kernel,
          Or.inr ⟨by decide +kernel, 2, by decide +kernel, by decide +kernel⟩, rfl⟩⟩⟩,
      by decide +kernel, by decide +kernel, by decide +kernel⟩,
    ?_, ?_, ⟨rfl, rfl⟩, ⟨?_, _, _, rfl, rfl, by decide +kernel⟩,
    firstSuspicion_of (n := 1) (by decide +kernel) (by decide +kernel), by unfold Machine.passed; decide +kernel,
    noQuorum_of (n := 1) (by decide +kernel) (by decide +kernel) (by decide +kernel), by decide +kernel⟩
  all_goals first
    | (unfold State.membersGood; decide +kernel)
    | repeat' (first | decide +kernel | rfl | refine ⟨?_, ?_⟩)

theorem witness_BusFreeStartsTheLowestEntry_none :
    grouped.running ∧ grouped.pbi.mayIdle = true ∧ grouped.obs = { queue := [], build := none } ∧
      grouped.fck.purpose ≠ some .build := by
  repeat' (first | decide +kernel | rfl | refine ⟨?_, ?_⟩)

theorem witness_BusFreeStartsTheLowestEntry_inHand :
    let f : Frame := { sender := 2, payload := .leave };
    let s := { grouped with obs := { queue := [], build := some f } };
    s.running ∧ s.pbi.mayIdle = true ∧ s.obs.build = some f := by
  repeat' (first | decide +kernel | rfl | refine ⟨?_, ?_⟩)

theorem witness_StartsAndLossesMakeAReceiver :
    (grouped.running ∧ grouped.pbi.shift.inFrame = false ∧
      ¬((∃ k, grouped.pbi.shift = .slotsDone (some k)) ∧ grouped.nct.phase = .pfailLeave) ∧
      grouped.fck.purpose ≠ some .build) ∧
    (let f : Frame := { sender := 2, payload := .claim 3 8 };
      let s : NodeState → State := fun n => { claiming with
        nct := { claiming.nct with node := n }, pbi := { claiming.pbi with shift := .sending f } };
      ((s .member).running ∧ (s .member).pbi.shift = .sending f ∧
        ¬((s .member).nct.node = .leaving ∧ f.kind.isOperation = true) ∧ 7 < 8 ∧ 8 ≤ 8) ∧
      ((s .leaving).running ∧ (s .leaving).levelGood ∧ (s .leaving).nct.node = .leaving ∧ f.kind.isOperation = true ∧
        (s .leaving).obs.holds f.kind = true ∧
        (s .leaving).opu.op = some { kind := .claim 3, onBus := false })) := by
  refine ⟨⟨⟨rfl, by decide⟩, rfl, fun h => absurd h.2 (by decide), by decide⟩, ?_⟩
  repeat' (first | exact levelGood_of rfl | decide +kernel | rfl | refine ⟨?_, ?_⟩)

theorem witness_CheckPauseAsksOrReports :
    (let f : Frame := { sender := 2, payload := .leave };
      let s := { grouped with pbi := { grouped.pbi with shift := .sending f } };
      let r := { s with nct := { s.nct with phase := .pfailLeave } };
      (s.running ∧ s.pbi.shift = .sending f ∧ s.nct.phase ≠ .pfailLeave ∧ s.fck.purpose = none ∧ s.rpe.due = none) ∧
        (r.running ∧ r.pbi.shift = .sending f ∧ r.nct.phase = .pfailLeave)) ∧
    (let s := { grouped with pbi := { grouped.pbi with shift := .receiving } };
      s.running ∧ s.pbi.shift = .receiving ∧ s.nct.node.taking = true ∧ s.nct.pfailLatch = false ∧
        classify [0x15, 0, 0] 0 = .crcError 5 ∧ classify [0x15, 0] 0 = .formatError 5 ∧
        classify [] 7 = .noHeader) := by
  repeat' (first | decide +kernel | rfl | refine ⟨?_, ?_⟩)

/-- A sender that takes over a give-up access which waits, and one which is held. -/
theorem witness_CheckPauseAsksOrReports_giveUp :
    let f : Frame := { sender := 2, payload := .beat 0x0064 params };
    let s : Sar → State := fun a => dueFor [3] false { catching with
      pbi := { catching.pbi with shift := .sending f }, fck := { inbound := none, purpose := some .giveUp }, sar := a };
    let waiting := s { grant := some .lpt, fckWaits := true, lptWaits := false, scbWaits := false };
    let held := s { Sar.idle with grant := some .fck };
    (waiting.running ∧ waiting.pbi.shift = .sending f ∧ waiting.nct.phase ≠ .pfailLeave ∧
      waiting.fck.purpose = some .giveUp ∧ waiting.rpe.due = some { slots := [3], takenOver := false } ∧
      waiting.sar.grant ≠ some .fck) ∧
    (held.running ∧ held.fck.purpose = some .giveUp ∧ held.sar.grant = some .fck ∧ held.canonical ∧
      held.entriesGood ∧ held.hasConfig cfg ∧ (after (.checkPause [] 0) held).nct.node = .member ∧
      (after (.checkPause [] 0) held).fck.purpose = some .ownFrame) := by
  refine ⟨?_, ?_, rfl, rfl, ?_, entriesGood_of rfl, ⟨rfl, rfl⟩, ?_, ?_⟩
  all_goals repeat' (first | decide +kernel | rfl | refine ⟨?_, ?_⟩)

/-- A frame of a PRESENT station, of a SUSPECT one, over a due give-up, of the own station, and at a joining node. -/
theorem witness_IntactFrameIsHeardAndHeld :
    let r : State → State := fun s => { s with pbi := { s.pbi with shift := .receiving } };
    let f : Frame := { sender := 5, payload := .leave };
    let g : Frame := { sender := 2, payload := .leave };
    let h : Frame := { sender := 6, payload := .leave };
    let due := { r grouped with fck := { inbound := none, purpose := some .giveUp } };
    (classify f.body 0 = .intact f ∧ classify g.body 0 = .intact g ∧ classify h.body 0 = .intact h) ∧
    ((r grouped).canonical ∧ (r grouped).running ∧ (r grouped).pbi.shift = .receiving ∧
      (r grouped).nct.node.participating = true ∧ (r grouped).nct.pfailLatch = false ∧ (r grouped).hasConfig cfg ∧
      ((r grouped).mbu.entry f.sender.toNat).parityGood = true ∧
      ((r grouped).mbu.entry f.sender.toNat).state ≠ .suspect ∧ f.sender ≠ (r grouped).nct.station ∧
      (r grouped).fck.purpose = none) ∧
    (g.sender = (r grouped).nct.station ∧ ((r grouped).mbu.entry g.sender.toNat).parityGood = true ∧
      ((r grouped).mbu.entry g.sender.toNat).state ≠ .suspect) ∧
    (((r suspecting).mbu.entry h.sender.toNat).state = .suspect ∧ (r suspecting).membersGood ∧
      (r suspecting).canonical ∧ (r suspecting).suspects = [h.sender.toNat]) ∧
    (due.fck.purpose = some .giveUp ∧ due.running) ∧
    ((r (node .announcing)).running ∧ (r (node .announcing)).nct.node.joining = true ∧
      (r (node .announcing)).nct.pfailLatch = false ∧ f.sender ≠ (r (node .announcing)).nct.station ∧
      g.sender = (r (node .announcing)).nct.station) := by
  refine ⟨by decide +kernel, ?_, by decide +kernel, ⟨by decide +kernel, suspecting_membersGood, ?_⟩, ?_⟩
  all_goals repeat' (first | decide +kernel | rfl | refine ⟨?_, ?_⟩)

theorem witness_FrameCheckCarriesTheDecision :
    (let f : Frame := { sender := 5, payload := .claim 63 1 };
      let g : Frame := { sender := 5, payload := .yield 3 7 };
      let h : Frame := { sender := 9, payload := .leave };
      let s : Frame → State := fun f => { claiming with
        fck := { inbound := some { frame := f, verdict := none }, purpose := some .check },
        sar := { Sar.idle with grant := some .fck } };
      let bad := after (.disturbance (.member 5)) (s f);
      (s f).running ∧ (s f).active = true ∧ (s f).fckHolds .check ∧ (s f).checkFrame f = .pass ∧
        (s g).checkFrame g = .veto none ∧ (s h).checkFrame h = .veto (some .nonmemberFrame) ∧
        bad.checkFrame f = .fault { slot := none, station := some 5, word := none, bit := none } ∧
        bad.running ∧ bad.active = true ∧ f.kind ≠ .hello ∧ (bad.mbu.entry f.sender.toNat).parityGood = false) := by
  repeat' (first | decide +kernel | rfl | refine ⟨?_, ?_⟩)

/-- A check whose access took a give-up over, and one during which a give-up fell due. -/
theorem witness_FrameCheckCarriesTheDecision_giveUp :
    let f : Frame := { sender := 5, payload := .claim 3 8 };
    let s : Bool → State := fun b => dueFor [3] b { catching with
      fck := { inbound := some { frame := f, verdict := none }, purpose := some .check },
      sar := { Sar.idle with grant := some .fck } };
    ((s true).canonical ∧ (s true).running ∧ (s true).active = true ∧
      (s true).fck = { inbound := some { frame := f, verdict := none }, purpose := some .check } ∧
      (s true).sar.grant = some .fck ∧ (s true).rpe.due = some { slots := [3], takenOver := true } ∧
      (s true).entriesGood ∧ (s true).hasConfig cfg ∧ (after .frameCheck (s true)).nct.node = .member ∧
      (after .frameCheck (s true)).fck.inbound = some { frame := f, verdict := some .pass }) ∧
    ((s false).fckOpen .check ∧ (s false).checkFrame f = .pass ∧ (s false).rpe.due ≠ none ∧
      (after .frameCheck (s false)).rpe = (s false).rpe) := by
  refine ⟨⟨?_, ?_, rfl, rfl, rfl, rfl, entriesGood_of rfl, ⟨rfl, rfl⟩, by decide +kernel, by decide +kernel⟩,
    ⟨rfl, rfl, fun d h => ?_⟩, by decide +kernel, by decide, by decide +kernel⟩
  rotate_right
  · cases h
    rfl
  all_goals repeat' (first | decide +kernel | rfl | refine ⟨?_, ?_⟩)

/-- A frame for each group of tests that fails first, and one that passes. -/
theorem witness_FrameChecksFollowTheirTests :
    let stranger : Frame := { sender := 9, payload := .leave };
    let far : Frame := { sender := 5, payload := .claim 64 1 };
    let other : Frame := { sender := 5, payload := .beat 0x0020 { params with beat := 101 } };
    let taken : Frame := { sender := 5, payload := .claim 3 8 };
    let good : Frame := { sender := 5, payload := .claim 63 1 };
    owning.hasConfig cfg ∧ owning.membersGood ∧ owning.entriesGood ∧
      ¬(stranger.kind = .hello ∨ (owning.mbu.entry stranger.sender.toNat).state ≠ .absent) ∧
      (owning.mbu.entry (5 : Station).toNat).state ≠ .absent ∧ ¬far.formatHolds cfg.activeSlots ∧
      (other.formatHolds cfg.activeSlots ∧ ¬other.paramsHold cfg owning.nct.rate) ∧
      (taken.formatHolds cfg.activeSlots ∧ taken.paramsHold cfg owning.nct.rate ∧ ¬owning.stateHolds taken) ∧
      (good.formatHolds cfg.activeSlots ∧ good.paramsHold cfg owning.nct.rate ∧ owning.stateHolds good) := by
  refine ⟨⟨rfl, rfl⟩, grouped_membersGood, entriesGood_of rfl, by decide +kernel, by decide +kernel, ?_, ⟨?_, ?_⟩,
    ⟨?_, trivial, ?_⟩, ?_, trivial, Or.inl rfl⟩
  · intro h
    have h' : (64 : Byte).toNat < cfg.activeSlots := h
    exact absurd h' (by decide)
  · show (0x0020 : StationMask).getLsbD 5 = true
    decide
  · intro h
    have h' : (101 : BitVec 16) = BitVec.ofNat 16 cfg.beat := congrArg WireParams.beat h
    exact absurd h' (by decide)
  · show (3 : Byte).toNat < cfg.activeSlots
    decide
  · rintro (h | ⟨h | h, _⟩)
    · exact absurd h (by decide +kernel)
    · exact absurd h (by decide +kernel)
    · exact absurd h (by decide +kernel)
  · show (63 : Byte).toNat < cfg.activeSlots
    decide

/-! ### Witnesses: frames of other nodes -/

/-- A frame that the receiver passed, one that it vetoed, and none in hand. -/
theorem witness_RefusedFrameChangesNothing :
    let f : Frame := { sender := 5, payload := .leave };
    let s : Option Inbound → State := fun i => { passed f with fck := { (passed f).fck with inbound := i } };
    let vetoed := s (some { frame := f, verdict := some .veto });
    let empty := s none;
    (passed f).passedFrame f ∧
      (vetoed.running ∧ vetoed.active = true ∧ vetoed.pbi.shift = .paused ∧ vetoed.pbi.holdPck = false ∧
        vetoed.fck.inbound = some { frame := f, verdict := some .veto } ∧ vetoed.fckHolds .check) ∧
      (empty.running ∧ empty.pbi.shift = .paused ∧ empty.pbi.holdPck = false ∧ empty.fck.inbound = none) := by
  repeat' (first | decide +kernel | rfl | refine ⟨?_, ?_⟩)

/-- A give-up that is due at a pulled frame that the receiver passed, and at one that it vetoed; and a LISTENING node
without an inbound frame. -/
theorem witness_RefusedFrameChangesNothing_giveUp :
    let f : Frame := { sender := 5, payload := .leave };
    let s := dueFor [3] true (passedAt catching f);
    let vetoed := { s with fck := { s.fck with inbound := some { frame := f, verdict := some .veto } } };
    let listening := { node .listening with pbi := { (node .listening).pbi with shift := .paused } };
    (s.canonical ∧ s.rpe.due = some { slots := [3], takenOver := true } ∧ s.entriesGood ∧ s.hasConfig cfg ∧
      s.withoutDue.passedFrame f ∧ (after (.vetoSlot true true) s).nct.node = .member) ∧
    (vetoed.running ∧ vetoed.active = true ∧ vetoed.pbi.shift = .paused ∧ vetoed.pbi.holdPck = false ∧
      vetoed.fck.inbound = some { frame := f, verdict := some .veto } ∧ vetoed.withoutDue.fckHolds .check ∧
      (after (.vetoSlot true false) vetoed).nct.node = .member) ∧
    (listening.running ∧ listening.pbi.shift = .paused ∧ listening.pbi.holdPck = false ∧
      listening.fck.inbound = none) := by
  refine ⟨⟨?_, rfl, entriesGood_of rfl, ⟨rfl, rfl⟩, ?_, ?_⟩, ?_⟩
  all_goals repeat' (first | decide +kernel | rfl | refine ⟨?_, ?_⟩)

theorem witness_AppliedClaimAndYieldMoveTheSlot :
    (let f : Frame := { sender := 5, payload := .claim 3 8 };
      let s := passedAt claiming f;
      s.canonical ∧ s.levelGood ∧ s.passedFrame f ∧ f.sender ≠ s.nct.station ∧ (s.entry 3).parityGood = true ∧
        s.opu.op.map (·.kind) = some (.claim (3 : Byte).toNat)) ∧
    (let f : Frame := { sender := 5, payload := .claim 63 8 };
      let s := passedAt claiming f;
      s.passedFrame f ∧ (s.entry 63).parityGood = true ∧
        s.opu.op.map (·.kind) ≠ some (.claim (63 : Byte).toNat)) ∧
    (let f : Frame := { sender := 5, payload := .yield 3 8 };
      let s := passedAt { grouped with dir := [(3, slotEntry (.owned 5) .good)] } f;
      s.canonical ∧ s.passedFrame f ∧ (s.entry 3).parityGood = true) := by
  repeat' (first | exact levelGood_of rfl | decide +kernel | rfl | refine ⟨?_, ?_⟩)

/-- A POST of two items, a SYNC of two records, and the SYNC that ends a catch-up. -/
theorem witness_AppliedPostAndSyncWriteTheirSlots :
    (let items : List Item := [
        { slot := 0, version := 1, words := List.replicate 16 1 }, { slot := 63, version := 1, words := [] }];
      let f : Frame := { sender := 5, payload := .post items };
      (passed f).canonical ∧ (passed f).passedFrame f ∧ f.sender ≠ (passed f).nct.station ∧
        (items.map Item.slot).Nodup ∧ (∀ i ∈ items, i.words.length ≤ 16) ∧ (passed f).entriesGood ∧
        (passed f).hasConfig cfg) ∧
    (let records : List Record := [
        { slot := 3, stateCode := 2, owner := 5, version := 8, words := List.replicate 16 1 },
        { slot := 63, stateCode := 1, owner := 0, version := 1, words := [] }];
      let f : Frame := { sender := 5, payload := .sync records };
      (passedAt catching f).canonical ∧ (passedAt catching f).passedFrame f ∧
        f.sender ≠ (passedAt catching f).nct.station ∧ (records.map Record.slot).Nodup ∧
        (∀ r ∈ records, r.words.length ≤ 16) ∧ (passedAt catching f).entriesGood ∧
        (passedAt catching f).hasConfig cfg ∧
        (match exec (.vetoSlot false false) (passedAt catching f) with
          | .next t => decide (t.nct.node = .member ∧ t.rpe.wanted = [] ∧
              t.ntq.notices = [Notice.catchupDone 0])
          | _ => false) = true) := by
  refine ⟨⟨?_, ?_, by decide, by decide, by decide, entriesGood_of rfl, rfl, rfl⟩, ?_, ?_, by decide, by decide,
    by decide, entriesGood_of rfl, ⟨rfl, rfl⟩, by decide +kernel⟩
  all_goals repeat' (first | decide +kernel | rfl | refine ⟨?_, ?_⟩)

/-- A POST that fills the window of an ASK cycle, with a next cycle and with none; and a SYNC that another station
answered for all of the answer set, and for a part of it. -/
theorem witness_AppliedPostAndSyncWriteTheirSlots_cycle :
    (let e : DirEntry := { slotEntry .unlearned .unknown with wanted := true };
      let c : AskCycle :=
        { first := 3, last := 18, try_ := 1, phase := .queued, sent := none, deadline := none, asked := [] };
      let f : Frame := { sender := 5, payload := .post [{ slot := 3, version := 1, words := [9] }] };
      let s : List Nat → State := fun l => passedAt (lone .ask (.askTry 1) { grouped with
        dir := l.map fun n => (n, e), rpe := { Rpe.empty with wanted := l, cycle := some c } }) f;
      let t : List Nat → State := fun l => after (.vetoSlot true false) (s l);
      ((s [3, 60]).canonical ∧ (s [3, 60]).passedFrame f ∧ (s [3, 60]).cycleEnds [60] = true ∧
        (s [3, 60]).cycleBegins [60] = some 60 ∧
        (t [3, 60]).rpe.cycle = some { c with first := 60, last := 63 } ∧ (t [3, 60]).obs.holds .ask = true) ∧
      ((s [3]).cycleEnds [] = true ∧ (t [3]).rpe.cycle = none ∧ (t [3]).obs.queue = [] ∧
        (t [3]).nct.node = .member) ∧
      ((s [3, 18]).cycleEnds [18] = false ∧ (t [3, 18]).rpe.cycle = some c ∧
        (t [3, 18]).obs.queue = [queued .ask (.askTry 1)])) ∧
    (let r : Record := { slot := 3, stateCode := 2, owner := 2, version := 7, words := [] };
      let f : Frame := { sender := 5, payload := .sync [r] };
      let s : List Nat → State := fun l => passedAt (lone .sync .none { owning with
        rpe := { Rpe.empty with answers := l } }) f;
      (s [3]).canonical ∧ (s [3]).passedFrame f ∧ r.version = ((s [3]).entry r.slot.toNat).version ∧
        (after (.vetoSlot true false) (s [3])).rpe.answers = [] ∧
        (after (.vetoSlot true false) (s [3])).obs.queue = [] ∧
        (after (.vetoSlot true false) (s [3, 4])).rpe.answers = [4] ∧
        (after (.vetoSlot true false) (s [3, 4])).obs.holds .sync = true) := by
  refine ⟨⟨⟨?_, ?_, ?_⟩, ?_, ?_⟩, ?_, ?_, ?_⟩
  all_goals repeat' (first | decide +kernel | rfl | refine ⟨?_, ?_⟩)

/-- A POST that writes one of the slots of a give-up that fell due during its check. -/
theorem witness_AppliedPostAndSyncWriteTheirSlots_giveUp :
    let e : DirEntry := { slotEntry .unlearned .unknown with wanted := true };
    let items : List Item := [{ slot := 3, version := 1, words := [9] }];
    let f : Frame := { sender := 5, payload := .post items };
    let s := dueFor [3, 4] false (passedAt { grouped with
      dir := [(3, e), (4, e)], rpe := { Rpe.empty with wanted := [3, 4] } } f);
    s.canonical ∧ s.withoutDue.passedFrame f ∧ s.rpe.due = some { slots := [3, 4], takenOver := false } ∧
      f.sender ≠ s.nct.station ∧ (items.map Item.slot).Nodup ∧ (∀ i ∈ items, i.words.length ≤ 16) ∧
      s.entriesGood ∧ s.hasConfig cfg ∧
      (after (.vetoSlot true false) s).rpe = { Rpe.empty with unresolved := 1 } ∧
      (after (.vetoSlot true false) s).ntq.notices = [.slotUnresolved 4] := by
  refine ⟨?_, ?_, rfl, by decide, by decide, by decide, entriesGood_of rfl, ⟨rfl, rfl⟩, by decide +kernel,
    by decide +kernel⟩
  all_goals repeat' (first | decide +kernel | rfl | refine ⟨?_, ?_⟩)

/-- A BEAT that leaves the receiver out, one that names a MEMBER, and one that names a CATCHUP node. -/
theorem witness_AppliedBeatIsolatesOrAdds :
    let f : Frame := { sender := 5, payload := .beat 0x0060 params };
    let g : Frame := { sender := 5, payload := .beat 0x8064 params };
    ((passed f).canonical ∧ (passed f).levelGood ∧ (passed f).passedFrame f ∧ (passed g).passedFrame g ∧
      (0x0060 : StationMask).getLsbD (passed f).nct.station.toNat = false ∧
      (0x8064 : StationMask).getLsbD (passed g).nct.station.toNat = true ∧ (passed g).nct.node ≠ .catchup) ∧
    ((passedAt catching g).canonical ∧ (passedAt catching g).passedFrame g ∧
      (0x8064 : StationMask).getLsbD (passedAt catching g).nct.station.toNat = true ∧
      (passedAt catching g).nct.node = .catchup ∧ (passedAt catching g).membersGood ∧
      (passedAt catching g).hasConfig cfg) := by
  refine ⟨?_, ?_, ?_, by decide, rfl, grouped_membersGood, rfl, rfl⟩
  all_goals repeat' (first | exact levelGood_of rfl | decide +kernel | rfl | refine ⟨?_, ?_⟩)

theorem witness_AppliedMembershipFramesMoveStations :
    let hello : Frame := { sender := 9, payload := .hello params };
    let leave : Frame := { sender := 5, payload := .leave };
    let drop : StationMask → Frame := fun m => { sender := 5, payload := .drop m };
    grouped.canonical ∧ grouped.membersGood ∧ grouped.entriesGood ∧ grouped.hasConfig cfg ∧
      (passed hello).passedFrame hello ∧
      ((passed leave).passedFrame leave ∧ ((passed leave).mbu.entry (5 : Station).toNat).state ≠ .absent) ∧
      ((passed (drop 0x0040)).passedFrame (drop 0x0040) ∧
        (0x0040 : StationMask).getLsbD grouped.nct.station.toNat = false) ∧
      ((passed (drop 0x0044)).passedFrame (drop 0x0044) ∧
        (0x0044 : StationMask).getLsbD grouped.nct.station.toNat = true) := by
  refine ⟨?_, grouped_membersGood, grouped_entriesGood, ⟨rfl, rfl⟩, ?_⟩
  all_goals repeat' (first | decide +kernel | rfl | refine ⟨?_, ?_⟩)

/-- An ASK in mode ANY for slots 3 to 18, one for which this node is designated, and one that nothing answers. -/
theorem witness_AppliedAskJoinsTheAnswerSet :
    let f : BitVec 3 → Frame := fun m => { sender := 5, payload := .ask 3 m 16 };
    let n : NodeState → State := fun n => { owning with nct := { owning.nct with node := n } };
    ((passedAt owning (f 1)).passedFrame (f 1) ∧ (passedAt owning (f 1)).entriesGood ∧
      (passedAt owning (f 1)).membersGood ∧ (passedAt owning (f 1)).nct.node ≠ .leaving) ∧
    ((3 : Byte).toNat ≤ 3 ∧ 3 < (3 : Byte).toNat + (16 : BitVec 5).toNat ∧ (owning.entry 3).state ≠ .unlearned ∧
      (owning.entry 3).health = .good ∧ (passedAt owning (f 0)).passedFrame (f 0) ∧ owning.isDesignated 5 3) ∧
    ((passedAt grouped (f 1)).passedFrame (f 1) ∧ (grouped.entry 3).state = .unlearned) ∧
    ((passedAt (n .leaving) (f 1)).passedFrame (f 1) ∧ (passedAt (n .leaving) (f 1)).nct.node = .leaving) := by
  refine ⟨⟨?_, entriesGood_of rfl, grouped_membersGood, by decide⟩, ⟨by decide, by decide, by decide, rfl, ?_, ?_⟩,
    ?_, ?_⟩
  rotate_left
  rotate_left
  · exact rfl
  all_goals repeat' (first | decide +kernel | rfl | refine ⟨?_, ?_⟩)

theorem witness_JoiningNodeTakesUnpulledFrames :
    let s : Frame → State := fun f => { node .announcing with
      pbi := { (node .announcing).pbi with shift := .paused },
      fck := { inbound := some { frame := f, verdict := none }, purpose := none } };
    let f : Frame := { sender := 5, payload := .beat 0x0064 params };
    let g : Frame := { sender := 5, payload := .beat 0x0064 { params with beat := 101 } };
    ((s f).running ∧ (s f).nct.node.joining = true ∧ (s f).pbi.shift = .paused ∧ (s f).pbi.holdPck = false ∧
      (s f).pbi.pullVeto = false ∧ (s f).fck.inbound = some { frame := f, verdict := none } ∧ (s f).hasConfig cfg) ∧
    (f.paramsHold cfg (s f).nct.rate ∧ ¬g.paramsHold cfg (s g).nct.rate ∧
      (s g).fck.inbound = some { frame := g, verdict := none }) := by
  refine ⟨?_, rfl, fun h => ?_, rfl⟩
  rotate_left
  · have h' : (101 : BitVec 16) = BitVec.ofNat 16 cfg.beat := congrArg WireParams.beat h
    exact absurd h' (by decide)
  repeat' (first | decide +kernel | rfl | refine ⟨?_, ?_⟩)

/-! ### Witnesses: frames of this node -/

/-- A seventh failure, a BEAT's, an operation's in LEAVING, and an operation's eighth, pulled and unheard. -/
theorem witness_FailedOwnFrameCountsAnAttempt :
    let f : Frame := { sender := 2, payload := .claim 3 8 };
    let b : Frame := { sender := 2, payload := .beat 0x0064 params };
    let s : Nat → State := fun n => { ownFrame .claim f claiming with obs := {
      queue := [{ queued .claim .operation with attempts := n }], build := none } };
    let leaving := { s 0 with nct := { (s 0).nct with node := .leaving } };
    ((s 6).ownPaused f ∧ (s 6).levelGood ∧
      (s 6).obs.find f.kind = some { queued .claim .operation with attempts := 6 } ∧ 6 + 1 < 8 ∧
      ¬(f.kind = .beat ∨ ((s 6).nct.node = .leaving ∧ f.kind.isOperation = true))) ∧
    ((s 6).ownFails f true true ∧ (s 6).ownFails f false true ∧ (s 6).ownFails f false false) ∧
    ((s 7).ownPaused f ∧ (s 7).obs.find f.kind = some { queued .claim .operation with attempts := 7 } ∧ 8 ≤ 7 + 1 ∧
      f.kind.isOperation = true ∧ (s 7).opu.op = some { kind := .claim 3, onBus := false }) ∧
    (leaving.ownPaused f ∧ leaving.nct.node = .leaving ∧
      leaving.obs.find f.kind = some (queued .claim .operation)) ∧
    ((ownFrame .beat b grouped).ownPaused b ∧ b.kind = .beat ∧
      (ownFrame .beat b grouped).obs.find .beat = some (queued .beat .operation)) := by
  refine ⟨?_, ⟨Or.inl rfl, Or.inl rfl, Or.inr ⟨rfl, grouped_membersGood, 5, by decide +kernel, by decide⟩⟩, ?_⟩
  all_goals repeat' (first | exact levelGood_of rfl | decide +kernel | rfl | refine ⟨?_, ?_⟩)

/-- The eighth failure of a HELLO, a DROP and a SYNC, pulled; unheard where a provisional member, or a member that the
DROP leaves, is there. -/
theorem witness_FailedOwnFrameCountsAnAttempt_eighth :
    let hello : Frame := { sender := 2, payload := .hello params };
    let drop : Frame := { sender := 2, payload := .drop 0x0040 };
    let sync : Frame := { sender := 2, payload := .sync [
      { slot := 3, stateCode := 2, owner := 2, version := 7, words := [] }] };
    let e : FrameKind → OutEntry := fun k => { queued k .none with attempts := 7 };
    let eighth : Frame → State → State := fun f s => { ownFrame f.kind f s with obs := {
      queue := [e f.kind], build := none } };
    let h := eighth hello { node .announcing with mbu := { (node .announcing).mbu with provisional := 0x8000 } };
    let d := eighth drop suspecting;
    let y := eighth sync { owning with rpe := { Rpe.empty with answers := [3] } };
    (h.ownPaused hello ∧ h.levelGood ∧ h.obs.find .hello = some (e .hello) ∧ 8 ≤ (e .hello).attempts + 1 ∧
      h.ownFails hello true true ∧ h.ownFails hello false false) ∧
    (d.ownPaused drop ∧ d.levelGood ∧ d.obs.find .drop = some (e .drop) ∧ d.hasConfig cfg ∧
      d.ownFails drop true true ∧ d.ownFails drop false false) ∧
    (y.ownPaused sync ∧ y.levelGood ∧ y.obs.find .sync = some (e .sync) ∧ y.ownFails sync true true) := by
  refine ⟨⟨?_, levelGood_of rfl, rfl, by decide, Or.inl rfl, Or.inr ⟨rfl, 15, by decide, by decide⟩⟩,
    ⟨?_, levelGood_of rfl, rfl, ⟨rfl, rfl⟩, Or.inl rfl,
      Or.inr ⟨rfl, suspecting_membersGood, 5, by decide +kernel, by decide, by decide⟩⟩,
    ?_, levelGood_of rfl, rfl, Or.inl rfl⟩
  all_goals repeat' (first | decide +kernel | rfl | refine ⟨?_, ?_⟩)

/-- The eighth failure of an ASK without a cycle, at try 2, and at try 3 with its give-up, whose CATCHUP_DONE carries
the count. -/
theorem witness_FailedOwnFrameCountsAnAttempt_ask :
    let ask : Frame := { sender := 2, payload := .ask 3 0 1 };
    let c : Nat → AskCycle := fun k => {
      first := 3, last := 18, try_ := k, phase := .queued, sent := some (3, 1), deadline := none, asked := [] };
    let e : OutEntry := { queued .ask (.askTry 1) with attempts := 7 };
    let s : Option AskCycle → State := fun c => { ownFrame .ask ask { catching with
      rpe := { catching.rpe with cycle := c } } with obs := { queue := [e], build := none } };
    ((s none).ownPaused ask ∧ (s none).levelGood ∧ (s none).obs.find .ask = some e ∧ 8 ≤ e.attempts + 1 ∧
      (s none).ownFails ask true true ∧ (s none).rpe.cycle = none) ∧
    ((s (some (c 2))).ownPaused ask ∧ (s (some (c 2))).rpe.cycle = some (c 2) ∧ (c 2).try_ < 3) ∧
    ((s (some (c 3))).ownPaused ask ∧ (s (some (c 3))).rpe.cycle = some (c 3) ∧ 3 ≤ (c 3).try_ ∧
      (s (some (c 3))).canonical ∧ (s (some (c 3))).entriesGood ∧ (s (some (c 3))).hasConfig cfg ∧
      ([3] : List Nat).Nodup ∧ ((s (some (c 3))).entry 3).unresolved = false ∧
      (after (.vetoSlot true true) (s (some (c 3)))).ntq.notices = [.slotUnresolved 3, .catchupDone 1] ∧
      (after (.vetoSlot true true) (s (some (c 3)))).nct.node = .member) := by
  refine ⟨⟨?_, levelGood_of rfl, rfl, by decide, Or.inl rfl, rfl⟩, ⟨?_, rfl, by decide⟩,
    ?_, rfl, by decide, ?_, entriesGood_of rfl, ⟨rfl, rfl⟩, by decide, by decide +kernel, by decide +kernel,
    by decide +kernel⟩
  all_goals repeat' (first | decide +kernel | rfl | refine ⟨?_, ?_⟩)

/-- Heard, and with no other member. -/
theorem witness_AcceptedOwnOperationsAndDropTakeEffect :
    let claim : Frame := { sender := 2, payload := .claim 3 8 };
    let yields : Frame := { sender := 2, payload := .yield 3 8 };
    let post : Frame := { sender := 2, payload := .post [{ slot := 3, version := 8, words := [9] }] };
    let drop : Frame := { sender := 2, payload := .drop 0x0040 };
    let y := { owning with opu := { op := some { kind := .yield 3, onBus := true }, drafts := [] } };
    let alone := { claiming with mbu := { claiming.mbu with table := [(2, .own)] } };
    ((ownFrame .claim claim claiming).canonical ∧ (ownFrame .claim claim claiming).ownPaused claim ∧
      claim.sender = claiming.nct.station ∧ (ownFrame .claim claim claiming).obs.holds claim.kind = true ∧
      (ownFrame .claim claim claiming).ownAccepts claim true ∧ (ownFrame .claim claim claiming).entriesGood ∧
      (ownFrame .claim claim claiming).hasConfig cfg ∧
      (ownFrame .claim claim claiming).opu.op = some { kind := .claim 3, onBus := false }) ∧
    (ownFrame .claim claim alone).ownAccepts claim false ∧
    ((ownFrame .yield yields y).ownPaused yields ∧ (ownFrame .yield yields y).obs.holds yields.kind = true ∧
      (ownFrame .yield yields y).opu.op = some { kind := .yield 3, onBus := true }) ∧
    ((ownFrame .post post publishing).ownPaused post ∧ (ownFrame .post post publishing).obs.holds post.kind = true ∧
      (ownFrame .post post publishing).opu.op = some { kind := .publish, onBus := false }) ∧
    ((ownFrame .drop drop suspecting).ownPaused drop ∧ (ownFrame .drop drop suspecting).obs.holds drop.kind = true ∧
      (ownFrame .drop drop suspecting).membersGood ∧
      ∀ n ∈ (ownFrame .drop drop suspecting).suspects, (0x0040 : StationMask).getLsbD n = true ∧
        n ≠ suspecting.nct.station.toNat) := by
  refine ⟨⟨?_, ?_, rfl, by decide, Or.inl rfl, entriesGood_of rfl, ⟨rfl, rfl⟩, rfl⟩, Or.inr ⟨?_, ?_⟩, ?_, ?_, ?_, ?_,
    suspecting_membersGood, by decide +kernel⟩
  rotate_left
  rotate_left
  · unfold State.membersGood
    decide +kernel
  · intro n hn
    have h : n ∈ ({ claiming with mbu := { claiming.mbu with table := [(2, .own)] } } : State).memberSet := hn
    have k : ({ claiming with mbu := { claiming.mbu with table := [(2, .own)] } } : State).memberSet = [2] := by
      decide +kernel
    rw [k] at h
    exact Or.inl (List.mem_singleton.1 h)
  all_goals repeat' (first | decide +kernel | rfl | refine ⟨?_, ?_⟩)

/-- A DROP of station 6 while another station stays SUSPECT: before the grace of its suspicion has passed, at its end
with quorum, and at its end without. -/
theorem witness_AcceptedOwnOperationsAndDropTakeEffect_suspects :
    let drop : Frame := { sender := 2, payload := .drop 0x0040 };
    let s : List (Nat × MemberEntry) → State := fun l => ownFrame .drop drop (withTable l);
    let early := s [(2, .own), (5, doubted 4901), (6, doubted 4800)];
    let late := s [(2, .own), (5, doubted 4900), (6, doubted 4800)];
    let few := s [(1, doubted 4900), (2, .own), (6, doubted 4800)];
    let left : State → List Nat := fun s => s.suspects.filter fun n => !([6] : List Nat).contains n;
    (early.canonical ∧ early.ownPaused drop ∧ early.obs.holds drop.kind = true ∧ early.membersGood ∧
      early.firstSuspicion (left early) 4901 ∧ (after (.vetoSlot true false) early).mbu.decision = some 5001) ∧
    (late.ownPaused drop ∧ late.membersGood ∧ late.firstSuspicion (left late) 4900 ∧
      (after (.vetoSlot true false) late).mbu.decision = none ∧
      (after (.vetoSlot true false) late).obs.queue = [queued .drop (.dropMask 0x20)]) ∧
    (few.ownPaused drop ∧ few.membersGood ∧ few.firstSuspicion (left few) 4900 ∧
      Machine.passed few.nct.now (4900 + BitVec.ofNat 32 cfg.beat) ∧ few.nct.node.participating = true ∧
      (after (.vetoSlot true false) few).nct.isolationCause = some .noQuorum ∧
      (after (.vetoSlot true false) few).mbu.table = [(1, doubted 4900), (2, .own)]) := by
  refine ⟨⟨?_, ?_, rfl, ?_, firstSuspicion_of (n := 5) (by decide +kernel) (by decide +kernel), by decide +kernel⟩,
    ⟨?_, ?_, firstSuspicion_of (n := 5) (by decide +kernel) (by decide +kernel), by decide +kernel,
      by decide +kernel⟩,
    ?_, ?_, firstSuspicion_of (n := 1) (by decide +kernel) (by decide +kernel),
    by unfold Machine.passed; decide +kernel, rfl, by decide +kernel, by decide +kernel⟩
  all_goals first
    | (unfold State.membersGood; decide +kernel)
    | repeat' (first | decide +kernel | rfl | refine ⟨?_, ?_⟩)

/-- A POST that fills the window of the node's cycle while a slot of a later window is wanted. -/
theorem witness_AcceptedOwnOperationsAndDropTakeEffect_cycle :
    let c : AskCycle :=
      { first := 3, last := 18, try_ := 1, phase := .queued, sent := none, deadline := none, asked := [] };
    let post : Frame := { sender := 2, payload := .post [{ slot := 3, version := 8, words := [9] }] };
    let e : DirEntry := { slotEntry (.owned 2) .good with wanted := true };
    let p := ownFrame .post post { publishing with
      dir := [(3, e), (60, e)], rpe := { Rpe.empty with wanted := [3, 60], cycle := some c } };
    p.canonical ∧ p.ownPaused post ∧ p.entriesGood ∧ p.cycleEnds [60] = true ∧
      (after (.vetoSlot true false) p).rpe.cycle = some { c with first := 60, last := 63 } ∧
      (after (.vetoSlot true false) p).obs.queue = [queued .ask (.askTry 1)] := by
  refine ⟨?_, ?_, entriesGood_of rfl, by decide +kernel, by decide +kernel, by decide +kernel⟩
  all_goals repeat' (first | decide +kernel | rfl | refine ⟨?_, ?_⟩)

theorem witness_AcceptedOwnRepairFramesAndBeatTakeEffect :
    let records : List Record := [{ slot := 3, stateCode := 2, owner := 2, version := 7, words := [] }];
    let sync : Frame := { sender := 2, payload := .sync records };
    let ask : Frame := { sender := 2, payload := .ask 0 0 16 };
    let beat : Frame := { sender := 2, payload := .beat 0x0064 params };
    let c : AskCycle := {
      first := 0, last := 15, try_ := 1, phase := .queued, sent := some (0, 16), deadline := none, asked := [] };
    let a := ownFrame .sync sync { owning with rpe := { Rpe.empty with answers := [3, 4] } };
    let b := ownFrame .ask ask { grouped with rpe := { Rpe.empty with cycle := some c } };
    let d := ownFrame .beat beat grouped;
    (a.canonical ∧ a.ownPaused sync ∧ sync.sender = a.nct.station ∧ a.obs.holds sync.kind = true ∧
      a.ownAccepts sync true ∧ a.entriesGood ∧ a.hasConfig cfg ∧ (records.map Record.slot).Nodup ∧
      ∀ r ∈ records, r.words.length ≤ 16) ∧
    (b.canonical ∧ b.ownPaused ask ∧ b.obs.holds ask.kind = true ∧ b.ownAccepts ask true ∧ b.entriesGood ∧
      b.hasConfig cfg ∧ b.rpe.cycle = some c) ∧
    (d.ownPaused beat ∧ d.obs.holds beat.kind = true ∧ d.ownAccepts beat true) := by
  refine ⟨⟨?_, ?_, rfl, by decide, Or.inl rfl, entriesGood_of rfl, ⟨rfl, rfl⟩, by decide, by decide⟩,
    ⟨?_, ?_, by decide, Or.inl rfl, entriesGood_of rfl, ⟨rfl, rfl⟩, rfl⟩, ?_, by decide, Or.inl rfl⟩
  all_goals repeat' (first | decide +kernel | rfl | refine ⟨?_, ?_⟩)

/-- A give-up that the sender's access took over, and one that fell due in it, at the end of an own BEAT. -/
theorem witness_AcceptedOwnRepairFramesAndBeatTakeEffect_giveUp :
    let f : Frame := { sender := 2, payload := .beat 0x0064 params };
    let s : Bool → State := fun b => dueFor [3] b (ownFrame .beat f catching);
    ((s true).canonical ∧ (s true).withoutDue.ownPaused f ∧ (s true).rpe.due = some { slots := [3], takenOver := true } ∧
      (s true).ownAccepts f true ∧ (s true).entriesGood ∧ (s true).hasConfig cfg ∧
      (after (.vetoSlot true false) (s true)).nct.node = .member) ∧
    ((s false).withoutDue.ownPaused f ∧ (s false).rpe.due = some { slots := [3], takenOver := false } ∧
      (after (.vetoSlot true false) (s false)).nct.node = .member) := by
  refine ⟨⟨?_, ?_, rfl, Or.inl rfl, entriesGood_of rfl, ⟨rfl, rfl⟩, ?_⟩, ?_⟩
  all_goals repeat' (first | decide +kernel | rfl | refine ⟨?_, ?_⟩)

/-- A SYNC of a part of the answer set, and of all of it. -/
theorem witness_AcceptedOwnRepairFramesAndBeatTakeEffect_answers :
    let sync : Frame := { sender := 2, payload := .sync [
      { slot := 3, stateCode := 2, owner := 2, version := 7, words := [] }] };
    let s : List Nat → State := fun l =>
      ownFrame .sync sync { owning with rpe := { Rpe.empty with answers := l } };
    ((s [3, 4]).ownPaused sync ∧ (after (.vetoSlot true false) (s [3, 4])).rpe.answers = [4] ∧
      (after (.vetoSlot true false) (s [3, 4])).obs.queue = [queued .sync .none]) ∧
    ((s [3]).ownPaused sync ∧ (after (.vetoSlot true false) (s [3])).rpe.answers = [] ∧
      (after (.vetoSlot true false) (s [3])).obs.queue = []) := by
  repeat' (first | decide +kernel | rfl | refine ⟨?_, ?_⟩)

/-- Accepted, refused for the eighth time, and unheard for the eighth time. -/
theorem witness_OwnLeaveEndsTheLeave :
    let f : Frame := { sender := 2, payload := .leave };
    let e : OutEntry := { queued .leave .none with attempts := 7 };
    let g := { grouped with nct := { grouped.nct with node := .leaving, phase := .leaving } };
    let s := { ownFrame .leave f g with obs := { queue := [e], build := none } };
    s.canonical ∧ s.levelGood ∧ s.ownPaused { sender := s.nct.station, payload := .leave } ∧
      s.obs.find .leave = some e ∧
      s.ownAccepts f true ∧ 8 ≤ e.attempts + 1 ∧
      (s.membersGood ∧ ∃ n ∈ s.memberSet, n ≠ s.nct.station.toNat) := by
  refine ⟨?_, levelGood_of rfl, ?_, rfl, Or.inl rfl, by decide, grouped_membersGood, 5, by decide +kernel, by decide⟩
  all_goals repeat' (first | decide +kernel | rfl | refine ⟨?_, ?_⟩)

/-- The LEAVE of a power-fail leave: heard, pulled, with nobody else, and unheard. -/
theorem witness_OwnLeaveEndsTheLeave_pfail :
    let f : Frame := { sender := 2, payload := .leave };
    let s : State → State := fun g => { g with
      nct := { g.nct with pfailLatch := true, phase := .pfailLeave, pfailWait := some 7 },
      pbi := { g.pbi with shift := .sendingPaused f }, obs := { queue := [queued .leave .none], build := none } };
    let alone := s (withTable [(2, .own)]);
    ((s grouped).running ∧ (s grouped).nct.phase = .pfailLeave ∧
      (s grouped).pbi.shift = .sendingPaused { sender := (s grouped).nct.station, payload := .leave } ∧
      (s grouped).membersGood ∧ ∃ n ∈ (s grouped).memberSet, n ≠ (s grouped).nct.station.toNat) ∧
    ((after (.vetoSlot true true) (s grouped)).elg.entries.map LogEntry.kind = [.frameRefused] ∧
      (after (.vetoSlot true false) (s grouped)).elg.entries = [] ∧
      (after (.vetoSlot false false) (s grouped)).elg.entries.map LogEntry.kind = [.frameUnheard] ∧
      (after (.vetoSlot false false) (s grouped)).obs.queue = []) ∧
    (alone.running ∧ alone.membersGood ∧ (∀ n ∈ alone.memberSet, n = alone.nct.station.toNat) ∧
      (after (.vetoSlot false false) alone).elg.entries = []) := by
  refine ⟨⟨?_, rfl, rfl, grouped_membersGood, 5, by decide +kernel, by decide⟩, by decide +kernel, ?_, ?_,
    by decide +kernel, by decide +kernel⟩
  all_goals first
    | (unfold State.membersGood; decide +kernel)
    | repeat' (first | decide +kernel | rfl | refine ⟨?_, ?_⟩)

theorem witness_OwnHelloFoundsOrEntersCatchup :
    let f : Frame := { sender := 2, payload := .hello params };
    let s := ownFrame .hello f (node .announcing);
    s.hasConfig cfg ∧ s.nct.pfailLatch = false ∧ s.ownPaused f ∧ s.obs.holds .hello = true ∧
      s.mbu.provisional = 0 ∧ s.rpe.cycle = none ∧ s.obs.holds .ask = false := by
  repeat' (first | decide +kernel | rfl | refine ⟨?_, ?_⟩)

theorem witness_StopConditionCompletesTheFrame :
    let s : Option FrameKind → State := fun own => { grouped with pbi := { grouped.pbi with shift := .slotsDone own } };
    let r := { s (some .leave) with nct := { grouped.nct with phase := .pfailLeave } };
    ((s none).running ∧ (s none).pbi.shift = .slotsDone none) ∧
      ((s (some .beat)).running ∧ (s (some .beat)).pbi.shift = .slotsDone (some .beat) ∧
        (s (some .beat)).nct.phase ≠ .pfailLeave) ∧
      ((s (some .hello)).running ∧ (s (some .hello)).pbi.shift = .slotsDone (some .hello) ∧
        (s (some .hello)).active = true) ∧
      (r.running ∧ r.pbi.shift = .slotsDone (some .leave) ∧ r.nct.phase = .pfailLeave) := by
  repeat' (first | decide +kernel | rfl | refine ⟨?_, ?_⟩)

/-- A receiver in its frame, one in its check pause with its request waiting, and one with its grant. -/
theorem witness_TruncationDiscardsTheFrame :
    let s : Bool → State := fun b => { grouped with
      nct := { grouped.nct with pfailLatch := b }, pbi := { grouped.pbi with shift := .receiving } };
    let paused : Sar → State := fun a => { grouped with
      pbi := { grouped.pbi with shift := .paused, holdPck := true },
      fck := {
        inbound := some { frame := { sender := 5, payload := .leave }, verdict := none }, purpose := some .check },
      sar := a };
    let waiting : Sar := { grant := some .lpt, fckWaits := true, lptWaits := false, scbWaits := false };
    let held : Sar := { Sar.idle with grant := some .fck };
    ((s false).running ∧ (s false).nct.node.taking = true ∧ (s false).pbi.shift = .receiving ∧
      (s false).fck.purpose = none) ∧
    ((s true).running ∧ (s true).nct.node.taking = true ∧ (s true).nct.pfailLatch = true) ∧
    ((paused waiting).running ∧ (paused waiting).pbi.shift = .paused ∧ (paused waiting).fck.purpose = some .check ∧
      (paused waiting).rpe.due = none ∧
      (after (.truncation .idle none) (paused waiting)).sar = { Sar.idle with grant := some .lpt }) ∧
    ((paused held).running ∧ (paused held).rpe.due = none ∧
      (after (.truncation .idle none) (paused held)).sar = Sar.idle ∧
      (after (.truncation .idle none) (paused held)).pbi.holdPck = false) := by
  repeat' (first | decide +kernel | rfl | refine ⟨?_, ?_⟩)

/-- A check that took over a give-up and still waits for the store. -/
theorem witness_TruncationDiscardsTheFrame_giveUp :
    let d : DueGiveUp := { slots := [3], takenOver := true };
    let s := { catching with
      pbi := { catching.pbi with shift := .paused, holdPck := true },
      fck := {
        inbound := some { frame := { sender := 5, payload := .leave }, verdict := none }, purpose := some .check },
      sar := { grant := some .lpt, fckWaits := true, lptWaits := false, scbWaits := false },
      rpe := { catching.rpe with due := some d } };
    s.running ∧ s.pbi.shift = .paused ∧ s.fck.purpose = some .check ∧ s.sar.grant ≠ some .fck ∧ s.rpe.due = some d ∧
      (after (.truncation .stop none) s).fck.purpose = some .giveUp := by
  repeat' (first | decide +kernel | rfl | refine ⟨?_, ?_⟩)

/-- The sender in its frame and in its check pause, in LEAVING, and in a power-fail leave. -/
theorem witness_TruncationDiscardsTheFrame_sender :
    let f : Frame := { sender := 2, payload := .claim 3 8 };
    let g : Frame := { sender := 2, payload := .leave };
    let sending := { claiming with pbi := { claiming.pbi with shift := .sending f } };
    let onBus : Opu := { op := some { kind := .claim 3, onBus := true }, drafts := [] };
    let s := { ownFrame .claim f claiming with opu := onBus };
    let leaving := { s with nct := { s.nct with node := .leaving } };
    let pfail := { ownFrame .leave g grouped with nct := { grouped.nct with phase := .pfailLeave } };
    (sending.running ∧ sending.pbi.shift = .sending f ∧ sending.fck.purpose = none) ∧
    (s.running ∧ s.pbi.shift = .sendingPaused f ∧ s.fck.purpose = some .ownFrame ∧ s.rpe.due = none ∧
      s.nct.phase ≠ .pfailLeave ∧ ¬(s.nct.node = .leaving ∧ f.kind.isOperation = true) ∧ s.obs.holds f.kind = true ∧
      (after (.truncation .start none) s).opu.op = some { kind := .claim 3, onBus := false }) ∧
    (leaving.running ∧ leaving.levelGood ∧ leaving.nct.node = .leaving ∧ f.kind.isOperation = true ∧
      leaving.obs.holds f.kind = true ∧ leaving.opu.op = some { kind := .claim 3, onBus := true }) ∧
    (pfail.running ∧ pfail.pbi.shift = .sendingPaused g ∧ pfail.nct.phase = .pfailLeave ∧
      (after (.truncation .idle none) pfail).nct.node = .halted) := by
  repeat' (first | exact levelGood_of rfl | decide +kernel | rfl | refine ⟨?_, ?_⟩)

theorem witness_StuckLineReportsOnce :
    let s := { grouped with pbi := { grouped.pbi with stuckEpisode := true } };
    (grouped.running ∧ grouped.levelGood ∧ grouped.pbi.stuckEpisode = false) ∧ (s.running ∧ s.pbi.stuckEpisode = true) ∧
      (mismatched.running ∧ mismatched.pbi.stuckEpisode = false ∧
        mismatched.nct.config = some { cfg with parityGood := false } ∧
        (mismatched.ntq.arrive .busStuck).notices ≠ mismatched.ntq.notices) := by
  repeat' (first | exact levelGood_of rfl | decide +kernel | rfl | refine ⟨?_, ?_⟩)

/-! ### Witnesses: the timers and engines -/

theorem witness_DeadlinesPlaceEntriesAndSuspect :
    (let s := after .join (node .idle);
      s.nct.nrstLow = false ∧ s.nct.node = .listening ∧ s.nct.listenDeadline = some 5400 ∧
        s.nct.subBits < 125 * 2 ^ s.nct.rate.toNat ∧ s.obs.queue = []) ∧
    (let s : Bool → State := fun b => { grouped with mbu := { grouped.mbu with
        beatRef := some 4900, beatAsked := b } };
      (s true).nct.nrstLow = false ∧ (s true).active = true ∧ (s true).hasConfig cfg ∧
        (s true).mbu.beatRef = some 4900 ∧ (s true).mbu.beatAsked = true ∧ (s false).mbu.beatAsked = false ∧
        ((s false).nct.now - ((4900 : Time) + BitVec.ofNat 32 cfg.beat)).toNat < 2147483648) ∧
    (grouped.canonical ∧ grouped.nct.nrstLow = false ∧ grouped.active = true ∧ (6 : Station) ≠ grouped.nct.station ∧
      grouped.hasConfig cfg ∧ (grouped.mbu.entry 6).parityGood = true ∧ (grouped.mbu.entry 6).state = .present ∧
      (grouped.mbu.entry 6).deadline = some 5000 ∧ (grouped.nct.now - 5000).toNat < 2147483648) := by
  repeat' (first | decide +kernel | rfl | refine ⟨?_, ?_⟩)

/-- More than half live, exactly half with the lowest station, exactly half without it, and less than half. -/
theorem witness_DecisionDropsOrIsolates :
    let gone : MemberEntry := { state := .suspect, deadline := some 0, suspectSince := some 0, parityGood := true };
    let s : List (Nat × MemberEntry) → State := fun l => { suspecting with
      mbu := { suspecting.mbu with table := l } };
    (suspecting.canonical ∧ suspecting.running ∧ suspecting.active = true ∧ suspecting.membersGood ∧
      suspecting.mbu.decision = some 5000 ∧ (suspecting.nct.now - 5000).toNat < 2147483648 ∧
      suspecting.memberSet.length < 2 * suspecting.liveSet.length ∧ suspecting.obs.holds .drop = false) ∧
    ((s [(2, .own), (5, gone)]).canonical ∧ (s [(2, .own), (5, gone)]).membersGood ∧
      2 * (s [(2, .own), (5, gone)]).liveSet.length = (s [(2, .own), (5, gone)]).memberSet.length ∧
      ∃ n, (s [(2, .own), (5, gone)]).memberSet.head? = some n ∧ n ∈ (s [(2, .own), (5, gone)]).liveSet) ∧
    ((s [(1, gone), (2, .own)]).canonical ∧ (s [(1, gone), (2, .own)]).levelGood ∧
      (s [(1, gone), (2, .own)]).membersGood ∧
      (s [(1, gone), (2, .own)]).quorum = false ∧
      2 * (s [(1, gone), (2, .own)]).liveSet.length = (s [(1, gone), (2, .own)]).memberSet.length ∧
      (s [(1, gone), (2, .own)]).memberSet.head? = some 1 ∧ 1 ∉ (s [(1, gone), (2, .own)]).liveSet) ∧
    (¬(s [(2, .own), (5, gone), (6, gone)]).memberSet.length <
        2 * (s [(2, .own), (5, gone), (6, gone)]).liveSet.length ∧
      2 * (s [(2, .own), (5, gone), (6, gone)]).liveSet.length ≠
        (s [(2, .own), (5, gone), (6, gone)]).memberSet.length) := by
  refine ⟨⟨?_, ?_, rfl, suspecting_membersGood, rfl, by decide, by decide +kernel, rfl⟩,
    ⟨?_, ?_, by decide +kernel, 2, by decide +kernel, by decide +kernel⟩,
    ⟨?_, levelGood_of rfl, ?_, by decide +kernel⟩,
    by decide +kernel⟩
  · repeat' (first | decide +kernel | rfl | refine ⟨?_, ?_⟩)
  · repeat' (first | decide +kernel | rfl | refine ⟨?_, ?_⟩)
  · repeat' (first | decide +kernel | rfl | refine ⟨?_, ?_⟩)
  · unfold State.membersGood
    decide +kernel
  · repeat' (first | decide +kernel | rfl | refine ⟨?_, ?_⟩)
  · unfold State.membersGood
    decide +kernel

theorem witness_AnswerWaitQueuesTheNextTry :
    let c : Nat → AskCycle := fun k => {
      first := 0, last := 15, try_ := k, phase := .waiting, sent := some (0, 16), deadline := some 5000, asked := [0] };
    let s : Nat → State := fun k => { grouped with rpe := { Rpe.empty with wanted := [0], cycle := some (c k) } };
    (s 2).nct.nrstLow = false ∧ (s 2).active = true ∧ (s 2).rpe.cycle = some (c 2) ∧ (c 2).phase = .waiting ∧
      (c 2).deadline = some 5000 ∧ (s 2).rpe.due = none ∧ ((s 2).nct.now - 5000).toNat < 2147483648 ∧ (c 2).try_ < 3 ∧
      (s 2).obs.holds .ask = false ∧ (s 3).rpe.cycle = some (c 3) ∧ 3 ≤ (c 3).try_ ∧ (s 3).fck.purpose = none ∧
      (let checking := { s 3 with fck := { inbound := none, purpose := some .check } };
        checking.rpe.cycle = some (c 3) ∧ checking.rpe.due = none ∧ checking.fck.purpose ≠ none ∧
          (after .answerWaitExpiry checking).rpe.due = some { slots := [0], takenOver := false }) := by
  decide +kernel

/-- A give-up that ends a catch-up. -/
theorem witness_GiveUpMarksUnresolved :
    let d : DueGiveUp := { slots := [3, 4], takenOver := false };
    let s := { catching with
      rpe := { catching.rpe with due := some d }, fck := { inbound := none, purpose := some .giveUp },
      sar := { Sar.idle with grant := some .fck } };
    s.canonical ∧ s.running ∧ s.fck.purpose = some .giveUp ∧ s.sar.grant = some .fck ∧ s.rpe.due = some d ∧
      s.entriesGood ∧ s.hasConfig cfg ∧ (after .giveUp s).nct.node = .member ∧
      (after .giveUp s).ntq.notices = [.slotUnresolved 3, .catchupDone 1] := by
  exact ⟨⟨by decide +kernel, by decide +kernel, by decide +kernel⟩, ⟨rfl, by decide⟩, rfl, rfl, rfl,
    entriesGood_of rfl, ⟨rfl, rfl⟩, by decide +kernel, by decide +kernel⟩

/-- A give-up in MEMBER, after which the next cycle begins at the slot that is still wanted. -/
theorem witness_GiveUpMarksUnresolved_next :
    let d : DueGiveUp := { slots := [3], takenOver := false };
    let e : DirEntry := { slotEntry .unlearned .unknown with wanted := true };
    let s := { grouped with
      dir := [(3, e), (60, e)], rpe := { Rpe.empty with wanted := [3, 60], due := some d },
      fck := { inbound := none, purpose := some .giveUp }, sar := { Sar.idle with grant := some .fck } };
    s.running ∧ s.rpe.due = some d ∧ [3].Nodup ∧ (s.entry 3).unresolved = false ∧
      (after .giveUp s).rpe.unresolved = 1 ∧
      (after .giveUp s).rpe.cycle.map (fun c => (c.first, c.last, c.try_)) = some (60, 63, 1) ∧
      (after .giveUp s).obs.holds .ask = true := by
  repeat' (first | decide +kernel | rfl | refine ⟨?_, ?_⟩)

theorem witness_ScrubTurnsAndStepsWalkTheSlots :
    (let s := { grouped with scb := { pointer := 63, timer := some 10, turn := none } };
      s.nct.nrstLow = false ∧ s.hasConfig cfg ∧ s.walks = true ∧ s.scb.timer = some 10 ∧ cfg.scrub ≤ 10) ∧
    (let s : Nat → State := fun k => { grouped with
        dir := [(63, { slotEntry .free .good with length := 16 })],
        scb := { pointer := k, timer := none, turn := some 62 }, sar := { Sar.idle with grant := some .scb } };
      (s 0).running ∧ (s 0).hasConfig cfg ∧ (s 0).sar.grant = some .scb ∧ (s 0).scb.turn = some 62 ∧
        ((s 0).entry 0).parityGood = true ∧ ((s 0).entry 0).health ≠ .good ∧ 62 + 1 < cfg.activeSlots ∧
        cfg.activeSlots ≤ 63 + 1 ∧ ((s 63).entry 63).health = .good ∧ (s 63).dst.rowInUse 63 = some 63 ∧
        ∀ p, p < ((s 63).entry 63).length → ((s 63).dst.cell 63 p).flips = 0) := by
  repeat' (first | decide +kernel | rfl | refine ⟨?_, ?_⟩)

/-- Code words with no, one, two, three and all of their bits disturbed. -/
theorem witness_DisturbedWordsAreCorrectedStruckOrRetired_decode :
    let x : BitVec 22 → Cell := fun flips => { word := 0, flips := flips };
    (flippedBits (x 0).flips = [] ∧ flippedBits (x 0x200000).flips = [21]) ∧
      ((flippedBits (x 0x200001).flips).length = 2 ∧ (flippedBits (x 7).flips).length = 3 ∧
        3 ≤ (flippedBits (x 0x3FFFFF).flips).length) := by
  decide +kernel

/-- Corrected words at both ends of the row and uncorrectable ones between them: in a row at strike 0, in a struck row
with a spare and without one, in CATCHUP where nothing else is wanted, and while a give-up is due. -/
theorem witness_DisturbedWordsAreCorrectedStruckOrRetired :
    let s : List (Nat × BitVec 22) → List Nat → List Nat → NodeState → State := fun l struck spares n =>
      disturbed l { grouped with
        nct := { grouped.nct with node := n },
        dst := { grouped.dst with struck := struck, spares := spares },
        scb := { pointer := 63, timer := none, turn := some 0 }, sar := { Sar.idle with grant := some .scb } };
    let ones : List (Nat × BitVec 22) := [(0, 1), (15, 0x200000)];
    let twos : List (Nat × BitVec 22) := [(0, 1), (5, 3), (9, 3), (15, 0x200000)];
    let m := s twos [] [256] .member;
    let failed := s twos [63] [] .catchup;
    (m.canonical ∧ m.running ∧ m.hasConfig cfg ∧ m.sar.grant = some .scb ∧
      (m.entry m.scb.pointer).parityGood = true ∧ (m.entry m.scb.pointer).health = .good ∧
      m.dst.rowInUse m.scb.pointer = some 63 ∧ (m.entry m.scb.pointer).length ≤ 16 ∧ m.scb.turn ≠ none) ∧
    ((s ones [] [256] .member).running ∧
      ∀ p, p < ((s ones [] [256] .member).entry 63).length →
        ((s ones [] [256] .member).dst.cell 63 p).decode ≠ .uncorrectable) ∧
    (m.lowestBad m.scb.pointer 63 5 ∧ m.dst.struck.contains 63 = false ∧
      (after .scrubStep m).obs.queue = [queued .ask (.askTry 1)] ∧ (after .scrubStep m).ntq = m.ntq) ∧
    ((s twos [63] [256] .member).lowestBad 63 63 5 ∧ (s twos [63] [256] .member).dst.struck.contains 63 = true ∧
      (s twos [63] [256] .member).dst.spares = 256 :: []) ∧
    (failed.lowestBad 63 63 5 ∧ failed.dst.spares = [] ∧ (after .scrubStep failed).nct.node = .member ∧
      (after .scrubStep failed).ntq.notices = [.slotFailed 63, .catchupDone 0]) ∧
    ((dueFor [3] false m).rpe.due ≠ none ∧ (dueFor [3] false m).lowestBad 63 63 5 ∧
      (after .scrubStep (dueFor [3] false m)).obs.queue = []) := by
  repeat' (first | decide +kernel | rfl | refine ⟨?_, ?_⟩)

theorem witness_AgeExpiryRaisesStaleOnce :
    let a : Bool → AgePart := fun b => { period := 10, deadline := 5000, fired := b };
    let s : Bool → State := fun b => { grouped with
      wch := [none, none, none, some { slot := 3, age := some (a b), limit := none }] };
    (s true).levelGood ∧ (s true).nct.nrstLow = false ∧ (s true).active = true ∧
      (s true).wch[3]? = some (some { slot := 3, age := some (a true), limit := none }) ∧ (a true).fired = true ∧
      (a false).fired = false ∧ ((s false).nct.now - (a false).deadline).toNat < 2147483648 := by
  exact ⟨levelGood_of rfl, by decide +kernel⟩

/-! ### Witnesses: the shared operations and the headline results -/

theorem witness_LimitComparisonFollowsTheTable :
    let l : LimitPart := { word := 0, low := 5, high := 9, outside := false };
    let w : Watch := { slot := 3, age := none, limit := some l };
    ([none, some w] : List (Option Watch))[1]? = some (some w) ∧ w.limit = some l ∧ ([] : List Word).length ≤ l.word ∧
      ([9] : List Word)[l.word]? = some 9 ∧ (l.low.toNat ≤ 9 ∧ 9 ≤ l.high.toNat) ∧
      ¬(l.low.toNat ≤ 4 ∧ 4 ≤ l.high.toNat) ∧ ({ w with limit := none } : Watch).limit = none ∧
      ([none, some w] : List (Option Watch))[0]? = some none ∧
      (let a : AgePart := { period := 10, deadline := 4000, fired := true };
        ({ w with age := some a }.change 5000 1 [4]).1.age =
          some { period := 10, deadline := 5010, fired := false }) := by
  decide +kernel

theorem witness_NoticeArrivalCoalescesOrDisplaces :
    (let n : Notice := .recordChanged 3 .posted;
      let o : Notice := .recordChanged 3 .claimed;
      n.coalesces o = true ∧ ∀ m ∈ [Notice.busStuck] ++ [.catchupDone 0], n.coalesces m = false) ∧
    (let low : List Notice := List.replicate 15 .busStuck;
      let l : List Notice := low ++ .catchupDone 1 :: [];
      16 ≤ l.length ∧ (∀ o ∈ l, (Notice.slotFailed 1).coalesces o = false) ∧
        (Notice.catchupDone 1).severity = .low ∧ (Notice.slotFailed 1).severity = .high ∧
        (∀ m ∈ ([] : List Notice), m.severity ≠ .low)) ∧
    (let l : List Notice := [] ++ .busStuck :: List.replicate 15 (.halted .pfail);
      16 ≤ l.length ∧ (∀ m ∈ List.replicate 15 (Notice.halted .pfail), m.severity ≠ .high) ∧
        (∀ m ∈ l, m.severity ≠ .low) ∧ (Notice.isolated .dropped).severity = .critical ∧
        (∀ o ∈ l, (Notice.isolated .dropped).coalesces o = false)) ∧
    (∀ m ∈ List.replicate 16 (Notice.halted .pfail), m.severity = .critical) := by
  decide +kernel

theorem witness_ErrorLogCountsAndKeeps :
    let e : LogEntry := { kind := .frameCrc, time := 0, fields := .none };
    let l : Nat → Nat → Elg := fun k n => { entries := List.replicate k e, counter := n };
    ((l 5 254).counter < 255 ∧ (l 5 254).entries.length < 6) ∧
      ((l 6 254).counter < 255 ∧ 6 ≤ (l 6 254).entries.length) ∧ 255 ≤ (l 6 255).counter := by
  decide +kernel

theorem witness_BuiltFramesAreReceivedIntact :
    let records : List Record := (List.range 4).map fun n =>
      { slot := BitVec.ofNat 8 n, stateCode := 2, owner := 5, version := 1, words := List.replicate 16 0 }
    (Frame.mk 2 (.sync records)).fits ∧ (Frame.mk 2 .leave).fits := by
  repeat' (first | decide +kernel | rfl | refine ⟨?_, ?_⟩)

/-- Bodies of 2, 3, 152 and 153 bytes, extra bits, a wrong CRC, the kind codes 0, 1, 9 and 10, and lists that end
before the length field of an item, at their last byte, and one byte later. -/
theorem witness_BuiltFramesAreReceivedIntact_classes :
    let sealed : List Byte → List Byte := fun l => l ++ Word.bytes (crcOf l);
    let full := (Frame.mk 2 (.sync ((List.range 4).map fun n =>
      { slot := BitVec.ofNat 8 n, stateCode := 2, owner := 5, version := 1, words := List.replicate 16 0 }))).body;
    (full.length = 152 ∧ (full ++ [0]).length = 153 ∧ classify (full ++ [0]) 0 = .formatError 2 ∧
      classify [0x12, 0] 0 = .formatError 2 ∧ classify (sealed [0x12]) 1 = .formatError 2) ∧
    (classify [0x12, 0, 0] 0 = .crcError 2 ∧ Word.bytes (crcOf [0x12]) ≠ [0, 0]) ∧
    ((sealed [0x12]).length = 3 ∧ payloadLength 1 [] = some 0 ∧ classify (sealed [0x12]) 0 = .intact ⟨2, .leave⟩) ∧
    (payloadLength 0 [] = none ∧ classify (sealed [0x02]) 0 = .formatError 2) ∧
    (payloadLength 9 [0, 4, 0, 0, 100] = some 5 ∧ payloadLength 10 [] = none ∧
      classify (sealed [0xA2]) 0 = .formatError 2) ∧
    (payloadLength 1 [0] ≠ some 1 ∧ classify (sealed [0x12, 0]) 0 = .formatError 2) ∧
    (payloadLength 6 [1, 3, 0, 1] = none ∧ payloadLength 6 [1, 3, 0, 1, 1, 0, 9] = some 7 ∧
      payloadLength 6 [1, 3, 0, 1, 1, 0, 9, 0] ≠ some 8 ∧
      classify (sealed [0x62, 1, 3, 0, 1, 1, 0, 9]) 0 =
        .intact ⟨2, .post [{ slot := 3, version := 1, words := [9] }]⟩ ∧
      classify (sealed [0x62, 1, 3, 0, 1, 1, 0, 9, 0]) 0 = .formatError 2) := by
  decide +kernel

theorem witness_ArbiterGrantsByRank :
    let a : Sar := { grant := some .lpt, fckWaits := true, lptWaits := false, scbWaits := true };
    a.grant = some .lpt ∧ Claimant.lpt ≠ Claimant.fck ∧ a.grant ≠ some .scb ∧ (a.letGo .lpt).grant = some .fck ∧
      ((a.letGo .lpt).letGo .fck).grant = some .scb := by
  decide

theorem witness_StepKeepsStorageAndWantedSet :
    claiming.canonical ∧ (grouped.canonical ∧ grouped.follows) ∧
      (match step grouped with | .next _ => true | _ => false) = true := by
  refine ⟨?_, ⟨?_, List.Pairwise.nil, fun n _ => ⟨fun h => (nomatch (show n ∈ ([] : List Nat) from h)), fun h =>
    absurd (show DirEntry.blank.wanted = true from h) (by decide)⟩⟩, by decide +kernel⟩
  all_goals repeat' (first | decide +kernel | rfl | refine ⟨?_, ?_⟩)

theorem witness_StepKeepsTheBounds :
    (claiming.bounded ∧ claiming.queueSingle ∧ claiming.buffersBounded) ∧
      (match step claiming with | .next _ => true | _ => false) = true := by
  refine ⟨⟨⟨by decide, by decide, by decide⟩, ?_, ⟨by decide, by decide⟩⟩, by decide +kernel⟩
  unfold State.queueSingle
  decide

end Sys2Proof.Tests
end

section
/-!
SUPPORT. The membership unit after a hard reset and after a soft reset (R74, R110, R111).
-/

set_option Elab.async false

namespace Sys2Proof.Machine

/-- The values that R74 gives the membership unit at a reset, at a node without configuration that does not take part. -/
def State.membershipEmpty (s : State) : Prop :=
  (∀ n, s.mbu.entry n = MemberEntry.absent) ∧
    s.mbu.decision = none ∧ s.mbu.beatRef = none ∧ s.mbu.provisional = 0 ∧
    s.nct.config = none ∧ s.nct.node.participating = false

/-- Every station that an empty membership table does not list is ABSENT. -/
theorem Mbu.entry_of_table_nil {m : Mbu} (h : m.table = []) (n : Nat) : m.entry n = MemberEntry.absent := by
  unfold Mbu.entry
  rw [h, sparseGet_nil]

/-- Both resets set the membership unit and the node control alike. -/
theorem State.membershipEmpty_atReset (p : ResetPins) (nsel : Nsel) (pending : List Instr) :
    (State.atReset p nsel pending).membershipEmpty :=
  ⟨Mbu.entry_of_table_nil rfl, rfl, rfl, rfl, rfl, rfl⟩

theorem State.membershipEmpty_hardReset (s : State) (p : ResetPins) (nselLow : Bool) :
    (s.hardReset p nselLow).membershipEmpty :=
  State.membershipEmpty_atReset p _ s.pending

/-- What a soft reset keeps lies in the data store and the error log, outside the membership unit. -/
theorem State.membershipEmpty_softReset (s : State) (p : ResetPins) : (s.softReset p).membershipEmpty :=
  State.membershipEmpty_atReset p .high s.pending

/-- RESET is taken in every node state, with the PFAIL latch set and beside a command in hand (R194, R195). -/
theorem State.accepts_reset {s : State} (h : s.portOpen) : s.accepts .reset := by
  have hadmits : s.admits .reset = true := by simp [State.admits, Command.takenIn, Command.always]
  exact ⟨h, hadmits, Or.inr rfl⟩

theorem exec_hardReset (pins : ResetPins) (nselLow : Bool) (s : State) :
    exec (.hardReset pins nselLow) s = .next (s.hardReset pins nselLow) := rfl

/-- Where the port takes commands, RESET carries out the soft reset (R111). -/
theorem exec_reset_of_portOpen {s : State} (h : s.portOpen) (pins : ResetPins) :
    exec (.reset pins) s = .next (s.raised.softReset pins) := by
  show execReset pins s = _
  unfold execReset
  rw [State.command_accepts (State.accepts_reset h)]

/-- Settles O5: each reset answers with a state made by `State.atReset`, but for the store and the log that a soft
reset keeps, and that state's membership unit is empty. -/
theorem resetsEmptyTheMembershipUnit : Obligations.ResetsEmptyTheMembershipUnit := by
  rintro pins nselLow s i (rfl | ⟨rfl, hopen⟩)
  · exact ⟨_, exec_hardReset pins nselLow s, s.membershipEmpty_hardReset pins nselLow⟩
  · exact ⟨_, exec_reset_of_portOpen hopen pins, s.raised.membershipEmpty_softReset pins⟩

end Sys2Proof.Machine
end

section
/-!
SUPPORT. The limit comparison at a data change, row by row of Table 9-2 (R172, R173).
-/

set_option Elab.async false

namespace Sys2Proof.Machine

/-- The band holds its two ends, and the words are compared as unsigned numbers (R173). -/
theorem LimitPart.holds_iff (l : LimitPart) (w : Word) :
    l.holds w = true ↔ l.low.toNat ≤ w.toNat ∧ w.toNat ≤ l.high.toNat := by
  simp [LimitPart.holds, BitVec.le_def]

/-- A limit part that is given the standing it has already is unchanged. -/
theorem LimitPart.with_outside_self {l : LimitPart} {b : Bool} (h : l.outside = b) : { l with outside := b } = l := by
  subst h
  rfl

/-- The words do not reach the index of the limit part (Table 9-2, last row). -/
theorem LimitPart.compare_of_absent {l : LimitPart} {words : List Word} (h : words.length ≤ l.word)
    (index slot : Nat) : l.compare index slot words = (l, []) := by
  unfold LimitPart.compare
  rw [List.getElem?_eq_none h]

theorem LimitPart.compare_of_holds {l : LimitPart} {words : List Word} {w : Word} (h : words[l.word]? = some w)
    (hin : l.holds w = true) (index slot : Nat) :
    l.compare index slot words =
      ({ l with outside := false }, if l.outside then [.limit index slot .returned w] else []) := by
  unfold LimitPart.compare
  rw [h]
  exact if_pos hin

theorem LimitPart.compare_of_not_holds {l : LimitPart} {words : List Word} {w : Word} (h : words[l.word]? = some w)
    (hout : ¬l.holds w = true) (index slot : Nat) :
    l.compare index slot words =
      ({ l with outside := true }, if l.outside then [] else [.limit index slot .left w]) := by
  unfold LimitPart.compare
  rw [h]
  exact if_neg hout

/-- The four rows of Table 9-2 for a word that is there: the standing before the comparison and the word's place. -/
theorem LimitPart.compare_rows {l : LimitPart} {words : List Word} {w : Word} (h : words[l.word]? = some w)
    (index slot : Nat) :
    (l.outside = false → l.holds w = true → l.compare index slot words = (l, [])) ∧
    (l.outside = false → ¬l.holds w = true →
      l.compare index slot words = ({ l with outside := true }, [.limit index slot .left w])) ∧
    (l.outside = true → ¬l.holds w = true → l.compare index slot words = (l, [])) ∧
    (l.outside = true → l.holds w = true →
      l.compare index slot words = ({ l with outside := false }, [.limit index slot .returned w])) := by
  refine ⟨fun ho hw => ?_, fun ho hw => ?_, fun ho hw => ?_, fun ho hw => ?_⟩
  · rw [compare_of_holds h hw, with_outside_self ho, ho]; rfl
  · rw [compare_of_not_holds h hw, ho]; rfl
  · rw [compare_of_not_holds h hw, with_outside_self ho, ho]; rfl
  · rw [compare_of_holds h hw, ho]; rfl

/-- A watch without a limit part only starts its age anew. -/
theorem Watch.change_of_no_limit {w : Watch} (h : w.limit = none) (now : Time) (index : Nat) (words : List Word) :
    w.change now index words = ({ w with age := w.age.map fun a => a.restart now }, []) := by
  unfold Watch.change
  rw [h]

/-- A watch with a limit part starts its age anew and makes the comparison. -/
theorem Watch.change_of_limit {w : Watch} {l : LimitPart} (h : w.limit = some l) (now : Time) (index : Nat)
    (words : List Word) :
    w.change now index words =
      ({ w with age := w.age.map fun a => a.restart now, limit := some (l.compare index w.slot words).1 },
        (l.compare index w.slot words).2) := by
  unfold Watch.change
  rw [h]

/-- With or without a limit part, the slot stays and the age starts anew (R172). -/
theorem Watch.change_slot_age (w : Watch) (now : Time) (index : Nat) (words : List Word) :
    (w.change now index words).1.slot = w.slot ∧
      (w.change now index words).1.age = w.age.map fun a => a.restart now := by
  cases h : w.limit with
  | none => rw [change_of_no_limit h]; exact ⟨rfl, rfl⟩
  | some l => rw [change_of_limit h]; exact ⟨rfl, rfl⟩

theorem State.dataChange_entry {s : State} {index : Nat} {w : Watch} (h : s.wch[index]? = some (some w))
    (slot : Nat) (words : List Word) :
    (s.dataChange slot words).wch[index]? =
      some (some (if w.slot = slot then (w.change s.nct.now index words).1 else w)) := by
  have hentry := changeWatches_fst s.nct.now slot words 0 s.wch index w h
  rw [Nat.zero_add] at hentry
  rw [dataChange_eq]
  exact hentry

theorem State.dataChange_rest (s : State) (slot : Nat) (words : List Word) :
    (s.dataChange slot words).wch.length = s.wch.length ∧
      ∀ index : Nat, s.wch[index]? = some none → (s.dataChange slot words).wch[index]? = some none := by
  rw [dataChange_eq]
  exact changeWatches_rest s.nct.now slot words 0 s.wch

/-- The notices of a data change arrive in entry order (R176). -/
theorem State.dataChange_ntq (s : State) (slot : Nat) (words : List Word) :
    (s.dataChange slot words).ntq = s.ntq.arriveAll ((List.range s.wch.length).flatMap fun index =>
      match s.wch[index]? with
      | some (some w) => if w.slot = slot then (w.change s.nct.now index words).2 else []
      | _ => []) := by
  have hnotices := changeWatches_snd s.nct.now slot words 0 s.wch
  simp only [Nat.zero_add] at hnotices
  rw [dataChange_eq]
  exact congrArg s.ntq.arriveAll hnotices

/-- Settles O53: the entries and notices of one data change come from `changeWatches`, those of a frame from
`State.dataChanges_spec`, and the standing of a limit part from the rows of Table 9-2. -/
theorem limitComparisonFollowsTheTable : Obligations.LimitComparisonFollowsTheTable := by
  refine ⟨fun slot words s => ?oneChange, fun s l => ⟨State.dataChanges_spec l s, ?frame⟩,
    Watch.change_slot_age, ?limit, ?noLimit, fun l index slot words => ⟨?absent, fun w hw => ?present⟩⟩
  case oneChange =>
    obtain ⟨hlength, hempty⟩ := s.dataChange_rest slot words
    exact ⟨fun _ _ h => State.dataChange_entry h slot words, s.dataChange_ntq slot words, hempty, hlength⟩
  case frame =>
    rintro p rest rfl
    rfl
  case limit =>
    intro w l now index words h
    rw [Watch.change_of_limit h]
    exact ⟨rfl, rfl⟩
  case noLimit =>
    intro w now index words h
    rw [Watch.change_of_no_limit h]
    exact ⟨h, rfl⟩
  case absent => exact fun h => LimitPart.compare_of_absent h index slot
  case present =>
    intro inside
    have hinside : l.holds w = true ↔ inside := l.holds_iff w
    rw [← hinside]
    exact LimitPart.compare_rows hw index slot

end Sys2Proof.Machine
end

section
/-!
SUPPORT. The error log: a report that is counted and kept, counted alone, or neither (R184, R185).
-/

set_option Elab.async false

namespace Sys2Proof.Machine

/-- Below saturation a report is counted, and its entry is the youngest where a place is free. -/
theorem Elg.take_of_room {l : Elg} (hcount : l.counter < Config.counterMax)
    (hroom : l.entries.length < Config.logRoom) (e : LogEntry) :
    l.take e = { entries := l.entries ++ [e], counter := l.counter + 1 } := by
  unfold Elg.take
  rw [if_pos hcount, if_pos hroom]

/-- Below saturation a report that finds every place taken is counted alone. -/
theorem Elg.take_of_full {l : Elg} (hcount : l.counter < Config.counterMax)
    (hfull : Config.logRoom ≤ l.entries.length) (e : LogEntry) :
    l.take e = { l with counter := l.counter + 1 } := by
  unfold Elg.take
  rw [if_pos hcount, if_neg (Nat.not_lt.2 hfull)]

/-- At saturation a report leaves the log as it is. -/
theorem Elg.take_of_saturated {l : Elg} (hcount : Config.counterMax ≤ l.counter) (e : LogEntry) : l.take e = l :=
  if_neg (Nat.not_lt.2 hcount)

/-- The log is all that a report changes, and the entry's time is the local time. -/
theorem State.report_eq (s : State) (kind : ErrorKind) (fields : ErrorFields) :
    s.report kind fields = { s with elg := s.elg.take { kind := kind, time := s.nct.now, fields := fields } } := rfl

/-- Settles O55: the three cases of a report are the counter at or below saturation, and below it a place free or
none. -/
theorem errorLogCountsAndKeeps : Obligations.ErrorLogCountsAndKeeps :=
  ⟨State.report_eq, fun _ e =>
    ⟨fun hcount hroom => Elg.take_of_room hcount hroom e, fun hcount hfull => Elg.take_of_full hcount hfull e,
      fun hcount => Elg.take_of_saturated hcount e⟩⟩

end Sys2Proof.Machine
end

section
/-!
SUPPORT. The arrival of a notice: coalesced in its place (R179), added, displacing the youngest of a lower severity, or
dropped (R180).
-/

set_option Elab.async false

namespace Sys2Proof.Machine

/-! ### Coalescing (R179) -/

/-- Only the two kinds that tell of a slot's record and of a station coalesce, each with its own kind and subject. -/
theorem Notice.coalesces_iff (n o : Notice) : n.coalesces o = true ↔
    (∃ slot c d, n = .recordChanged slot c ∧ o = .recordChanged slot d) ∨
    (∃ station a b, n = .memberChanged station a ∧ o = .memberChanged station b) := by
  constructor
  · intro h
    unfold Notice.coalesces at h
    split at h
    case h_1 =>
      obtain rfl := eq_of_beq h
      exact Or.inl ⟨_, _, _, rfl, rfl⟩
    case h_2 =>
      obtain rfl := eq_of_beq h
      exact Or.inr ⟨_, _, _, rfl, rfl⟩
    case h_3 => cases h
  · rintro (⟨slot, c, d, rfl, rfl⟩ | ⟨station, a, b, rfl, rfl⟩)
    · exact beq_self_eq_true slot
    · exact beq_self_eq_true station

/-- A notice takes the place of those it coalesces with, so a list without any stays. -/
theorem Notice.replace_of_none {n : Notice} {l : List Notice} (h : ∀ m ∈ l, n.coalesces m = false) :
    (l.map fun o => if n.coalesces o then n else o) = l :=
  (List.map_congr_left fun m hm => if_neg (by simp [h m hm])).trans (List.map_id l)

/-- The arriving notice stands where the one standing notice that it coalesces with stood. -/
theorem Ntq.arrive_of_coalesces {q : Ntq} {n o : Notice} {before after : List Notice}
    (hq : q.notices = before ++ o :: after) (ho : n.coalesces o = true)
    (hrest : ∀ m ∈ before ++ after, n.coalesces m = false) :
    q.arrive n = { q with notices := before ++ n :: after } := by
  have hany : q.notices.any n.coalesces = true := List.any_eq_true.2 ⟨o, by simp [hq], ho⟩
  obtain ⟨hbefore, hafter⟩ := List.forall_mem_append.1 hrest
  unfold Ntq.arrive
  rw [if_pos hany, hq, List.map_append, List.map_cons, if_pos ho, Notice.replace_of_none hbefore,
    Notice.replace_of_none hafter]

/-! ### Severities in the queue (R180) -/

theorem Notice.hasSeverity_iff {v : Severity} {n : Notice} : n.hasSeverity v = true ↔ n.severity = v :=
  decide_eq_true_iff

theorem any_hasSeverity_of_split {v : Severity} {o : Notice} {l before after : List Notice}
    (hl : l = before ++ o :: after) (ho : o.severity = v) : l.any (Notice.hasSeverity v) = true :=
  List.any_eq_true.2 ⟨o, by simp [hl], Notice.hasSeverity_iff.2 ho⟩

theorem any_hasSeverity_eq_false {v : Severity} {l : List Notice} (h : ∀ m ∈ l, m.severity ≠ v) :
    l.any (Notice.hasSeverity v) = false :=
  List.any_eq_false.2 fun m hm => mt Notice.hasSeverity_iff.1 (h m hm)

/-- The youngest notice of a severity is the last one: none of that severity stands after it. -/
theorem removeYoungest_of_last {v : Severity} {o : Notice} {before after : List Notice} (ho : o.severity = v)
    (hafter : ∀ m ∈ after, m.severity ≠ v) : removeYoungest v (before ++ o :: after) = before ++ after := by
  have hyounger : ∀ m ∈ after.reverse, ¬Notice.hasSeverity v m = true := fun m hm =>
    mt Notice.hasSeverity_iff.1 (hafter m (List.mem_reverse.1 hm))
  unfold removeYoungest
  rw [List.reverse_append, List.reverse_cons, List.append_assoc, List.eraseP_append_right _ hyounger,
    List.singleton_append, List.eraseP_cons_of_pos (Notice.hasSeverity_iff.2 ho)]
  simp

/-! ### Arrivals that do not coalesce (R180) -/

section Arrival
variable {q : Ntq} {n : Notice} (hnew : ∀ o ∈ q.notices, n.coalesces o = false)
include hnew

theorem Ntq.not_coalesces_any : ¬q.notices.any n.coalesces = true := by
  simpa using hnew

/-- While there is room the notice is added at the end. -/
theorem Ntq.arrive_of_room (hroom : q.notices.length < Config.noticeRoom) :
    q.arrive n = { q with notices := q.notices ++ [n] } := by
  unfold Ntq.arrive
  rw [if_neg (Ntq.not_coalesces_any hnew), if_pos hroom]

/-- A full queue decides by the arriving severity and by the severities that stand. -/
theorem Ntq.arrive_of_full (hfull : Config.noticeRoom ≤ q.notices.length) :
    q.arrive n =
      if n.severity ≠ .low && q.notices.any (Notice.hasSeverity .low) then
        { notices := removeYoungest .low q.notices ++ [n], lost := true }
      else if n.severity = .critical && q.notices.any (Notice.hasSeverity .high) then
        { notices := removeYoungest .high q.notices ++ [n], lost := true }
      else { q with lost := true } := by
  conv_lhs => unfold Ntq.arrive
  rw [if_neg (Ntq.not_coalesces_any hnew), if_neg (Nat.not_lt.2 hfull)]

/-- A HIGH or CRITICAL notice displaces the youngest LOW one. -/
theorem Ntq.arrive_displaces_low (hfull : Config.noticeRoom ≤ q.notices.length) {before after : List Notice}
    {o : Notice} (hq : q.notices = before ++ o :: after) (ho : o.severity = .low)
    (hafter : ∀ m ∈ after, m.severity ≠ .low) (hn : n.severity ≠ .low) :
    q.arrive n = { notices := before ++ after ++ [n], lost := true } := by
  have hlow : q.notices.any (Notice.hasSeverity .low) = true := any_hasSeverity_of_split hq ho
  rw [Ntq.arrive_of_full hnew hfull, if_pos (by simp [hn, hlow]), hq, removeYoungest_of_last ho hafter]

/-- Without a LOW notice a CRITICAL one displaces the youngest HIGH one. -/
theorem Ntq.arrive_displaces_high (hfull : Config.noticeRoom ≤ q.notices.length) {before after : List Notice}
    {o : Notice} (hq : q.notices = before ++ o :: after) (ho : o.severity = .high)
    (hafter : ∀ m ∈ after, m.severity ≠ .high) (hlow : ∀ m ∈ q.notices, m.severity ≠ .low)
    (hn : n.severity = .critical) :
    q.arrive n = { notices := before ++ after ++ [n], lost := true } := by
  have hhigh : q.notices.any (Notice.hasSeverity .high) = true := any_hasSeverity_of_split hq ho
  rw [Ntq.arrive_of_full hnew hfull, if_neg (by simp [any_hasSeverity_eq_false hlow]),
    if_pos (by simp [hn, hhigh]), hq, removeYoungest_of_last ho hafter]

/-- With nothing to displace the notice is dropped: it is LOW or no LOW one stands, and it is not CRITICAL or no HIGH
one stands. -/
theorem Ntq.arrive_drops (hfull : Config.noticeRoom ≤ q.notices.length)
    (hlow : n.severity = .low ∨ ∀ m ∈ q.notices, m.severity ≠ .low)
    (hhigh : n.severity ≠ .critical ∨ ∀ m ∈ q.notices, m.severity ≠ .high) :
    q.arrive n = { q with lost := true } := by
  have hkeepsLow : ¬(n.severity ≠ .low && q.notices.any (Notice.hasSeverity .low)) = true := by
    rcases hlow with hn | hnone
    · simp [hn]
    · simp [any_hasSeverity_eq_false hnone]
  have hkeepsHigh : ¬(n.severity = .critical && q.notices.any (Notice.hasSeverity .high)) = true := by
    rcases hhigh with hn | hnone
    · simp [hn]
    · simp [any_hasSeverity_eq_false hnone]
  rw [Ntq.arrive_of_full hnew hfull, if_neg hkeepsLow, if_neg hkeepsHigh]

end Arrival

/-- Settles O54: with 16 notices standing, two rows of R180's table displace, and the other rows drop the arrival
because nothing less severe stands. -/
theorem noticeArrivalCoalescesOrDisplaces : Obligations.NoticeArrivalCoalescesOrDisplaces := by
  refine ⟨fun _ _ => rfl, Notice.coalesces_iff, fun q n o before after => Ntq.arrive_of_coalesces, fun q n hnew =>
    ⟨Ntq.arrive_of_room hnew, fun hfull => ⟨fun hlow => ?lowArrives, fun before after o =>
      Ntq.arrive_displaces_low hnew hfull, fun before after o => Ntq.arrive_displaces_high hnew hfull,
      fun hnoLow hhigh => ?highArrives, fun hcritical => ?allCritical⟩⟩⟩
  case lowArrives => exact Ntq.arrive_drops hnew hfull (Or.inl hlow) (Or.inl (by simp [hlow]))
  case highArrives => exact Ntq.arrive_drops hnew hfull (Or.inr hnoLow) (Or.inl (by simp [hhigh]))
  case allCritical =>
    exact Ntq.arrive_drops hnew hfull (Or.inr fun m hm => by simp [hcritical m hm])
      (Or.inr fun m hm => by simp [hcritical m hm])

end Sys2Proof.Machine
end

section
/-!
SUPPORT. The log commands of the local port and the record of a log entry (R186, R187, R203).
-/

set_option Elab.async false

namespace Sys2Proof.Machine

/-! ### The commands that are always taken (R195, R197) -/

/-- A command of the HALTED column is taken in every node state, with the PFAIL latch set and beside a command in
hand. -/
theorem State.accepts_always {s : State} (h : s.portOpen) {c : Command} (hc : c.always = true) : s.accepts c := by
  have hadmits : s.admits c = true := by simp [State.admits, Command.takenIn, hc]
  have halongside : c.alongside = true := by simp [Command.alongside, hc]
  exact ⟨h, hadmits, Or.inr halongside⟩

theorem exec_peekLog_of_portOpen {s : State} (h : s.portOpen) : exec .peekLog s = .next s.raised.peekLog :=
  congrArg Host.Outcome.next (State.command_accepts (State.accepts_always h rfl) State.peekLog)

theorem exec_takeLog_of_portOpen {s : State} (h : s.portOpen) : exec .takeLog s = .next s.raised.takeLog :=
  congrArg Host.Outcome.next (State.command_accepts (State.accepts_always h rfl) State.takeLog)

theorem exec_takeCount_of_portOpen {s : State} (h : s.portOpen) : exec .takeCount s = .next s.raised.takeCount :=
  congrArg Host.Outcome.next (State.command_accepts (State.accepts_always h rfl) State.takeCount)

/-! ### What the log commands answer (R186, R187) -/

theorem State.peekLog_of_empty {s : State} (h : s.elg.entries = []) :
    s.raised.peekLog = s.answered .peekLog .empty [] := by
  have hraised : s.raised.elg.entries = [] := h
  unfold State.peekLog
  rw [hraised]
  rfl

theorem State.takeLog_of_empty {s : State} (h : s.elg.entries = []) :
    s.raised.takeLog = s.answered .takeLog .empty [] := by
  have hraised : s.raised.elg.entries = [] := h
  unfold State.takeLog
  rw [hraised]
  rfl

theorem State.peekLog_of_cons {s : State} {e : LogEntry} {rest : List LogEntry} (h : s.elg.entries = e :: rest) :
    s.raised.peekLog = s.answered .peekLog .ok (byteOf (e :: rest).length :: e.bytes) := by
  have hraised : s.raised.elg.entries = e :: rest := h
  unfold State.peekLog
  rw [hraised]
  rfl

theorem State.takeLog_of_cons {s : State} {e : LogEntry} {rest : List LogEntry} (h : s.elg.entries = e :: rest) :
    s.raised.takeLog = { s.answered .takeLog .ok (byteOf rest.length :: e.bytes) with
      elg := { s.elg with entries := rest } } := by
  have hraised : s.raised.elg.entries = e :: rest := h
  unfold State.takeLog
  rw [hraised]
  rfl

theorem State.takeCount_raised (s : State) :
    s.raised.takeCount = { s.answered .takeCount .ok [byteOf s.elg.counter] with
      elg := { s.elg with counter := 0 } } := rfl

/-! ### The record of a log entry (R203) -/

theorem LogEntry.bytes_recordHolds (e : LogEntry) : e.recordHolds :=
  ⟨rfl, rfl, Time.join_bytes e.time, flagBits_toNat _ _ _ _, rfl, rfl, rfl, rfl⟩

/-- Settles O18: the commands are always taken, and the log that each finds decides its answer. -/
theorem logCommandsReadTheOldestEntry : Obligations.LogCommandsReadTheOldestEntry := by
  refine ⟨fun s hopen hlog => ?empty, fun s e rest hopen hlog => ?oldest, LogEntry.bytes_recordHolds, rfl,
    fun s hopen => ?count⟩
  case empty =>
    rw [exec_peekLog_of_portOpen hopen, exec_takeLog_of_portOpen hopen, State.peekLog_of_empty hlog,
      State.takeLog_of_empty hlog]
    exact ⟨rfl, rfl⟩
  case oldest =>
    rw [exec_peekLog_of_portOpen hopen, exec_takeLog_of_portOpen hopen, State.peekLog_of_cons hlog,
      State.takeLog_of_cons hlog]
    exact ⟨rfl, rfl⟩
  case count => rw [exec_takeCount_of_portOpen hopen, State.takeCount_raised]

end Sys2Proof.Machine
end

section
/-!
SUPPORT. One step: the command at the front of the queue, or one bit time, and what both keep (R2, R4, R16, R92, R112,
R134, R155, R178, R185).
-/

set_option Elab.async false

namespace Sys2Proof.Machine

/-! ### The two kinds of step -/

theorem step_of_idle {s : State} (h : s.pending = []) : step s = .next (s.elapse 1) := by
  unfold step
  rw [h]

theorem step_of_pending {s : State} {c : Instr} {rest : List Instr} (h : s.pending = c :: rest) :
    step s = exec c { s with pending := rest } := by
  unfold step
  rw [h]

/-- While NRST is held low no time passes inside the node (R110). -/
theorem State.elapse_held {s : State} (h : s.nct.nrstLow = true) (bits : Nat) : s.elapse bits = s := by
  unfold State.elapse
  rw [if_pos h]

/-- The bit times pass in every block that counts them. -/
theorem State.elapse_out {s : State} (h : s.nct.nrstLow = false) (bits : Nat) :
    s.elapse bits = { s with
      nct := { s.nct with
        now := after s.nct.now ((s.nct.subBits + bits) / bitsPerMs s.nct.rate),
        subBits := (s.nct.subBits + bits) % bitsPerMs s.nct.rate,
        pfailWait := if s.nct.node = .halted then s.nct.pfailWait else s.nct.pfailWait.map (· + bits) },
      pbi := if s.nct.node = .halted then s.pbi else s.pbi.elapse bits,
      scb := { s.scb with timer := s.scb.timer.map (· + (s.nct.subBits + bits) / bitsPerMs s.nct.rate) } } := by
  unfold State.elapse
  rw [h]
  rfl

/-- Settles O1: a step is the front command's, or on an empty queue `State.elapse` of one bit time. -/
theorem stepTakesTheFrontCommand : Obligations.StepTakesTheFrontCommand := by
  refine ⟨fun c rest s => step_of_pending rfl, fun s hempty hheld => ?held, fun s hempty hout => ?out⟩
  case held => rw [step_of_idle hempty, State.elapse_held hheld]
  case out =>
    rw [step_of_idle hempty, State.elapse_out hout]
    rfl

/-! ### What every step keeps -/

/-- Every command keeps the invariant (`Keeps.exec_inv`), and so does a bit time. -/
theorem step_inv {s t : State} (h : step s = .next t) :
    (s.canonical → t.canonical) ∧ (s.bounds → t.bounds) ∧ (s.canonical → s.follows → t.follows) := by
  cases hp : s.pending with
  | nil =>
    rw [step_of_idle hp] at h
    obtain rfl := Host.Outcome.next.inj h
    have hkeeps := (Keeps.refl s).elapse 1
    exact ⟨hkeeps.canonical, hkeeps.bounds, hkeeps.follows⟩
  | cons c rest =>
    rw [step_of_pending hp] at h
    exact Keeps.exec_inv c { s with pending := rest } t h

/-- Settles O58: the canonical forms and the wanted set's agreement are parts of `step_inv`. -/
theorem stepKeepsStorageAndWantedSet : Obligations.StepKeepsStorageAndWantedSet :=
  ⟨fun _ _ hc h => (step_inv h).1 hc, fun _ _ hc hf h => (step_inv h).2.2 hc hf⟩

/-- Settles O59: the bounds are a part of `step_inv`. -/
theorem stepKeepsTheBounds : Obligations.StepKeepsTheBounds := fun _ _ hb h => (step_inv h).2.1 hb

/-- Settles O60: every stored list of the reset state is empty, but for its four empty watch entries. -/
theorem resetSatisfiesTheInvariant : Obligations.ResetSatisfiesTheInvariant := by
  have hcanonical : State.reset.canonical := ⟨sparseWf_nil, sparseWf_nil, sparseWf_nil⟩
  have hfollows : State.reset.follows := Keeps.follows_blank rfl rfl
  have hbounded : State.reset.bounded := ⟨by decide, by decide, by decide⟩
  exact ⟨hcanonical, hfollows, hbounded, List.Pairwise.nil, rfl, by decide⟩

end Sys2Proof.Machine
end

section
/-!
SUPPORT. The two resets (R110, R111, Tables 2-6 and 5-3).
-/

set_option Elab.async false

namespace Sys2Proof.Machine

/-- Settles O2: a hard reset is the reset state with the sampled pins. -/
theorem hardResetSetsEveryBlock : Obligations.HardResetSetsEveryBlock :=
  fun pins nselLow s => exec_hardReset pins nselLow s

theorem State.reset_entry (n : Nat) : State.reset.entry n = DirEntry.blank := sparseGet_nil n

theorem State.reset_cell (row position : Nat) : State.reset.dst.cell row position = Cell.blank := sparseGet_nil _

theorem State.reset_member (n : Nat) : State.reset.mbu.entry n = MemberEntry.absent := Mbu.entry_of_table_nil rfl n

/-- Settles O3: the empty tables read as their blank values, and every other value stands in `State.reset`. -/
theorem resetStateHoldsTheSpecValues : Obligations.ResetStateHoldsTheSpecValues :=
  ⟨State.reset_entry, State.reset_cell, rfl, rfl, rfl, rfl, rfl, rfl, rfl, rfl, rfl, rfl, rfl, rfl, rfl, rfl, rfl, rfl,
    rfl, rfl, rfl, rfl, rfl, rfl, rfl, State.reset_member, rfl, rfl, rfl, rfl, rfl, rfl, rfl, rfl, rfl, rfl, rfl, rfl,
    rfl, rfl, rfl, rfl, rfl, rfl, rfl⟩

/-- A soft reset keeps the words of retired rows, and every other code word reads 0 (Table 2-6). -/
theorem Dst.cell_softReset {d : Dst} (h : Memory.wf d.cells) (row : Nat) {position : Nat} (hp : position < 16) :
    d.softReset.cell row position = if d.retired.contains row then d.cell row position else Cell.blank := by
  have hrow : cellAddress row position / Config.rowWords = row := by
    simp only [cellAddress, Config.rowWords]
    omega
  have hkept := sparseGet_filter (d := Cell.blank) h.1 (fun a => d.retired.contains (a / Config.rowWords))
    (cellAddress row position)
  rw [hrow] at hkept
  exact hkept

/-- Settles O4: the soft reset is the reset state with the sampled pins, but for the store and the log. -/
theorem softResetKeepsLogAndRows : Obligations.SoftResetKeepsLogAndRows := by
  intro pins s hopen
  exact ⟨_, exec_reset_of_portOpen hopen pins, rfl, rfl, rfl, rfl, rfl,
    fun hwf row position hp => Dst.cell_softReset hwf row hp, rfl⟩

end Sys2Proof.Machine
end

section
/-!
SUPPORT. Transactions of the local port, the four tests of a command and the bytes of STATUS (R190–R193, R198).
-/

set_option Elab.async false

namespace Sys2Proof.Machine

/-! ### Transactions (R190, R192) -/

theorem exec_nselFall {s : State} (h : s.nct.nrstLow = false) (t : Transaction) :
    exec (.nselFall t) s = .next (s.nselFall t) := congrArg Host.Outcome.next (State.live_out h fun s => s.nselFall t)

theorem exec_repeatResponse {s : State} (h : s.portOpen) : exec .repeatResponse s = .next s.raised :=
  congrArg Host.Outcome.next (State.transact_open h fun s => s)

/-- Settles O6: the copy that goes out is the response's bytes. -/
theorem transactionsReadTheResponseBuffer : Obligations.TransactionsReadTheResponseBuffer :=
  ⟨rfl, fun bytes _ hout => ⟨_, exec_nselFall hout (.inProgress bytes), rfl, fun _ => rfl⟩,
    fun _ hout => exec_nselFall hout .withoutByte, fun _ hopen => exec_repeatResponse hopen⟩

/-! ### The four tests (R193) -/

/-- The row `i` is the command `c` behind the tests of R193, its transaction bringing the bytes or not. -/
def tested (i : Instr) (c : Command) : Prop :=
  ∀ s : State, ∃ k, exec i s = .next (s.command c (decide (bytesNeeded i ≤ bytesBrought i)) k) ∨
    exec i s = s.driving (s.command c (decide (bytesNeeded i ≤ bytesBrought i)) k)

/-- A command whose argument bytes are read passes the length test where they are read to the end. -/
theorem tested_of_args {i : Instr} {c : Command} {α : Type} {args : Option α} {k : State → α → State}
    (hexec : ∀ s, exec i s = .next (s.commandArgs c args k))
    (hbytes : args.isSome = decide (bytesNeeded i ≤ bytesBrought i)) : tested i c := by
  intro s
  unfold State.commandArgs at hexec
  rw [← hbytes]
  exact ⟨_, .inl (hexec s)⟩

/-- Every row that carries a command makes the tests of R193, REPEAT so that it passes all of them. -/
theorem tested_of_commandOf {i : Instr} {c : Command} (h : commandOf i = some c) (hne : i ≠ .repeatResponse) :
    tested i c := by
  cases i <;> cases h
  case repeatResponse => exact absurd rfl hne
  case status => exact fun s => ⟨_, .inl rfl⟩
  case join => exact fun s => ⟨_, .inl rfl⟩
  case leave => exact fun s => ⟨_, .inr rfl⟩
  case discard => exact fun s => ⟨_, .inl rfl⟩
  case publish => exact fun s => ⟨_, .inl rfl⟩
  case takeNotice => exact fun s => ⟨_, .inr rfl⟩
  case peekLog => exact fun s => ⟨_, .inl rfl⟩
  case takeLog => exact fun s => ⟨_, .inl rfl⟩
  case takeCount => exact fun s => ⟨_, .inl rfl⟩
  case members => exact fun s => ⟨_, .inl rfl⟩
  case reset => exact fun s => ⟨_, .inl rfl⟩
  case configure args =>
    exact tested_of_args (fun _ => rfl) (by rw [readConfigure_isSome, keptArgs_length]; rfl)
  case read args => exact tested_of_args (fun _ => rfl) (by rw [readRead_isSome, keptArgs_length]; rfl)
  case stage args =>
    exact tested_of_args (fun _ => rfl) (by
      rw [readStage_isSome, keptArgs_length, keptArgs_getD args 1 (by decide)]; rfl)
  case claim args => exact tested_of_args (fun _ => rfl) (by rw [readOne_isSome, keptArgs_length]; rfl)
  case yieldSlot args => exact tested_of_args (fun _ => rfl) (by rw [readOne_isSome, keptArgs_length]; rfl)
  case unwatch args => exact tested_of_args (fun _ => rfl) (by rw [readOne_isSome, keptArgs_length]; rfl)
  case watch args =>
    exact tested_of_args (fun _ => rfl) (by
      rw [readWatch_isSome, keptArgs_length, keptArgs_getD args 4 (by decide)]; rfl)

/-- A command that ends in the tests only forms its response. -/
theorem exec_of_tested {i : Instr} {c : Command} {s : State} {r : ResultCode} (h : tested i c)
    (hends : ∀ k, s.command c (decide (bytesNeeded i ≤ bytesBrought i)) k = s.answered c r []) :
    exec i s = .next (s.answered c r []) := by
  obtain ⟨k, hnext | hdriving⟩ := h s
  · rw [hnext, hends]
  · rw [hdriving, hends]
    exact State.driving_quiet (.inl rfl)

theorem exec_illegalCommand {s : State} {code : Byte} (h : s.portOpen) (hcode : Instr.unknownCode code = true) :
    exec (.illegalCommand code) s = .next (s.raised.respondWith code .illegal []) := by
  have hknown : knownCode code = false := by rw [Laws.CommandCode.known_or_unknown, hcode]; rfl
  show Host.Outcome.next (if knownCode code then s else s.transact fun s => s.respondWith code .illegal []) = _
  rw [hknown, State.transact_open h]
  rfl

/-- Settles O7: each failing test answers before the next one is made. -/
theorem commandTestsAnswerInTheirOrder : Obligations.CommandTestsAnswerInTheirOrder := by
  refine ⟨rfl, fun code s hcode hopen => exec_illegalCommand hopen hcode, fun i c s hc hopen => ?_⟩
  by_cases hrepeat : i = .repeatResponse
  case pos =>
    subst hrepeat
    obtain rfl := Option.some.inj hc
    refine ⟨fun hshort => absurd hshort (Nat.not_lt_zero _), fun _ hadmits => ?_, fun _ _ _ halong => ?_⟩
    · simp [State.admits, Command.takenIn, Command.always] at hadmits
    · simp [Command.alongside, Command.always] at halong
  case neg =>
    have htested := tested_of_commandOf hc hrepeat
    refine ⟨fun hshort => exec_of_tested htested fun k => ?_, fun henough hadmits => exec_of_tested htested fun k => ?_,
      fun henough hadmits hhand halong => exec_of_tested htested fun k => ?_⟩
    · rw [decide_eq_false (Nat.not_le.2 hshort)]
      exact State.command_short hopen c k
    · rw [decide_eq_true henough]
      exact State.command_wrongState hopen hadmits k
    · rw [decide_eq_true henough]
      exact State.command_busy hopen hadmits hhand halong k

/-! ### STATUS (R182, R198, Tables 11-4 and 12-5) -/

theorem exec_status_of_portOpen {s : State} (h : s.portOpen) : exec .status s = .next s.raised.status :=
  congrArg Host.Outcome.next (State.command_accepts (State.accepts_always h rfl) State.status)

theorem stationByte_toNat : ∀ (n : Station) (r : BitVec 2),
    (n ++ (0 : BitVec 2) ++ r : BitVec 8).toNat = 16 * n.toNat + r.toNat := by decide +kernel

/-- The bytes of the pending operation. -/
theorem State.statusFields_op (s : State) :
    let b := fun i => s.statusFields.getD i 0
    (s.opu.op = none → b 8 = 0 ∧ b 9 = 0 ∧ b 10 = 0) ∧
      ∀ o, s.opu.op = some o →
        b 8 = o.kind.code ∧ b 9 = byteOf (o.kind.slot?.getD 0) ∧ b 10 = byteOf o.onBus.toNat := by
  intro b
  have hkind : b 8 = (match s.opu.op with | some o => o.kind.code | none => 0) := rfl
  have hslot : b 9 = (match s.opu.op with
    | some { kind := .claim n, .. } => byteOf n
    | some { kind := .yield n, .. } => byteOf n
    | _ => 0) := rfl
  have hplace : b 10 = (match s.opu.op with | some o => flagBit o.onBus 0 | none => 0) := rfl
  rw [hkind, hslot, hplace]
  constructor
  · intro hnone
    rw [hnone]
    exact ⟨rfl, rfl, rfl⟩
  · rintro ⟨kind, onBus⟩ hop
    rw [hop]
    refine ⟨rfl, ?_, ?_⟩
    · cases kind <;> rfl
    · cases onBus <;> rfl

/-- The age of the oldest entry fits its two bytes. -/
theorem State.statusFields_age (s : State) :
    let b := fun i => s.statusFields.getD i 0
    (∀ e ∈ s.obs.queue, min 65535 (s.nct.now - e.queued).toNat ≤ (b 22 ++ b 23).toNat) ∧
      ((b 22 ++ b 23).toNat = 0 ∨
        ∃ e ∈ s.obs.queue, (b 22 ++ b 23).toNat = min 65535 (s.nct.now - e.queued).toNat) := by
  intro b
  obtain ⟨hle, hroom, hreached⟩ := s.oldestAge_spec
  have hbytes : b 22 ++ b 23 = BitVec.ofNat 16 s.oldestAge := Word.join_bytes _
  have hage : (b 22 ++ b 23).toNat = s.oldestAge := by
    rw [hbytes, BitVec.toNat_ofNat]
    omega
  rw [hage]
  exact ⟨hle, hreached⟩

/-- The member mask by node state (R198). -/
theorem State.statusFields_mask (s : State) :
    let b := fun i => s.statusFields.getD i 0
    (s.nct.node = .config ∨ s.nct.node = .idle → b 26 = 0 ∧ b 27 = 0) ∧
      (s.nct.node = .listening ∨ s.nct.node = .announcing → b 26 ++ b 27 = s.mbu.provisional) ∧
      (s.nct.node.participating = true ∨ s.nct.node = .isolated ∨ s.nct.node = .halted →
        ∀ n, n < 16 → ((b 26 ++ b 27).getLsbD n = true ↔ (s.mbu.entry n).state ≠ .absent)) := by
  intro b
  have hhigh : b 26 = (s.statusMask >>> 8).setWidth 8 := rfl
  have hlow : b 27 = s.statusMask.setWidth 8 := rfl
  rw [hhigh, hlow, Word.join_bytes]
  refine ⟨fun hout => ?_, fun hjoining => ?_, fun hkeeps n hn => State.statusMask_bit hkeeps hn⟩
  · have hempty : s.statusMask = 0 := by
      unfold State.statusMask
      rcases hout with h | h <;> rw [h]
    rw [hempty]
    exact ⟨rfl, rfl⟩
  · unfold State.statusMask
    rcases hjoining with h | h <;> rw [h]

/-- Settles O8: the bytes stand in the order of Table 12-5, each group of them with a lemma of its own. -/
theorem statusReportsAndClearsTheLostFlag : Obligations.StatusReportsAndClearsTheLostFlag := by
  refine ⟨fun s hopen => exec_status_of_portOpen hopen, rfl, rfl, fun n => ⟨rfl, rfl⟩, rfl, rfl, rfl, fun s => ?_⟩
  intro b
  obtain ⟨hnoOp, hop⟩ := s.statusFields_op
  obtain ⟨hage, honeAge⟩ := s.statusFields_age
  obtain ⟨hout, hjoining, hmember⟩ := s.statusFields_mask
  have hattempts : b 12 = byteOf s.phaseAttempts := rfl
  have hisolated : b 13 = (s.nct.isolationCause.map IsolationCause.code).getD 0 := by
    show (match s.nct.isolationCause with | some c => c.code | none => 0) = _
    cases s.nct.isolationCause <;> rfl
  have hhalted : b 14 = (s.nct.haltCause.map HaltCause.code).getD 0 := by
    show (match s.nct.haltCause with | some c => c.code | none => 0) = _
    cases s.nct.haltCause <;> rfl
  have hstation : (b 1).toNat = 16 * s.nct.station.toNat + s.nct.rate.toNat := stationByte_toNat _ _
  have hwanted : b 16 ++ b 17 = BitVec.ofNat 16 s.rpe.wanted.length := Word.join_bytes _
  have hunresolved : b 18 ++ b 19 = BitVec.ofNat 16 s.rpe.unresolved := Word.join_bytes _
  have htime : b 28 ++ b 29 ++ b 30 ++ b 31 = s.nct.now := Time.join_bytes _
  refine ⟨rfl, rfl, hstation, fun c hc => State.statusFields_config hc,
    fun hc => State.statusFields_unconfigured hc, hnoOp, hop, rfl, fun hphase => ?_, fun e hphase he => ?_,
    fun e hphase he => ?_, fun hphase hnone => ?_, fun hphase hnone => ?_, hisolated, hhalted, rfl,
    hwanted, hunresolved, rfl, rfl, hage, honeAge, rfl, rfl, hout, hjoining, hmember,
    htime⟩
  · rw [hattempts, State.phaseAttempts_none hphase]; rfl
  · rw [hattempts, State.phaseAttempts_joining hphase he]
  · rw [hattempts, State.phaseAttempts_leaving hphase he]
  · rw [hattempts, State.phaseAttempts_withoutEntry (.inl ⟨hphase, rfl⟩) hnone]; rfl
  · rw [hattempts, State.phaseAttempts_withoutEntry (.inr ⟨hphase, rfl⟩) hnone]; rfl

end Sys2Proof.Machine
end

section
/-!
SUPPORT. The commands of the local port that act at once: CONFIGURE, JOIN, LEAVE, DISCARD, PUBLISH, WATCH and UNWATCH,
MEMBERS, and those that come in hand (R40, R90, R93, R95, R101, R147–R153, R169–R171).
-/

set_option Elab.async false

namespace Sys2Proof.Machine

/-! ### CONFIGURE (R76, R93) -/

/-- The clamp of R76 as a maximum and a minimum. -/
theorem clampBeat_eq (ms : Nat) : clampBeat ms = max 10 (min 1000 ms) := by
  unfold clampBeat
  split_ifs <;> omega

theorem exec_configure_of_accepts {s : State} (h : s.accepts .configure) {args : List Byte} {a : ConfigureArgs}
    (ha : readConfigure (keptArgs args) = some a) : exec (.configure args) s = .next (s.raised.configure a) := by
  show Host.Outcome.next (s.commandArgs .configure (readConfigure (keptArgs args)) State.configure) = _
  rw [ha, State.commandArgs_accepts h]

theorem State.configure_eq (s : State) (a : ConfigureArgs) :
    s.configure a = if 3 ≤ a.silence ∧ a.silence ≤ 15 ∧ a.slotCode ≤ 2 then
        { s with nct := { s.nct with config := some a.config, node := .idle } }.respond .configure .ok
      else s.respond .configure .range := by
  unfold State.configure
  by_cases hrange : 3 ≤ a.silence ∧ a.silence ≤ 15 ∧ a.slotCode ≤ 2
  · have hnone : ¬(a.silence < 3 || 15 < a.silence || 3 ≤ a.slotCode) = true := by
      simp only [Bool.or_eq_true, decide_eq_true_eq]
      omega
    rw [if_pos hrange, if_neg hnone]
  · have hsome : (a.silence < 3 || 15 < a.silence || 3 ≤ a.slotCode) = true := by
      simp only [Bool.or_eq_true, decide_eq_true_eq]
      omega
    rw [if_neg hrange, if_pos hsome]

/-- Settles O9: the six bytes are read as they come, and the ranges decide. -/
theorem configureStoresTheConfiguration : Obligations.ConfigureStoresTheConfiguration := by
  intro bhi blo silence slotCode scrub enables more s haccepts
  rw [exec_configure_of_accepts haccepts rfl, State.configure_eq]
  refine congrArg Host.Outcome.next (if_congr Iff.rfl ?_ rfl)
  have hbeat : clampBeat (wordOf bhi blo).toNat = max 10 (min 1000 (256 * bhi.toNat + blo.toNat)) := by
    rw [clampBeat_eq, wordOf_toNat]
  unfold ConfigureArgs.config
  rw [hbeat]
  rfl

/-! ### JOIN (R95) -/

theorem exec_join_of_accepts {s : State} (h : s.accepts .join) : exec .join s = .next s.raised.join :=
  congrArg Host.Outcome.next (State.command_accepts h State.join)

/-- What isolation kept is cleared in ISOLATED, and nothing in another node state. -/
theorem State.forgetIsolation_eq (s : State) :
    s.forgetIsolation = { s with
      nct := { s.nct with isolationCause := if s.nct.node = .isolated then none else s.nct.isolationCause },
      dir := if s.nct.node = .isolated then [] else s.dir,
      rpe := if s.nct.node = .isolated then { s.rpe with wanted := [], unresolved := 0 } else s.rpe,
      mbu := if s.nct.node = .isolated then { s.mbu.stop with table := [] } else s.mbu } := by
  unfold State.forgetIsolation
  by_cases h : s.nct.node = .isolated
  · simp only [if_pos h]
  · simp only [if_neg h]

/-- Settles O10: JOIN's own rule on the configuration that stands. -/
theorem joinBeginsListening : Obligations.JoinBeginsListening := by
  intro c s haccepts hc
  have hc' : s.raised.hasConfig c := hc
  rw [exec_join_of_accepts haccepts]
  unfold State.join
  rw [State.useConfig_good hc', State.forgetIsolation_eq]
  refine congrArg Host.Outcome.next ?_
  by_cases h : s.nct.node = .isolated
  · have h' : s.raised.nct.node = .isolated := h
    simp only [if_pos h, if_pos h']
    rfl
  · have h' : ¬s.raised.nct.node = .isolated := h
    simp only [if_neg h, if_neg h']
    rfl

/-! ### LEAVE (R101) -/

theorem exec_leave_of_accepts {s : State} (h : s.accepts .leave) (hl : s.levelGood) :
    exec .leave s = .next s.raised.leave := by
  rw [Rows.leave hl, State.command_accepts h]

/-- The repair engine's two entries at LEAVE: each goes unless its frame is being transmitted, and no other does. -/
theorem State.leaveRepairEntries_spec (s : State) :
    ∃ obs, (s.leaveEntry .ask).leaveEntry .sync = { s with obs := obs } ∧
      (∀ k, k = .ask ∨ k = .sync → (s.transmittingKind k = false → obs.holds k = false) ∧
        (s.transmittingKind k = true → ∀ e ∈ s.obs.queue, e.kind = k → e ∈ obs.queue)) ∧
      (∀ e ∈ s.obs.queue, e.kind ≠ .ask → e.kind ≠ .sync → e ∈ obs.queue) ∧ ∀ e ∈ obs.queue, e ∈ s.obs.queue := by
  obtain ⟨obs, hask, hgone, hstays, hothers, hsub⟩ := s.leaveEntry_spec .ask
  obtain ⟨obs', hsync, hgone', hstays', hothers', hsub'⟩ := State.leaveEntry_spec { s with obs := obs } .sync
  have hsame : State.transmittingKind { s with obs := obs } .sync = s.transmittingKind .sync :=
    State.transmittingKind_congr rfl fun e he => ⟨hsub e, fun h => hothers e h (by simp [he])⟩
  rw [hsame] at hgone' hstays'
  refine ⟨obs', by rw [hask, hsync], ?_, fun e he h1 h2 => hothers' e (hothers e he h1) h2,
    fun e he => hsub e (hsub' e he)⟩
  rintro k (rfl | rfl)
  · refine ⟨fun h => ?_, fun h e he hk => hothers' e (by rw [hstays h]; exact he) (by simp [hk])⟩
    rw [Obs.holds_false]
    exact fun e he => Obs.holds_false.1 (hgone h) e (hsub' e he)
  · exact ⟨hgone', fun h e he hk => by rw [hstays' h]; exact hothers e he (by simp [hk])⟩

theorem OpKind.frame_isOperation (k : OpKind) : k.frame.isOperation = true := by cases k <;> rfl

/-- LEAVE outside LEAVING (R101): the blocks it changes, and what becomes of the queue. -/
theorem State.leave_spec {s : State} (hn : s.nct.node ≠ .leaving) :
    ∃ queue build opu ntq fck sar, s.leave = State.respond { s with
        nct := { s.nct with node := .leaving, phase := .leaving },
        obs := { queue := queue, build := build }, opu := opu, ntq := ntq, fck := fck, sar := sar,
        rpe := s.rpe.stop } .leave .ok ∧
      (match s.opu.op with
        | none => opu = s.opu ∧ ntq = s.ntq
        | some o =>
          if o.onBus then opu = s.opu ∧ ntq = s.ntq
          else opu = { s.opu with op := none } ∧ (∀ e ∈ queue, e.kind ≠ o.kind.frame) ∧
            ntq = s.ntq.arrive (.opDone o.kind.done .aborted o.kind.slot?)) ∧
      (s.obs.holds .leave = false →
        { kind := .leave, ref := .none, attempts := 0, queued := s.nct.now } ∈ queue) ∧
      (∀ k, k = .ask ∨ k = .sync → (s.transmittingKind k = false → ∀ e ∈ queue, e.kind ≠ k) ∧
        (s.transmittingKind k = true → ∀ e ∈ s.obs.queue, e.kind = k → e ∈ queue)) ∧
      ∀ e ∈ s.obs.queue, e.kind = .drop ∨ e.kind = .beat → e ∈ queue := by
  obtain ⟨obs, opu, ntq, hop, hends, hkept, hsub⟩ := s.leaveOp_spec
  obtain ⟨obs', hentries, hrepair, hkept', hsub'⟩ :=
    State.leaveRepairEntries_spec { s with obs := obs, opu := opu, ntq := ntq, rpe := s.rpe.stop }
  obtain ⟨fck, sar, hidle⟩ := State.dropIdleAccess_spec { s with
    obs := obs', opu := opu, ntq := ntq, rpe := s.rpe.stop }
  let t : State := { s with
    nct := { s.nct with node := .leaving, phase := .leaving }, obs := obs', opu := opu, ntq := ntq,
    rpe := s.rpe.stop, fck := fck, sar := sar }
  have hplace := State.place_eq (s := t) (k := .leave) rfl .none
  have hleave : s.leave = (t.place .leave .none).respond .leave .ok := by
    unfold State.leave
    simp only [if_neg hn, hop, hentries, hidle, t]
  have hmem : ∀ e, e ∈ (t.place .leave .none).obs.queue → e ∈ obs'.queue ∨ e.kind = .leave := by
    intro e he
    rw [hplace] at he
    split at he
    · exact .inl he
    · rcases List.mem_append.1 he with h | h
      · exact .inl h
      · exact .inr (by rw [List.mem_singleton.1 h])
  have hstays : ∀ e ∈ obs'.queue, e ∈ (t.place .leave .none).obs.queue := by
    intro e he
    rw [hplace]
    split
    · exact he
    · exact List.mem_append_left _ he
  have hsame : ∀ k, k = .ask ∨ k = .sync →
      State.transmittingKind { s with obs := obs, opu := opu, ntq := ntq, rpe := s.rpe.stop } k =
        s.transmittingKind k := by
    intro k hk
    refine State.transmittingKind_congr rfl fun e he => ⟨hsub e, fun h => hkept e h ?_⟩
    rcases hk with rfl | rfl <;> rw [he] <;> rfl
  refine ⟨(t.place .leave .none).obs.queue, obs'.build, opu, ntq, fck, sar, ?state, ?operation, fun hnone => ?placed,
    fun k hk => ⟨fun h e he hek => ?_, fun h e he hek => ?_⟩, fun e he hek => ?others⟩
  case state => rw [hleave, State.place_frame]
  case operation =>
    revert hends
    cases hpending : s.opu.op with
    | none => exact id
    | some o =>
      simp only
      split
      · exact id
      · rintro ⟨hopu, hgone, hntq⟩
        refine ⟨hopu, fun e he hek => ?_, hntq⟩
        rcases hmem e he with h | h
        · exact Obs.holds_false.1 hgone e (hsub' e h) hek
        · have := o.kind.frame_isOperation
          rw [← hek, h] at this
          cases this
  case placed =>
    have hfree : t.obs.holds .leave = false :=
      Obs.holds_false.2 fun e he => Obs.holds_false.1 hnone e (hsub e (hsub' e he))
    rw [hplace, hfree]
    exact List.mem_append_right _ (List.mem_singleton.2 rfl)
  · rcases hmem e he with h' | h'
    · exact Obs.holds_false.1 ((hrepair k hk).1 ((hsame k hk).trans h)) e h' hek
    · rw [← hek, h'] at hk
      rcases hk with hk | hk <;> cases hk
  · refine hstays e ((hrepair k hk).2 ((hsame k hk).trans h) e (hkept e he ?_) hek)
    rcases hk with rfl | rfl <;> rw [hek] <;> rfl
  case others =>
    refine hstays e (hkept' e (hkept e he ?_) ?_ ?_) <;> rcases hek with h | h <;> simp [h, FrameKind.isOperation]

/-- Settles O11: outside LEAVING the new state is `State.leave_spec`'s, and an entry is on the bus where
`State.transmittingKind` says so. -/
theorem leaveBeginsTheLeave : Obligations.LeaveBeginsTheLeave := by
  intro s haccepts hl
  rw [exec_leave_of_accepts haccepts hl]
  refine ⟨fun hn => ?_, fun hn => ?_⟩
  · have hn' : s.raised.nct.node = .leaving := hn
    unfold State.leave
    rw [if_pos hn']
    rfl
  · obtain ⟨queue, build, opu, ntq, fck, sar, hleave, hop, hplaced, hrepair, hothers⟩ :=
      State.leave_spec (s := s.raised) hn
    rw [hleave]
    refine ⟨_, rfl, rfl, rfl, rfl, ?operation, hplaced, fun k hk => ?repair, hothers,
      rfl, rfl, rfl, rfl, rfl, rfl, rfl, rfl⟩
    case operation =>
      revert hop
      show (match s.opu.op with | none => _ | some o => _) → _
      cases s.opu.op with
      | none => exact id
      | some o =>
        simp only
        split
        · exact id
        · exact fun ⟨hopu, hgone, hntq⟩ => ⟨hopu, Obs.holds_false.2 hgone, hntq⟩
    case repair =>
      intro onBus
      have hiff : s.transmittingKind k = true ↔ onBus := s.transmittingKind_iff k
      obtain ⟨hgone, hstays⟩ := hrepair k hk
      exact ⟨fun h => Obs.holds_false.2 (hgone (Bool.eq_false_iff.2 fun h' => h (hiff.1 h'))),
        fun h => hstays (hiff.2 h)⟩

/-! ### DISCARD and PUBLISH (R152, R153) -/

theorem exec_discard_of_accepts {s : State} (h : s.accepts .discard) : exec .discard s = .next s.raised.discard :=
  congrArg Host.Outcome.next (State.command_accepts h State.discard)

theorem exec_publish_of_accepts {s : State} (h : s.accepts .publish) : exec .publish s = .next s.raised.publish :=
  congrArg Host.Outcome.next (State.command_accepts h State.publish)

/-- An operation begins where no entry of an operation stands (R140). -/
theorem State.beginOp_of_free {s : State} (h : ∀ e ∈ s.obs.queue, e.kind.isOperation = false) (k : OpKind) :
    s.beginOp k = { s with
      opu := { s.opu with op := some { kind := k, onBus := false } },
      obs := { s.obs with queue := s.obs.queue ++
        [{ kind := k.frame, ref := .operation, attempts := 0, queued := s.nct.now }] } } := by
  unfold State.beginOp
  refine State.place_of_free .operation fun e he => ?_
  rw [FrameKind.clashes_of_operation k.frame_isOperation]
  exact h e he

/-- Settles O12: each command's own tests, in the order in which its rule makes them. -/
theorem discardAndPublishActOnTheDrafts : Obligations.DiscardAndPublishActOnTheDrafts := by
  refine ⟨fun s haccepts => ?_, fun s haccepts => ⟨fun hempty => ?_, fun hdrafts hop => ?_, fun hdrafts hop hfree => ?_⟩⟩
  · rw [exec_discard_of_accepts haccepts]
    have hpublishing : s.raised.publishing = true ↔ s.opu.op.map (·.kind) = some .publish := by
      rw [State.publishing_iff, decide_eq_true_iff]
      rfl
    unfold State.discard
    exact congrArg Host.Outcome.next (if_congr hpublishing rfl rfl)
  · rw [exec_publish_of_accepts haccepts]
    unfold State.publish
    rw [if_pos (show s.raised.opu.drafts = [] from hempty)]
    rfl
  · rw [exec_publish_of_accepts haccepts]
    unfold State.publish
    rw [if_neg (show ¬s.raised.opu.drafts = [] from hdrafts),
      if_pos (show s.raised.opu.op.isSome = true from Option.isSome_iff_ne_none.2 hop)]
    rfl
  · rw [exec_publish_of_accepts haccepts]
    unfold State.publish
    rw [if_neg (show ¬s.raised.opu.drafts = [] from hdrafts),
      if_neg (show ¬s.raised.opu.op.isSome = true by simp [hop]),
      State.beginOp_of_free (s := s.raised) hfree]
    rfl

/-! ### READ, STAGE, CLAIM and YIELD before their access (R40, R147, R194) -/

theorem State.inRange_of_hasConfig {s : State} {c : NodeConfig} (h : s.hasConfig c) (cmd : Command) (slot : Nat)
    (k : State) : s.inRange cmd slot k = if slot < c.activeSlots then k else s.respond cmd .range := by
  unfold State.inRange
  rw [State.useConfig_good h]

theorem exec_read_of_accepts {s : State} (h : s.accepts .read) (slot view : Byte) (more : List Byte) :
    exec (.read (slot :: view :: more)) s = .next (s.raised.read slot.toNat view.toNat) :=
  congrArg Host.Outcome.next
    (State.commandArgs_accepts h (slot.toNat, view.toNat) fun (s : State) (a : Nat × Nat) => s.read a.1 a.2)

/-- A STAGE of as many words as the kept bytes hold is read as it was sent. -/
theorem readStage_keptArgs (slot : Byte) {words : List Word} (more : List Byte) (h : words.length ≤ 22) :
    readStage (keptArgs (slot :: byteOf words.length :: (wordsBytes words ++ more))) =
      some (slot.toNat, words) := by
  have hcount : (byteOf words.length).toNat = words.length := by
    unfold byteOf
    rw [BitVec.toNat_ofNat]
    omega
  have hkept : keptArgs (slot :: byteOf words.length :: (wordsBytes words ++ more)) =
      slot :: byteOf words.length :: (wordsBytes words ++ more.take (45 - 2 * words.length)) := by
    show slot :: byteOf words.length :: (wordsBytes words ++ more).take 45 = _
    rw [List.take_append, wordsBytes_length, List.take_of_length_le (by rw [wordsBytes_length]; omega)]
  rw [hkept]
  unfold readStage
  simp only [hcount, takeWords_bytes]

theorem exec_stage_of_accepts {s : State} (h : s.accepts .stage) (slot : Byte) {words : List Word} (more : List Byte)
    (hw : words.length ≤ 22) :
    exec (.stage (slot :: byteOf words.length :: (wordsBytes words ++ more))) s =
      .next (s.raised.stage slot.toNat words) := by
  show Host.Outcome.next (s.commandArgs .stage (readStage (keptArgs _)) fun s a => s.stage a.1 a.2) = _
  rw [readStage_keptArgs slot more hw, State.commandArgs_accepts h]

theorem exec_claim_of_accepts {s : State} (h : s.accepts .claim) (slot : Byte) (more : List Byte) :
    exec (.claim (slot :: more)) s = .next (s.raised.startOp .claim slot.toNat (.claim slot.toNat)) :=
  congrArg Host.Outcome.next
    (State.commandArgs_accepts h slot.toNat fun (s : State) slot => s.startOp .claim slot (.claim slot))

theorem exec_yieldSlot_of_accepts {s : State} (h : s.accepts .yieldSlot) (slot : Byte) (more : List Byte) :
    exec (.yieldSlot (slot :: more)) s = .next (s.raised.startOp .yieldSlot slot.toNat (.yield slot.toNat)) :=
  congrArg Host.Outcome.next
    (State.commandArgs_accepts h slot.toNat fun (s : State) slot => s.startOp .yieldSlot slot (.yield slot))

/-- Two tests one after the other, whose failures answer alike. -/
theorem ite_ite_and {α : Type} {p q r : Prop} [Decidable p] [Decidable q] [Decidable r] (h : r ↔ ¬q) (a b : α) :
    (if p then (if q then b else a) else b) = if p ∧ r then a else b := by
  by_cases hp : p <;> by_cases hq : q <;> simp [hp, hq, h]

/-- CLAIM and YIELD (Table 7-5): the slot's range, then the pending operation. -/
theorem State.startOp_eq {s : State} {c : NodeConfig} (h : s.hasConfig c) (cmd : Command) (slot : Nat) (hand : InHand) :
    s.startOp cmd slot hand =
      if c.activeSlots ≤ slot then s.respond cmd .range
      else if s.opu.op.isSome then s.respond cmd .busy
      else s.takeInHand hand := by
  unfold State.startOp
  rw [State.inRange_of_hasConfig h]
  by_cases hslot : c.activeSlots ≤ slot
  · rw [if_pos hslot, if_neg (Nat.not_lt.2 hslot)]
  · rw [if_neg hslot, if_pos (Nat.not_le.1 hslot)]

/-- Settles O13: the tests before the access in their order, and otherwise the command in hand with its request. -/
theorem storeCommandsComeInHand : Obligations.StoreCommandsComeInHand := by
  intro c slot s hc
  have hc' : s.raised.hasConfig c := hc
  refine ⟨fun view more haccepts => ?_, fun words more haccepts hlength => ?_, fun more haccepts => ?_,
    fun more haccepts => ?_⟩
  · have hview : (view.toNat == 1) = (view == 1) := by
      rw [Bool.eq_iff_iff, beq_iff_eq, beq_iff_eq, BitVec.toNat_eq]
      rfl
    rw [exec_read_of_accepts haccepts]
    unfold State.read
    rw [State.inRange_of_hasConfig hc', hview,
      ite_ite_and (show view.toNat ≤ 1 ↔ ¬1 < view.toNat from Nat.not_lt.symm)]
    rfl
  · rw [exec_stage_of_accepts haccepts slot more hlength]
    unfold State.stage
    rw [State.inRange_of_hasConfig hc',
      ite_ite_and (show words.length ≤ 16 ↔ ¬Config.rowWords < words.length from Nat.not_lt.symm)]
    rfl
  · rw [exec_claim_of_accepts haccepts, State.startOp_eq hc']
    rfl
  · rw [exec_yieldSlot_of_accepts haccepts, State.startOp_eq hc']
    rfl

/-! ### WATCH and UNWATCH (R169–R171) -/

theorem exec_watch_of_accepts {s : State} {c : NodeConfig} (h : s.accepts .watch) (hc : s.hasConfig c)
    {args : List Byte} {a : WatchArgs} (ha : readWatch (keptArgs args) = some a) :
    exec (.watch args) s = .next
      (if a.good c.activeSlots then
        { s.raised with wch := s.wch.set a.index (some (a.entry s.nct.now)) }.respond .watch .ok
      else s.raised.respond .watch .range) := by
  have hc' : s.raised.hasConfig c := hc
  show Host.Outcome.next (s.commandArgs .watch (readWatch (keptArgs args)) State.watch) = _
  rw [ha, State.commandArgs_accepts h]
  unfold State.watch
  rw [State.useConfig_good hc']
  rfl

theorem exec_unwatch_of_accepts {s : State} (h : s.accepts .unwatch) (index : Byte) (more : List Byte) :
    exec (.unwatch (index :: more)) s = .next (s.raised.unwatch index.toNat) :=
  congrArg Host.Outcome.next (State.commandArgs_accepts h index.toNat State.unwatch)

/-- The ranges of a WATCH with a limit part (R169). -/
theorem WatchArgs.good_of_limit {a : WatchArgs} {word : Nat} {low high : Word}
    (h : a.limit = some (word, low, high)) (n : Nat) : a.good n = true ↔
      a.index ≤ 3 ∧ a.slot < n ∧ (a.period = 0 ∨ (10 ≤ a.period ∧ a.period ≤ 60000)) ∧ word ≤ 15 ∧
        low.toNat ≤ high.toNat := by
  unfold WatchArgs.good
  rw [h]
  simp only [Bool.and_eq_true, Bool.or_eq_true, decide_eq_true_eq, BitVec.le_def, and_assoc]

/-- The ranges of a WATCH with its age alone: a period is there (R169). -/
theorem WatchArgs.good_of_no_limit {a : WatchArgs} (h : a.limit = none) (n : Nat) : a.good n = true ↔
      a.index ≤ 3 ∧ a.slot < n ∧ 10 ≤ a.period ∧ a.period ≤ 60000 := by
  unfold WatchArgs.good
  rw [h]
  simp only [Bool.and_eq_true, Bool.or_eq_true, decide_eq_true_eq]
  omega

/-- Settles O20: the bytes are read as they come, with or without the limit's, and the ranges decide. -/
theorem watchAndUnwatchSetTheirEntry : Obligations.WatchAndUnwatchSetTheirEntry := by
  refine ⟨fun index slot phi plo indicator word lhi llo hhi hlo more c s haccepts hc hlimit => ?limit,
    fun index slot phi plo more c s haccepts hc => ?age, fun index more s haccepts => ?unwatch⟩
  case limit =>
    let a : WatchArgs := {
      index := index.toNat, slot := slot.toNat, period := (wordOf phi plo).toNat,
      limit := some (word.toNat, wordOf lhi llo, wordOf hhi hlo) }
    have ha : readWatch (keptArgs (index :: slot :: phi :: plo :: indicator :: word :: lhi :: llo :: hhi :: hlo ::
        more)) = some a := if_neg hlimit
    rw [exec_watch_of_accepts haccepts hc ha]
    refine congrArg Host.Outcome.next ?_
    simp only [WatchArgs.good_of_limit (a := a) rfl, ← wordOf_toNat]
    rfl
  case age =>
    let a : WatchArgs := {
      index := index.toNat, slot := slot.toNat, period := (wordOf phi plo).toNat, limit := none }
    have ha : readWatch (keptArgs (index :: slot :: phi :: plo :: 0 :: more)) = some a := rfl
    rw [exec_watch_of_accepts haccepts hc ha]
    refine congrArg Host.Outcome.next ?_
    simp only [WatchArgs.good_of_no_limit (a := a) rfl, ← wordOf_toNat]
    refine if_ctx_congr Iff.rfl (fun hrange => ?_) fun _ => rfl
    obtain ⟨-, -, hlow, -⟩ := hrange
    have hperiod : ¬a.period = 0 := fun h => absurd (hlow.trans_eq h) (by decide)
    unfold WatchArgs.entry
    rw [if_neg hperiod]
    rfl
  case unwatch =>
    rw [exec_unwatch_of_accepts haccepts]
    unfold State.unwatch
    refine congrArg Host.Outcome.next ?_
    by_cases hindex : index.toNat ≤ 3
    · rw [if_neg (Nat.not_lt.2 hindex), if_pos hindex]
      rfl
    · rw [if_pos (Nat.not_le.1 hindex), if_neg hindex]
      rfl

/-! ### MEMBERS (R90) -/

theorem exec_members_of_accepts {s : State} (h : s.accepts .members) (hm : s.membersGood) :
    exec .members s = .next (s.answered .members .ok s.membersFields) := by
  have hm' : s.raised.membersGood := hm
  show Host.Outcome.next (s.command .members true State.members) = _
  rw [State.command_accepts h]
  unfold State.members
  rw [State.useMembers_good hm']
  rfl

/-- Four states of two bits each lie in one byte, the first in its highest bits (R202). -/
theorem memberByte_bits : ∀ a b c d : MemberState,
    let byte := (a.code <<< 6) ||| (b.code <<< 4) ||| (c.code <<< 2) ||| d.code
    (byte.toNat / 64) % 4 = a.code.toNat ∧ (byte.toNat / 16) % 4 = b.code.toNat ∧
      (byte.toNat / 4) % 4 = c.code.toNat ∧ byte.toNat % 4 = d.code.toNat := by
  intro a b c d
  cases a <;> cases b <;> cases c <;> cases d <;> exact ⟨rfl, rfl, rfl, rfl⟩

theorem State.memberByte_state (s : State) (first : Nat) {i : Nat} (h : i < 4) :
    ((s.memberByte first).toNat / 4 ^ (3 - i)) % 4 = (s.memberState (first + i)).code.toNat := by
  obtain ⟨h0, h1, h2, h3⟩ := memberByte_bits (s.memberState first) (s.memberState (first + 1))
    (s.memberState (first + 2)) (s.memberState (first + 3))
  match i, h with
  | 0, _ => exact h0
  | 1, _ => exact h1
  | 2, _ => exact h2
  | 3, _ =>
    rw [Nat.sub_self, Nat.pow_zero, Nat.div_one]
    exact h3

theorem State.membersFields_state (s : State) {n : Nat} (h : n < 16) :
    ((s.membersFields.getD (1 + n / 4) 0).toNat / 4 ^ (3 - n % 4)) % 4 = (s.mbu.entry n).state.code.toNat := by
  have hbyte : s.membersFields.getD (1 + n / 4) 0 = s.memberByte (4 * (n / 4)) := by
    have hquarter : n / 4 < 4 := by omega
    match n / 4, hquarter with
    | 0, _ => rfl
    | 1, _ => rfl
    | 2, _ => rfl
    | 3, _ => rfl
  rw [hbyte, State.memberByte_state _ _ (Nat.mod_lt n (by decide)), Nat.div_add_mod]
  rfl

/-- The two bytes of each station's wait stand one after the other. -/
theorem flatMap_wordOfNat_getD (f : Nat → Nat) (l : List Nat) (i : Nat) (h : i < l.length) :
    (l.flatMap fun n => wordOfNat (f n)).getD (2 * i) 0 ++ (l.flatMap fun n => wordOfNat (f n)).getD (2 * i + 1) 0 =
      BitVec.ofNat 16 (f l[i]) := by
  have hwords : (l.flatMap fun n => wordOfNat (f n)) = wordsBytes (l.map fun n => BitVec.ofNat 16 (f n)) := by
    unfold wordsBytes
    rw [List.flatMap_map]
    rfl
  rw [hwords]
  exact wordsBytes_getD _ i _ (by simp [h])

theorem State.membersFields_wait (s : State) {n : Nat} (h : n < 16) :
    s.membersFields.getD (5 + 2 * n) 0 ++ s.membersFields.getD (6 + 2 * n) 0 = BitVec.ofNat 16 (s.msLeft n) := by
  have hwait := flatMap_wordOfNat_getD s.msLeft (List.range 16) n (by simpa using h)
  rw [List.getElem_range] at hwait
  rw [show 5 + 2 * n = 2 * n + 5 by omega, show 6 + 2 * n = 2 * n + 1 + 5 by omega]
  exact hwait

theorem State.msLeft_of_deadline {s : State} {n : Nat} {d : Time} (hstate : (s.mbu.entry n).state = .present)
    (hdeadline : (s.mbu.entry n).deadline = some d) :
    s.msLeft n = if (d - s.nct.now).toNat ≤ 15000 then (d - s.nct.now).toNat else 0 := by
  unfold State.msLeft
  simp only [hstate, hdeadline]

/-- Without a deadline that is counted a station reads 0. -/
theorem State.msLeft_of_none {s : State} {n : Nat}
    (h : (s.mbu.entry n).state ≠ .present ∨ (s.mbu.entry n).deadline = none) : s.msLeft n = 0 := by
  unfold State.msLeft
  dsimp only
  split
  · rename_i hstate hdeadline
    rcases h with h | h
    · exact absurd hstate h
    · rw [h] at hdeadline
      cases hdeadline
  · rfl

/-- Settles O19: the states' bits and the waits' bytes, place by place. -/
theorem membersReportsTheTable : Obligations.MembersReportsTheTable :=
  fun s haccepts hm => ⟨exec_members_of_accepts haccepts hm, rfl, rfl, rfl, fun _ hn => s.membersFields_state hn,
    fun _ hn => s.membersFields_wait hn, fun _ _ => State.msLeft_of_deadline, fun _ => State.msLeft_of_none⟩

end Sys2Proof.Machine
end

section
/-!
SUPPORT. The command in hand at its grant, and the notices: READ, STAGE, CLAIM, YIELD and TAKE_NOTICE (R36–R38, R41,
R93, R108, R110, R147, R148, R150, R151, R181, R183, R194, R203, R204).
-/

set_option Elab.async false

namespace Sys2Proof.Machine

/-! ### The end of the command in hand (R194) -/

theorem State.finishInHand_eq (s : State) (c : Command) (r : ResultCode) (fields : List Byte) :
    s.finishInHand c r fields = s.handEnded c r fields := rfl

/-- A command in hand that the state no longer admits ends with WRONG_STATE. -/
theorem State.grantInHand_refused {s : State} {h : InHand} (hin : s.lpt.inHand = some h)
    (hgrant : s.sar.grant = some .lpt) (hadmits : s.admits h.command = false) :
    s.grantInHand = s.handEnded h.command .wrongState [] := by
  have hgranted : s.granted .lpt = true := by
    unfold State.granted
    rw [hgrant]
    rfl
  unfold State.grantInHand
  rw [hin]
  simp [hgranted, hadmits, State.finishInHand_eq]

/-! ### READ (R36–R38, R41) -/

/-- The snapshot header and the words, byte by byte. -/
theorem State.readFields_spec (slot : Nat) (words : List Word) (s : State) :
    let b := fun i => (s.readFields slot words).getD i 0
    (s.readFields slot words).length = 10 + 2 * words.length ∧
    b 0 = s.nct.node.code ∧ b 1 = byteOf slot ∧
    b 2 = (match (s.entry slot).state with
      | .unlearned => 0
      | .free => 1
      | .owned _ => 2
      | .orphaned => 3) ∧
    b 3 = (match (s.entry slot).state with
      | .owned o => o.setWidth 8
      | _ => 0xFF) ∧
    b 4 ++ b 5 = (s.entry slot).version ∧ b 6 = byteOf (s.entry slot).length ∧
    b 7 = (match (s.entry slot).health with
      | .good => 0
      | .damaged => 1
      | .unknown => 2
      | .failed => 3) ∧
    (b 8).toNat = (s.opu.draft slot).isSome.toNat ∧ b 9 = byteOf words.length ∧
    ∀ (i : Nat) (w : Word), words[i]? = some w → b (10 + 2 * i) ++ b (11 + 2 * i) = w := by
  have hcode : byteOf (slotStateCode (s.entry slot).state) = (match (s.entry slot).state with
      | .unlearned => (0 : Byte)
      | .free => 1
      | .owned _ => 2
      | .orphaned => 3) := by
    cases (s.entry slot).state <;> rfl
  have hhealth : healthCode (s.entry slot).health = (match (s.entry slot).health with
      | .good => (0 : Byte)
      | .damaged => 1
      | .unknown => 2
      | .failed => 3) := by
    cases (s.entry slot).health <;> rfl
  have hflag : (flagBit (s.opu.draft slot).isSome 0 : Byte).toNat = (s.opu.draft slot).isSome.toNat := by
    cases (s.opu.draft slot).isSome <;> rfl
  have howner : slotOwnerByte (s.entry slot).state = (match (s.entry slot).state with
      | .owned o => o.setWidth 8
      | _ => (0xFF : Byte)) := by
    cases (s.entry slot).state <;> rfl
  have hwords : ∀ i, (s.readFields slot words).getD (i + 10) 0 = (wordsBytes words).getD i 0 := fun _ => rfl
  refine ⟨?length, rfl, rfl, hcode, howner, Word.join_bytes _, rfl, hhealth, hflag, rfl, fun i w hw => ?word⟩
  case length =>
    show (wordsBytes words).length + 10 = _
    rw [wordsBytes_length, Nat.add_comm]
  case word =>
    dsimp only
    rw [show 10 + 2 * i = 2 * i + 10 by omega, show 11 + 2 * i = 2 * i + 1 + 10 by omega, hwords, hwords]
    exact wordsBytes_getD words i w hw

/-- A READ of a slot's draft, where it asks for it and one stands. -/
theorem State.grantedRead_draft {s : State} {slot : Nat} {d : Draft} (hp : (s.entry slot).parityGood = true)
    (hd : s.opu.draft slot = some d) :
    s.grantedRead slot true = s.handEnded .read .ok (s.readFields slot d.words) := by
  unfold State.grantedRead
  rw [State.examine_good hp, hd]
  rfl

theorem State.readCommitted_notReady {s : State} {slot : Nat}
    (h : (s.entry slot).state = .unlearned ∨ (s.entry slot).health = .unknown) :
    s.readCommitted slot (s.entry slot) = s.handEnded .read .notReady (s.readFields slot []) := by
  unfold State.readCommitted
  rcases h with h | h
  · rw [if_pos h]
    rfl
  · rw [h]
    split_ifs <;> rfl

theorem State.readCommitted_failed {s : State} {slot : Nat} (hs : (s.entry slot).state ≠ .unlearned)
    (hh : (s.entry slot).health = .failed) :
    s.readCommitted slot (s.entry slot) = s.handEnded .read .failed (s.readFields slot []) := by
  unfold State.readCommitted
  rw [if_neg hs, hh]
  rfl

theorem State.readCommitted_damaged {s : State} {slot : Nat} (hs : (s.entry slot).state ≠ .unlearned)
    (hh : (s.entry slot).health = .damaged) :
    s.readCommitted slot (s.entry slot) = s.handEnded .read .damaged (s.readFields slot []) := by
  unfold State.readCommitted
  rw [if_neg hs, hh]
  rfl

/-- A READ of a GOOD slot whose words can be delivered. -/
theorem State.readCommitted_words {s u : State} {slot : Nat} {words : List Word}
    (hs : (s.entry slot).state ≠ .unlearned) (hh : (s.entry slot).health = .good)
    (hr : s.readSlot slot = (u, some words)) :
    s.readCommitted slot (s.entry slot) = u.handEnded .read .ok (u.readFields slot words) := by
  unfold State.readCommitted
  rw [if_neg hs, hh, hr]
  rfl

/-- A READ of a GOOD slot in which a word is found uncorrectable. -/
theorem State.readCommitted_uncorrectable {s u : State} {slot : Nat}
    (hs : (s.entry slot).state ≠ .unlearned) (hh : (s.entry slot).health = .good)
    (hr : s.readSlot slot = (u, none)) (hn : u.nct.node ≠ .halted) :
    s.readCommitted slot (s.entry slot) = u.handEnded .read .damaged (u.readFields slot []) := by
  unfold State.readCommitted
  rw [if_neg hs, hh, hr]
  exact State.andThen_running hn _

/-- The words that are written back and their reports are all that a read of them changes. -/
theorem State.readThrough_eq {s u : State} {slot row : Nat} (h : s.readThrough u slot row) :
    u = { s with dst := u.dst, elg := u.elg } := by
  obtain ⟨hu, -, -⟩ := h
  rw [hu]

/-- The directory and the membership table are no part of what a read of words changes. -/
theorem State.readThrough_canonical {s u : State} {slot row : Nat} (h : s.readThrough u slot row)
    (hcan : s.canonical) : u.canonical := by
  obtain ⟨hdir, -, htable⟩ := hcan
  obtain ⟨hu, hcells, -⟩ := h
  rw [hu] at hcells ⊢
  exact ⟨hdir, hcells, htable⟩

/-- A granted READ that reports no notice answers with what the committed slot gives. -/
theorem exec_grantedRead_quiet {s t : State} {slot : Nat} {draftView : Bool} (hready : s.handReady (.read slot draftView))
    (hr : s.grantedRead slot draftView = t) (hq : t.ntq.notices = s.ntq.notices) :
    exec .commandInHandGranted s = .next t := by
  obtain ⟨hrun, -⟩ := id hready
  exact Rows.commandInHandGranted_quiet hrun ((State.grantInHand_ready hready).trans hr) hq

/-- A granted READ of a slot with an uncorrectable word: damage handling after the read of its words, and then the
answer, which it does not touch. -/
theorem exec_grantedRead_uncorrectable {s u : State} {c : NodeConfig} {slot row w : Nat} {draftView : Bool}
    (hready : s.handReady (.read slot draftView)) (hp : (s.entry slot).parityGood = true)
    (hd : draftView = false ∨ s.opu.draft slot = none) (hs : (s.entry slot).state ≠ .unlearned)
    (hh : (s.entry slot).health = .good) (hcan : s.canonical) (hc : s.hasConfig c) (hn : s.nct.node ≠ .halted)
    (hu : s.readThrough u slot row) (hr : s.readSlot slot = (u.damage slot row w, none)) :
    ∃ t, exec .commandInHandGranted s = .next t ∧ u.damagedTo t c slot row w ∧
      t.lpt = (s.handEnded .read .damaged (t.readFields slot [])).lpt ∧ t.sar = s.sar.handOver ∧
      t.scb = s.scb := by
  obtain ⟨hrun, -, hgrant, -⟩ := id hready
  have huc := State.readThrough_canonical hu hcan
  have hue := State.readThrough_eq hu
  have hun : u.nct.node ≠ .halted := by
    rw [hue]
    exact hn
  have hcu : u.hasConfig c := by
    rw [hue]
    exact hc
  have hpu : (u.entry slot).parityGood = true := by
    rw [hue]
    exact hp
  obtain ⟨hdamaged, hdn, node, dir, rpe, obs, dst, ntq, elg, hframe⟩ := State.damage_spec (row := row) (w := w) huc
    hun hcu hpu
  generalize u.damage slot row w = v at *
  have hlevel : s.levelGood := fun c' hc' => by
    obtain ⟨hconfig, hparity⟩ := hc
    rw [hconfig] at hc'
    cases hc'
    exact hparity
  refine ⟨v.handEnded .read .damaged (v.readFields slot []), ?_, hdamaged, ?_, ?_, ?_⟩
  · rw [Rows.commandInHandGranted hlevel, State.live_out hrun, State.grantInHand_ready hready]
    show Host.Outcome.next (s.grantedRead slot draftView) = _
    rw [State.grantedRead_committed hp hd, State.readCommitted_uncorrectable hs hh hr hdn]
  · have hlpt : v.lpt = s.lpt := by rw [hframe, hue]
    unfold State.handEnded
    simp only [hlpt]
    rfl
  · show v.sar.letGo .lpt = _
    rw [hframe, hue]
    exact Sar.letGo_held hgrant
  · show v.scb = _
    rw [hframe, hue]

/-- Settles O14: the refusal; the draft or the committed slot by its state and health; and the bytes of the answer. -/
theorem grantedReadAnswersBySlotState : Obligations.GrantedReadAnswersBySlotState := by
  refine ⟨fun h s hrun hin hgrant hadmits => Rows.commandInHandGranted_quiet hrun
      (State.grantInHand_refused hin hgrant hadmits) rfl, fun slot draftView s hready hp => ⟨?draft, fun hd => ?_⟩,
    fun slot words s => s.readFields_spec slot words⟩
  case draft =>
    rintro d rfl hd
    exact exec_grantedRead_quiet hready (State.grantedRead_draft hp hd) rfl
  have hcommitted := State.grantedRead_committed hp hd
  refine ⟨fun h => exec_grantedRead_quiet hready (hcommitted.trans (State.readCommitted_notReady h)) rfl,
    fun hs hh => exec_grantedRead_quiet hready (hcommitted.trans (State.readCommitted_failed hs hh)) rfl,
    fun hs hh => exec_grantedRead_quiet hready (hcommitted.trans (State.readCommitted_damaged hs hh)) rfl,
    fun row hs hh hrow => ⟨fun hclean => ?clean, fun hlength hcan => ?disturbed⟩⟩
  case clean =>
    exact exec_grantedRead_quiet hready (hcommitted.trans
      (State.readCommitted_words hs hh (State.readSlot_clean hrow hclean))) rfl
  case disturbed =>
    obtain ⟨hdir, hcells, htable⟩ := id hcan
    obtain ⟨u, hu, hdelivers, hbad⟩ := State.readSlot_spec hcells hrow hlength
    refine ⟨u, hu, fun hgood => ?_, fun c w hw hc hn =>
      exec_grantedRead_uncorrectable hready hp hd hs hh hcan hc hn hu (hbad w hw)⟩
    refine exec_grantedRead_quiet hready (hcommitted.trans
      ((State.readCommitted_words hs hh (hdelivers hgood)).trans ?_)) rfl
    rw [State.readThrough_eq hu]
    rfl

/-! ### STAGE (R151) -/

/-- No draft of the slot stands where none is found. -/
theorem Opu.draft_eq_none {o : Opu} {slot : Nat} : o.draft slot = none ↔ ∀ d ∈ o.drafts, d.slot ≠ slot := by
  unfold Opu.draft
  rw [List.find?_eq_none]
  simp only [beq_iff_eq]

theorem stageDraft_eq (o : Opu) (slot : Nat) (words : List Word) :
    stageDraft { slot := slot, words := words } o.drafts =
      if o.draft slot = none then o.drafts ++ [{ slot := slot, words := words }]
      else o.drafts.map fun d => if d.slot = slot then { slot := slot, words := words } else d := by
  unfold stageDraft
  by_cases hd : o.draft slot = none
  · have hany : ¬(o.drafts.any fun d => d.slot == slot) = true := by
      rw [List.any_eq_true]
      rintro ⟨d, hmem, heq⟩
      exact Opu.draft_eq_none.1 hd d hmem (beq_iff_eq.1 heq)
    rw [if_pos hd, if_neg hany]
  · have hany : (o.drafts.any fun d => d.slot == slot) = true := by
      rw [Opu.draft_eq_none] at hd
      push Not at hd
      obtain ⟨d, hmem, heq⟩ := hd
      exact List.any_eq_true.2 ⟨d, hmem, beq_iff_eq.2 heq⟩
    rw [if_neg hd, if_pos hany]

theorem State.grantedStage_eq {s : State} {slot : Nat} (hp : (s.entry slot).parityGood = true) (words : List Word) :
    s.grantedStage slot words =
      if (s.entry slot).state ≠ .owned s.nct.station then s.handEnded .stage .notOwner []
      else if s.opu.op.map (·.kind) = some .publish then s.handEnded .stage .busy []
      else if 4 ≤ s.opu.drafts.length ∧ s.opu.draft slot = none then s.handEnded .stage .full []
      else { s.handEnded .stage .ok [] with
        opu := { s.opu with drafts := stageDraft { slot := slot, words := words } s.opu.drafts } } := by
  unfold State.grantedStage
  rw [State.examine_good hp]
  simp only [State.publishing_iff, decide_eq_true_eq, Bool.and_eq_true, Option.isNone_iff_eq_none]
  rfl

/-- Settles O15: the branches of the granted STAGE, none of which reports a notice. -/
theorem grantedStageKeepsTheDraft : Obligations.GrantedStageKeepsTheDraft := by
  intro slot words s hready hp
  obtain ⟨hrun, -⟩ := id hready
  rw [← stageDraft_eq, ← State.grantedStage_eq hp]
  refine Rows.commandInHandGranted_quiet hrun (State.grantInHand_ready hready) ?_
  rw [State.grantedStage_eq hp]
  split_ifs <;> rfl

/-! ### CLAIM and YIELD (R147, R148, R150) -/

/-- Settles O16: the operation begins where the entry admits it, and its entry is the queue's last. -/
theorem grantedClaimOrYieldBegins : Obligations.GrantedClaimOrYieldBegins := by
  intro slot s hp hfree
  refine ⟨fun hready => ?claim, fun hready => ?yield⟩
  case claim =>
    obtain ⟨hrun, -⟩ := id hready
    refine Rows.commandInHandGranted_quiet hrun ((State.grantInHand_ready hready).trans ?_) (by split_ifs <;> rfl)
    show s.grantedClaim slot = _
    unfold State.grantedClaim
    rw [State.examine_good hp, State.beginOp_of_free (k := .claim slot) hfree]
    cases (s.entry slot).state <;> rfl
  case yield =>
    obtain ⟨hrun, -⟩ := id hready
    refine Rows.commandInHandGranted_quiet hrun ((State.grantInHand_ready hready).trans ?_) (by split_ifs <;> rfl)
    show s.grantedYield slot = _
    unfold State.grantedYield
    rw [State.examine_good hp, State.beginOp_of_free (k := .yield slot) hfree]
    rfl

end Sys2Proof.Machine
end

section
/-!
SUPPORT. TAKE_NOTICE and the notice line (R93, R108, R110, R181, R183, R203, R204).
-/

set_option Elab.async false

namespace Sys2Proof.Machine

/-! ### The notice that is taken (R181) -/

theorem exec_takeNotice_of_portOpen {s : State} (h : s.portOpen) :
    exec .takeNotice s = s.driving s.raised.takeNotice :=
  congrArg s.driving (State.command_accepts (State.accepts_always h rfl) State.takeNotice)

theorem Ntq.takeNotice_empty {q : Ntq} (h : q.notices = []) : q.takeNotice = none := by
  unfold Ntq.takeNotice Ntq.highest
  rw [h]
  rfl

/-- The first notice of a severity than which none is higher is taken out of its place. -/
theorem Ntq.takeNotice_first {q : Ntq} {before rest : List Notice} {n : Notice} (hq : q.notices = before ++ n :: rest)
    (hfirst : ∀ m ∈ before, m.severity ≠ n.severity)
    (hhigh : ∀ m ∈ q.notices, (m.severity = .critical → n.severity = .critical) ∧
      (m.severity = .high → n.severity ≠ .low)) :
    q.takeNotice = some (n, { q with notices := before ++ rest }) := by
  have hmem : n ∈ q.notices := hq ▸ List.mem_append_right before List.mem_cons_self
  have hself : Notice.hasSeverity n.severity n = true := decide_eq_true rfl
  have hbefore : ∀ m ∈ before, ¬Notice.hasSeverity n.severity m = true := fun m hm =>
    fun h => hfirst m hm (of_decide_eq_true h)
  have hfind : q.notices.find? (Notice.hasSeverity n.severity) = some n := by
    rw [hq, List.find?_append, List.find?_eq_none.2 hbefore, List.find?_cons_of_pos hself]
    rfl
  have herase : q.notices.eraseP (Notice.hasSeverity n.severity) = before ++ rest := by
    rw [hq, List.eraseP_append_right _ hbefore, List.eraseP_cons_of_pos hself]
  unfold Ntq.takeNotice
  rw [Ntq.highest_of hmem hhigh]
  simp only [hfind, herase]

theorem State.takeNotice_of_none {s : State} (h : s.ntq.takeNotice = none) :
    s.takeNotice = s.respond .takeNotice .empty := by
  unfold State.takeNotice
  rw [h]

theorem State.takeNotice_of_some {s : State} {n : Notice} {q : Ntq} (h : s.ntq.takeNotice = some (n, q)) :
    s.takeNotice =
      { s with ntq := q }.respondWith Command.takeNotice.code .ok (byteOf q.notices.length :: n.bytes) := by
  unfold State.takeNotice
  rw [h]

/-! ### The notice line (R183) -/

/-- Notices that are all CRITICAL leave the enables unused. -/
theorem State.driveNirq_critical {s : State} (h : ∀ m ∈ s.ntq.notices, m.severity = .critical)
    (before : List Notice) : s.driveNirq before = s := by
  have hnone : s.ntq.notices.any Notice.byEnable = false := by
    rw [List.any_eq_false]
    exact fun m hm hb => of_decide_eq_true hb (h m hm)
  unfold State.driveNirq
  rw [hnone]
  simp

theorem State.exists_of_not_levelGood {s : State} (h : ¬s.levelGood) :
    ∃ c, s.nct.config = some c ∧ c.parityGood = false := by
  unfold State.levelGood at h
  push Not at h
  obtain ⟨c, hc, hparity⟩ := h
  exact ⟨c, hc, by simpa using hparity⟩

theorem State.calls_iff {s : State} {n : Notice} : s.calls n = true ↔
    n.severity = .critical ∨ (n.severity = .high ∧ ∃ c, s.nct.config = some c ∧ c.enableHigh = true) ∨
      (n.severity = .low ∧ ∃ c, s.nct.config = some c ∧ c.enableLow = true) := by
  unfold State.calls
  cases n.severity with
  | critical => simp
  | high =>
    cases s.nct.config with
    | none => simp
    | some c => simp
  | low =>
    cases s.nct.config with
    | none => simp
    | some c => simp

theorem State.nirqLow_iff (s : State) : s.nirqLow = true ↔ s.nct.nrstLow = false ∧ ∃ n ∈ s.ntq.notices,
    n.severity = .critical ∨ (n.severity = .high ∧ ∃ c, s.nct.config = some c ∧ c.enableHigh = true) ∨
      (n.severity = .low ∧ ∃ c, s.nct.config = some c ∧ c.enableLow = true) := by
  unfold State.nirqLow
  simp only [Bool.and_eq_true, Bool.not_eq_true', List.any_eq_true, State.calls_iff]

/-! ### The notice record (R203) -/

theorem Notice.recordHolds_all (n : Notice) : n.recordHolds := by
  cases n with
  | limit index slot direction word => exact ⟨rfl, rfl, Word.join_bytes word⟩
  | catchupDone count => exact ⟨rfl, rfl, Word.join_bytes _⟩
  | halted _ | isolated _ | opDone _ _ _ | stale _ _ | slotUnresolved _ | slotFailed _ | busStuck
  | recordChanged _ _ | memberChanged _ _ => exact ⟨rfl, rfl, show (0 : Byte) ++ (0 : Byte) = (0 : Word) from rfl⟩

/-- Settles O17: the queue without the notice that is taken, whose change drives NIRQ and so meets a parity mismatch of
the enables where one of them decides. -/
theorem takeNoticeTakesTheHighest : Obligations.TakeNoticeTakesTheHighest := by
  refine ⟨fun s hopen => ⟨fun hempty => ?empty, fun before rest n hq hfirst hhigh => ?taken⟩,
    Notice.recordHolds_all, rfl, rfl, rfl, rfl, rfl, rfl, rfl, State.nirqLow_iff⟩
  case empty =>
    rw [exec_takeNotice_of_portOpen hopen, State.takeNotice_of_none (Ntq.takeNotice_empty (q := s.raised.ntq) hempty)]
    exact State.driving_quiet (.inl rfl)
  case taken =>
    have htake := State.takeNotice_of_some (s := s.raised) (Ntq.takeNotice_first (q := s.raised.ntq) hq hfirst hhigh)
    rw [exec_takeNotice_of_portOpen hopen, htake]
    refine ⟨?quiet, fun hlevel hnode hmore => ?fault⟩
    case quiet =>
      rintro (hlevel | hnode | hcritical)
      · exact State.driving_quiet (.inr (.inr hlevel))
      · exact State.driving_quiet (.inr (.inl hnode))
      · exact congrArg Host.Outcome.next (State.driveNirq_critical hcritical _)
    case fault =>
      obtain ⟨c, hconfig, hparity⟩ := State.exists_of_not_levelGood hlevel
      have hchanged : before ++ rest ≠ s.ntq.notices := fun h => by
        have hlength := congrArg List.length (h.trans hq)
        simp only [List.length_append, List.length_cons] at hlength
        omega
      exact ⟨_, congrArg Host.Outcome.next (State.driveNirq_fault hchanged hnode hmore hconfig hparity),
        State.report_halt_spec (s := { s.answered .takeNotice .ok (byteOf (before ++ rest).length :: n.bytes) with
          ntq := { s.ntq with notices := before ++ rest } }) hnode .internalFault .none .internalFault⟩

end Sys2Proof.Machine
end

section
/-!
SUPPORT. The pins, the disturbances and the fault checker (R27, R29, R39, R106–R110, R188, R190).
-/

set_option Elab.async false

namespace Sys2Proof.Machine

/-! ### NRST held low (R110, R190) -/

/-- SDO carries nothing while NRST is low, whether NSEL is high or low. -/
theorem State.holdReset_sdoByte (s : State) (n : Nat) : s.holdReset.sdoByte n = none := by
  unfold State.sdoByte State.holdReset
  cases s.lpt.nsel <;> rfl

/-- Settles O21: the row writes the pins and the work in progress, and nothing inside. -/
theorem heldResetReleasesThePins : Obligations.HeldResetReleasesThePins :=
  fun s => ⟨s.holdReset, rfl, rfl, rfl, s.holdReset_sdoByte, rfl, rfl, rfl, rfl, rfl, rfl, rfl, rfl, rfl, rfl, rfl, rfl,
    rfl, rfl, rfl, rfl, rfl, rfl, rfl, rfl⟩

/-! ### Power fail (R106, R107) -/

theorem exec_pfailEdge_of_out {s t : State} (hrun : s.nct.nrstLow = false) (ht : s.pfailEdge = t)
    (hquiet : t.ntq.notices = s.ntq.notices ∨ t.nct.node = .halted ∨ t.levelGood) :
    exec .pfailEdge s = .next t := by
  show s.driving (s.live State.pfailEdge) = _
  rw [State.live_out hrun, ht]
  exact State.driving_quiet hquiet

/-- An edge in a halted node, or after an edge that is latched, does nothing. -/
theorem State.pfailEdge_idle {s : State} (h : s.nct.node = .halted ∨ s.nct.pfailLatch = true) : s.pfailEdge = s := by
  unfold State.pfailEdge
  rw [if_pos (by simpa using h)]

/-- The first edge is latched, and the node leaves the bus or halts. -/
theorem State.pfailEdge_first {s : State} (hnode : s.nct.node ≠ .halted) (hlatch : s.nct.pfailLatch = false) :
    s.pfailEdge =
      if s.nct.node.participating then { s with nct := { s.nct with pfailLatch := true } }.startPfailLeave
      else { s with nct := { s.nct with pfailLatch := true } }.halt .pfail := by
  unfold State.pfailEdge
  rw [if_neg (by simp [hnode, hlatch])]

/-- The power-fail leave empties the work of the node and queues its LEAVE. -/
theorem State.startPfailLeave_eq (s : State) : s.startPfailLeave = { s with
    nct := { s.nct with phase := .pfailLeave, pfailWait := some 0 },
    pbi := s.pbi.abortOwn.releaseReceiver,
    fck := Fck.idle,
    sar := s.sar.withdrawScb.letGo .fck,
    mbu := s.mbu.stop,
    obs := { queue := [{ kind := .leave, ref := .none, attempts := 0, queued := s.nct.now }], build := none },
    rpe := s.rpe.stop,
    opu := { s.opu with op := none },
    scb := s.scb.stop,
    ntq := s.ntq.arriveAll (s.opAborted ++ s.leaveAborted) } := by
  unfold State.startPfailLeave
  simp only [State.endOp_eq, State.abortLeave_eq]
  rw [State.place_of_free .none (fun _ h => absurd h (List.not_mem_nil))]
  simp only [Ntq.arriveAll_append]
  rfl

theorem Pbi.abortOwn_shift (p : Pbi) : p.abortOwn.shift = if p.shift.transmitting then .idle else p.shift := by
  unfold Pbi.abortOwn
  split_ifs <;> rfl

theorem exec_pfailWaitExpiry_of_running {s : State} (h : s.running) {n : Nat} (hwait : s.nct.pfailWait = some n)
    (hsend : s.pbi.shift.transmitting = false) :
    exec .pfailWaitExpiry s = .next ((s.elapse (2048 - n)).halt .pfail) := by
  obtain ⟨hrun, hnode⟩ := h
  show Host.Outcome.next (s.live State.pfailExpiry) = _
  rw [State.live_out hrun]
  unfold State.pfailExpiry
  rw [hwait]
  exact congrArg Host.Outcome.next (if_neg (by simp [hnode, hsend]))

/-- Settles O22: the edge that does nothing, the halt, the power-fail leave, and the wait's end. -/
theorem powerFailHaltsOrLeaves : Obligations.PowerFailHaltsOrLeaves := by
  refine ⟨fun s h => ?again, fun s hrunning hlatch hpart => ?halt, fun s hrunning hlatch hpart hlevel => ?leave,
    fun n s hrunning hwait hsend => ?expiry⟩
  case again =>
    have hlive : s.live State.pfailEdge = s := by
      unfold State.live
      rw [State.pfailEdge_idle h, ite_self]
    show s.driving (s.live State.pfailEdge) = _
    rw [hlive]
    exact State.driving_quiet (.inl rfl)
  case halt =>
    obtain ⟨hrun, hnode⟩ := hrunning
    have hspec := State.halt_spec (s := { s with nct := { s.nct with pfailLatch := true } }) hnode .pfail
    obtain ⟨hnct, -⟩ := id hspec
    have hedge := State.pfailEdge_first hnode hlatch
    rw [if_neg (by simp [hpart])] at hedge
    exact ⟨_, exec_pfailEdge_of_out hrun hedge (.inr (.inl (by rw [hnct]))), hspec⟩
  case leave =>
    obtain ⟨hrun, hnode⟩ := hrunning
    have hedge := State.pfailEdge_first hnode hlatch
    rw [if_pos hpart, State.startPfailLeave_eq] at hedge
    refine ⟨_, exec_pfailEdge_of_out hrun hedge (.inr (.inr hlevel)), rfl, rfl, rfl, rfl, rfl, rfl, rfl, rfl, ?_,
      s.pbi.abortOwn_shift, rfl, rfl, rfl, rfl, rfl, rfl⟩
    show s.pbi.abortOwn.releaseReceiver = _
    rw [Pbi.abortOwn_frame]
    rfl
  case expiry =>
    obtain ⟨hrun, hnode⟩ := id hrunning
    have hnode' : (s.elapse (2048 - n)).nct.node ≠ .halted := by
      rw [State.elapse_nct]
      exact hnode
    have hspec := State.halt_spec hnode' .pfail
    obtain ⟨hnct, -⟩ := id hspec
    refine ⟨_, exec_pfailWaitExpiry_of_running hrunning hwait hsend, hspec, ?_⟩
    rw [hnct, State.elapse_out hrun]
    simp only [if_neg hnode, hwait, Option.map_some]
    congr 1
    omega

/-! ### Disturbances (R27, R29, R39) -/

/-- Settles O23: one cell or one entry is written, and every other one is as it was. -/
theorem disturbanceChangesStoredBits : Obligations.DisturbanceChangesStoredBits := by
  refine ⟨fun row position flips s hcan hrow hposition => ?cell, fun row position flips s hno => if_neg hno,
    fun slot bits s hcan => ?entry, fun n s hcan => ?member, fun c s hc => ?config⟩
  case cell =>
    obtain ⟨-, hcells, -⟩ := hcan
    refine ⟨s.disturbCell row position flips, if_pos ⟨hrow, hposition⟩, rfl, rfl, fun r p hp => ?_⟩
    show (s.dst.putCell row position _).cell r p = _
    rw [Dst.cell_putCell hcells row position r p _ hp hposition]
    refine if_ctx_congr Iff.rfl (fun heq => ?_) fun _ => rfl
    obtain ⟨rfl, rfl⟩ := heq
    rfl
  case entry =>
    obtain ⟨hdir, -⟩ := hcan
    obtain ⟨hsorted, -⟩ := hdir
    refine ⟨s.disturbEntry slot.toNat bits, rfl, rfl, ?_, fun n hn => ?_⟩
    · exact congrArg DirEntry.parityGood ((sparseGet_put hsorted _ _ _).trans (if_pos rfl))
    · exact (sparseGet_put hsorted _ _ _).trans (if_neg hn)
  case member =>
    obtain ⟨-, -, htable⟩ := hcan
    obtain ⟨hsorted, -⟩ := htable
    refine ⟨s.disturbMember n.toNat, rfl, rfl, ?_, fun m hm => ?_⟩
    · exact congrArg MemberEntry.parityGood ((sparseGet_put hsorted _ _ _).trans (if_pos rfl))
    · exact (sparseGet_put hsorted _ _ _).trans (if_neg hm)
  case config =>
    show Host.Outcome.next s.disturbConfig = _
    unfold State.disturbConfig
    rw [hc]
    rfl

/-! ### The fault checker (R108, R109) -/

theorem exec_faultCheckerAlarm_of_out {s : State} (h : s.nct.nrstLow = false) :
    exec .faultCheckerAlarm s = .next (s.internalFault .none) :=
  congrArg Host.Outcome.next (State.live_out h _)

/-- Settles O24: the report and then the halt, which a halted node does not repeat. -/
theorem faultCheckerAlarmHalts : Obligations.FaultCheckerAlarmHalts := by
  refine ⟨fun s hrunning => ?running, fun s hrun hhalted => ?halted⟩
  case running =>
    obtain ⟨hrun, hnode⟩ := hrunning
    exact ⟨_, exec_faultCheckerAlarm_of_out hrun, State.report_halt_spec hnode _ _ _⟩
  case halted =>
    rw [exec_faultCheckerAlarm_of_out hrun]
    exact congrArg Host.Outcome.next (State.halt_halted (s := s.report .internalFault .none) hhalted _)

end Sys2Proof.Machine
end

section
/-!
SUPPORT. The bus is free (R4, R5, R82, R87, R97, R116, R127, R135, R136, R140, R144, R145, R154).
-/

set_option Elab.async false

namespace Sys2Proof.Machine

/-! ### The node when the bus is free (R4) -/

/-- When the bus is free the last-sender flag is clear, local time is the free time, and of the scrubber only the timer
has moved. -/
theorem State.idleFor_ready {s : State} (hr : s.running) :
    ∃ nct pbi scb, (s.idleFor s.pbi.freeCount).setShift .idle = { s with nct := nct, pbi := pbi, scb := scb } ∧
      nct = { s.nct with now := nct.now, subBits := nct.subBits, pfailWait := nct.pfailWait } ∧
      pbi.shift = .idle ∧ pbi.lastSender = false ∧ nct.now = s.freeTime ∧
      scb = { s.scb with timer := scb.timer } := by
  obtain ⟨hrun, -⟩ := id hr
  obtain ⟨nct, pbi, scb, hframe, hnct, hshift, hlast⟩ := s.idleFor_free hr
  refine ⟨nct, pbi, scb, hframe, hnct, hshift, hlast, ?_, ?_⟩
  · exact (congrArg (fun t => t.nct.now) hframe).symm.trans (State.idleFor_now hrun)
  · have hscb : (s.idleFor s.pbi.freeCount).scb = scb := congrArg State.scb hframe
    have htimer := s.idleFor_scb s.pbi.freeCount
    rw [hscb] at htimer
    exact htimer

/-- BUS_FREE where what it leaves drives NIRQ without a fault. -/
theorem exec_busFree_quiet {s t : State} (hr : s.running) (hi : s.pbi.mayIdle = true) {startSeen : Bool}
    (ht : ((s.idleFor s.pbi.freeCount).setShift .idle).startFrame startSeen = t)
    (hq : t.ntq.notices = s.ntq.notices ∨ t.nct.node = .halted ∨ t.levelGood) :
    exec (.busFree startSeen) s = .next t := by
  show s.driving (s.onBus fun s => s.busFree startSeen) = _
  rw [State.busFree_at hr hi, ht]
  exact State.driving_quiet hq

/-- A frame that may be built before the idle time of the bus may be built after it. -/
theorem State.builds_idle {s : State} {p : Payload} {nct : Nct} (pbi : Pbi) (scb : Scb)
    (hn : nct = { s.nct with now := nct.now, subBits := nct.subBits, pfailWait := nct.pfailWait }) (h : s.builds p) :
    State.builds { s with nct := nct, pbi := pbi, scb := scb } p := by
  rw [hn]
  cases p <;> exact h

/-! ### The start condition (R5, R140) -/

/-- The start condition of a frame, and the record of its operation. -/
theorem State.giveStart_eq (s : State) (f : Frame) : s.giveStart f = { s with
    obs := { s.obs with build := none },
    pbi := { s.pbi.goActive with shift := .sending f },
    opu := if f.kind.isOperation then
        { s.opu with op := s.opu.op.map fun o => { o with onBus := true } }
      else s.opu } := by
  unfold State.giveStart
  by_cases h : f.kind.isOperation = true
  · simp only [if_pos h]
    rfl
  · simp only [if_neg h]

/-- A build in hand is started without another. -/
theorem State.startFrame_inHand {s : State} {f : Frame} (hb : s.obs.build = some f) :
    s.startFrame false = s.giveStart f := by
  unfold State.startFrame
  simp only [hb, Option.isSome_some, if_true]
  rfl

theorem State.startFrame_of_buildFrame {s t : State} {f : Frame} (hb : s.obs.build = none) (ht : s.buildFrame = t)
    (hf : t.obs.build = some f) : s.startFrame false = t.giveStart f := by
  unfold State.startFrame
  simp only [hb, Option.isSome_none, Bool.false_eq_true, if_false, ht, hf]

/-! ### The offers (R135, R136) -/

/-- An empty queue offers nothing. -/
theorem State.offer_empty {s : State} (hq : s.obs.queue = []) (hf : s.fck.purpose ≠ some .build)
    (ks : List FrameKind) : State.offer ks s = (s, none) := by
  have hnone : ∀ k, s.obs.holds k = false := fun k => Obs.holds_false.2 fun e he => by
    rw [hq] at he
    exact absurd he List.not_mem_nil
  induction ks with
  | nil =>
    unfold State.offer State.cutBuild
    rw [if_neg hf]
  | cons k ks ih => rw [State.offer_skip (by rw [hnone k]; rfl), ih]

theorem State.buildFrame_empty {s : State} (hq : s.obs.queue = []) (hf : s.fck.purpose ≠ some .build) :
    s.buildFrame = s := by
  unfold State.buildFrame
  rw [State.offer_empty hq hf]

/-- The scheduler's frame where a build takes a held give-up access over (R122). -/
theorem State.buildFrame_takesOver {s : State} {c : NodeConfig} {d : DueGiveUp} {p : Payload}
    (hlowest : ∀ e ∈ s.obs.queue, p.kind.code ≤ e.kind.code)
    (hh : s.obs.holds p.kind = true) (hm : s.maySend p.kind = true) (hn : p.kind.needsStore = true)
    (hr : s.nct.node ≠ .halted) (hf : s.fck.purpose = some .giveUp) (hk : s.sar.grant = some .fck)
    (hdue : s.rpe.due = some d) (hb : s.builds p) (hd : sparseWf DirEntry.blank s.dir) (hg : s.entriesGood)
    (hc : s.hasConfig c) :
    ∃ t, s.buildFrame = { t with obs := { t.obs with build := some { sender := t.nct.station, payload := p } } } ∧
      s.givenUp t c (d.slots.filter fun n => s.rpe.wanted.contains n) ∧ t.nct.node ≠ .halted ∧
      ∃ nct dir rpe obs ntq, t = { s with
        nct := nct, dir := dir, rpe := rpe, obs := obs, ntq := ntq,
        fck := { s.fck with purpose := none }, sar := s.sar.handOver } := by
  obtain ⟨ks, hoffers⟩ := State.offer_from p.kind
  obtain ⟨t, hoffer, hspec⟩ := State.offer_takesOver (ks := ks) hh hm hn hr hf hk hdue hb hd hg hc
  refine ⟨t, ?_, hspec⟩
  unfold State.buildFrame
  rw [hoffers s hlowest, hoffer]

/-! ### BUS_FREE -/

/-- A give-up access that the build takes over: the give-up, then the frame's start. -/
theorem exec_busFree_takesOver {s : State} {c : NodeConfig} {d : DueGiveUp} {p : Payload} (hcan : s.canonical)
    (hstart : State.mayStart { s.withoutDue with
      fck := { s.fck with purpose := none },
      sar := { grant := none, fckWaits := false, lptWaits := false, scbWaits := false } } p.kind)
    (hstore : p.kind.needsStore = true) (hbuilds : s.builds p) (hf : s.fck.purpose = some .giveUp)
    (hk : s.sar.grant = some .fck) (hdue : s.rpe.due = some d) (hg : s.entriesGood) (hc : s.hasConfig c) :
    ∃ t, exec (.busFree false) s = .next t ∧
      State.givenUp
        { s with nct := { s.nct with now := t.nct.now, subBits := t.nct.subBits, pfailWait := t.nct.pfailWait } }
        t c (d.slots.filter fun n => s.rpe.wanted.contains n) ∧
      t.pbi.shift = .sending { sender := s.nct.station, payload := p } ∧ t.pbi.lines = .active ∧
      t.pbi.lastSender = false ∧ t.obs.build = none ∧
      t.opu = (if p.kind.isOperation then
        { s.opu with op := s.opu.op.map fun o => { o with onBus := true } } else s.opu) ∧
      t.fck = { s.fck with purpose := none } ∧ t.sar = s.sar.handOver ∧
      t.dst = s.dst ∧ t.mbu = s.mbu ∧ t.wch = s.wch ∧ t.elg = s.elg ∧ t.lpt = s.lpt ∧ t.pending = s.pending := by
  obtain ⟨hr, hi, hbuild, hholds, hlowest, -⟩ := id hstart
  have hr : s.running := hr
  obtain ⟨nct, pbi, scb, hframe, hnct, hshift, hlast, -⟩ := State.idleFor_ready hr
  obtain ⟨v, hv⟩ : ∃ v : State, v = { s with nct := nct, pbi := pbi, scb := scb } := ⟨_, rfl⟩
  have hsend : v.maySend p.kind = true := by
    have hbefore := State.maySend_of_mayStart hstart
    rw [hv, hnct]
    exact hbefore
  have hvc : v.hasConfig c := by
    rw [hv]
    exact ⟨by rw [hnct]; exact hc.1, hc.2⟩
  have hvn : v.nct.node ≠ .halted := by
    rw [hv, hnct]
    exact hr.2
  have hvb : v.builds p := by
    rw [hv]
    exact State.builds_idle pbi scb hnct hbuilds
  obtain ⟨t, hbuilt, hgiven, -, nct', dir, rpe, obs, ntq, ht⟩ := State.buildFrame_takesOver (s := v) (c := c) (d := d)
    (by rw [hv]; exact hlowest) (by rw [hv]; exact hholds) hsend hstore hvn (by rw [hv]; exact hf)
    (by rw [hv]; exact hk) (by rw [hv]; exact hdue) hvb (by rw [hv]; exact hcan.1) (by rw [hv]; exact hg) hvc
  obtain ⟨-, -, -, -, -, -, htn, -⟩ := id hgiven
  have hvnct : v.nct = nct := by rw [hv]
  have hstation : t.nct.station = s.nct.station := by
    rw [htn, hvnct, hnct]
  have hlevel : t.levelGood := by
    have hcfg : t.nct.config = v.nct.config := by rw [htn]
    refine fun c' hc' => ?_
    rw [hcfg] at hc'
    exact hvc.levelGood c' hc'
  have htime : { s.nct with now := t.nct.now, subBits := t.nct.subBits, pfailWait := t.nct.pfailWait } = nct := by
    rw [htn, hvnct]
    exact hnct.symm
  have hrow : exec (.busFree false) s = .next (State.giveStart
      { t with obs := { t.obs with build := some { sender := t.nct.station, payload := p } } }
      { sender := t.nct.station, payload := p }) := by
    refine exec_busFree_quiet hr hi ?_ ?_
    · rw [hframe, ← hv]
      exact State.startFrame_of_buildFrame (by rw [hv]; exact hbuild) hbuilt rfl
    · rw [State.giveStart_eq]
      exact .inr (.inr hlevel)
  rw [hstation, State.giveStart_eq] at hrow
  refine ⟨_, hrow, ?_, rfl, rfl, ?_, rfl, ?_, ?_, ?_, ?_, ?_, ?_, ?_, ?_, ?_⟩
  · show State.givenUp
      { s with nct := { s.nct with now := t.nct.now, subBits := t.nct.subBits, pfailWait := t.nct.pfailWait } } _ _ _
    rw [htime]
    rw [hv] at hgiven
    exact hgiven
  · show t.pbi.lastSender = false
    rw [ht, hv]
    exact hlast
  · show (if p.kind.isOperation = true then _ else _) = _
    rw [ht, hv]
  all_goals
    simp only
    rw [ht, hv]

/-- What the build of a frame leaves of the repair engine: an ASK keeps the slots it names. -/
def Rpe.afterBuild (r : Rpe) : Payload → Rpe
  | .ask first _ count => { r with cycle := r.cycle.map fun c => { c with sent := some (first.toNat, count.toNat) } }
  | _ => r

/-- A frame that the present state gives: its start, or its stay in hand. -/
theorem exec_busFree_built {s : State} {p : Payload} (hstart : s.mayStart p.kind) (hbuilds : s.builds p)
    (startSeen : Bool) :
    ∃ nct pbi scb v, v = ({ s with
        nct := nct, pbi := pbi, scb := scb, rpe := s.rpe.afterBuild p,
        obs := { s.obs with build := some { sender := s.nct.station, payload := p } } } : State) ∧
      nct = { s.nct with now := nct.now, subBits := nct.subBits, pfailWait := nct.pfailWait } ∧
      pbi.shift = .idle ∧ pbi.lastSender = false ∧
      exec (.busFree startSeen) s = .next
        (if startSeen then v else v.giveStart { sender := s.nct.station, payload := p }) := by
  obtain ⟨hr, hi, -⟩ := id hstart
  obtain ⟨nct, pbi, scb, hframe, hnct, hshift, hlast, -⟩ := State.idleFor_ready hr
  have hvstart := State.mayStart_idle (nct := nct) scb hstart (by rw [hnct]) (by rw [hnct]) (by rw [hnct]) hshift
  have hvbuilds := State.builds_idle pbi scb hnct hbuilds
  have hstation : nct.station = s.nct.station := by rw [hnct]
  have hbuilt : State.buildFrame { s with nct := nct, pbi := pbi, scb := scb } = { s with
      nct := nct, pbi := pbi, scb := scb, rpe := s.rpe.afterBuild p,
      obs := { s.obs with build := some { sender := s.nct.station, payload := p } } } := by
    rw [State.buildFrame_of_mayStart hvstart hvbuilds, hstation]
    cases p <;> rfl
  refine ⟨nct, pbi, scb, _, rfl, hnct, hshift, hlast, exec_busFree_quiet hr hi ?_ (.inl ?_)⟩
  · rw [hframe, State.startFrame_built hvstart hvbuilds, hstation, hbuilt]
  · cases startSeen with
    | false => rw [if_neg Bool.false_ne_true, State.giveStart_eq]
    | true => rw [if_pos rfl]

/-- A build that finds nothing is as if its entry had never stood. -/
theorem exec_busFree_nothing {s u : State} {k : FrameKind} (hstart : s.mayStart k) (hlevel : s.levelGood)
    (hnothing : s.leavesNothing s.freeTime k u) (startSeen : Bool) :
    exec (.busFree startSeen) s = exec (.busFree startSeen) u := by
  obtain ⟨hr, hi, hbuild, -⟩ := id hstart
  obtain ⟨hrun, -⟩ := id hr
  obtain ⟨⟨obs, mbu, rpe, opu, ntq, hu⟩, hubuild, -⟩ := State.leavesNothing_frame hnothing
  obtain ⟨nct, pbi, scb, hconfig, hnode, hphase, hstation, hlow, hidle⟩ := s.idleFor_alike s.pbi.freeCount
  have hs : (s.idleFor s.pbi.freeCount).setShift .idle =
      { s with nct := nct, pbi := { pbi with shift := .idle }, scb := scb } :=
    congrArg (fun t => t.setShift .idle) (hidle s.obs s.mbu s.rpe s.opu s.ntq)
  have hui : (u.idleFor u.pbi.freeCount).setShift .idle =
      { u with nct := nct, pbi := { pbi with shift := .idle }, scb := scb } := by
    rw [hu]
    exact congrArg (fun t => t.setShift .idle) (hidle obs mbu rpe opu ntq)
  have hnow : nct.now = s.freeTime := (congrArg (fun t => t.nct.now) hs).symm.trans (State.idleFor_now hrun)
  have hbuilds : State.buildFrame { s with nct := nct, pbi := { pbi with shift := .idle }, scb := scb } =
      State.buildFrame { u with nct := nct, pbi := { pbi with shift := .idle }, scb := scb } := by
    refine State.buildFrame_of_leavesNothing (State.mayStart_idle scb hstart hnode hphase hlow rfl) ?_
    rw [show (State.nct { s with nct := nct, pbi := { pbi with shift := .idle }, scb := scb }).now = s.freeTime from
      hnow]
    exact State.leavesNothing_idle _ scb hnothing hstation hconfig
  have hstarted : State.startFrame { s with nct := nct, pbi := { pbi with shift := .idle }, scb := scb } startSeen =
      State.startFrame { u with nct := nct, pbi := { pbi with shift := .idle }, scb := scb } startSeen := by
    unfold State.startFrame
    simp only [hbuild, hubuild, Option.isSome_none, Bool.false_eq_true, if_false, hbuilds]
  have hulevel : u.levelGood := by
    rw [hu]
    exact hlevel
  have hur : u.running := by
    rw [hu]
    exact hr
  have hupbi : u.pbi.mayIdle = true := by
    rw [hu]
    exact hi
  rw [Rows.busFree hlevel, Rows.busFree hulevel, State.busFree_at hr hi, State.busFree_at hur hupbi, hs, hui,
    hstarted]

/-- A DROP that names nobody, past the grace of the earliest suspicion and without quorum, isolates the node. -/
theorem exec_busFree_isolates {s : State} {c : NodeConfig} {first : Time} (hcan : s.canonical)
    (hstart : s.mayStart .drop) (hc : s.hasConfig c) (hnobody : s.dropsNobody)
    (hfirst : s.firstSuspicion s.suspects first) (hpassed : passed s.freeTime (first + BitVec.ofNat 32 c.beat))
    (hquorum : ¬s.hasQuorum) (startSeen : Bool) :
    ∃ t, exec (.busFree startSeen) s = .next t ∧ t.nct.now = s.freeTime ∧
      State.isolatedFrom
        { s with nct := { s.nct with now := t.nct.now, subBits := t.nct.subBits, pfailWait := t.nct.pfailWait } }
        t .noQuorum := by
  obtain ⟨hr, hi, -⟩ := id hstart
  obtain ⟨hdir, -⟩ := hcan
  obtain ⟨nct, pbi, scb, hframe, hnct, hshift, -, hnow, hscb⟩ := State.idleFor_ready hr
  have hvstart := State.mayStart_idle (nct := nct) scb hstart (by rw [hnct]) (by rw [hnct]) (by rw [hnct]) hshift
  have hstation : nct.station = s.nct.station := by rw [hnct]
  have hvc : State.hasConfig { s with nct := nct, pbi := pbi, scb := scb } c := by
    obtain ⟨hconfig, hparity⟩ := hc
    exact ⟨by rw [hnct]; exact hconfig, hparity⟩
  have hspec := State.startFrame_isolates (s := { s with nct := nct, pbi := pbi, scb := scb }) hdir hvstart hvc hnobody
    hfirst (by show passed nct.now _; rw [hnow]; exact hpassed)
    (fun h => hquorum ((State.hasQuorum_idle pbi scb hstation).1 h)) startSeen
  refine ⟨_, by rw [Rows.busFree hc.levelGood, State.busFree_at hr hi, hframe], ?_⟩
  generalize State.startFrame { s with nct := nct, pbi := pbi, scb := scb } startSeen = t at hspec
  obtain ⟨htn, -⟩ := id hspec
  have htime : { s.nct with now := t.nct.now, subBits := t.nct.subBits, pfailWait := t.nct.pfailWait } = nct := by
    rw [htn]
    exact hnct.symm
  refine ⟨by rw [htn]; exact hnow, ?_⟩
  rw [htime]
  rw [hscb] at hspec
  exact hspec

/-- Settles O25: the idle time, and then the scheduler's offers in the order of the kind codes. -/
theorem busFreeStartsTheLowestEntry : Obligations.BusFreeStartsTheLowestEntry := by
  refine ⟨fun p d c s hcan hstart hstore hbuilds hf hk hdue hg hc =>
      exec_busFree_takesOver hcan hstart hstore hbuilds hf hk hdue hg hc,
    fun p s hstart hbuilds => ?started, fun p s hstart hbuilds => ?stays,
    fun startSeen k s u hstart hlevel hnothing => exec_busFree_nothing hstart hlevel hnothing startSeen,
    fun startSeen c first s hcan hstart hc hnobody hfirst hpassed hquorum =>
      exec_busFree_isolates hcan hstart hc hnobody hfirst hpassed hquorum startSeen,
    fun startSeen s hr hi hobs hf => ?empty, fun f s hr hi hbuild => ?inHand⟩
  case started =>
    obtain ⟨-, -, hbuild, -⟩ := id hstart
    obtain ⟨nct, pbi, scb, v, rfl, hnct, -, hlast, hrow⟩ := exec_busFree_built hstart hbuilds false
    rw [if_neg Bool.false_ne_true, State.giveStart_eq] at hrow
    have hobs : ({ s.obs with build := none } : Obs) = s.obs := by rw [← hbuild]
    refine ⟨_, hrow, rfl, rfl, hlast, hobs, rfl, ?_, hnct, rfl, rfl, rfl, rfl, rfl, rfl, rfl, rfl, rfl, rfl⟩
    cases p <;> rfl
  case stays =>
    obtain ⟨nct, pbi, scb, v, rfl, -, hshift, -, hrow⟩ := exec_busFree_built hstart hbuilds true
    rw [if_pos rfl] at hrow
    exact ⟨_, hrow, hshift, rfl, rfl, rfl, rfl, rfl, rfl, rfl, rfl, rfl, rfl, rfl⟩
  case empty =>
    obtain ⟨nct, pbi, scb, hframe, hnct, hshift, hlast, -⟩ := State.idleFor_ready hr
    refine ⟨{ s with nct := nct, pbi := pbi, scb := scb }, exec_busFree_quiet hr hi ?_ (.inl rfl), hshift, hlast, rfl,
      hnct⟩
    rw [hframe]
    refine State.startFrame_none (s := { s with nct := nct, pbi := pbi, scb := scb }) ?_
      (State.buildFrame_empty ?_ hf) startSeen
    · show s.obs.build = none
      rw [hobs]
    · show s.obs.queue = []
      rw [hobs]
  case inHand =>
    obtain ⟨nct, pbi, scb, hframe, -, hshift, -⟩ := State.idleFor_ready hr
    have hstart : ((s.idleFor s.pbi.freeCount).setShift .idle).startFrame false =
        State.giveStart { s with nct := nct, pbi := pbi, scb := scb } f := by
      rw [hframe]
      exact State.startFrame_inHand hbuild
    rw [State.giveStart_eq] at hstart
    exact ⟨_, exec_busFree_quiet hr hi hstart (.inl rfl), rfl, rfl, rfl, rfl, rfl, rfl, rfl, rfl, rfl, rfl, rfl, rfl,
      rfl⟩

end Sys2Proof.Machine
end

section
/-!
SUPPORT. Starts and losses, the check pause and the frame check (R3, R5, R6, R8–R10, R17, R39, R43–R47, R71, R78, R101,
R107, R108, R121, R122, R137).
-/

set_option Elab.async false

namespace Sys2Proof.Machine

/-! ### START_CONDITION and ARBITRATION_LOST (R3, R5, R6, R17, R101, R137) -/

/-- A row of the bus at a running node, where what it leaves drives NIRQ without a fault. -/
theorem State.driving_onBus_quiet {s t : State} {k : State → State} (hr : s.running) (ht : k s = t)
    (hq : t.ntq.notices = s.ntq.notices ∨ t.nct.node = .halted ∨ t.levelGood) :
    s.driving (s.onBus k) = .next t := by
  rw [State.onBus_running hr, ht]
  exact State.driving_quiet hq

theorem State.missedStop_outside {s : State}
    (h : ¬((∃ k, s.pbi.shift = .slotsDone (some k)) ∧ s.nct.phase = .pfailLeave)) : s.missedStop = s := by
  unfold State.missedStop
  split
  · rename_i k hshift
    exact if_neg fun hphase => h ⟨⟨k, hshift⟩, hphase⟩
  · rfl

/-- A start condition outside a frame discards a build in hand, and the node receives. -/
theorem State.start_outside {s : State} (hr : s.running) (hout : s.pbi.shift.inFrame = false)
    (hstop : ¬((∃ k, s.pbi.shift = .slotsDone (some k)) ∧ s.nct.phase = .pfailLeave))
    (hf : s.fck.purpose ≠ some .build) (header : Option Byte) :
    s.start header = { s with
      obs := { s.obs with build := none }, pbi := { s.pbi.goActive with shift := .receiving } } := by
  obtain ⟨-, hnode⟩ := hr
  unfold State.start
  simp only [hout, Bool.false_eq_true, if_false, State.missedStop_outside hstop]
  exact State.startAfter_eq hnode hf

theorem State.loseArbitration_header {s : State} {f : Frame} (hs : s.pbi.shift = .sending f) {bit : Nat} (hb : bit < 8) :
    s.loseArbitration bit = (s.setShift .receiving).ownCut f.kind := by
  unfold State.loseArbitration
  rw [hs]
  exact if_pos hb

theorem State.loseArbitration_later {s : State} {f : Frame} (hs : s.pbi.shift = .sending f) {bit : Nat} (hb : 8 ≤ bit) :
    s.loseArbitration bit = s.duplicate := by
  unfold State.loseArbitration
  rw [hs]
  exact if_neg (Nat.not_lt.2 hb)

theorem State.duplicate_spec {s : State} (h : s.nct.node ≠ .halted) :
    s.haltedFrom s.duplicate .duplicateStation
      [(.duplicateStation, { slot := none, station := some s.nct.station.toNat, word := none, bit := none })] :=
  State.report_halt_spec h _ _ _

/-- Settles O26: a start outside a frame, and a loss before and after the header's end. -/
theorem startsAndLossesMakeAReceiver : Obligations.StartsAndLossesMakeAReceiver := by
  refine ⟨fun header s hr hout hstop hf => State.driving_onBus_quiet hr (State.start_outside hr hout hstop hf header)
    (.inl rfl), fun bit f s hr hs => ⟨fun hb hstays => ?stays, fun o hb hnode hop hholds ho hlevel => ?gone,
    fun hb => ?later⟩⟩
  case stays =>
    exact State.driving_onBus_quiet hr
      ((State.loseArbitration_header hs hb).trans (State.ownCut_stays (s := s.setShift .receiving) hstays)) (.inl rfl)
  case gone =>
    exact ⟨_, State.driving_onBus_quiet hr ((State.loseArbitration_header hs hb).trans
        (State.ownCut_gone (s := s.setShift .receiving) hnode hop hholds ho)) (.inr (.inr hlevel)),
      rfl, rfl, rfl, rfl, rfl, rfl, rfl, rfl, rfl, rfl, rfl, rfl, rfl⟩
  case later =>
    obtain ⟨-, hnode⟩ := id hr
    have hspec := State.duplicate_spec hnode
    obtain ⟨hnct, -⟩ := id hspec
    exact ⟨_, State.driving_onBus_quiet hr (State.loseArbitration_later hs hb) (.inr (.inl (by rw [hnct]))), hspec⟩

/-! ### The check pause of the node's own frame (R8, R9, R107, R121, R122) -/

theorem State.checkPause_sending {s : State} {f : Frame} (hs : s.pbi.shift = .sending f) (body : List Byte)
    (extraBits : Nat) : s.checkPause body extraBits = s.senderPause f := by
  unfold State.checkPause
  rw [hs]

theorem State.checkPause_receiving {s : State} (hs : s.pbi.shift = .receiving) (body : List Byte) (extraBits : Nat) :
    s.checkPause body extraBits = s.receiverPause body extraBits := by
  unfold State.checkPause
  rw [hs]

theorem State.senderPause_pfail {s : State} (h : s.nct.phase = .pfailLeave) (f : Frame) :
    s.senderPause f = { s with pbi := { s.pbi.goPause with shift := .sendingPaused f } } := if_pos h

/-- The node in the check pause of its own frame. -/
def State.atOwnPause (s : State) (f : Frame) : State :=
  { s with pbi := { s.pbi.goPause with shift := .sendingPaused f } }

/-- The sender asks for the store, and its access opens where it holds it. -/
theorem State.senderPause_asks {s t : State} {f : Frame} (h : s.nct.phase ≠ .pfailLeave)
    (ht : (s.atOwnPause f).askFck .ownFrame = t) :
    s.senderPause f = if t.sar.grant = some .fck then t.openAccess else t := by
  have hpause : s.senderPause f = if t.granted .fck then t.openAccess else t := by
    rw [← ht]
    exact if_neg h
  rw [hpause]
  refine if_congr ?_ rfl rfl
  unfold State.granted
  exact decide_eq_true_iff

/-- A give-up access is taken over: it waits or is held for the new purpose, and the give-up comes first. -/
theorem State.askFck_takesOver {s : State} {d : DueGiveUp} (hf : s.fck.purpose = some .giveUp)
    (hd : s.rpe.due = some d) (p : Purpose) :
    s.askFck p = { s with
      fck := { s.fck with purpose := some p }, rpe := { s.rpe with due := some { d with takenOver := true } } } := by
  unfold State.askFck
  simp only [hf, hd, Option.map_some]

/-- An own frame's pause that takes a held give-up access over makes the give-up. -/
theorem exec_checkPause_takesOver {s : State} {f : Frame} {d : DueGiveUp} {c : NodeConfig} (hr : s.running)
    (hs : s.pbi.shift = .sending f) (hphase : s.nct.phase ≠ .pfailLeave) (hf : s.fck.purpose = some .giveUp)
    (hd : s.rpe.due = some d) (hk : s.sar.grant = some .fck) (hcan : s.canonical) (hg : s.entriesGood)
    (hc : s.hasConfig c) (body : List Byte) (extraBits : Nat) :
    ∃ t, exec (.checkPause body extraBits) s = .next t ∧
      s.givenUp t c (d.slots.filter fun n => s.rpe.wanted.contains n) ∧
      t = { s with
        nct := t.nct, dir := t.dir, rpe := t.rpe, obs := t.obs, ntq := t.ntq,
        pbi := { s.pbi.goPause with shift := .sendingPaused f },
        fck := { s.fck with purpose := some .ownFrame } } := by
  obtain ⟨-, hnode⟩ := id hr
  obtain ⟨hdir, -⟩ := hcan
  obtain ⟨x, hx⟩ : ∃ x : State, x = { s with
      pbi := { s.pbi.goPause with shift := .sendingPaused f }, fck := { s.fck with purpose := some .ownFrame },
      rpe := { s.rpe with due := some { d with takenOver := true } } } := ⟨_, rfl⟩
  have hpause : s.senderPause f = if x.sar.grant = some .fck then x.openAccess else x :=
    State.senderPause_asks hphase ((State.askFck_takesOver (s := s.atOwnPause f) hf hd .ownFrame).trans hx.symm)
  rw [if_pos (by rw [hx]; exact hk), State.openAccess_taken (by rw [hx]) rfl] at hpause
  obtain ⟨hgiven, -, nct, dir, rpe, obs, ntq, hframe⟩ := State.makeGiveUp_spec (s := x) (c := c)
    (d := { d with takenOver := true }) (by rw [hx]; exact hdir) (by rw [hx]; exact hg) (by rw [hx]; exact hnode)
    (by rw [hx]; exact hc) (by rw [hx])
  generalize x.makeGiveUp = t at hpause hgiven hframe
  refine ⟨t, ?_, ?_, ?_⟩
  · rw [Rows.checkPause hc.levelGood, State.onBus_running hr, State.checkPause_sending hs, hpause]
  · rw [hx] at hgiven
    exact hgiven
  · rw [hframe, hx]

/-- Settles O27: the sender's pause by the purpose of its access, and a receiver's by the class of the body. -/
theorem checkPauseAsksOrReports : Obligations.CheckPauseAsksOrReports := by
  refine ⟨fun body extraBits f s hr hs => ⟨fun hphase => ?pfail, fun hphase hf hd => ?asks,
    fun d hphase hf hd => ⟨fun hk => ?waits, fun c hk hcan hg hc =>
      exec_checkPause_takesOver hr hs hphase hf hd hk hcan hg hc body extraBits⟩⟩,
    fun body extraBits s hr hs htaking hlatch => ?receiver⟩
  case pfail =>
    exact State.driving_onBus_quiet hr ((State.checkPause_sending hs body extraBits).trans
      (State.senderPause_pfail hphase f)) (.inl rfl)
  case asks =>
    refine State.driving_onBus_quiet hr ((State.checkPause_sending hs body extraBits).trans
      ((State.senderPause_asks hphase (State.askFck_free (s := s.atOwnPause f) hf _)).trans ?_)) (.inl rfl)
    exact (if_congr Iff.rfl (State.openAccess_free (by exact hd)) rfl).trans (ite_self _)
  case waits =>
    exact State.driving_onBus_quiet hr ((State.checkPause_sending hs body extraBits).trans
      ((State.senderPause_asks hphase (State.askFck_takesOver (s := s.atOwnPause f) hf hd _)).trans (if_neg hk))) (.inl rfl)
  case receiver =>
    have hpause := (State.checkPause_receiving hs body extraBits).trans
      (State.receiverPause_taking htaking hlatch body extraBits)
    refine ⟨fun n hclass => ?_, fun n hclass => ?_, fun hclass => ?_⟩
    all_goals
      rw [hclass] at hpause
      refine State.driving_onBus_quiet hr (hpause.trans ?_) (.inl rfl)
      unfold State.badBody
      simp only [Option.isSome_some, Option.isSome_none, Bool.and_true, Bool.and_false]
      rfl

/-! ### The check pause of an intact frame (R9, R17, R47, R71, R78, R122) -/

/-- A receiver in the check pause. -/
def State.atPause (s : State) : State := { s with pbi := { s.pbi.goPause with shift := .paused } }

theorem NodeState.taking_of_participating {n : NodeState} (h : n.participating = true) : n.taking = true := by
  cases n <;> first | rfl | cases h

theorem NodeState.taking_of_joining {n : NodeState} (h : n.joining = true) : n.taking = true := by
  cases n <;> first | rfl | cases h

theorem NodeState.not_participating_of_joining {n : NodeState} (h : n.joining = true) : n.participating = false := by
  cases n <;> first | rfl | cases h

theorem State.isOwn_iff {s : State} {n : Station} : s.isOwn n = true ↔ n = s.nct.station := decide_eq_true_iff

theorem State.checkPause_intact {s : State} {body : List Byte} {f : Frame} (hs : s.pbi.shift = .receiving)
    (htaking : s.nct.node.taking = true) (hlatch : s.nct.pfailLatch = false) (hclass : classify body 0 = .intact f) :
    s.checkPause body 0 = s.atPause.intactFrame f := by
  rw [State.checkPause_receiving hs, State.receiverPause_taking htaking hlatch, hclass]
  rfl

/-- A participating node hears the sender first. -/
theorem State.intactFrame_participating {s t : State} {f : Frame} (hp : s.nct.node.participating = true)
    (hheard : s.hear f.sender.toNat = t) (hnct : t.nct = s.nct) :
    s.intactFrame f =
      if f.sender = s.nct.station then t.duplicate
      else State.askFck { t with
        fck := { t.fck with inbound := some { frame := f, verdict := none } },
        pbi := { t.pbi with holdPck := true } } .check := by
  have hnode : t.nct.node ≠ .halted := by
    rw [hnct]
    intro h
    rw [h] at hp
    cases hp
  have hpt : t.nct.node.participating = true := by rw [hnct, hp]
  unfold State.intactFrame
  simp only [hp, if_true, hheard, State.andThen_running hnode, hpt]
  exact if_congr (State.isOwn_iff.trans (by rw [hnct])) rfl rfl

/-- A node that does not participate keeps the frame. -/
theorem State.intactFrame_joining {s : State} {f : Frame} (hp : s.nct.node.participating = false)
    (hnode : s.nct.node ≠ .halted) :
    s.intactFrame f =
      if f.sender = s.nct.station then s.duplicate
      else { s with fck := { s.fck with inbound := some { frame := f, verdict := none } } } := by
  unfold State.intactFrame
  simp only [hp, Bool.false_eq_true, if_false, State.andThen_running hnode]
  exact if_congr State.isOwn_iff rfl rfl

/-- The own entry is read at a hearing and stays as it is. -/
theorem State.hear_own {s : State} (hp : (s.mbu.entry s.nct.station.toNat).parityGood = true) :
    s.hear s.nct.station.toNat = s := by
  unfold State.hear
  rw [State.useMember_good hp, if_pos rfl]

theorem Station.toNat_ne {m n : Station} (h : m ≠ n) : m.toNat ≠ n.toNat := fun e => h (BitVec.eq_of_toNat_eq e)

/-- A frame of this node's own station halts it, and is logged. -/
theorem exec_checkPause_duplicate {s : State} {body : List Byte} (hr : s.running)
    (h : s.checkPause body 0 = s.atPause.duplicate) :
    ∃ t, exec (.checkPause body 0) s = .next t ∧
      s.haltedFrom t .duplicateStation
        [(.duplicateStation, { slot := none, station := some s.nct.station.toNat, word := none, bit := none })] := by
  obtain ⟨-, hnode⟩ := id hr
  have hspec := State.duplicate_spec (s := s.atPause) hnode
  obtain ⟨hnct, -⟩ := id hspec
  exact ⟨_, State.driving_onBus_quiet hr h (.inr (.inl (by rw [hnct]))), hspec⟩

/-- Settles O28: the hearing, then the own station's frame or the frame that is kept, with the request for the check. -/
theorem intactFrameIsHeardAndHeld : Obligations.IntactFrameIsHeardAndHeld := by
  refine ⟨fun body f c s hcan hr hs hp hlatch hclass hc hparity hsuspect => ⟨fun hother hfck => ?heard, fun hown => ?own⟩,
    fun body f s hr hs hjoining hlatch hclass => ⟨fun hother => ?kept, fun hown => ?ownJoining⟩⟩
  case heard =>
    have hpause := State.checkPause_intact hs (NodeState.taking_of_participating hp) hlatch hclass
    obtain ⟨-, -, htable⟩ := hcan
    obtain ⟨table, decision, hheard, hentries, hdecision⟩ := State.hear_spec (s := s.atPause) htable hc hparity hsuspect
      (Station.toNat_ne hother) f.sender.isLt
    have hintact := (State.intactFrame_participating (s := s.atPause) hp hheard rfl).trans (if_neg hother)
    have hself : ({ s.mbu with table := table, decision := decision } : Mbu).entry f.sender.toNat =
        if (s.mbu.entry f.sender.toNat).state = .absent then s.mbu.entry f.sender.toNat
        else {
          state := .present, deadline := some (s.nct.now + BitVec.ofNat 32 (c.beat * c.silence)),
          suspectSince := none, parityGood := true } := by
      refine (hentries f.sender.toNat).trans ?_
      by_cases habsent : (s.mbu.entry f.sender.toNat).state = .absent
      · rw [if_pos habsent, if_neg fun h => h.2 habsent]
        rfl
      · rw [if_neg habsent, if_pos ⟨rfl, habsent⟩]
        rfl
    have hothers : ∀ n, n ≠ f.sender.toNat →
        ({ s.mbu with table := table, decision := decision } : Mbu).entry n = s.mbu.entry n :=
      fun n hn => (hentries n).trans (if_neg fun h => hn h.1)
    rcases hfck with hfck | hfck
    · rw [State.askFck_free (by exact hfck)] at hintact
      refine ⟨_, State.driving_onBus_quiet hr (hpause.trans hintact) (.inr (.inr hc.levelGood)), rfl,
        fun _ => ⟨rfl, rfl⟩, fun h => ?_, rfl, hself, hothers, rfl, hdecision, rfl, rfl, rfl, rfl, rfl, rfl, rfl, rfl,
        rfl, rfl, rfl⟩
      rw [hfck] at h
      cases h
    · have hask : ∀ x : State, x.fck.purpose = some .giveUp → x.askFck .check = { x with
          fck := { x.fck with purpose := some .check },
          rpe := { x.rpe with due := x.rpe.due.map fun d => { d with takenOver := true } } } := fun x hx => by
        unfold State.askFck
        simp only [hx]
      rw [hask _ (by exact hfck)] at hintact
      refine ⟨_, State.driving_onBus_quiet hr (hpause.trans hintact) (.inr (.inr hc.levelGood)), rfl, fun h => ?_,
        fun _ => ⟨rfl, rfl⟩, rfl, hself, hothers, rfl, hdecision, rfl, rfl, rfl, rfl, rfl, rfl, rfl, rfl, rfl, rfl, rfl⟩
      rw [hfck] at h
      cases h
  case own =>
    have hpause := State.checkPause_intact hs (NodeState.taking_of_participating hp) hlatch hclass
    rw [hown] at hparity
    have hheard : s.atPause.hear f.sender.toNat = s.atPause := by
      rw [hown]
      exact State.hear_own (s := s.atPause) hparity
    exact exec_checkPause_duplicate hr
      (hpause.trans ((State.intactFrame_participating (s := s.atPause) hp hheard rfl).trans (if_pos hown)))
  case kept =>
    obtain ⟨-, hnode⟩ := id hr
    have hpause := State.checkPause_intact hs (NodeState.taking_of_joining hjoining) hlatch hclass
    exact State.driving_onBus_quiet hr (hpause.trans ((State.intactFrame_joining (s := s.atPause)
      (NodeState.not_participating_of_joining hjoining) hnode).trans (if_neg hother))) (.inl rfl)
  case ownJoining =>
    obtain ⟨-, hnode⟩ := id hr
    have hpause := State.checkPause_intact hs (NodeState.taking_of_joining hjoining) hlatch hclass
    exact exec_checkPause_duplicate hr (hpause.trans ((State.intactFrame_joining (s := s.atPause)
      (NodeState.not_participating_of_joining hjoining) hnode).trans (if_pos hown)))

/-! ### The frame check (R10, R39, R43, R44, R108, R121, R122) -/

/-- A check that holds the store opens its access and tests the frame. -/
theorem State.runCheck_granted {s : State} {f : Frame} (ha : s.active = true)
    (hi : s.fck.inbound = some { frame := f, verdict := none }) (hf : s.fck.purpose = some .check)
    (hk : s.sar.grant = some .fck) : s.runCheck = s.openAccess.andThen fun s => s.judge f := by
  unfold State.runCheck
  rw [hi]
  exact if_pos (by simp [ha, hf, State.granted, hk])

theorem State.judge_pass {s : State} {f : Frame} (h : s.checkFrame f = .pass) :
    s.judge f = s.carryVerdict f .pass := by
  unfold State.judge
  rw [h]

theorem State.judge_veto {s : State} {f : Frame} (h : s.checkFrame f = .veto none) :
    s.judge f = s.carryVerdict f .veto := by
  unfold State.judge
  rw [h]

theorem State.judge_report {s : State} {f : Frame} {kind : ErrorKind} (h : s.checkFrame f = .veto (some kind)) :
    s.judge f = (s.report kind (.ofStation f.sender.toNat)).carryVerdict f .veto := by
  unfold State.judge
  rw [h]

theorem State.judge_fault {s : State} {f : Frame} {fields : ErrorFields} (h : s.checkFrame f = .fault fields) :
    s.judge f = s.internalFault fields := by
  unfold State.judge
  rw [h]

/-- A membership entry whose parity mismatches is met by the first test of any frame but a HELLO. -/
theorem State.checkFrame_badSender {s : State} {f : Frame} (hk : f.kind ≠ .hello)
    (hp : (s.mbu.entry f.sender.toNat).parityGood = false) :
    s.checkFrame f = .fault { slot := none, station := some f.sender.toNat, word := none, bit := none } := by
  have hsender : s.senderTest f = .fault (.ofStation f.sender.toNat) := by
    unfold State.senderTest State.checkMember
    rw [hp]
    obtain ⟨sender, payload⟩ := f
    cases payload <;> first | rfl | exact absurd rfl hk
  unfold State.checkFrame
  rw [hsender]
  rfl

/-- A check in whose access a give-up was taken over goes on from the state that the give-up leaves. -/
theorem exec_frameCheck_takesOver {s : State} {f : Frame} {d : DueGiveUp} {c : NodeConfig} (hcan : s.canonical)
    (hr : s.running) (ha : s.active = true)
    (hf : s.fck = { inbound := some { frame := f, verdict := none }, purpose := some .check })
    (hk : s.sar.grant = some .fck) (hd : s.rpe.due = some d) (ht : d.takenOver = true) (hg : s.entriesGood)
    (hc : s.hasConfig c) :
    ∃ u, s.givenUp u c (d.slots.filter fun n => s.rpe.wanted.contains n) ∧
      u = { s with nct := u.nct, dir := u.dir, rpe := u.rpe, obs := u.obs, ntq := u.ntq } ∧
      exec .frameCheck s = exec .frameCheck u := by
  obtain ⟨hrun, hnode⟩ := id hr
  obtain ⟨hdir, -⟩ := hcan
  obtain ⟨hgiven, hunode, nct, dir, rpe, obs, ntq, hframe⟩ := State.makeGiveUp_spec hdir hg hnode hc hd
  have hopen : s.openAccess = s.makeGiveUp := State.openAccess_taken hd ht
  generalize s.makeGiveUp = u at hgiven hunode hframe hopen
  obtain ⟨-, -, -, -, -, hudue, hunct, -⟩ := id hgiven
  have hulevel : u.levelGood := by
    have hconfig : u.nct.config = s.nct.config := by rw [hunct]
    refine fun c' hc' => ?_
    rw [hconfig] at hc'
    exact hc.levelGood c' hc'
  have hur : u.running := ⟨by rw [hunct]; exact hrun, hunode⟩
  have hua : u.active = true := by
    unfold State.active at ha ⊢
    rw [hunct]
    obtain ⟨hp, hlatch⟩ := Bool.and_eq_true_iff.1 ha
    refine Bool.and_eq_true_iff.2 ⟨?_, hlatch⟩
    show NodeState.participating (if _ then _ else _) = true
    split_ifs
    · rfl
    · exact hp
  have hufck : u.fck = s.fck := by rw [hframe]
  have husar : u.sar = s.sar := by rw [hframe]
  have hucheck := State.runCheck_granted (s := u) hua (by rw [hufck, hf]) (by rw [hufck, hf]) (by rw [husar, hk])
  rw [State.openAccess_free hudue] at hucheck
  refine ⟨u, hgiven, by rw [hframe], ?_⟩
  rw [Rows.frameCheck hc.levelGood, Rows.frameCheck hulevel, State.onBus_running hr, State.onBus_running hur, hucheck,
    State.runCheck_granted ha (by rw [hf]) (by rw [hf]) hk, hopen]

/-- Settles O29: the tests' answer carried into the slots, after the give-up where the access took one over. -/
theorem frameCheckCarriesTheDecision : Obligations.FrameCheckCarriesTheDecision := by
  refine ⟨fun f s hr ha hi hopen => ?judged, fun f d c s hcan hr ha hf hk hd ht hg hc =>
    exec_frameCheck_takesOver hcan hr ha hf hk hd ht hg hc, fun f s hk hp => State.checkFrame_badSender hk hp⟩
  obtain ⟨hf, hk, hdue⟩ := hopen
  obtain ⟨-, hnode⟩ := id hr
  have hcheck : s.runCheck = s.judge f := by
    rw [State.runCheck_granted ha hi hf hk, State.openAccess_open hdue, State.andThen_running hnode]
  refine ⟨fun h => State.driving_onBus_quiet hr (hcheck.trans (State.judge_pass h)) (.inl rfl),
    fun h => State.driving_onBus_quiet hr (hcheck.trans (State.judge_veto h)) (.inl rfl),
    fun kind h => State.driving_onBus_quiet hr (hcheck.trans (State.judge_report h)) (.inl rfl), fun fields h => ?_⟩
  have hspec := State.report_halt_spec hnode .internalFault fields .internalFault
  obtain ⟨hnct, -⟩ := id hspec
  exact ⟨_, State.driving_onBus_quiet hr (hcheck.trans (State.judge_fault h)) (.inr (.inl (congrArg Nct.node hnct))),
    hspec⟩

/-! ### The four groups of tests (R43–R46, Table 3-2) -/

/-- Settles O30: each group of tests, where those before it pass. -/
theorem frameChecksFollowTheirTests : Obligations.FrameChecksFollowTheirTests := by
  intro f c s hc hm hg
  have hsender := State.senderTest_eq f hm
  obtain ⟨hformat, hnoFormat⟩ := State.formatTest_eq f hc
  obtain ⟨hparams, hnoParams⟩ := State.paramTest_eq f hc
  obtain ⟨hstate, hnoState⟩ := State.stateTest_says f hm hg
  unfold State.checkFrame
  refine ⟨fun h1 => ?_, fun h1 h2 => ?_, fun h1 h2 h3 => ?_, fun h1 h2 h3 h4 => ?_, fun h1 h2 h3 h4 => ?_⟩
  · rw [hsender, if_neg h1]
    rfl
  · rw [hsender, if_pos h1, hnoFormat h2]
    rfl
  · rw [hsender, if_pos h1, hformat h2, hnoParams h3]
    rfl
  · rw [hsender, if_pos h1, hformat h2, hparams h3, hnoState h4]
    rfl
  · rw [hsender, if_pos h1, hformat h2, hparams h3, hstate h4]
    rfl

end Sys2Proof.Machine
end

section
/-!
SUPPORT. A built frame at its receiver, and the checks of a body in their order (R7, R8, R19, R201).
-/

set_option Elab.async false

namespace Sys2Proof.Machine

/-! ### The header byte -/

theorem headerStation_headerByte : ∀ (kind : BitVec 4) (sender : Station),
    headerStation (headerByte kind sender) = sender := by decide

theorem headerKind_headerByte (k : FrameKind) (sender : Station) :
    headerKind (headerByte (BitVec.ofNat 4 k.code) sender) = k.code := by
  revert sender
  cases k <;> decide

/-- A frame that fits the bus is read back from its header and payload. -/
theorem readFrame_of_fits {f : Frame} (h : f.fits) :
    readFrame (headerByte (BitVec.ofNat 4 f.kind.code) f.sender) f.payload.bytes = some f := by
  obtain ⟨-, hcounts⟩ := h
  unfold readFrame
  rw [headerKind_headerByte, headerStation_headerByte]
  have hread : readPayload f.kind.code f.payload.bytes = some f.payload := by
    refine readPayload_bytes f.payload ?_
    obtain ⟨sender, payload⟩ := f
    cases payload <;> exact hcounts
  rw [hread]

/-- A frame that is read has the station of the header as its sender. -/
theorem readFrame_sender {header : Byte} {payload : List Byte} {f : Frame} (h : readFrame header payload = some f) :
    f.sender = headerStation header := by
  unfold readFrame at h
  split at h
  · exact (congrArg Frame.sender (Option.some.inj h)).symm
  · cases h

/-! ### The checks of a body (R8) -/

section Checks

variable {header : Byte} {rest : List Byte} {extraBits : Nat}

theorem classify_notWhole (h : ¬(extraBits = 0 ∧ 3 ≤ (header :: rest).length ∧ (header :: rest).length ≤ 152)) :
    classify (header :: rest) extraBits = .formatError (headerStation header) := by
  refine if_pos ?_
  simp only [Bool.or_eq_true, decide_eq_true_eq]
  omega

/-- The bytes of a whole body that the CRC covers. -/
theorem classify_whole (h : extraBits = 0 ∧ 3 ≤ (header :: rest).length ∧ (header :: rest).length ≤ 152) :
    classify (header :: rest) extraBits =
      if (header :: rest).drop ((header :: rest).length - 2) ≠
          Word.bytes (crcOf ((header :: rest).take ((header :: rest).length - 2))) then
        .crcError (headerStation header)
      else
        match readFrame header (rest.take (rest.length - 2)) with
        | some f => .intact f
        | none => .formatError (headerStation header) := by
  have hno : ¬(decide (extraBits ≠ 0) || decide ((header :: rest).length < 3) ||
      decide (152 < (header :: rest).length)) = true := by
    simp only [Bool.or_eq_true, decide_eq_true_eq]
    omega
  unfold classify
  simp only
  exact (if_neg hno).trans rfl

end Checks

/-- Of a body with its header, the covered bytes are the header and the payload. -/
theorem take_body {header : Byte} {rest : List Byte} (h : 3 ≤ (header :: rest).length) :
    (header :: rest).take ((header :: rest).length - 2) = header :: rest.take (rest.length - 2) := by
  rw [List.length_cons] at h ⊢
  rw [show rest.length + 1 - 2 = rest.length - 2 + 1 by omega]
  rfl

/-- A body is what its CRC covers, and the CRC. -/
theorem classify_body {f : Frame} (h : f.fits) : classify f.body 0 = .intact f := by
  obtain ⟨hlength, -⟩ := id h
  have hcrc : (Word.bytes (crcOf f.covered)).length = 2 := rfl
  have hbody : f.body.length - 2 = f.covered.length := by
    unfold Frame.body
    rw [List.length_append, hcrc, Nat.add_sub_cancel]
  have hcons : f.body = headerByte (BitVec.ofNat 4 f.kind.code) f.sender ::
      (f.payload.bytes ++ Word.bytes (crcOf f.covered)) := rfl
  have hthree : 3 ≤ f.body.length := by
    rw [hcons, List.length_cons, List.length_append, hcrc]
    omega
  have htake : f.body.take (f.body.length - 2) = f.covered := by
    rw [hbody]
    exact List.take_left
  have hdrop : f.body.drop (f.body.length - 2) = Word.bytes (crcOf f.covered) := by
    rw [hbody]
    exact List.drop_left
  have hpayload : (f.payload.bytes ++ Word.bytes (crcOf f.covered)).take
      ((f.payload.bytes ++ Word.bytes (crcOf f.covered)).length - 2) = f.payload.bytes := by
    rw [List.length_append, hcrc, Nat.add_sub_cancel]
    exact List.take_left
  have hclass := classify_whole (extraBits := 0) (header := headerByte (BitVec.ofNat 4 f.kind.code) f.sender)
    (rest := f.payload.bytes ++ Word.bytes (crcOf f.covered)) ⟨rfl, by rw [← hcons]; exact hthree, by
      rw [← hcons]; exact hlength⟩
  rw [← hcons, hdrop, htake, if_neg (not_not_intro rfl), hpayload, readFrame_of_fits h] at hclass
  exact hclass

/-- Settles O57: a built frame is read back, and the first check of a body that fails decides. -/
theorem builtFramesAreReceivedIntact : Obligations.BuiltFramesAreReceivedIntact := by
  refine ⟨fun f => classify_body, fun _ => rfl, fun header rest extraBits => ?_⟩
  refine ⟨classify_notWhole, fun hwhole hcrc => ?crc, fun hwhole hcrc hno => ?length, fun hwhole hcrc hlength => ?intact⟩
  case crc => exact (classify_whole hwhole).trans (if_pos hcrc)
  case length =>
    obtain ⟨-, hthree, -⟩ := id hwhole
    obtain ⟨-, hnone⟩ := readFrame_spec header (rest.take (rest.length - 2))
    rw [take_body hthree] at hno
    rw [classify_whole hwhole, if_neg (not_not_intro hcrc), hnone hno]
    rfl
  case intact =>
    obtain ⟨-, hthree, -⟩ := id hwhole
    obtain ⟨hsome, -⟩ := readFrame_spec header (rest.take (rest.length - 2))
    have hcovered := take_body hthree
    rw [hcovered] at hlength
    obtain ⟨f, hread, hf⟩ := hsome hlength
    refine ⟨f, ?_, readFrame_sender hread, ?_⟩
    · rw [classify_whole hwhole, if_neg (not_not_intro hcrc), hread]
    · unfold Frame.body
      rw [hf, ← hcovered, ← hcrc]
      exact List.take_append_drop _ _

end Sys2Proof.Machine
end

section
/-!
SUPPORT. The veto slot of another station's frame: refused frames, CLAIM and YIELD (R9, R10, R12, R49, R60, R62, R121,
R122, R146).
-/

set_option Elab.async false

namespace Sys2Proof.Machine

/-! ### Past the slots of another node's frame -/

/-- A receiver past the slots, without the inbound frame: the state that the application of a frame starts from. -/
def State.pastVeto (s : State) : State := { s.slotsPast none with fck := { s.fck with inbound := none } }

theorem NodeState.not_halted_of_participating {n : NodeState} (h : n.participating = true) : n ≠ .halted := by
  rintro rfl
  cases h

theorem State.passedFrame.running {s : State} {f : Frame} (h : s.passedFrame f) : s.running := by
  obtain ⟨hrun, hpart, -⟩ := h
  exact ⟨hrun, NodeState.not_halted_of_participating hpart⟩

theorem State.passedFrame.active {s : State} {f : Frame} (h : s.passedFrame f) : s.active = true := by
  obtain ⟨-, hpart, hlatch, -⟩ := h
  unfold State.active
  rw [hpart, hlatch]
  rfl

theorem State.passedFrame.fckHolds {s : State} {f : Frame} (h : s.passedFrame f) : s.fckHolds .check := by
  obtain ⟨-, -, -, -, -, -, -, hholds⟩ := h
  exact hholds

theorem State.not_isOwn {s : State} {n : Station} (h : n ≠ s.nct.station) : s.isOwn n = false := decide_eq_false h

/-- The end of the access after the application of a passed frame, which kept the access and the slots. -/
theorem State.endAccess_applied {s y : State} (h : s.fckHolds .check) (hn : y.nct.node ≠ .halted)
    (hfck : y.fck = s.pastVeto.fck) (hsar : y.sar = s.sar) (hdue : y.rpe.due = none) :
    y.endAccess = { y with fck := { inbound := none, purpose := none }, sar := s.sar.handOver } := by
  obtain ⟨hpurpose, hgrant, -⟩ := h
  rw [State.endAccess_held (p := .check) ⟨by rw [hfck]; exact hpurpose, by rw [hsar]; exact hgrant, hdue⟩ hn, hfck, hsar]
  rfl

/-- The veto slot of a passed frame that nobody pulls: its application, and the end of the access. -/
theorem exec_vetoSlot_applied {s y : State} {f : Frame} (h : s.passedFrame f) (hy : s.pastVeto.applyReceived f = y)
    (hn : y.nct.node ≠ .halted) (hfck : y.fck = s.pastVeto.fck) (hsar : y.sar = s.sar) (hdue : y.rpe.due = none)
    (hq : y.ntq.notices = s.ntq.notices ∨ y.levelGood) (heard : Bool) :
    exec (.vetoSlot heard false) s = .next
      { y with fck := { inbound := none, purpose := none }, sar := s.sar.handOver } := by
  refine State.driving_onBus_quiet h.running ((State.vetoSlot_passed h heard false).trans ?_)
    (hq.imp id fun hlevel => .inr hlevel)
  have happlied : State.applyReceived { s.slotsPast none with fck := { s.fck with inbound := none } } f = y := hy
  rw [if_neg Bool.false_ne_true, happlied, State.andThen_running hn]
  exact State.endAccess_applied h.fckHolds hn hfck hsar hdue

/-- A receiver's lines, store and frame checker after an application that kept them. -/
theorem State.slotsEnd_applied {s y : State} (hpbi : y.pbi = s.pastVeto.pbi) :
    s.slotsEnd { y with fck := { inbound := none, purpose := none }, sar := s.sar.handOver } none := by
  refine ⟨?_, rfl, rfl⟩
  show y.pbi = _
  rw [hpbi]
  rfl

/-! ### Frames that are not applied (R9, R10, R12) -/

/-- A receiver that refuses a frame, or passed one that is pulled, ends its access. -/
theorem exec_vetoSlot_refused {s : State} {heard veto : Bool} (hr : s.running) (h : s.fckHolds .check)
    (hslot : s.vetoSlot heard veto = s.pastVeto.andThen State.endAccess) :
    exec (.vetoSlot heard veto) s = .next { s.pastVeto with
      fck := { inbound := none, purpose := none }, sar := s.sar.handOver } := by
  obtain ⟨-, hnode⟩ := id hr
  obtain ⟨-, -, hdue⟩ := id h
  refine State.driving_onBus_quiet hr (hslot.trans ?_) (.inl rfl)
  rw [State.andThen_running (s := s.pastVeto) hnode]
  exact State.endAccess_applied h hnode rfl rfl hdue

/-- The same where a give-up has fallen due, which is made before the access ends. -/
theorem exec_vetoSlot_refusedDue {s : State} {heard veto : Bool} {d : DueGiveUp} {c : NodeConfig} (hr : s.running)
    (hf : s.fck.purpose = some .check) (hk : s.sar.grant = some .fck) (hcan : s.canonical) (hd : s.rpe.due = some d)
    (hg : s.entriesGood) (hc : s.hasConfig c)
    (hslot : s.vetoSlot heard veto = s.pastVeto.andThen State.endAccess) :
    ∃ t, exec (.vetoSlot heard veto) s = .next t ∧
      s.givenUp t c (d.slots.filter fun n => s.rpe.wanted.contains n) ∧
      t.pbi = s.pastVeto.pbi ∧ t.fck = { inbound := none, purpose := none } ∧ t.sar = s.sar.handOver ∧
      t.dst = s.dst ∧ t.mbu = s.mbu ∧ t.opu = s.opu ∧ t.wch = s.wch ∧ t.elg = s.elg ∧ t.lpt = s.lpt ∧
      t.scb = s.scb ∧ t.pending = s.pending := by
  obtain ⟨-, hnode⟩ := id hr
  obtain ⟨hdir, -⟩ := hcan
  have hnode' : s.pastVeto.nct.node ≠ .halted := hnode
  obtain ⟨hgiven, nct, dir, rpe, obs, ntq, hframe⟩ := State.endAccess_due (s := s.pastVeto) (c := c) (p := .check)
    hf hk hdir hg hnode' hc hd
  refine ⟨s.pastVeto.endAccess, ?_, hgiven, ?_⟩
  · rw [Rows.vetoSlot hc.levelGood, State.onBus_running hr, hslot, State.andThen_running hnode']
  · rw [hframe]
    exact ⟨rfl, rfl, rfl, rfl, rfl, rfl, rfl, rfl, rfl, rfl, rfl⟩

/-- Settles O31: pulled or vetoed, the access ends; without an inbound frame nothing else happens. -/
theorem refusedFrameChangesNothing : Obligations.RefusedFrameChangesNothing := by
  intro heard veto s
  refine ⟨fun f h => ?pulled, fun f hr ha hs hp hi hk => ?vetoed, fun f d c hcan hd hg hc h => ?due,
    fun hr hs hp hi => ?empty⟩
  case pulled => exact exec_vetoSlot_refused h.running h.fckHolds (State.vetoSlot_passed h heard true)
  case vetoed => exact exec_vetoSlot_refused hr hk (State.vetoSlot_vetoed ha hs hp hi heard veto)
  case due =>
    rcases h with ⟨hpassed, rfl⟩ | ⟨hr, ha, hs, hp, hi, hf, hk, -⟩
    · obtain ⟨hf, hk, -⟩ := hpassed.fckHolds
      exact exec_vetoSlot_refusedDue hpassed.running hf hk hcan hd hg hc (State.vetoSlot_passedDue hpassed heard true)
    · exact exec_vetoSlot_refusedDue hr hf hk hcan hd hg hc (State.vetoSlot_vetoed ha hs hp hi heard veto)
  case empty =>
    refine State.driving_onBus_quiet hr ((State.vetoSlot_empty hs hp hi heard veto).trans ?_) (.inl rfl)
    rw [← hi]
    rfl

/-! ### CLAIM and YIELD of another station (R49, R60, R62, R146) -/

section Other

variable {s : State} {sender : Station} (ho : sender ≠ s.nct.station)

include ho

/-- RECORD_CHANGED for a slot that was known. -/
theorem State.notifyChange_other (before : SlotState) (slot : Nat) (c : ChangeCause) :
    s.notifyChange sender before slot c = { s with
      ntq := s.ntq.arriveAll (if before = .unlearned then [] else [.recordChanged slot c]) } := by
  unfold State.notifyChange
  rw [State.not_isOwn ho]
  by_cases h : before = .unlearned
  · rw [if_pos (by simp [h]), if_pos h]
    rfl
  · rw [if_neg (by simp [h]), if_neg h]
    rfl

/-- The pending CLAIM of the same slot ends TAKEN. -/
theorem State.overheard_claiming {slot : Nat} (h : s.opu.op.map (·.kind) = some (.claim slot)) :
    s.overheard sender slot = { s with
      obs := (s.removeEntry .claim).obs,
      opu := { s.opu with op := none },
      ntq := s.ntq.arriveAll [.opDone .claim .taken (some slot)] } := by
  obtain ⟨⟨kind, onBus⟩, hop, hkind⟩ := Option.map_eq_some_iff.1 h
  obtain rfl : kind = .claim slot := hkind
  unfold State.overheard
  rw [State.not_isOwn ho, hop]
  simp only [Bool.false_eq_true, if_false, if_true]
  rw [State.endOp_eq, show (s.removeEntry .claim).opu.op = s.opu.op from rfl, hop]
  rfl

/-- Another operation, or none, goes on. -/
theorem State.overheard_none {slot : Nat} (h : s.opu.op.map (·.kind) ≠ some (.claim slot)) :
    s.overheard sender slot = s := by
  unfold State.overheard
  rw [State.not_isOwn ho]
  simp only [Bool.false_eq_true, if_false]
  split
  · rename_i n onBus hop
    refine if_neg fun hn => h ?_
    rw [hop, hn]
    rfl
  · rfl

theorem State.applyClaim_other {slot : Nat} (hp : (s.entry slot).parityGood = true) (version : Word) :
    s.applyClaim sender slot version = State.overheard { s.putEntry slot
        { s.entry slot with state := .owned sender, version := version } with
      ntq := s.ntq.arriveAll (if (s.entry slot).state = .unlearned then [] else [.recordChanged slot .claimed]) }
      sender slot := by
  unfold State.applyClaim
  rw [State.examine_good hp, State.notifyChange_other (s := s.putEntry slot _) ho]
  rfl

theorem State.applyYield_other {slot : Nat} (hp : (s.entry slot).parityGood = true) (version : Word) :
    s.applyYield sender slot version = { s.putEntry slot
        { s.entry slot with state := .free, version := version } with
      ntq := s.ntq.arriveAll (if (s.entry slot).state = .unlearned then [] else [.recordChanged slot .yielded]) } := by
  unfold State.applyYield
  rw [State.examine_good hp, State.notifyChange_other (s := s.putEntry slot _) ho, State.not_isOwn ho]
  rfl

end Other

/-- What the write of one entry leaves of the directory. -/
theorem State.entries_putEntry {s t : State} (hd : sparseWf DirEntry.blank s.dir) {slot : Nat} {e : DirEntry}
    (hg : e.parityGood = true) (ht : t.dir = (s.putEntry slot e).dir) :
    t.entry slot = e ∧ ∀ n, n ≠ slot → t.entry n = s.entry n := by
  have hentry : ∀ n, t.entry n = if n = slot then { e with parityGood := true } else s.entry n := fun n => by
    rw [← State.entry_putEntry hd]
    unfold State.entry
    rw [ht]
  refine ⟨?_, fun n hn => (hentry n).trans (if_neg hn)⟩
  rw [hentry, if_pos rfl, ← hg]

/-- Settles O32: the entry is written, its notice raised, and a pending CLAIM for the slot ends. -/
theorem appliedClaimAndYieldMoveTheSlot : Obligations.AppliedClaimAndYieldMoveTheSlot := by
  intro heard sender slot version s hcan ho hp hlevel
  obtain ⟨hdir, -⟩ := id hcan
  have ho' : sender ≠ s.pastVeto.nct.station := ho
  refine ⟨fun h => ?claim, fun h => ?yield⟩
  case claim =>
    obtain ⟨-, -, hdue⟩ := h.fckHolds
    have hnode : s.nct.node ≠ .halted := h.running.2
    have happly : s.pastVeto.applyReceived { sender := sender, payload := .claim slot version } = _ :=
      State.applyClaim_other (s := s.pastVeto) ho' hp version
    by_cases hop : s.opu.op.map (·.kind) = some (.claim slot.toNat)
    · rw [State.overheard_claiming (by exact ho) (by exact hop)] at happly
      have hrow := exec_vetoSlot_applied h happly hnode rfl rfl hdue (.inr hlevel) heard
      obtain ⟨hself, hothers⟩ := State.entries_putEntry (s := s) hdir (slot := slot.toNat)
        (e := { s.entry slot.toNat with state := .owned sender, version := version }) hp rfl
      refine ⟨_, hrow, hself, hothers, ?_, fun _ => ⟨rfl, rfl⟩, fun hne => absurd hop hne, State.slotsEnd_applied rfl,
        rfl, rfl, rfl, rfl, rfl, rfl, rfl, rfl, rfl, rfl⟩
      rw [if_pos hop, Ntq.arriveAll_append]
      rfl
    · rw [State.overheard_none (by exact ho) (by exact hop)] at happly
      have hrow := exec_vetoSlot_applied h happly hnode rfl rfl hdue (.inr hlevel) heard
      obtain ⟨hself, hothers⟩ := State.entries_putEntry (s := s) hdir (slot := slot.toNat)
        (e := { s.entry slot.toNat with state := .owned sender, version := version }) hp rfl
      refine ⟨_, hrow, hself, hothers, ?_, fun hop' => absurd hop' hop, fun _ => ⟨rfl, rfl⟩, State.slotsEnd_applied rfl,
        rfl, rfl, rfl, rfl, rfl, rfl, rfl, rfl, rfl, rfl⟩
      rw [if_neg hop, List.append_nil]
      rfl
  case yield =>
    obtain ⟨-, -, hdue⟩ := h.fckHolds
    have hnode : s.nct.node ≠ .halted := h.running.2
    have happly : s.pastVeto.applyReceived { sender := sender, payload := .yield slot version } = _ :=
      State.applyYield_other (s := s.pastVeto) ho' hp version
    have hrow := exec_vetoSlot_applied h happly hnode rfl rfl hdue (.inr hlevel) heard
    obtain ⟨hself, hothers⟩ := State.entries_putEntry (s := s) hdir (slot := slot.toNat)
      (e := { s.entry slot.toNat with state := .free, version := version }) hp rfl
    exact ⟨_, hrow, hself, hothers, rfl, State.slotsEnd_applied rfl, rfl, rfl, rfl, rfl, rfl, rfl, rfl, rfl, rfl, rfl,
      rfl, rfl⟩

end Sys2Proof.Machine
end

section
/-!
SUPPORT. The veto slot of another station's BEAT, HELLO, LEAVE, DROP and ASK, and of a frame at a joining node (R52,
R54–R56, R58, R71, R72, R78, R97, R102, R104, R124–R126, R156).
-/

set_option Elab.async false

namespace Sys2Proof.Machine

/-! ### The stations of a mask -/

/-- The stations of a mask that meet a test, as one pass over the stations. -/
theorem StationMask.stations_filter (m : StationMask) (p : Nat → Bool) :
    (StationMask.stations m).filter p = (List.range 16).filter fun n => m.getLsbD n && p n := by
  unfold StationMask.stations
  rw [List.filter_filter]
  exact List.filter_congr fun n _ => Bool.and_comm _ _

theorem StationMask.stations_mask : ∀ n : Station, StationMask.stations (Station.mask n) = [n.toNat] := by decide

theorem State.isMember_eq (s : State) (n : Nat) : s.isMember n = decide ((s.mbu.entry n).state ≠ .absent) := rfl

theorem State.not_isMember_eq (s : State) (n : Nat) : (!s.isMember n) = decide ((s.mbu.entry n).state = .absent) := by
  rw [State.isMember_eq, decide_not, Bool.not_not]

/-- The stations that a mask drops at this node. -/
theorem State.maskedMembers_eq (s : State) (mask : StationMask) :
    s.maskedMembers mask = (List.range 16).filter fun n =>
      mask.getLsbD n && decide (n ≠ s.nct.station.toNat) && decide ((s.mbu.entry n).state ≠ .absent) := by
  unfold State.maskedMembers
  rw [StationMask.stations_filter]
  refine List.filter_congr fun n _ => ?_
  have hother : (!(n == s.nct.station.toNat)) = decide (n ≠ s.nct.station.toNat) := by
    rw [decide_not]
    rfl
  rw [Bool.and_assoc, State.isMember_eq, hother]

/-! ### Isolation by an applied frame (R104) -/

/-- A frame whose application isolates the node: the frame checker has let its access go with that. -/
theorem exec_vetoSlot_isolates {s u z : State} {f : Frame} {cause : IsolationCause} (h : s.passedFrame f)
    (hz : s.pastVeto.applyReceived f = z) (hu : u.nct = s.nct) (hi : u.isolatedFrom z cause) (hlevel : s.levelGood)
    (heard : Bool) : exec (.vetoSlot heard false) s = .next z := by
  obtain ⟨hnct, -, -, -, -, -, hfck, -⟩ := hi
  have hnode : z.nct.node ≠ .halted := by
    rw [hnct]
    nofun
  have happlied : State.applyReceived { s.slotsPast none with fck := { s.fck with inbound := none } } f = z := hz
  refine State.driving_onBus_quiet h.running ((State.vetoSlot_passed h heard false).trans ?_) (.inr (.inr ?_))
  · rw [if_neg Bool.false_ne_true, happlied, State.andThen_running hnode]
    unfold State.endAccess
    rw [hfck]
    rfl
  · refine fun c hc => hlevel c ?_
    rw [hnct, hu] at hc
    exact hc

/-! ### BEAT (R52, R104) -/

theorem State.applyBeat_leftOut {s : State} {mask : StationMask} (h : mask.getLsbD s.nct.station.toNat = false) :
    s.applyBeat mask = s.isolate .dropped := by
  unfold State.applyBeat StationMask.has
  rw [h]
  rfl

theorem State.applyBeat_named {s : State} {mask : StationMask} (h : mask.getLsbD s.nct.station.toNat = true) :
    s.applyBeat mask = if s.nct.node = .catchup then
        s.addStations ((StationMask.stations mask).filter fun n => !s.isMember n)
      else s := by
  unfold State.applyBeat StationMask.has
  rw [h]
  rfl

/-- Settles O34: the receiver is left out, or named where it adds stations or does not. -/
theorem appliedBeatIsolatesOrAdds : Obligations.AppliedBeatIsolatesOrAdds := by
  intro heard sender mask p s hcan h
  obtain ⟨hdir, -, htable⟩ := id hcan
  obtain ⟨-, hpart, -⟩ := id h
  obtain ⟨-, -, hdue⟩ := h.fckHolds
  have hnode : s.nct.node ≠ .halted := h.running.2
  refine ⟨fun hout hlevel => ?isolated, fun hin hother => ?named, fun c hin hcatchup hm hc => ?adds⟩
  case isolated =>
    have hspec : s.isolatedFrom (s.pastVeto.isolate .dropped) .dropped :=
      State.isolate_spec (s := s.pastVeto) hpart hdir .dropped
    exact ⟨_, exec_vetoSlot_isolates h (State.applyBeat_leftOut (s := s.pastVeto) hout) rfl hspec hlevel heard, hspec⟩
  case named =>
    have happly : s.pastVeto.applyReceived { sender := sender, payload := .beat mask p } = s.pastVeto :=
      (State.applyBeat_named (s := s.pastVeto) hin).trans (if_neg hother)
    exact exec_vetoSlot_applied h happly hnode rfl rfl hdue (.inl rfl) heard
  case adds =>
    have happly : s.pastVeto.applyReceived { sender := sender, payload := .beat mask p } = _ :=
      (State.applyBeat_named (s := s.pastVeto) hin).trans (if_pos hcatchup)
    have hns : ((StationMask.stations mask).filter fun n => !s.pastVeto.isMember n) =
        (List.range 16).filter fun n => mask.getLsbD n && decide ((s.mbu.entry n).state = .absent) := by
      rw [StationMask.stations_filter]
      exact List.filter_congr fun n _ => congrArg (mask.getLsbD n && ·) (s.not_isMember_eq n)
    rw [hns] at happly
    obtain ⟨table, hadds, hentries⟩ := State.addStations_spec (s := s.pastVeto) (c := c)
      ((List.range 16).filter fun n => mask.getLsbD n && decide ((s.mbu.entry n).state = .absent)) htable hc hm
    rw [hadds] at happly
    have hrow := exec_vetoSlot_applied h happly hnode rfl rfl hdue (.inr hc.levelGood) heard
    refine ⟨_, hrow, fun n => (hentries n).trans (if_congr ?_ rfl rfl), rfl, rfl, State.slotsEnd_applied rfl, rfl, rfl,
      rfl, rfl, rfl, rfl, rfl, rfl, rfl, rfl, rfl, rfl⟩
    simp only [List.mem_filter, List.mem_range, Bool.and_eq_true, decide_eq_true_eq]

/-! ### HELLO, LEAVE and DROP (R54–R56, R58, R78, R104) -/

/-- A frame whose application takes stations out of the table. -/
theorem exec_vetoSlot_removes {s : State} {f : Frame} {ns : List Nat} (h : s.passedFrame f) (hcan : s.canonical)
    (hm : s.membersGood) (hg : s.entriesGood) (hlevel : s.levelGood)
    (happly : s.pastVeto.applyReceived f = s.pastVeto.removeStations ns) (heard : Bool) :
    ∃ t, exec (.vetoSlot heard false) s = .next t ∧ s.lost t ns ∧
      t.ntq = s.ntq.arriveAll (ns.map fun n => .memberChanged n .absent) ∧
      s.slotsEnd t none ∧ t.fck.inbound = none ∧
      t.dst = s.dst ∧ t.obs = s.obs ∧ t.rpe = s.rpe ∧ t.opu = s.opu ∧ t.scb = s.scb ∧ t.wch = s.wch ∧
      t.elg = s.elg ∧ t.lpt = s.lpt ∧ t.nct = s.nct ∧ t.pending = s.pending := by
  obtain ⟨hdir, -, htable⟩ := hcan
  obtain ⟨-, -, hdue⟩ := h.fckHolds
  obtain ⟨hlost, -, hframe⟩ := State.removeStations_spec (s := s.pastVeto) ns hdir htable hg hm h.running.2
  obtain ⟨dir, mbu, hy⟩ : ∃ dir mbu, s.pastVeto.removeStations ns = { s.pastVeto with
      dir := dir, mbu := mbu, ntq := s.ntq.arriveAll (ns.map fun n => .memberChanged n .absent) } := ⟨_, _, hframe⟩
  rw [hy] at happly hlost
  have hrow := exec_vetoSlot_applied h happly h.running.2 rfl rfl hdue (.inr hlevel) heard
  exact ⟨_, hrow, hlost, rfl, State.slotsEnd_applied rfl, rfl, rfl, rfl, rfl, rfl, rfl, rfl, rfl, rfl, rfl, rfl⟩

theorem State.applyDrop_eq (s : State) (mask : StationMask) :
    s.applyDrop mask = (s.removeStations (s.maskedMembers mask)).andThen fun s =>
      if mask.getLsbD s.nct.station.toNat = true then s.isolate .dropped else s := rfl

/-- Settles O35: stations are added or taken out of the table, and a receiver that a DROP names isolates itself then. -/
theorem appliedMembershipFramesMoveStations : Obligations.AppliedMembershipFramesMoveStations := by
  intro heard sender c s hcan hm hg hc
  obtain ⟨hdir, -, htable⟩ := id hcan
  refine ⟨fun p h => ?hello, fun h hmember => ?leave, fun mask h => ?drop⟩
  case hello =>
    obtain ⟨-, -, hdue⟩ := h.fckHolds
    obtain ⟨table, hadds, hentries⟩ := State.addStations_spec (s := s.pastVeto) (c := c) [sender.toNat] htable hc hm
    have hrow := exec_vetoSlot_applied h hadds h.running.2 rfl rfl hdue (.inr hc.levelGood) heard
    exact ⟨_, hrow, fun n => (hentries n).trans (if_congr List.mem_singleton rfl rfl), rfl, rfl,
      State.slotsEnd_applied rfl, rfl, rfl, rfl, rfl, rfl, rfl, rfl, rfl, rfl, rfl, rfl, rfl⟩
  case leave =>
    have hns : (StationMask.stations (Station.mask sender)).filter s.pastVeto.isMember = [sender.toNat] := by
      rw [StationMask.stations_mask]
      exact List.filter_cons_of_pos (decide_eq_true hmember)
    have happly : s.pastVeto.applyReceived { sender := sender, payload := .leave } =
        s.pastVeto.removeStations [sender.toNat] :=
      congrArg s.pastVeto.removeStations hns
    exact exec_vetoSlot_removes h hcan hm hg hc.levelGood happly heard
  case drop =>
    have hgone : s.pastVeto.maskedMembers mask = (List.range 16).filter fun n =>
        mask.getLsbD n && decide (n ≠ s.nct.station.toNat) && decide ((s.mbu.entry n).state ≠ .absent) :=
      s.pastVeto.maskedMembers_eq mask
    have happly : s.pastVeto.applyReceived { sender := sender, payload := .drop mask } = _ :=
      s.pastVeto.applyDrop_eq mask
    rw [hgone] at happly
    obtain ⟨hlost, hdir', hframe⟩ := State.removeStations_spec (s := s.pastVeto) ((List.range 16).filter fun n =>
      mask.getLsbD n && decide (n ≠ s.nct.station.toNat) && decide ((s.mbu.entry n).state ≠ .absent)) hdir htable hg hm
      h.running.2
    refine ⟨fun hout => ?_, fun hin => ?_⟩
    · refine exec_vetoSlot_removes h hcan hm hg hc.levelGood (happly.trans ?_) heard
      rw [hframe, State.andThen_running (by exact h.running.2)]
      exact if_neg fun hin => Bool.false_ne_true (hout.symm.trans hin)
    · obtain ⟨dir, mbu, hy⟩ : ∃ dir mbu, s.pastVeto.removeStations ((List.range 16).filter fun n =>
          mask.getLsbD n && decide (n ≠ s.nct.station.toNat) && decide ((s.mbu.entry n).state ≠ .absent)) =
          { s.pastVeto with dir := dir, mbu := mbu, ntq := s.ntq.arriveAll (((List.range 16).filter fun n =>
              mask.getLsbD n && decide (n ≠ s.nct.station.toNat) && decide ((s.mbu.entry n).state ≠ .absent)).map
                fun n => .memberChanged n .absent) } := ⟨_, _, hframe⟩
      rw [hy] at happly hlost hdir'
      rw [State.andThen_running (by exact h.running.2), if_pos (by exact hin)] at happly
      obtain ⟨-, hpart, -⟩ := id h
      obtain ⟨u, hu⟩ : ∃ u : State, u = { s with
          dir := dir, mbu := mbu, ntq := s.ntq.arriveAll (((List.range 16).filter fun n =>
              mask.getLsbD n && decide (n ≠ s.nct.station.toNat) && decide ((s.mbu.entry n).state ≠ .absent)).map
                fun n => .memberChanged n .absent) } := ⟨_, rfl⟩
      have hspec := State.isolate_spec (s := { s.pastVeto with dir := u.dir, mbu := u.mbu, ntq := u.ntq }) hpart
        (by rw [hu]; exact hdir') .dropped
      have hiso : u.isolatedFrom
          (State.isolate { s.pastVeto with dir := u.dir, mbu := u.mbu, ntq := u.ntq } .dropped) .dropped := by
        rw [hu] at hspec ⊢
        exact hspec
      refine ⟨u, _, ?_, ?_, exec_vetoSlot_isolates h ?_ ?_ hiso hc.levelGood heard, hiso⟩
      · rw [hu]
        exact hlost
      · rw [hu]
      · rw [hu]
        exact happly
      · rw [hu]

/-! ### ASK (R102, R124–R126) -/

theorem State.applyAsk_leaving {s : State} (h : s.nct.node = .leaving) (asker : Station) (first : Byte) (mode : BitVec 3)
    (count : BitVec 5) : s.applyAsk asker first mode count = s := by
  unfold State.applyAsk
  rw [h]
  rfl

/-- In CATCHUP and MEMBER the asked slots that the node answers for join the answer set. -/
theorem State.applyAsk_answers {s : State} (hn : s.nct.node = .catchup ∨ s.nct.node = .member) (hg : s.entriesGood)
    (hm : s.membersGood) (asker : Station) (first : Byte) (mode : BitVec 3) (count : BitVec 5) :
    s.applyAsk asker first mode count =
      s.addAnswers ((askRange first.toNat count.toNat).filter (s.answersFor asker mode)) := by
  have hexamined : ∀ slots k, s.examineAll slots k = k := fun slots k => by
    unfold State.examineAll
    rw [List.find?_eq_none.2 fun n _ => by simp [hg n]]
  unfold State.applyAsk
  rw [if_pos (by simpa using hn)]
  simp only [hexamined, State.useMembers_good hm, ite_self]

/-- Slots that join an answer set have a SYNC entry stand for it. -/
theorem State.addAnswers_eq (s : State) (slots : List Nat) :
    s.addAnswers slots = { s with
      rpe := { s.rpe with answers := slots.foldl (fun l n => insertSorted n l) s.rpe.answers },
      obs := if slots = [] ∨ s.obs.holds .sync = true then s.obs else { s.obs with
        queue := s.obs.queue ++ [{ kind := .sync, ref := .none, attempts := 0, queued := s.nct.now }] } } := by
  unfold State.addAnswers
  by_cases h : slots = []
  · subst h
    rw [if_pos rfl, if_pos (.inl rfl)]
    rfl
  · rw [if_neg h, State.place_eq rfl]
    by_cases hsync : s.obs.holds .sync = true
    · rw [if_pos (by exact hsync), if_pos (.inr hsync)]
    · rw [if_neg (by exact hsync), if_neg fun hor => hor.elim h hsync]

/-- The slots that an ASK has join the answer set. -/
theorem State.mem_answered {s : State} {asker : Station} {first : Byte} {mode : BitVec 3} {count : BitVec 5} {n : Nat} :
    n ∈ (askRange first.toNat count.toNat).filter (s.answersFor asker mode) ↔
      first.toNat ≤ n ∧ n < first.toNat + count.toNat ∧ (s.entry n).state ≠ .unlearned ∧
        (s.entry n).health = .good ∧ (mode = 1 ∨ s.isDesignated asker n) := by
  rw [List.mem_filter, mem_askRange, State.answersFor_iff]
  tauto

/-- Settles O36: the answer set in CATCHUP and MEMBER, and nothing in LEAVING. -/
theorem appliedAskJoinsTheAnswerSet : Obligations.AppliedAskJoinsTheAnswerSet := by
  intro heard asker first mode count s h hg hm
  obtain ⟨-, hpart, -⟩ := id h
  obtain ⟨-, -, hdue⟩ := h.fckHolds
  refine ⟨fun hnode => ?answers, fun hnode => ?leaving⟩
  case leaving =>
    have happly : s.pastVeto.applyReceived { sender := asker, payload := .ask first mode count } = s.pastVeto :=
      State.applyAsk_leaving (s := s.pastVeto) hnode asker first mode count
    exact exec_vetoSlot_applied h happly h.running.2 rfl rfl hdue (.inl rfl) heard
  case answers =>
    have hkinds : s.nct.node = .catchup ∨ s.nct.node = .member := by
      cases hn : s.nct.node with
      | catchup => exact .inl rfl
      | member => exact .inr rfl
      | leaving => exact absurd hn hnode
      | config | idle | listening | announcing | isolated | halted =>
        rw [hn] at hpart
        cases hpart
    have happly : s.pastVeto.applyReceived { sender := asker, payload := .ask first mode count } = _ :=
      (State.applyAsk_answers (s := s.pastVeto) hkinds hg hm asker first mode count).trans (State.addAnswers_eq _ _)
    have hrow := exec_vetoSlot_applied h happly h.running.2 rfl rfl hdue (.inl rfl) heard
    have hjoins : ∀ n, n ∈ (askRange first.toNat count.toNat).filter (s.pastVeto.answersFor asker mode) ↔ _ :=
      fun n => State.mem_answered (s := s)
    refine ⟨_, hrow, fun n => (mem_foldInsert _ _ n).trans (or_congr Iff.rfl (hjoins n)), rfl, fun ⟨n, hn⟩ => ?_,
      fun hno => ?_, State.slotsEnd_applied rfl, rfl, rfl, rfl, rfl, rfl, rfl, rfl, rfl, rfl, rfl, rfl, rfl⟩
    · refine if_congr ⟨fun hor => hor.resolve_left fun hempty => ?_, .inr⟩ rfl rfl
      exact absurd ((hjoins n).2 hn) (by rw [hempty]; exact List.not_mem_nil)
    · refine if_pos (.inl (List.eq_nil_iff_forall_not_mem.2 fun n hn => hno ⟨n, (hjoins n).1 hn⟩))

/-! ### A joining node (R71, R72, R97) -/

/-- A joining node past the slots: a pulled frame is dropped, any other heard. -/
theorem State.vetoSlot_joining {s : State} {f : Frame} {v : Option Verdict} (hj : s.nct.node.joining = true)
    (hs : s.pbi.shift = .paused) (hp : s.pbi.holdPck = false) (hv : s.pbi.pullVeto = false)
    (hi : s.fck.inbound = some { frame := f, verdict := v }) (heard veto : Bool) :
    s.vetoSlot heard veto = if veto then s.pastVeto else s.pastVeto.hearJoining f := by
  unfold State.vetoSlot
  rw [hs]
  simp only
  unfold State.receiverSlots
  rw [hp, hv, hi, Bool.or_false]
  simp only [Bool.false_eq_true, if_false]
  exact if_pos hj

/-- What a frame leaves of the provisional member set. -/
def State.provisionallyHeard (s : State) (f : Frame) : State :=
  { s with mbu := { s.mbu with provisional := provisionalAfter s.nct.station s.mbu.provisional f } }

/-- A frame of any kind but BEAT, or a BEAT of this node's parameters, changes the provisional member set alone. -/
theorem State.hearJoining_agrees {s : State} {f : Frame} {c : NodeConfig} (hc : s.hasConfig c)
    (h : ∀ mask p, f.payload = .beat mask p → f.paramsHold c s.nct.rate) :
    s.hearJoining f = s.provisionallyHeard f := by
  obtain ⟨sender, payload⟩ := f
  cases payload with
  | beat mask p =>
    have hparams : p = c.wire s.nct.rate := h mask p rfl
    unfold State.hearJoining
    simp only
    rw [State.useConfig_good (by exact hc)]
    exact if_pos hparams
  | leave | drop _ | hello _ | claim _ _ | yield _ _ | post _ | sync _ | ask _ _ _ => rfl

/-- A BEAT of other parameters ends the JOIN. -/
theorem State.hearJoining_mismatch {s : State} {f : Frame} {c : NodeConfig} (hc : s.hasConfig c) {mask : StationMask}
    {p : WireParams} (hf : f.payload = .beat mask p) (h : ¬f.paramsHold c s.nct.rate) :
    s.hearJoining f = (s.provisionallyHeard f).endJoin .mismatch := by
  obtain ⟨sender, payload⟩ := f
  obtain rfl : payload = .beat mask p := hf
  unfold State.hearJoining
  simp only
  rw [State.useConfig_good (by exact hc)]
  exact if_neg h

/-- Settles O37: the pulled frame, the provisional set, and the end of a JOIN with other parameters. -/
theorem joiningNodeTakesUnpulledFrames : Obligations.JoiningNodeTakesUnpulledFrames := by
  intro heard f v c s hr hj hs hp hv hi hc
  have hslot := fun veto => State.vetoSlot_joining hj hs hp hv hi heard veto
  refine ⟨State.driving_onBus_quiet hr ((hslot true).trans (if_pos rfl)) (.inl rfl), ?_⟩
  have hheard := (hslot false).trans (if_neg Bool.false_ne_true)
  have hprovisional : ∀ n, n < 16 →
      ((provisionalAfter s.nct.station s.mbu.provisional f).getLsbD n = true ↔ s.keepsProvisional f n) :=
    fun n hn => s.provisionalAfter_iff f hn
  by_cases hagree : ∀ mask p, f.payload = .beat mask p → f.paramsHold c s.nct.rate
  · refine ⟨_, State.driving_onBus_quiet hr (hheard.trans (State.hearJoining_agrees (s := s.pastVeto) hc hagree))
      (.inl rfl), hprovisional, rfl, fun _ => ⟨rfl, rfl, rfl⟩, fun ⟨mask, p, hbeat, hno⟩ => absurd (hagree mask p hbeat) hno,
      rfl, rfl, rfl, rfl, rfl, rfl, rfl, rfl, rfl, rfl, rfl, rfl⟩
  · push Not at hagree
    obtain ⟨mask, p, hbeat, hno⟩ := hagree
    exact ⟨_, State.driving_onBus_quiet hr (hheard.trans (State.hearJoining_mismatch (s := s.pastVeto) hc hbeat hno))
      (.inr (.inr hc.levelGood)), hprovisional, rfl, fun hall => absurd (hall mask p hbeat) hno,
      fun _ => ⟨rfl, rfl, rfl⟩, rfl, rfl, rfl, rfl, rfl, rfl, rfl, rfl, rfl, rfl, rfl, rfl⟩

end Sys2Proof.Machine
end

section
/-!
SUPPORT. The veto slot of another station's POST and SYNC (R28, R49, R64, R66, R67, R100, R113–R115, R120–R122, R126,
R129).
-/

set_option Elab.async false

namespace Sys2Proof.Machine

/-! ### A data frame without a give-up due -/

/-- The veto slot of a data frame of another station whose application is known. -/
theorem exec_vetoSlot_data {s : State} {f : Frame} {c : NodeConfig} {ws : List SlotWrite} {pre : List Notice}
    {changes : List (Nat × List Word)} {answers : List Nat} {queue : List OutEntry} (h : s.passedFrame f)
    (hc : s.hasConfig c)
    (happlied : Applied s.pastVeto (s.pastVeto.applyReceived f) c ws pre changes answers queue) (heard : Bool) :
    ∃ t, exec (.vetoSlot heard false) s = .next t ∧ s.wrote t ws ∧
      t.wch = (watchesAfter s.nct.now changes s.wch).1 ∧
      t.ntq = s.ntq.arriveAll (pre ++ (watchesAfter s.nct.now changes s.wch).2 ++
        (if s.nct.node = .catchup ∧ t.rpe.wanted = [] then [.catchupDone t.rpe.unresolved] else [])) ∧
      t.nct = { s.nct with node := if s.nct.node = .catchup ∧ t.rpe.wanted = [] then .member else s.nct.node } ∧
      t.rpe.answers = answers ∧ t.rpe.due = s.rpe.due ∧
      t.rpe.cycle = s.cycleAfter c t.rpe.wanted ∧ t.obs.queue = s.queueAfter t.rpe.wanted queue ∧
      (s.obs.build = none → t.obs.build = none) ∧ s.slotsEnd t none ∧ t.fck.inbound = none ∧
      t.mbu = s.mbu ∧ t.opu = s.opu ∧ t.elg = s.elg ∧ t.lpt = s.lpt ∧ t.scb = s.scb ∧ t.pending = s.pending := by
  obtain ⟨-, -, hdue⟩ := h.fckHolds
  obtain ⟨hnct, hntq⟩ := happlied.ends
  have hactive : s.pastVeto.active = true := h.active
  simp only [hactive, true_and] at hnct hntq
  have hframe := happlied.frame
  generalize hy : s.pastVeto.applyReceived f = y at *
  have hnode : y.nct.node ≠ .halted := by
    rw [hnct]
    show (if _ then NodeState.member else s.nct.node) ≠ _
    split_ifs
    · nofun
    · exact h.running.2
  have hlevel : y.levelGood := by
    refine fun c' hc' => hc.levelGood c' ?_
    rw [hnct] at hc'
    exact hc'
  obtain ⟨nct, dir, dst, obs, rpe, wch, ntq, rfl⟩ : ∃ nct dir dst obs rpe wch ntq, y = { s.pastVeto with
      nct := nct, dir := dir, dst := dst, obs := obs, rpe := rpe, wch := wch, ntq := ntq } :=
    ⟨_, _, _, _, _, _, _, hframe⟩
  exact ⟨_, exec_vetoSlot_applied h hy hnode rfl rfl happlied.due (.inr hlevel) heard, happlied.writes,
    happlied.watches, hntq, hnct, happlied.answers, happlied.due.trans hdue.symm, happlied.cycle, happlied.queue,
    happlied.build, State.slotsEnd_applied rfl, rfl, rfl, rfl, rfl, rfl, rfl, rfl⟩

/-! ### POST while a give-up is due (R64, R122) -/

/-- The writes, the notices and the data changes of a POST, then the give-up of the slots it has left wanted. -/
theorem exec_vetoSlot_postDue {s : State} {sender : Station} {items : List Item} {d : DueGiveUp} {c : NodeConfig}
    (hcan : s.canonical) (h : s.withoutDue.passedFrame { sender := sender, payload := .post items })
    (hd : s.rpe.due = some d) (ho : sender ≠ s.nct.station) (hnodup : (items.map Item.slot).Nodup)
    (hlength : ∀ i ∈ items, i.words.length ≤ 16) (hg : s.entriesGood) (hc : s.hasConfig c) (heard : Bool) :
    let watched := watchesAfter s.nct.now (items.map fun i => (i.slot.toNat, i.words)) s.wch
    ∃ u t, exec (.vetoSlot heard false) s = .next t ∧
      s.wrote u (items.map (Item.write sender)) ∧
      u = { s with
        dir := u.dir, dst := u.dst, wch := watched.1,
        rpe := { s.rpe with wanted := u.rpe.wanted, unresolved := u.rpe.unresolved },
        ntq := s.ntq.arriveAll
          (((items.filter fun i => decide ((s.entry i.slot.toNat).state ≠ .unlearned)).map fun i =>
            .recordChanged i.slot.toNat .posted) ++ watched.2) } ∧
      u.givenUp t c (d.slots.filter fun n => u.rpe.wanted.contains n) ∧
      s.slotsEnd t none ∧ t.fck.inbound = none ∧ t.dst = u.dst ∧ t.wch = u.wch ∧
      t.mbu = s.mbu ∧ t.opu = s.opu ∧ t.elg = s.elg ∧ t.lpt = s.lpt ∧ t.scb = s.scb ∧ t.pending = s.pending := by
  intro watched
  obtain ⟨hdir, hcells, -⟩ := hcan
  obtain ⟨hf, hk, -⟩ := h.fckHolds
  have hr : s.running := h.running
  obtain ⟨-, hnode⟩ := id hr
  obtain ⟨y, hwritten, happly⟩ := State.applyPost_due (x := s.pastVeto) sender items (State.not_isOwn (by exact ho))
    hnode hd hdir hcells hg hnodup hlength
  have hrpe := hwritten.engine
  have hframe := hwritten.frame
  obtain ⟨dir, cells, wanted, unresolved, hy⟩ : ∃ dir cells wanted unresolved, y = { s.pastVeto with
      dir := dir, dst := { s.dst with cells := cells },
      rpe := { s.rpe with wanted := wanted, unresolved := unresolved } } := by
    rw [hrpe] at hframe
    exact ⟨_, _, _, _, hframe⟩
  subst hy
  obtain ⟨hgiven, nct, dir', rpe, obs, ntq, hend⟩ := State.endAccess_due
    (s := s.pastVeto.applyPost sender items) (c := c) (d := d) (p := .check) (by rw [happly]; exact hf)
    (by rw [happly]; exact hk) (by rw [happly]; exact hwritten.dirWf) (by rw [happly]; exact hwritten.good)
    (by rw [happly]; exact hnode) (by rw [happly]; exact hc) (by rw [happly]; exact hd)
  have hrow : exec (.vetoSlot heard false) s = .next (s.pastVeto.applyPost sender items).endAccess := by
    rw [Rows.vetoSlot_passedDue hc.levelGood h, if_neg Bool.false_ne_true]
    exact congrArg Host.Outcome.next (State.andThen_running (s := s.pastVeto.applyPost sender items)
      (by rw [happly]; exact hnode) _)
  rw [hend] at hrow hgiven
  rw [happly] at hrow hgiven
  refine ⟨{ s with
    dir := dir, dst := { s.dst with cells := cells }, wch := watched.1,
    rpe := { s.rpe with wanted := wanted, unresolved := unresolved },
    ntq := s.ntq.arriveAll
      (((items.filter fun i => decide ((s.entry i.slot.toNat).state ≠ .unlearned)).map fun i =>
        .recordChanged i.slot.toNat .posted) ++ watched.2) }, _, hrow, ?_, rfl, hgiven, ⟨rfl, rfl, rfl⟩, rfl, rfl, rfl,
    rfl, rfl, rfl, rfl, rfl, rfl⟩
  exact hwritten.wrote rfl rfl rfl rfl

/-! ### SYNC (R66, R129) -/

/-- A record that another station has answered is equal to the local version or newer. -/
theorem State.mem_prunable {s : State} {records : List Record} {n : Nat} : n ∈ s.prunable records ↔
    ∃ r ∈ records, r.slot.toNat = n ∧ (r.version = (s.entry r.slot.toNat).version ∨
      newerThan r.version (s.entry r.slot.toNat).version) := by
  unfold State.prunable
  simp only [List.mem_map, List.mem_filter, Bool.or_eq_true, decide_eq_true_eq, newer_iff]
  exact ⟨fun ⟨r, ⟨hmem, hanswered⟩, hslot⟩ => ⟨r, hmem, hslot, hanswered⟩,
    fun ⟨r, hmem, hslot, hanswered⟩ => ⟨r, ⟨hmem, hanswered⟩, hslot⟩⟩

theorem State.prunable_ne_nil {s : State} {records : List Record} : s.prunable records ≠ [] ↔
    ∃ r ∈ records, r.version = (s.entry r.slot.toNat).version ∨
      newerThan r.version (s.entry r.slot.toNat).version := by
  rw [Ne, List.eq_nil_iff_forall_not_mem, not_forall]
  simp only [not_not, State.mem_prunable]
  exact ⟨fun ⟨_, r, hmem, _, hanswered⟩ => ⟨r, hmem, hanswered⟩, fun ⟨r, hmem, hanswered⟩ => ⟨_, r, hmem, rfl, hanswered⟩⟩

/-- Settles O33: the application of a data frame, and the end of its access with the give-up that is due. -/
theorem appliedPostAndSyncWriteTheirSlots : Obligations.AppliedPostAndSyncWriteTheirSlots := by
  refine ⟨fun heard sender items c s hcan h ho hnodup hlength hg hc => ?post,
    fun heard sender items d c s hcan h hd ho hnodup hlength hg hc =>
      exec_vetoSlot_postDue hcan h hd ho hnodup hlength hg hc heard,
    fun heard sender records c s hcan h ho hnodup hlength hg hc => ?sync⟩
  case post =>
    obtain ⟨hdir, hcells, -⟩ := hcan
    obtain ⟨-, -, hdue⟩ := h.fckHolds
    exact exec_vetoSlot_data h hc (State.applyPost_spec (x := s.pastVeto) sender items (State.not_isOwn (by exact ho))
      h.running.2 hdue hc hdir hcells hg hnodup hlength) heard
  case sync =>
    obtain ⟨hdir, hcells, -⟩ := hcan
    obtain ⟨-, -, hdue⟩ := h.fckHolds
    obtain ⟨t, hrow, hwrote, hwch, hntq, hnct, hanswers, hdue', hcycle, hqueue, hrest⟩ := exec_vetoSlot_data h hc
      (State.applySync_spec (x := s.pastVeto) sender records (State.not_isOwn (by exact ho)) h.running.2 hdue hc hdir
        hcells hg hnodup hlength) heard
    have hanswers' : t.rpe.answers = s.rpe.answers.filter fun n => !(s.prunable records).contains n := hanswers
    have hqueue' : t.obs.queue = s.queueAfter t.rpe.wanted
        (if s.prunable records ≠ [] ∧ t.rpe.answers = [] then s.obs.queue.filter fun e => !decide (e.kind = .sync)
          else s.obs.queue) := by
      rw [hanswers']
      exact hqueue
    refine ⟨t, hrow, hwrote, hwch, hntq, hnct, fun n => ?_, hdue', hcycle, fun hempty hanswered => ?_,
      fun hor => ?_, hrest⟩
    · rw [hanswers', List.mem_filter]
      simp only [Bool.not_eq_true', List.contains_eq_mem, decide_eq_false_iff_not, State.mem_prunable]
    · rw [hqueue', if_pos ⟨State.prunable_ne_nil.2 hanswered, hempty⟩]
    · rw [hqueue', if_neg fun ⟨hne, hempty⟩ => hor.elim (fun h => h hempty) fun h => h (State.prunable_ne_nil.1 hne)]

end Sys2Proof.Machine
end

section
/-!
SUPPORT. The veto slot of the node's own frame that fails (R11, R80, R83, R87, R97, R101, R118, R119, R121, R122, R128,
R137, R149).
-/

set_option Elab.async false

namespace Sys2Proof.Machine

/-! ### The report of a failed frame (R137) -/

theorem State.goesAtOnce_iff {s : State} {k : FrameKind} :
    s.goesAtOnce k = true ↔ k = .beat ∨ (s.nct.node = .leaving ∧ k.isOperation = true) := by
  unfold State.goesAtOnce
  rw [Bool.or_eq_true, Bool.and_eq_true, decide_eq_true_iff, decide_eq_true_iff]

section Failed

variable {s : State} {f : Frame} {e : OutEntry} (he : s.obs.find f.kind = some e)

include he

/-- Below eight attempts the entry stays, with one more. -/
theorem State.ownFailed_stays (hno : ¬(f.kind = .beat ∨ (s.nct.node = .leaving ∧ f.kind.isOperation = true)))
    (h : e.attempts + 1 < 8) (refused : Bool) :
    s.ownFailed f refused = (s.setAttempts f.kind (e.attempts + 1)).backToQueue f.kind := by
  unfold State.ownFailed
  rw [he]
  exact (if_neg fun hgo => hno (State.goesAtOnce_iff.1 hgo)).trans (if_pos h)

theorem State.ownFailed_atOnce (hgo : f.kind = .beat ∨ (s.nct.node = .leaving ∧ f.kind.isOperation = true))
    (refused : Bool) : s.ownFailed f refused = s.goneAtOnce f.kind := by
  unfold State.ownFailed
  rw [he]
  exact if_pos (State.goesAtOnce_iff.2 hgo)

theorem State.ownFailed_eighth (hno : ¬(f.kind = .beat ∨ (s.nct.node = .leaving ∧ f.kind.isOperation = true)))
    (h : 8 ≤ e.attempts + 1) (refused : Bool) : s.ownFailed f refused = s.eighthFailure f.kind refused := by
  unfold State.ownFailed
  rw [he]
  exact (if_neg fun hgo => hno (State.goesAtOnce_iff.1 hgo)).trans (if_neg (Nat.not_lt.2 h))

end Failed

/-- An entry that stays, and its operation's record. -/
theorem State.setAttempts_backToQueue (s : State) (k : FrameKind) (n : Nat) :
    (s.setAttempts k n).backToQueue k = { s with
      obs := { s.obs with queue := s.obs.queue.map fun x => if x.kind = k then { x with attempts := n } else x },
      opu := if k.isOperation then { s.opu with op := s.opu.op.map fun o => { o with onBus := false } } else s.opu } := by
  have hmap : (s.obs.queue.map fun x => if OutEntry.isKind k x then { x with attempts := n } else x) =
      s.obs.queue.map fun x => if x.kind = k then { x with attempts := n } else x :=
    List.map_congr_left fun x _ => if_congr decide_eq_true_iff rfl rfl
  unfold State.setAttempts State.backToQueue
  rw [hmap]
  by_cases hk : k.isOperation = true
  · rw [if_pos hk, if_pos hk]
    rfl
  · rw [if_neg hk, if_neg hk]

/-- The entry of an operation leaves, and the operation ends. -/
theorem State.removeEntry_endOp {s : State} {o : PendingOp} (ho : s.opu.op = some o) (k : FrameKind) (r : DoneResult) :
    (s.removeEntry k).endOp r = { s with
      obs := (s.removeEntry k).obs, opu := { s.opu with op := none },
      ntq := s.ntq.arrive (.opDone o.kind.done r o.kind.slot?) } := by
  rw [State.endOp_eq, show (s.removeEntry k).opu.op = some o from ho]
  rfl

/-- The eighth failure of an operation's frame ends the operation. -/
theorem State.eighthFailure_operation {s : State} {k : FrameKind} (hk : k.isOperation = true) (refused : Bool) :
    s.eighthFailure k refused = (s.removeEntry k).endOp (failedResult refused) := by
  cases k <;> first | rfl | cases hk

theorem State.goneAtOnce_operation {s : State} {k : FrameKind} (hk : k.isOperation = true) :
    s.goneAtOnce k = (s.removeEntry k).endOp .aborted := if_pos hk

/-- After the entry of a kind has left, none of the kind stands. -/
theorem State.removeEntry_holds (s : State) (k : FrameKind) : (s.removeEntry k).obs.holds k = false :=
  s.holds_withoutEntry k

/-! ### The veto slot of a failed own frame -/

/-- The sender past the slots of its frame, with the failure logged. -/
def State.pastFailure (s : State) (f : Frame) (veto : Bool) : State :=
  (s.slotsPast (some f.kind)).report (if veto then .frameRefused else .frameUnheard)
    { ErrorFields.ofStation s.nct.station.toNat with word := some f.kind.code }

/-- A failed own frame whose report to its block leaves `y`, with the access still held and no give-up due. -/
theorem exec_vetoSlot_failed {s y : State} {f : Frame} {heard veto : Bool} (hl : s.levelGood) (h : s.ownPaused f)
    (hv : s.ownFails f heard veto) (hy : (s.pastFailure f veto).ownFailed f veto = y) (hn : y.nct.node ≠ .halted)
    (hfck : y.fck = s.fck) (hsar : y.sar = s.sar) (hdue : y.rpe.due = none) :
    exec (.vetoSlot heard veto) s = .next
      { y with fck := { s.fck with purpose := none }, sar := s.sar.handOver } := by
  obtain ⟨-, -, -, -, hpurpose, hgrant, -⟩ := id h
  have hfailed : ((s.slotsPast (some f.kind)).report (if veto then .frameRefused else .frameUnheard)
      { ErrorFields.ofStation s.nct.station.toNat with word := some f.kind.code }).ownFailed f veto = y := hy
  rw [Rows.vetoSlot_failed hl h hv, hfailed, State.andThen_running hn,
    State.endAccess_held (p := .ownFrame) ⟨by rw [hfck]; exact hpurpose, by rw [hsar]; exact hgrant, hdue⟩ hn, hfck, hsar]

/-- The eighth failure of a SYNC clears the answer set. -/
theorem State.eighthFailure_sync (s : State) (refused : Bool) : s.eighthFailure .sync refused = { s with
    obs := ((s.removeEntry .sync).removeEntry .sync).obs, rpe := { s.rpe with answers := [] } } := rfl

theorem State.removeEntry_twice (s : State) (k : FrameKind) :
    ((s.removeEntry k).removeEntry k).obs.queue = s.obs.queue.filter fun x => !decide (x.kind = k) := by
  refine (List.filter_filter ..).trans (List.filter_congr fun x _ => ?_)
  exact Bool.and_self _

/-- The eighth failure of a DROP has the decision one grace later. -/
theorem State.eighthFailure_drop {s : State} {c : NodeConfig} (hc : s.hasConfig c) (refused : Bool) :
    s.eighthFailure .drop refused = { s with
      obs := (s.removeEntry .drop).obs,
      mbu := { s.mbu with decision := some (s.nct.now + BitVec.ofNat 32 c.beat) } } :=
  State.useConfig_good (s := s.removeEntry .drop) hc _

theorem State.eighthFailure_ask_none {s : State} (h : s.rpe.cycle = none) (refused : Bool) :
    s.eighthFailure .ask refused = s.removeEntry .ask := by
  show (s.removeEntry .ask).askFailed = _
  unfold State.askFailed
  rw [show (s.removeEntry .ask).rpe.cycle = none from h]

/-- The eighth failure of an ASK ends its try, with what the cycle still wants as the asked slots. -/
theorem State.eighthFailure_ask_some {s : State} {cycle : AskCycle} (h : s.rpe.cycle = some cycle) (refused : Bool) :
    s.eighthFailure .ask refused = State.tryEnds { s.removeEntry .ask with
        rpe := { s.rpe with cycle := some { cycle with asked := s.wantedWithin cycle.first cycle.last } } }
      { cycle with asked := s.wantedWithin cycle.first cycle.last } := by
  show (s.removeEntry .ask).askFailed = _
  unfold State.askFailed
  rw [show (s.removeEntry .ask).rpe.cycle = some cycle from h]
  rfl

/-- The next try stands in the queue, where no ASK entry does. -/
theorem State.tryEnds_next {s : State} {cycle : AskCycle} (h : cycle.try_ < 3) (hh : s.obs.holds .ask = false) :
    s.tryEnds cycle = { s with
      rpe := { s.rpe with cycle := some { cycle with
        try_ := cycle.try_ + 1, phase := .queued, deadline := none } },
      obs := { s.obs with queue := s.obs.queue ++
        [{ kind := .ask, ref := .askTry (cycle.try_ + 1), attempts := 0, queued := s.nct.now }] } } := by
  unfold State.tryEnds State.nextTry
  rw [if_pos h, State.place_eq rfl]
  exact if_neg (by rw [show _ = _ from hh]; nofun)

/-- After the third try the give-up of the asked slots that are still wanted falls due, in the access that is held. -/
theorem State.tryEnds_last {s : State} {cycle : AskCycle} {p : Purpose} (h : 3 ≤ cycle.try_)
    (hf : s.fck.purpose = some p) :
    s.tryEnds cycle = { s with rpe := { s.rpe with
      due := some { slots := cycle.asked.filter s.rpe.wanted.contains, takenOver := false } } } := by
  unfold State.tryEnds State.giveUpDue
  rw [if_neg (Nat.not_lt.2 h)]
  simp only [hf, Option.isNone_some, Bool.false_eq_true, if_false]

/-- The slots of a cycle that are wanted stay so in the filters by the wanted set. -/
theorem filter_wanted_twice (wanted : List Nat) (p : Nat → Bool) :
    ((wanted.filter p).filter wanted.contains).filter (fun n => wanted.contains n) = wanted.filter p := by
  have hwanted : (wanted.filter p).filter wanted.contains = wanted.filter p :=
    List.filter_eq_self.2 fun n hn => List.contains_iff_mem.2 (List.mem_filter.1 hn).1
  rw [hwanted]
  exact hwanted

/-- The third try's eighth failure: the give-up is made at the end of the access. -/
theorem exec_vetoSlot_lastTry {s : State} {f : Frame} {e : OutEntry} {cycle : AskCycle} {c : NodeConfig}
    {heard veto : Bool} (hl : s.levelGood) (h : s.ownPaused f) (he : s.obs.find f.kind = some e)
    (hv : s.ownFails f heard veto) (heighth : 8 ≤ e.attempts + 1) (hk : f.kind = .ask)
    (hcycle : s.rpe.cycle = some cycle) (htry : 3 ≤ cycle.try_) (hcan : s.canonical) (hg : s.entriesGood)
    (hc : s.hasConfig c) :
    ∃ t, exec (.vetoSlot heard veto) s = .next t ∧
      State.givenUp { s with obs := { s.obs with queue := s.obs.queue.filter fun x => !decide (x.kind = f.kind) } } t c
        (s.rpe.wanted.filter fun n => decide (cycle.first ≤ n) && decide (n ≤ cycle.last)) ∧
      t.elg = s.elg.take {
        kind := if veto then .frameRefused else .frameUnheard, time := s.nct.now,
        fields := { slot := none, station := some s.nct.station.toNat, word := some f.kind.code, bit := none } } ∧
      s.slotsEnd t (some f.kind) ∧
      t.dst = s.dst ∧ t.mbu = s.mbu ∧ t.opu = s.opu ∧ t.wch = s.wch ∧ t.lpt = s.lpt ∧ t.scb = s.scb := by
  obtain ⟨-, hnode, -, -, hpurpose, hgrant, -⟩ := id h
  obtain ⟨hdir, -⟩ := hcan
  have hno : ¬(f.kind = .beat ∨ (s.nct.node = .leaving ∧ f.kind.isOperation = true)) := by
    rw [hk]
    rintro (h | ⟨-, h⟩) <;> cases h
  obtain ⟨y, hy⟩ : ∃ y : State, y = { (s.pastFailure f veto).removeEntry f.kind with
      rpe := { s.rpe with
        cycle := some { cycle with asked := s.wantedWithin cycle.first cycle.last },
        due := some {
          slots := (s.wantedWithin cycle.first cycle.last).filter s.rpe.wanted.contains, takenOver := false } } } :=
    ⟨_, rfl⟩
  have hfailed : (s.pastFailure f veto).ownFailed f veto = y := by
    rw [State.ownFailed_eighth (s := s.pastFailure f veto) he hno heighth, hk,
      State.eighthFailure_ask_some (s := s.pastFailure f veto) hcycle]
    refine (State.tryEnds_last (p := .ownFrame) (by exact htry) (by exact hpurpose)).trans ?_
    rw [hy, hk]
    rfl
  obtain ⟨hgiven, nct, dir, rpe, obs, ntq, hend⟩ := State.endAccess_due (s := y) (c := c)
    (d := {
      slots := (s.wantedWithin cycle.first cycle.last).filter s.rpe.wanted.contains, takenOver := false })
    (p := .ownFrame) (by rw [hy]; exact hpurpose) (by rw [hy]; exact hgrant) (by rw [hy]; exact hdir)
    (by rw [hy]; exact hg) (by rw [hy]; exact hnode) (by rw [hy]; exact hc) (by rw [hy])
  have hrow : exec (.vetoSlot heard veto) s = .next y.endAccess := by
    rw [Rows.vetoSlot_failed hl h hv]
    refine congrArg Host.Outcome.next ((congrArg (fun u : State => u.andThen State.endAccess) hfailed).trans ?_)
    exact State.andThen_running (by rw [hy]; exact hnode) _
  have hslots : (((s.wantedWithin cycle.first cycle.last).filter s.rpe.wanted.contains).filter fun n =>
      y.rpe.wanted.contains n) = s.rpe.wanted.filter fun n => decide (cycle.first ≤ n) && decide (n ≤ cycle.last) := by
    rw [hy]
    exact filter_wanted_twice _ _
  rw [hslots, hend, hy] at hgiven
  rw [hend, hy] at hrow
  exact ⟨_, hrow, hgiven, rfl, ⟨rfl, rfl, rfl⟩, rfl, rfl, rfl, rfl, rfl, rfl⟩

/-- Settles O38: the failure is logged, and the entry stays, goes at once, or goes with its eighth failure. -/
theorem failedOwnFrameCountsAnAttempt : Obligations.FailedOwnFrameCountsAnAttempt := by
  intro heard veto f e s h he hv hl atOnce without logged result
  obtain ⟨-, hnode, -, -, -, -, hdue⟩ := id h
  have he' : (s.pastFailure f veto).obs.find f.kind = some e := he
  have hnone : ∀ {k : FrameKind}, f.kind = k → k ≠ .beat → k.isOperation = false → ¬atOnce := by
    rintro k rfl hbeat hop (hk | ⟨-, hk⟩)
    · exact hbeat hk
    · exact Bool.false_ne_true (hop.symm.trans hk)
  have hresult : failedResult veto = result := rfl
  refine ⟨fun hno hfewer => ?stays, fun hbeat => ?beat, fun o hop ho hend => ?operation, fun heighth =>
    ⟨fun hk => ?hello, fun c hk hc => ?drop, fun hk => ?sync, fun hk hcycle => ?ask, fun cycle hk hcycle =>
      ⟨fun htry => ?nextTry, fun c htry hcan hg hc =>
        exec_vetoSlot_lastTry hl h he hv heighth hk hcycle htry hcan hg hc⟩⟩⟩
  case stays =>
    exact ⟨_, exec_vetoSlot_failed hl h hv ((State.ownFailed_stays (s := s.pastFailure f veto) he' hno hfewer veto).trans
        (State.setAttempts_backToQueue _ _ _)) hnode rfl rfl hdue,
      rfl, rfl, rfl, ⟨rfl, rfl, rfl⟩, rfl, rfl, rfl, rfl, rfl, rfl, rfl, rfl, rfl⟩
  case beat =>
    have hgone : (s.pastFailure f veto).goneAtOnce f.kind = (s.pastFailure f veto).removeEntry f.kind :=
      if_neg (by rw [hbeat]; exact Bool.false_ne_true)
    exact ⟨_, exec_vetoSlot_failed hl h hv
        ((State.ownFailed_atOnce (s := s.pastFailure f veto) he' (.inl hbeat) veto).trans hgone) hnode rfl rfl hdue,
      rfl, rfl, rfl, rfl, ⟨rfl, rfl, rfl⟩, rfl, rfl, rfl, rfl, rfl, rfl, rfl, rfl⟩
  case operation =>
    have hfailed : (s.pastFailure f veto).ownFailed f veto = ((s.pastFailure f veto).removeEntry f.kind).endOp
        (if s.nct.node = .leaving then .aborted else result) := by
      by_cases hleaving : s.nct.node = .leaving
      · rw [if_pos hleaving]
        exact (State.ownFailed_atOnce (s := s.pastFailure f veto) he' (.inr ⟨hleaving, hop⟩) veto).trans
          (State.goneAtOnce_operation hop)
      · have hno : ¬atOnce := by
          rintro (hk | ⟨hk, -⟩)
          · rw [hk] at hop
            cases hop
          · exact hleaving hk
        rw [if_neg hleaving, ← hresult]
        exact (State.ownFailed_eighth (s := s.pastFailure f veto) he' hno (hend.resolve_left hleaving) veto).trans
          (State.eighthFailure_operation hop veto)
    exact ⟨_, exec_vetoSlot_failed hl h hv (hfailed.trans (State.removeEntry_endOp (s := s.pastFailure f veto) ho _ _))
        hnode rfl rfl hdue,
      rfl, rfl, rfl, rfl, ⟨rfl, rfl, rfl⟩, rfl, rfl, rfl, rfl, rfl, rfl, rfl, rfl⟩
  case hello =>
    have hfailed := State.ownFailed_eighth (s := s.pastFailure f veto) he' (hnone hk nofun rfl) heighth veto
    rw [hk] at hfailed
    refine ⟨_, exec_vetoSlot_failed hl h hv hfailed nofun rfl rfl hdue, rfl, ?_, rfl, rfl, ⟨rfl, rfl, rfl⟩, rfl, rfl, rfl,
      rfl, rfl, rfl, rfl, rfl⟩
    show _ = s.obs.queue.filter fun x => !decide (x.kind = f.kind)
    rw [hk]
    exact State.removeEntry_twice (s.pastFailure f veto) .hello
  case drop =>
    have hfailed := State.ownFailed_eighth (s := s.pastFailure f veto) he' (hnone hk nofun rfl) heighth veto
    rw [hk, State.eighthFailure_drop (s := s.pastFailure f veto) hc] at hfailed
    refine ⟨_, exec_vetoSlot_failed hl h hv hfailed hnode rfl rfl hdue, ?_, rfl, rfl, ⟨rfl, rfl, rfl⟩, rfl, rfl, rfl, rfl,
      rfl, rfl, rfl, rfl, rfl⟩
    show _ = s.obs.queue.filter fun x => !decide (x.kind = f.kind)
    rw [hk]
    rfl
  case sync =>
    have hfailed := State.ownFailed_eighth (s := s.pastFailure f veto) he' (hnone hk nofun rfl) heighth veto
    rw [hk, State.eighthFailure_sync] at hfailed
    refine ⟨_, exec_vetoSlot_failed hl h hv hfailed hnode rfl rfl hdue, ?_, rfl, rfl, ⟨rfl, rfl, rfl⟩, rfl, rfl, rfl, rfl,
      rfl, rfl, rfl, rfl, rfl⟩
    show _ = s.obs.queue.filter fun x => !decide (x.kind = f.kind)
    rw [hk]
    exact State.removeEntry_twice (s.pastFailure f veto) .sync
  case ask =>
    have hfailed := State.ownFailed_eighth (s := s.pastFailure f veto) he' (hnone hk nofun rfl) heighth veto
    rw [hk, State.eighthFailure_ask_none (s := s.pastFailure f veto) hcycle] at hfailed
    refine ⟨_, exec_vetoSlot_failed hl h hv hfailed hnode rfl rfl hdue, ?_, rfl, rfl, ⟨rfl, rfl, rfl⟩, rfl, rfl, rfl, rfl,
      rfl, rfl, rfl, rfl, rfl⟩
    show _ = s.obs.queue.filter fun x => !decide (x.kind = f.kind)
    rw [hk]
    rfl
  case nextTry =>
    have hfailed := State.ownFailed_eighth (s := s.pastFailure f veto) he' (hnone hk nofun rfl) heighth veto
    rw [hk, State.eighthFailure_ask_some (s := s.pastFailure f veto) hcycle] at hfailed
    have hnext := hfailed.trans (State.tryEnds_next (by exact htry)
      ((s.pastFailure f veto).removeEntry_holds .ask))
    refine ⟨_, exec_vetoSlot_failed hl h hv hnext hnode rfl rfl hdue, ?_, rfl, rfl, ⟨rfl, rfl, rfl⟩, rfl, rfl, rfl, rfl,
      rfl, rfl, rfl, rfl, rfl⟩
    show _ = (s.obs.queue.filter fun x => !decide (x.kind = f.kind)) ++ _
    rw [hk]
    rfl

end Sys2Proof.Machine
end

section
/-!
SUPPORT. The veto slot of the node's own CLAIM, YIELD, POST and DROP (R11, R58, R69, R79–R81, R83, R100, R113–R115, R120,
R137, R149, R154, R155).
-/

set_option Elab.async false

namespace Sys2Proof.Machine

/-! ### An accepted frame -/

/-- The end of the sender's access, after work that kept it and left no give-up due. -/
theorem State.endAccess_own {s y : State} (h : s.fckHolds .ownFrame) (hn : y.nct.node ≠ .halted) (hfck : y.fck = s.fck)
    (hsar : y.sar = s.sar) (hdue : y.rpe.due = none) :
    y.andThen State.endAccess = { y with fck := { s.fck with purpose := none }, sar := s.sar.handOver } := by
  obtain ⟨hpurpose, hgrant, -⟩ := h
  rw [State.andThen_running hn,
    State.endAccess_held (p := .ownFrame) ⟨by rw [hfck]; exact hpurpose, by rw [hsar]; exact hgrant, hdue⟩ hn, hfck, hsar]

/-- An accepted own frame whose application leaves `z` and whose handler leaves `y`, with the access still held and no
give-up due. -/
theorem exec_vetoSlot_accepted {s y z : State} {f : Frame} {heard : Bool} (hl : s.levelGood) (h : s.ownPaused f)
    (ha : s.ownAccepts f heard) (hk : f.kind ≠ .hello) (hz : (s.slotsPast (some f.kind)).applyOwn f = z)
    (hzn : z.nct.node ≠ .halted) (hy : z.ownAccepted f (!heard) = y) (hn : y.nct.node ≠ .halted)
    (hfck : y.fck = s.fck) (hsar : y.sar = s.sar) (hdue : y.rpe.due = none) :
    exec (.vetoSlot heard false) s = .next
      { y with fck := { s.fck with purpose := none }, sar := s.sar.handOver } := by
  obtain ⟨-, -, -, -, hholds⟩ := id h
  rw [Rows.vetoSlot_accepted hl h ha hk, hz, State.andThen_running hzn, hy, State.endAccess_own hholds hn hfck hsar hdue]

/-- The sender's lines, store and frame checker after a handler that kept them. -/
theorem State.slotsEnd_own {s y : State} {k : FrameKind} (hpbi : y.pbi = (s.slotsPast (some k)).pbi) :
    s.slotsEnd { y with fck := { s.fck with purpose := none }, sar := s.sar.handOver } (some k) := by
  refine ⟨?_, rfl, rfl⟩
  show y.pbi = _
  rw [hpbi]
  rfl

theorem State.ownAccepted_held {s : State} {f : Frame} (h : s.obs.holds f.kind = true) (alone : Bool) :
    s.ownAccepted f alone = match f.payload with
      | .leave => (s.removeEntry f.kind).endLeave .ok
      | .drop _ => (s.removeEntry f.kind).restartDecision
      | .hello _ => if alone then (s.removeEntry f.kind).found else (s.removeEntry f.kind).enterCatchup
      | .claim _ _ | .yield _ _ => (s.removeEntry f.kind).endOp .ok
      | .post _ => { s.removeEntry f.kind with opu := { s.opu with drafts := [] } }.endOp .ok
      | .sync records => (s.removeEntry f.kind).syncSent records
      | .ask _ _ _ => (s.removeEntry f.kind).askAccepted
      | .beat _ _ => s.removeEntry f.kind := by
  unfold State.ownAccepted
  rw [if_pos h]
  obtain ⟨sender, payload⟩ := f
  cases payload <;> rfl

/-! ### The node's own CLAIM and YIELD -/

section Own

variable {s : State} {sender : Station} (ho : sender = s.nct.station)

include ho

theorem State.isOwn_self : s.isOwn sender = true := State.isOwn_iff.2 ho

theorem State.applyClaim_own {slot : Nat} (hp : (s.entry slot).parityGood = true) (version : Word) :
    s.applyClaim sender slot version =
      s.putEntry slot { s.entry slot with state := .owned sender, version := version } := by
  unfold State.applyClaim
  rw [State.examine_good hp, State.notifyChange_own (by exact State.isOwn_self ho),
    State.overheard_own (by exact State.isOwn_self ho)]

theorem State.applyYield_own {slot : Nat} (hp : (s.entry slot).parityGood = true) (version : Word) :
    s.applyYield sender slot version =
      (s.putEntry slot { s.entry slot with state := .free, version := version }).removeDraft slot := by
  unfold State.applyYield
  rw [State.examine_good hp, State.notifyChange_own (by exact State.isOwn_self ho), State.isOwn_self ho]
  rfl

end Own

/-! ### Stations that have left (R56, R78) -/

/-- The membership entries after stations became ABSENT have valid parity. -/
theorem State.lost.membersGood {s t : State} {ns : List Nat} (h : s.lost t ns) (hm : s.membersGood) :
    t.membersGood := by
  obtain ⟨-, hentries, -⟩ := h
  intro n hn
  rw [hentries]
  split_ifs
  · rfl
  · exact hm n hn

/-- The suspects that are left. -/
theorem State.lost.suspects {s t : State} {ns : List Nat} (h : s.lost t ns) :
    t.suspects = s.suspects.filter fun n => !ns.contains n := by
  obtain ⟨-, hentries, -⟩ := h
  refine State.suspects_without fun n => ?_
  have hstate : t.memberState n = if n ∈ ns then .absent else s.memberState n := by
    unfold State.memberState
    rw [hentries]
    split_ifs <;> rfl
  rw [hstate]
  by_cases hn : n ∈ ns <;> simp [hn]

/-- The suspicions of the stations that are left. -/
theorem State.lost.firstSuspicion {s t : State} {gone : List Nat} {first : Time} (h : s.lost t gone)
    (hf : s.firstSuspicion (s.suspects.filter fun n => !gone.contains n) first) :
    t.firstSuspicion t.suspects first := by
  have hsuspects := h.suspects
  obtain ⟨-, hentries, -⟩ := h
  have hsame : ∀ n ∈ s.suspects.filter fun n => !gone.contains n, t.mbu.entry n = s.mbu.entry n := fun n hn => by
    obtain ⟨-, hstays⟩ := List.mem_filter.1 hn
    rw [hentries, if_neg (by simpa using hstays)]
  obtain ⟨⟨n, hn, hsince⟩, hall⟩ := hf
  rw [hsuspects]
  exact ⟨⟨n, hn, by rw [hsame n hn]; exact hsince⟩, fun m hm since hm' =>
    hall m hm since (by rw [← hsame m hm]; exact hm')⟩

/-! ### The node's own POST -/

/-- An application that leaves the queue to the repair engine halts no node and keeps every entry but that of an ASK. -/
theorem Applied.stillHolds {s z : State} {c : NodeConfig} {ws : List SlotWrite} {pre : List Notice}
    {changes : List (Nat × List Word)} {answers : List Nat} {k : FrameKind}
    (h : Applied s z c ws pre changes answers s.obs.queue) (hn : s.nct.node ≠ .halted) (hh : s.obs.holds k = true)
    (hk : k ≠ .ask) : z.nct.node ≠ .halted ∧ z.obs.holds k = true := by
  obtain ⟨hnct, -⟩ := h.ends
  obtain ⟨e, he, hkind⟩ := Obs.holds_true.1 hh
  refine ⟨?_, Obs.holds_true.2 ⟨e, ?_, hkind⟩⟩
  · rw [hnct]
    show (if _ then NodeState.member else s.nct.node) ≠ _
    split_ifs
    · nofun
    · exact hn
  · rw [h.queue]
    exact State.mem_queueAfter _ _ he (by rwa [hkind])

/-- An own POST: its application, the end of its operation and the empty draft buffer. -/
theorem exec_vetoSlot_ownPost {s : State} {sender : Station} {items : List Item} {o : PendingOp} {c : NodeConfig}
    {heard : Bool} (hcan : s.canonical) (h : s.ownPaused { sender := sender, payload := .post items })
    (hsender : sender = s.nct.station) (hholds : s.obs.holds .post = true)
    (ha : s.ownAccepts { sender := sender, payload := .post items } heard) (hg : s.entriesGood) (hc : s.hasConfig c)
    (ho : s.opu.op = some o) (hnodup : (items.map Item.slot).Nodup) (hlength : ∀ i ∈ items, i.words.length ≤ 16) :
    let watched := watchesAfter s.nct.now (items.map fun i => (i.slot.toNat, i.words)) s.wch
    ∃ t, exec (.vetoSlot heard false) s = .next t ∧ s.wrote t (items.map (Item.write s.nct.station)) ∧
      t.opu = { op := none, drafts := [] } ∧ t.wch = watched.1 ∧
      t.rpe.answers = s.rpe.answers ∧ t.rpe.due = s.rpe.due ∧ t.rpe.cycle = s.cycleAfter c t.rpe.wanted ∧
      t.obs.queue = s.queueAfter t.rpe.wanted (s.obs.queue.filter fun x => !decide (x.kind = .post)) ∧
      (s.obs.build = none → t.obs.build = none) ∧
      t.ntq = s.ntq.arriveAll (watched.2 ++
        (if s.active = true ∧ s.nct.node = .catchup ∧ t.rpe.wanted = [] then [.catchupDone t.rpe.unresolved]
          else []) ++
        [.opDone o.kind.done .ok o.kind.slot?]) ∧
      t.nct = { s.nct with node :=
        if s.active = true ∧ s.nct.node = .catchup ∧ t.rpe.wanted = [] then .member else s.nct.node } ∧
      s.slotsEnd t (some .post) ∧ t.mbu = s.mbu ∧ t.elg = s.elg ∧ t.lpt = s.lpt ∧ t.scb = s.scb := by
  intro watched
  obtain ⟨hdir, hcells, -⟩ := hcan
  obtain ⟨-, hnode, -, -, -, -, hdue⟩ := id h
  have happlied := State.applyPost_spec (x := s.slotsPast (some .post)) sender items
    (State.isOwn_self (by exact hsender)) hnode hdue hc hdir hcells hg hnodup hlength
  obtain ⟨hnct, hntq⟩ := happlied.ends
  have hframe := happlied.frame
  generalize hz : (s.slotsPast (some .post)).applyPost sender items = z at *
  have hqueue : z.obs.queue = s.queueAfter z.rpe.wanted s.obs.queue := happlied.queue
  obtain ⟨hzn, hzholds⟩ := happlied.stillHolds hnode hholds nofun
  obtain ⟨nct, dir, dst, obs, rpe, wch, ntq, rfl⟩ : ∃ nct dir dst obs rpe wch ntq, z = { s.slotsPast (some .post) with
      nct := nct, dir := dir, dst := dst, obs := obs, rpe := rpe, wch := wch, ntq := ntq } :=
    ⟨_, _, _, _, _, _, _, hframe⟩
  have hhandled := (State.ownAccepted_held (f := { sender := sender, payload := .post items }) hzholds (!heard)).trans
    (State.endOp_eq _ _)
  have hrow := exec_vetoSlot_accepted hc.levelGood h ha nofun hz hzn hhandled hzn rfl rfl happlied.due
  refine ⟨_, hrow, ?_, rfl, happlied.watches, happlied.answers, happlied.due.trans hdue.symm, happlied.cycle, ?_,
    fun hb => ?_, ?_, hnct, State.slotsEnd_own rfl, rfl, rfl, rfl, rfl⟩
  · rw [← hsender]
    exact happlied.writes
  · refine Eq.trans ?_ (State.queueAfter_filter s rpe.wanted s.obs.queue (k := .post) nofun)
    rw [← hqueue]
    rfl
  · have hbuild : obs.build = none := happlied.build hb
    show (State.removeEntry { s.slotsPast (some .post) with
      nct := nct, dir := dir, dst := dst, obs := obs, rpe := rpe, wch := wch, ntq := ntq } .post).obs.build = none
    unfold State.removeEntry
    simp only [hbuild]
  · simp only [Bool.not_true, Bool.false_and, List.filter_false, List.map_nil, List.nil_append] at hntq
    show ntq.arriveAll (s.opu.op.toList.map fun o => .opDone o.kind.done .ok o.kind.slot?) = _
    rw [ho, Ntq.arriveAll_append]
    exact congrArg (fun q : Ntq => q.arriveAll [.opDone o.kind.done .ok o.kind.slot?]) hntq

/-! ### The node's own DROP -/

/-- The stations of the mask go and the DROP entry is removed; from what this leaves, past the slots, the decision
timer starts anew, and the access ends. -/
theorem exec_vetoSlot_ownDrop {s : State} {sender : Station} {mask : StationMask} {c : NodeConfig} {heard : Bool}
    (hcan : s.canonical) (h : s.ownPaused { sender := sender, payload := .drop mask })
    (hholds : s.obs.holds .drop = true) (ha : s.ownAccepts { sender := sender, payload := .drop mask } heard)
    (hg : s.entriesGood) (hc : s.hasConfig c) (hm : s.membersGood) :
    let gone := (List.range 16).filter fun n =>
      mask.getLsbD n && decide (n ≠ s.nct.station.toNat) && decide ((s.mbu.entry n).state ≠ .absent)
    ∃ u : State, s.lost u gone ∧ sparseWf DirEntry.blank u.dir ∧ u.obs.holds .drop = false ∧
      u = { s with
        dir := u.dir, mbu := u.mbu, ntq := s.ntq.arriveAll (gone.map fun n => Notice.memberChanged n .absent),
        obs := { queue := s.obs.queue.filter fun x => !decide (x.kind = .drop), build := u.obs.build } } ∧
      exec (.vetoSlot heard false) s = .next
        ((State.restartDecision { u with pbi := (s.slotsPast (some .drop)).pbi }).andThen State.endAccess) := by
  intro gone
  obtain ⟨hdir, -, htable⟩ := hcan
  obtain ⟨-, hnode, -⟩ := id h
  have hgone : (s.slotsPast (some .drop)).maskedMembers mask = gone := (s.slotsPast (some .drop)).maskedMembers_eq mask
  obtain ⟨hlost, hdir', hframe⟩ := State.removeStations_spec (s := s.slotsPast (some .drop)) gone hdir htable hg hm hnode
  obtain ⟨dir, mbu, hz⟩ : ∃ dir mbu, (s.slotsPast (some .drop)).removeStations gone = { s.slotsPast (some .drop) with
      dir := dir, mbu := mbu, ntq := s.ntq.arriveAll (gone.map fun n => Notice.memberChanged n .absent) } :=
    ⟨_, _, hframe⟩
  rw [hz] at hlost hdir'
  have happly : (s.slotsPast (some .drop)).applyOwn { sender := sender, payload := .drop mask } = _ :=
    (congrArg (s.slotsPast (some .drop)).removeStations hgone).trans hz
  refine ⟨{ s with
      dir := dir, mbu := mbu, ntq := s.ntq.arriveAll (gone.map fun n => Notice.memberChanged n .absent),
      obs := (s.removeEntry .drop).obs }, hlost, hdir', s.removeEntry_holds .drop, rfl, ?_⟩
  have hrow := Rows.vetoSlot_accepted hc.levelGood h ha nofun
  rw [hrow]
  refine congrArg (fun x : State => Host.Outcome.next (x.andThen State.endAccess)) ?_
  refine (congrArg (fun x : State => x.andThen _) happly).trans
    ((State.andThen_running (s := { s.slotsPast (some .drop) with
      dir := dir, mbu := mbu, ntq := s.ntq.arriveAll (gone.map fun n => Notice.memberChanged n .absent) }) hnode _).trans
      ?_)
  exact State.ownAccepted_held (f := { sender := sender, payload := .drop mask }) (by exact hholds) (!heard)

/-- A restart of the decision timer does not look at the lines. -/
theorem State.restarted_pbi {u v : State} {now : Time} {c : NodeConfig} {first : Time} (h : u.restarted v now c first)
    (pbi : Pbi) : State.restarted { u with pbi := pbi } { v with pbi := pbi } now c first := by
  rcases h with ⟨hwait, rfl⟩ | ⟨hpassed, hquorum, rfl⟩
  · exact .inl ⟨hwait, rfl⟩
  · exact .inr ⟨hpassed, hquorum, rfl⟩

/-- What a restart of the decision timer leaves of the node, the access and the repair engine. -/
theorem State.restarted_frame {u v : State} {now : Time} {c : NodeConfig} {first : Time}
    (h : u.restarted v now c first) : v.nct = u.nct ∧ v.fck = u.fck ∧ v.sar = u.sar ∧ v.rpe = u.rpe := by
  rcases h with ⟨-, rfl⟩ | ⟨-, -, rfl⟩
  · exact ⟨rfl, rfl, rfl, rfl⟩
  · exact ⟨rfl, rfl, rfl, rfl⟩

/-- Settles O39: the frame is applied, its entry goes, and the block that placed it has the outcome. -/
theorem acceptedOwnOperationsAndDropTakeEffect : Obligations.AcceptedOwnOperationsAndDropTakeEffect := by
  intro heard f c s hcan h hsender hholds ha hg hc without
  obtain ⟨sender, payload⟩ := f
  obtain ⟨hdir, hcells, htable⟩ := id hcan
  obtain ⟨-, hnode, -, -, hfckHolds⟩ := id h
  obtain ⟨-, -, hdue⟩ := id hfckHolds
  refine ⟨fun slot version o hp ho => ?claim, fun slot version o hp ho => ?yield,
    fun items o hp ho hnodup hlength => ?post, fun mask hp hm => ?drop⟩
  case claim =>
    obtain rfl : payload = .claim slot version := hp
    have happly := State.applyClaim_own (s := s.slotsPast (some .claim)) hsender (hg slot.toNat) version
    have hhandled := (State.ownAccepted_held (s := (s.slotsPast (some .claim)).putEntry slot.toNat
        { s.entry slot.toNat with state := .owned sender, version := version })
        (f := { sender := sender, payload := .claim slot version }) hholds (!heard)).trans
      (State.removeEntry_endOp (by exact ho) _ _)
    have hrow := exec_vetoSlot_accepted hc.levelGood h ha nofun happly hnode hhandled hnode rfl rfl hdue
    obtain ⟨hself, hothers⟩ := State.entries_putEntry (s := s) hdir (slot := slot.toNat)
      (e := { s.entry slot.toNat with state := .owned sender, version := version }) (hg slot.toNat) rfl
    refine ⟨_, hrow, ?_, hothers, rfl, rfl, rfl, State.slotsEnd_own rfl, rfl, rfl, rfl, rfl, rfl, rfl, rfl, rfl⟩
    rw [← hsender]
    exact hself
  case yield =>
    obtain rfl : payload = .yield slot version := hp
    have happly := State.applyYield_own (s := s.slotsPast (some .yield)) hsender (hg slot.toNat) version
    have hhandled := (State.ownAccepted_held (s := ((s.slotsPast (some .yield)).putEntry slot.toNat
        { s.entry slot.toNat with state := .free, version := version }).removeDraft slot.toNat)
        (f := { sender := sender, payload := .yield slot version }) hholds (!heard)).trans
      (State.removeEntry_endOp (by exact ho) _ _)
    have hrow := exec_vetoSlot_accepted hc.levelGood h ha nofun happly hnode hhandled hnode rfl rfl hdue
    obtain ⟨hself, hothers⟩ := State.entries_putEntry (s := s) hdir (slot := slot.toNat)
      (e := { s.entry slot.toNat with state := .free, version := version }) (hg slot.toNat) rfl
    exact ⟨_, hrow, hself, hothers, rfl, rfl, rfl, State.slotsEnd_own rfl, rfl, rfl, rfl, rfl, rfl, rfl, rfl, rfl⟩
  case post =>
    obtain rfl : payload = .post items := hp
    exact exec_vetoSlot_ownPost hcan h hsender hholds ha hg hc ho hnodup hlength
  case drop =>
    obtain rfl : payload = .drop mask := hp
    intro gone changed left
    obtain ⟨u, hlost, hudir, hnodrop, hu, hrow⟩ := exec_vetoSlot_ownDrop hcan h hholds ha hg hc hm
    have hsuspects : u.suspects = left := hlost.suspects
    have humembers := hlost.membersGood hm
    have huc : u.hasConfig c := by
      rw [hu]
      exact hc
    have hun : u.nct = s.nct := by rw [hu]
    have hunode : u.nct.node ≠ .halted := by
      rw [hun]
      exact hnode
    refine ⟨fun hleft => ?_, fun first hfirst => ⟨u, hlost, hu, fun v hv => ?_, fun hpassed hquorum hpart => ?_⟩⟩
    · rw [State.restartDecision_none (s := { u with pbi := (s.slotsPast (some .drop)).pbi }) humembers
          (hsuspects.trans hleft),
        State.endAccess_own (y := { u with pbi := (s.slotsPast (some .drop)).pbi }) hfckHolds hunode (by rw [hu])
          (by rw [hu]) (by rw [hu]; exact hdue)] at hrow
      rw [hu] at hrow
      exact ⟨_, hrow, by rw [hu] at hlost; exact hlost, rfl, rfl, State.slotsEnd_own rfl, rfl, rfl, rfl, rfl, rfl, rfl,
        rfl, rfl⟩
    · obtain ⟨hvnct, hvfck, hvsar, hvrpe⟩ := State.restarted_frame hv
      have hnow : u.restarted v u.nct.now c first := by
        rw [hun]
        exact hv
      rw [State.restartDecision_restarted (s := { u with pbi := (s.slotsPast (some .drop)).pbi }) humembers huc
          (hlost.firstSuspicion hfirst) hnodrop (State.restarted_pbi hnow _),
        State.endAccess_own (y := { v with pbi := (s.slotsPast (some .drop)).pbi }) hfckHolds 
          (by rw [hvnct]; exact hunode) (by rw [hvfck, hu]) (by rw [hvsar, hu])
          (by rw [hvrpe, hu]; exact hdue)] at hrow
      exact ⟨_, hrow, State.slotsEnd_own rfl, rfl⟩
    · have hiso : u.isolatedFrom (State.restartDecision { u with pbi := (s.slotsPast (some .drop)).pbi }) .noQuorum :=
        State.restartDecision_isolates (s := { u with pbi := (s.slotsPast (some .drop)).pbi })
          (by rw [hun]; exact hpart) hudir humembers huc (hlost.firstSuspicion hfirst) (by rw [hun]; exact hpassed)
          hquorum
      obtain ⟨hnct, -, -, -, -, -, hfck, -⟩ := id hiso
      rw [State.andThen_running (by rw [hnct]; nofun)] at hrow
      unfold State.endAccess at hrow
      rw [hfck] at hrow
      exact ⟨_, hrow, hiso⟩

end Sys2Proof.Machine
end

section
/-!
SUPPORT. The veto slot of the node's own SYNC, ASK and BEAT (R11, R66, R69, R100, R113–R115, R117, R120–R122, R126, R128,
R137).
-/

set_option Elab.async false

namespace Sys2Proof.Machine

/-! ### SYNC (R128) -/

theorem State.setAnswers_nil {s : State} {l : List Nat} (h : l = []) : s.setAnswers l = { s with
    obs := (s.removeEntry .sync).obs, rpe := { s.rpe with answers := l } } :=
  if_pos h

theorem State.setAnswers_ne_nil {s : State} {l : List Nat} (h : l ≠ []) :
    s.setAnswers l = { s with rpe := { s.rpe with answers := l } } :=
  if_neg h

theorem State.setAnswers_answers (s : State) (l : List Nat) : (s.setAnswers l).rpe.answers = l := by
  by_cases h : l = []
  · rw [State.setAnswers_nil h]
  · rw [State.setAnswers_ne_nil h]

/-- A sent SYNC, whose entry has gone: its slots leave the answer set, and what is left has a new entry. -/
theorem State.syncSent_eq (s : State) (records : List Record) :
    let left := s.rpe.answers.filter fun n => !(records.map fun r => r.slot.toNat).contains n
    ∃ build, (s.obs.build = none → build = none) ∧ (s.removeEntry .sync).syncSent records = { s with
      rpe := { s.rpe with answers := left },
      obs := {
        queue := (s.obs.queue.filter fun x => !decide (x.kind = .sync)) ++
          (if left = [] then [] else [{ kind := .sync, ref := .none, attempts := 0, queued := s.nct.now }]),
        build := build } } := by
  intro left
  have hleft : (s.rpe.answers.filter fun n => !records.any fun r => r.slot.toNat == n) = left := by
    refine List.filter_congr fun n _ => ?_
    rw [List.contains_eq_any_beq, List.any_map]
    exact congrArg not (congrArg records.any (funext fun r => Bool.beq_comm))
  have hbuild : s.obs.build = none → ((s.removeEntry .sync).removeEntry .sync).obs.build = none ∧
      (s.removeEntry .sync).obs.build = none := fun hb => by
    unfold State.removeEntry
    simp only [hb, and_self]
  have hsent : (s.removeEntry .sync).syncSent records = if left = [] then (s.removeEntry .sync).setAnswers left
      else ((s.removeEntry .sync).setAnswers left).place .sync .none := by
    rw [← hleft]
    unfold State.syncSent
    simp only
    rw [State.setAnswers_answers]
    rfl
  rw [hsent]
  by_cases hempty : left = []
  · refine ⟨_, fun hb => (hbuild hb).1, ?_⟩
    rw [if_pos hempty, State.setAnswers_nil hempty, ← State.removeEntry_twice, if_pos hempty, List.append_nil]
    rfl
  · refine ⟨_, fun hb => (hbuild hb).2, ?_⟩
    rw [if_neg hempty, State.setAnswers_ne_nil hempty, State.place_eq rfl, if_neg (by
      rw [Bool.not_eq_true]
      exact s.removeEntry_holds .sync), if_neg hempty]
    rfl

/-- The node's own SYNC: its application, and the answers that are left. -/
theorem exec_vetoSlot_ownSync {s : State} {sender : Station} {records : List Record} {c : NodeConfig} {heard : Bool}
    (hcan : s.canonical) (h : s.ownPaused { sender := sender, payload := .sync records })
    (hsender : sender = s.nct.station) (hholds : s.obs.holds .sync = true)
    (ha : s.ownAccepts { sender := sender, payload := .sync records } heard) (hg : s.entriesGood) (hc : s.hasConfig c)
    (hnodup : (records.map Record.slot).Nodup) (hlength : ∀ r ∈ records, r.words.length ≤ 16) :
    let watched := watchesAfter s.nct.now
      ((records.filter s.takesRecord).map fun r => (r.slot.toNat, r.words)) s.wch
    ∃ t, exec (.vetoSlot heard false) s = .next t ∧
      s.wrote t ((records.filter s.takesRecord).map Record.write) ∧ t.wch = watched.1 ∧
      t.ntq = s.ntq.arriveAll (watched.2 ++
        (if s.active = true ∧ s.nct.node = .catchup ∧ t.rpe.wanted = [] then [.catchupDone t.rpe.unresolved]
          else [])) ∧
      t.nct = { s.nct with node :=
        if s.active = true ∧ s.nct.node = .catchup ∧ t.rpe.wanted = [] then .member else s.nct.node } ∧
      t.rpe.answers = s.rpe.answers.filter (fun n => !(records.map fun r => r.slot.toNat).contains n) ∧
      t.rpe.due = s.rpe.due ∧ t.rpe.cycle = s.cycleAfter c t.rpe.wanted ∧
      t.obs.queue = s.queueAfter t.rpe.wanted (s.obs.queue.filter fun x => !decide (x.kind = .sync)) ++
        (if t.rpe.answers = [] then []
          else [{ kind := .sync, ref := .none, attempts := 0, queued := s.nct.now }]) ∧
      (s.obs.build = none → t.obs.build = none) ∧ s.slotsEnd t (some .sync) ∧
      t.mbu = s.mbu ∧ t.opu = s.opu ∧ t.elg = s.elg ∧ t.lpt = s.lpt ∧ t.scb = s.scb := by
  intro watched
  obtain ⟨hdir, hcells, -⟩ := hcan
  obtain ⟨-, hnode, -, -, -, -, hdue⟩ := id h
  have happlied := State.applySync_spec (x := s.slotsPast (some .sync)) sender records
    (State.isOwn_self (by exact hsender)) hnode hdue hc hdir hcells hg hnodup hlength
  obtain ⟨hnct, hntq⟩ := happlied.ends
  have hframe := happlied.frame
  have hanswers : ((s.slotsPast (some .sync)).applySync sender records).rpe.answers = s.rpe.answers :=
    happlied.answers.trans (List.filter_eq_self.2 fun _ _ => rfl)
  have hqueue : ((s.slotsPast (some .sync)).applySync sender records).obs.queue =
      s.queueAfter ((s.slotsPast (some .sync)).applySync sender records).rpe.wanted s.obs.queue := happlied.queue
  generalize hz : (s.slotsPast (some .sync)).applySync sender records = z at *
  simp only [Bool.not_true, Bool.false_and, List.filter_false, List.map_nil, List.nil_append] at hntq
  obtain ⟨hzn, hzholds⟩ := happlied.stillHolds hnode hholds nofun
  obtain ⟨nct, dir, dst, obs, rpe, wch, ntq, rfl⟩ : ∃ nct dir dst obs rpe wch ntq, z = { s.slotsPast (some .sync) with
      nct := nct, dir := dir, dst := dst, obs := obs, rpe := rpe, wch := wch, ntq := ntq } :=
    ⟨_, _, _, _, _, _, _, hframe⟩
  obtain ⟨build, hbuild, hsent⟩ := State.syncSent_eq { s.slotsPast (some .sync) with
    nct := nct, dir := dir, dst := dst, obs := obs, rpe := rpe, wch := wch, ntq := ntq } records
  have hhandled := (State.ownAccepted_held (f := { sender := sender, payload := .sync records }) hzholds
    (!heard)).trans hsent
  have hrow := exec_vetoSlot_accepted hc.levelGood h ha nofun hz hzn hhandled hzn rfl rfl happlied.due
  have hanswers : rpe.answers = s.rpe.answers := hanswers
  have hnow : nct.now = s.nct.now := by
    rw [show nct = _ from hnct]
    rfl
  refine ⟨_, hrow, happlied.writes, happlied.watches, hntq, hnct, by rw [← hanswers], happlied.due.trans hdue.symm,
    happlied.cycle, ?_, fun hb => hbuild (happlied.build hb), State.slotsEnd_own rfl, rfl, rfl, rfl, rfl, rfl⟩
  refine congrArg₂ (· ++ ·) ?_ (by rw [hnow])
  refine Eq.trans ?_ (State.queueAfter_filter s rpe.wanted s.obs.queue (k := .sync) nofun)
  rw [← hqueue]

/-! ### ASK (R117) -/

/-- An accepted ASK begins the answer wait. -/
theorem State.askAccepted_eq {s : State} {cycle : AskCycle} {c : NodeConfig} (h : s.rpe.cycle = some cycle)
    (hc : s.hasConfig c) : s.askAccepted = { s with rpe := { s.rpe with cycle := some { cycle with
      phase := .waiting, deadline := some (s.nct.now + BitVec.ofNat 32 (2 * c.beat)),
      asked := match cycle.sent with
        | some (n, k) => s.rpe.wanted.filter fun m => decide (n ≤ m) && decide (m ≤ n + k - 1)
        | none => [] } } } := by
  unfold State.askAccepted
  rw [h]
  simp only
  rw [State.useConfig_good hc]
  have hsent : s.wantedSent cycle = match cycle.sent with
      | some (n, k) => s.rpe.wanted.filter fun m => decide (n ≤ m) && decide (m ≤ n + k - 1)
      | none => [] := by
    unfold State.wantedSent
    cases cycle.sent <;> rfl
  rw [hsent]
  rfl

/-! ### BEAT with a give-up due (R121, R122) -/

/-- The entry of a kind other than ASK leaves before or after the give-up. -/
theorem State.givenUp_without {s t : State} {c : NodeConfig} {given : List Nat} (h : s.givenUp t c given)
    {k : FrameKind} (hk : k ≠ .ask) {obs : Obs} (hobs : obs.queue = t.obs.queue.filter fun x => !decide (x.kind = k)) :
    State.givenUp { s with obs := { s.obs with queue := s.obs.queue.filter fun x => !decide (x.kind = k) } }
      { t with obs := obs } c given := by
  obtain ⟨hentries, hwanted, hcount, hcycle, hanswers, hdue, hnct, hntq, hqueue⟩ := h
  refine ⟨hentries, hwanted, hcount, hcycle, hanswers, hdue, hnct, hntq, ?_⟩
  show obs.queue = _
  rw [hobs, hqueue]
  exact State.queueAfter_filter _ _ _ hk

/-- The entry of an accepted BEAT goes, where it still stands. -/
theorem State.ownAccepted_beat (s : State) (sender : Station) (mask : StationMask) (p : WireParams) (alone : Bool) :
    ∃ build, s.ownAccepted { sender := sender, payload := .beat mask p } alone = { s with obs := {
      queue := s.obs.queue.filter fun x => !decide (x.kind = .beat), build := build } } := by
  by_cases hholds : s.obs.holds .beat = true
  · exact ⟨_, State.ownAccepted_held (f := { sender := sender, payload := .beat mask p }) hholds alone⟩
  · refine ⟨s.obs.build, (if_neg hholds).trans ?_⟩
    have habsent := Obs.holds_false.1 (Bool.not_eq_true _ ▸ hholds)
    rw [List.filter_eq_self.2 fun e he => by simpa using habsent e he]

/-- The classification and the application of an accepted BEAT change nothing. -/
theorem State.beat_handled {s : State} {sender : Station} {mask : StationMask} {p : WireParams} {heard : Bool}
    (ha : s.ownAccepts { sender := sender, payload := .beat mask p } heard) (hn : s.nct.node ≠ .halted) :
    let f : Frame := { sender := sender, payload := .beat mask p }
    s.classed f heard false (((s.logOutcome f (s.outcome f heard false)).ownOutcome f (s.outcome f heard false)).andThen
      State.endAccess) = (s.ownAccepted f (!heard)).andThen State.endAccess := by
  intro f
  have hclassed : ∀ k, s.classed f heard false k = k := fun k => by
    unfold State.classed
    split_ifs with hpulled
    · rfl
    · exact State.useMembers_good (ha.resolve_left fun hheard => hpulled (by rw [hheard]; rfl)).1 k
  rw [hclassed]
  cases heard with
  | true => exact congrArg (fun x : State => x.andThen State.endAccess) (State.andThen_running hn _)
  | false =>
    obtain ⟨-, hothers⟩ := ha.resolve_left Bool.false_ne_true
    have halone : s.outcome f false false = .alone := by
      have hnobody : s.othersAfter f = [] := List.filter_eq_nil_iff.2 fun n hn => by
        simpa using (hothers n hn).resolve_right id
      unfold State.outcome
      rw [hnobody]
      rfl
    rw [halone]
    exact congrArg (fun x : State => x.andThen State.endAccess) (State.andThen_running hn _)

/-- The veto slot of an accepted BEAT whose access has opened. -/
theorem exec_vetoSlot_ownBeat {s z : State} {mask : StationMask} {p : WireParams} {heard : Bool} (hl : s.levelGood)
    (h : s.withoutDue.ownPaused { sender := s.nct.station, payload := .beat mask p })
    (ha : s.ownAccepts { sender := s.nct.station, payload := .beat mask p } heard)
    (hopen : (s.slotsPast (some .beat)).openAccess = z) (hmbu : z.mbu = s.mbu)
    (hstation : z.nct.station = s.nct.station) (hn : z.nct.node ≠ .halted) :
    ∃ build, exec (.vetoSlot heard false) s = .next (State.endAccess { z with obs := {
      queue := z.obs.queue.filter fun x => !decide (x.kind = .beat), build := build } }) := by
  have haccepts : z.ownAccepts { sender := s.nct.station, payload := .beat mask p } heard := by
    have hset : z.memberSet = s.memberSet := by
      unfold State.memberSet State.isMember State.memberState
      rw [hmbu]
    unfold State.ownAccepts State.membersGood
    rw [hset, hmbu, hstation]
    exact ha
  obtain ⟨build, hbeat⟩ := z.ownAccepted_beat s.nct.station mask p (!heard)
  refine ⟨build, (Rows.vetoSlot_ownDue hl h heard false).trans (congrArg Host.Outcome.next ?_)⟩
  refine (congrArg (fun x : State => x.andThen _) hopen).trans ((State.andThen_running hn _).trans ?_)
  refine (State.beat_handled haccepts hn).trans ?_
  rw [hbeat]
  exact State.andThen_running (by exact hn) _

/-- A BEAT whose access has a give-up due: one that it took over is made before the outcome, any other at its end. -/
theorem exec_vetoSlot_beatDue {s : State} {mask : StationMask} {p : WireParams} {d : DueGiveUp} {c : NodeConfig}
    {heard : Bool} (hcan : s.canonical)
    (h : s.withoutDue.ownPaused { sender := s.nct.station, payload := .beat mask p }) (hd : s.rpe.due = some d)
    (ha : s.ownAccepts { sender := s.nct.station, payload := .beat mask p } heard) (hg : s.entriesGood)
    (hc : s.hasConfig c) :
    ∃ t, exec (.vetoSlot heard false) s = .next t ∧
      State.givenUp { s with obs := { s.obs with queue := s.obs.queue.filter fun x => !decide (x.kind = .beat) } } t c
        (d.slots.filter fun n => s.rpe.wanted.contains n) ∧
      s.slotsEnd t (some .beat) ∧
      t.dst = s.dst ∧ t.mbu = s.mbu ∧ t.opu = s.opu ∧ t.wch = s.wch ∧ t.elg = s.elg ∧ t.lpt = s.lpt ∧
      t.scb = s.scb ∧ t.pending = s.pending := by
  obtain ⟨hdir, -⟩ := hcan
  obtain ⟨-, hnode, -, -, hpurpose, hgrant, -⟩ := id h
  by_cases htaken : d.takenOver = true
  · obtain ⟨hgiven, hrunning, nct, dir, rpe, obs, ntq, hmade⟩ :=
      State.makeGiveUp_spec (s := s.slotsPast (some .beat)) hdir hg hnode hc hd
    rw [hmade] at hgiven hrunning
    obtain ⟨-, -, -, -, -, hdue, hnct, -⟩ := id hgiven
    have hstation : nct.station = s.nct.station := by
      rw [show nct = _ from hnct]
      rfl
    obtain ⟨build, hrow⟩ := exec_vetoSlot_ownBeat hc.levelGood h ha
      ((State.openAccess_taken (s := s.slotsPast (some .beat)) hd htaken).trans hmade) rfl hstation hrunning
    have hended := State.endAccess_held (s := { s.slotsPast (some .beat) with
      nct := nct, dir := dir, rpe := rpe, ntq := ntq, obs := {
        queue := obs.queue.filter fun x => !decide (x.kind = .beat), build := build } }) (p := .ownFrame)
      ⟨hpurpose, hgrant, hdue⟩ hrunning
    exact ⟨_, hrow.trans (congrArg Host.Outcome.next hended), State.givenUp_without hgiven (k := .beat) nofun rfl,
      ⟨rfl, rfl, rfl⟩, rfl, rfl, rfl, rfl, rfl, rfl, rfl, rfl⟩
  · have hopen : (s.slotsPast (some .beat)).openAccess = s.slotsPast (some .beat) :=
        State.openAccess_open fun d' hd' => by
      obtain rfl : d = d' := Option.some.inj (hd.symm.trans hd')
      exact Bool.not_eq_true _ ▸ htaken
    obtain ⟨build, hrow⟩ := exec_vetoSlot_ownBeat hc.levelGood h ha hopen rfl rfl hnode
    obtain ⟨hgiven, nct, dir, rpe, obs, ntq, hend⟩ := State.endAccess_due (s := { s.slotsPast (some .beat) with obs := {
      queue := s.obs.queue.filter fun x => !decide (x.kind = .beat), build := build } }) (c := c) (d := d)
      (p := .ownFrame) hpurpose hgrant hdir hg hnode hc hd
    rw [hend] at hgiven
    exact ⟨_, hrow.trans (congrArg Host.Outcome.next hend), hgiven, ⟨rfl, rfl, rfl⟩, rfl, rfl, rfl, rfl, rfl, rfl,
      rfl, rfl⟩

/-- Settles O40: each frame's application and the end of its block's part, with the give-up that is due. -/
theorem acceptedOwnRepairFramesAndBeatTakeEffect : Obligations.AcceptedOwnRepairFramesAndBeatTakeEffect := by
  constructor
  · intro heard mask p d c s f hcan h hd ha hg hc
    exact exec_vetoSlot_beatDue hcan h hd ha hg hc
  intro heard f c s hcan h hsender hholds ha hg hc without
  obtain ⟨sender, payload⟩ := f
  obtain ⟨-, hnode, -, -, -, -, hdue⟩ := id h
  refine ⟨fun records hp hnodup hlength => ?sync, fun first mode count cycle hp hcycle => ?ask, fun mask p hp => ?beat⟩
  case sync =>
    obtain rfl : payload = .sync records := hp
    exact exec_vetoSlot_ownSync hcan h hsender hholds ha hg hc hnodup hlength
  case ask =>
    obtain rfl : payload = .ask first mode count := hp
    have hhandled := (State.ownAccepted_held (s := s.slotsPast (some .ask))
      (f := { sender := sender, payload := .ask first mode count }) hholds (!heard)).trans
        (State.askAccepted_eq (by exact hcycle) hc)
    exact ⟨_, exec_vetoSlot_accepted hc.levelGood h ha nofun rfl hnode hhandled hnode rfl rfl hdue, rfl, rfl,
      State.slotsEnd_own rfl, rfl, rfl, rfl, rfl, rfl, rfl, rfl, rfl, rfl, rfl⟩
  case beat =>
    obtain rfl : payload = .beat mask p := hp
    have hhandled := State.ownAccepted_held (s := s.slotsPast (some .beat))
      (f := { sender := sender, payload := .beat mask p }) hholds (!heard)
    exact ⟨_, exec_vetoSlot_accepted hc.levelGood h ha nofun rfl hnode hhandled hnode rfl rfl hdue, rfl,
      State.slotsEnd_own rfl, rfl, rfl, rfl, rfl, rfl, rfl, rfl, rfl, rfl, rfl, rfl⟩

end Sys2Proof.Machine
end

section
/-!
SUPPORT. The veto slot of the node's own LEAVE and HELLO (R11, R75, R86, R98, R99, R101, R103, R107, R112, R115).
-/

set_option Elab.async false

namespace Sys2Proof.Machine

/-! ### The outcome of a frame that no other station's table entry decides -/

/-- Nobody else is a member: the membership frames but HELLO and DROP are sent alone (R11). -/
theorem State.othersAfter_leave {s : State} {sender : Station} :
    s.othersAfter { sender := sender, payload := .leave } = [] ↔ ¬∃ n ∈ s.memberSet, n ≠ s.nct.station.toNat := by
  refine List.filter_eq_nil_iff.trans ?_
  simp only [Bool.not_eq_true', beq_eq_false_iff_ne, ne_eq, not_not, not_exists, not_and]

/-! ### The LEAVE of a power-fail leave (R107) -/

/-- A power-fail LEAVE past the slots: its outcome is logged, and its entry goes. -/
theorem State.vetoSlot_pfailLeave {s : State} (hphase : s.nct.phase = .pfailLeave) {f : Frame}
    (hshift : s.pbi.shift = .sendingPaused f) {heard veto : Bool} (hm : heard = true ∨ veto = true ∨ s.membersGood) :
    s.vetoSlot heard veto =
      ((s.slotsPast (some f.kind)).logOutcome f (s.outcome f heard veto)).removeEntry .leave := by
  unfold State.vetoSlot
  rw [hshift]
  simp only
  unfold State.senderSlots
  rw [if_pos hphase]
  unfold State.classed
  split_ifs with hpulled
  · rfl
  · refine State.useMembers_good (hm.elim (fun hheard => absurd ?_ hpulled) fun hor => hor.resolve_left fun hveto =>
      hpulled ?_) _
    · rw [hheard]
      rfl
    · rw [hveto, Bool.or_true]
      rfl

/-- The build in hand, but for a LEAVE. -/
theorem State.removeEntry_build (s : State) (k : FrameKind) :
    (s.removeEntry k).obs.build = s.obs.build.filter fun f => !decide (f.kind = k) := by
  unfold State.removeEntry
  cases s.obs.build with
  | none => rfl
  | some f =>
    show (if f.kind = k then none else some f) = if !decide (f.kind = k) then some f else none
    by_cases hk : f.kind = k
    · rw [if_pos hk, decide_eq_true hk]
      rfl
    · rw [if_neg hk, decide_eq_false hk]
      rfl

theorem State.outcome_veto (s : State) (f : Frame) (heard : Bool) : s.outcome f heard true = .refused := rfl

theorem State.outcome_heard (s : State) (f : Frame) : s.outcome f true false = .accepted := rfl

theorem State.outcome_alone {s : State} {f : Frame} (h : s.othersAfter f = []) : s.outcome f false false = .alone :=
  if_pos h

theorem State.outcome_unheard {s : State} {f : Frame} (h : s.othersAfter f ≠ []) :
    s.outcome f false false = .unheard :=
  if_neg h

/-! ### The end of the leave (R103) -/

/-- Each piece of local work is emptied, and the access ends. -/
theorem State.leave_ends {s : State} (hcan : s.canonical) (h : s.fckHolds .ownFrame) (logged : Elg)
    (result : DoneResult) :
    ∃ t, (State.endLeave { s.slotsPast (some .leave) with elg := logged } result).andThen State.endAccess = t ∧
      t.nct = { s.nct with node := .idle, phase := .none } ∧
      t.obs = { queue := [], build := none } ∧ t.opu = { s.opu with drafts := [] } ∧
      t.wch = [none, none, none, none] ∧
      t.rpe = { wanted := [], cycle := none, answers := [], due := none, unresolved := 0 } ∧
      (∀ n, t.mbu.entry n = { state := .absent, deadline := none, suspectSince := none, parityGood := true }) ∧
      t.mbu.decision = none ∧ t.mbu.beatRef = none ∧
      t.scb = { s.scb with timer := none, turn := none } ∧
      (∀ n, t.entry n = { s.entry n with wanted := false, unresolved := false, parityGood := true }) ∧
      t.ntq = s.ntq.arrive (.opDone .leave result none) ∧ t.elg = logged ∧
      t.pbi.shift = .slotsDone (some .leave) ∧ t.fck.purpose = none ∧ t.dst = s.dst ∧ t.lpt = s.lpt := by
  obtain ⟨hdir, -⟩ := hcan
  obtain ⟨hpurpose, hgrant, -⟩ := h
  have hended := State.endAccess_held (s := State.endLeave { s.slotsPast (some .leave) with elg := logged } result)
    (p := .ownFrame) ⟨hpurpose, hgrant, rfl⟩ nofun
  refine ⟨_, (State.andThen_running (by nofun) _).trans hended, rfl, rfl, rfl, rfl, rfl, fun _ => rfl, rfl, rfl, rfl,
    fun n => ?_, rfl, rfl, rfl, rfl, rfl, rfl⟩
  exact sparseGet_map hdir.1 DirEntry.clearFlags rfl n

theorem Obs.holds_of_find {o : Obs} {k : FrameKind} {e : OutEntry} (h : o.find k = some e) : o.holds k = true := by
  have hkind : OutEntry.isKind k e = true := List.find?_some h
  exact Obs.holds_true.2 ⟨e, List.mem_of_find?_eq_some h, of_decide_eq_true hkind⟩

/-- The eighth failure of a LEAVE. -/
theorem exec_vetoSlot_leaveFailed {s : State} {e : OutEntry} {heard veto : Bool} (hl : s.levelGood)
    (h : s.ownPaused { sender := s.nct.station, payload := .leave }) (he : s.obs.find .leave = some e)
    (hv : s.ownFails { sender := s.nct.station, payload := .leave } heard veto) (heighth : 8 ≤ e.attempts + 1) :
    exec (.vetoSlot heard veto) s = .next
      ((State.endLeave { s.slotsPast (some .leave) with
        elg := (s.pastFailure { sender := s.nct.station, payload := .leave } veto).elg } (failedResult veto)).andThen
        State.endAccess) := by
  refine (Rows.vetoSlot_failed hl h hv).trans (congrArg Host.Outcome.next ?_)
  exact congrArg (fun x : State => x.andThen State.endAccess)
    (State.ownFailed_eighth (s := s.pastFailure { sender := s.nct.station, payload := .leave } veto)
      (f := { sender := s.nct.station, payload := .leave }) he (by rintro (hk | ⟨-, hk⟩) <;> cases hk) heighth veto)

/-- Settles O41: the frame of a power-fail leave loses its entry alone; any other ends the leave. -/
theorem ownLeaveEndsTheLeave : Obligations.OwnLeaveEndsTheLeave := by
  refine ⟨fun heard veto s hr hphase hshift hm => ?pfail, fun heard veto e s hcan h he hl result logged hcases => ?leave⟩
  case pfail =>
    intro others logged
    have hslot := State.vetoSlot_pfailLeave hphase hshift hm
    have hothers : s.othersAfter { sender := s.nct.station, payload := .leave } = [] ↔ ¬others :=
      State.othersAfter_leave
    have hobs : ∀ x : State, x.obs = s.obs → (x.removeEntry .leave).obs = {
        queue := s.obs.queue.filter fun e => !decide (e.kind = .leave),
        build := s.obs.build.filter fun f => !decide (f.kind = .leave) } := fun x hx => by
      rw [← hx, ← State.removeEntry_build]
      rfl
    cases veto with
    | true =>
      exact ⟨_, State.driving_onBus_quiet hr hslot (.inl rfl), rfl, rfl, hobs _ rfl, fun _ => rfl, nofun, nofun⟩
    | false =>
      cases heard with
      | true =>
        exact ⟨_, State.driving_onBus_quiet hr hslot (.inl rfl), rfl, rfl, hobs _ rfl, nofun, fun _ _ => rfl, nofun⟩
      | false =>
        by_cases halone : others
        · rw [State.outcome_unheard fun hnil => hothers.1 hnil halone] at hslot
          exact ⟨_, State.driving_onBus_quiet hr hslot (.inl rfl), rfl, rfl, hobs _ rfl, nofun,
            fun _ hor => absurd halone (hor.resolve_left nofun), fun _ _ _ => rfl⟩
        · rw [State.outcome_alone (hothers.2 halone)] at hslot
          exact ⟨_, State.driving_onBus_quiet hr hslot (.inl rfl), rfl, rfl, hobs _ rfl, nofun, fun _ _ => rfl,
            fun _ _ hothers => absurd hothers halone⟩
  case leave =>
    obtain ⟨-, hnode, -, -, hholds⟩ := id h
    suffices hrow : exec (.vetoSlot heard veto) s = .next
        ((State.endLeave { s.slotsPast (some .leave) with elg := logged } result).andThen State.endAccess) by
      obtain ⟨t, hends, hleft⟩ := State.leave_ends hcan hholds logged result
      exact ⟨t, hrow.trans (congrArg Host.Outcome.next hends), hleft⟩
    rcases hcases with ⟨rfl, haccepts, rfl, rfl⟩ | ⟨heighth, rfl, rfl, rfl⟩ | ⟨heighth, rfl, rfl, hm, hothers, rfl, rfl⟩
    · refine (Rows.vetoSlot_accepted hl h haccepts nofun).trans (congrArg Host.Outcome.next ?_)
      have hhandled := State.ownAccepted_held (s := s.slotsPast (some .leave))
        (f := { sender := s.nct.station, payload := .leave }) (Obs.holds_of_find he) (!heard)
      exact congrArg (fun x : State => x.andThen State.endAccess)
        ((State.andThen_running (s := s.slotsPast (some .leave)) hnode _).trans hhandled)
    · exact exec_vetoSlot_leaveFailed hl h he (.inl rfl) heighth
    · exact exec_vetoSlot_leaveFailed hl h he (.inr ⟨rfl, hm, hothers⟩) heighth

/-! ### The node's own HELLO (R75, R86, R98, R99, R112, R115) -/

/-- The veto slot of an own HELLO whose outcome leaves `y`, with the access still held and no give-up due. -/
theorem exec_vetoSlot_ownHello {s y : State} {p : WireParams} {heard : Bool} {o : FrameOutcome} (hl : s.levelGood)
    (h : s.ownPaused { sender := s.nct.station, payload := .hello p })
    (ho : s.outcome { sender := s.nct.station, payload := .hello p } heard false = o) (hk : o = .accepted ∨ o = .alone)
    (hy : (s.slotsPast (some .hello)).ownOutcome { sender := s.nct.station, payload := .hello p } o = y)
    (hn : y.nct.node ≠ .halted) (hfck : y.fck = s.fck) (hsar : y.sar = s.sar) (hdue : y.rpe.due = none) :
    exec (.vetoSlot heard false) s = .next
      { y with fck := { s.fck with purpose := none }, sar := s.sar.handOver } := by
  obtain ⟨-, -, -, -, hfckHolds⟩ := id h
  have hlogged : (s.slotsPast (some .hello)).logOutcome { sender := s.nct.station, payload := .hello p } o =
      s.slotsPast (some .hello) := by
    rcases hk with rfl | rfl
    · rfl
    · rfl
  have hclassed : ∀ k, (s.slotsPast (some .hello)).classed { sender := s.nct.station, payload := .hello p } heard false
      k = k := fun k => if_pos (Bool.or_true _)
  refine (Rows.vetoSlot_own hl h heard false).trans (congrArg Host.Outcome.next ((hclassed _).trans ?_))
  rw [ho, ← State.endAccess_own hfckHolds hn hfck hsar hdue, ← hy]
  exact congrArg (fun x : State => (x.ownOutcome { sender := s.nct.station, payload := .hello p } o).andThen
    State.endAccess) hlogged

/-- The table of the group that the node is part of now. -/
theorem State.startMembership_entry (s : State) (c : NodeConfig) (set : StationMask) (n : Nat) :
    (s.startMembership c set).entry n =
      if n = s.nct.station.toNat then
        { state := .present, deadline := none, suspectSince := none, parityGood := true }
      else if n < 16 ∧ set.getLsbD n = true then {
        state := .present, deadline := some (s.nct.now + BitVec.ofNat 32 (c.beat * c.silence)),
        suspectSince := none, parityGood := true }
      else { state := .absent, deadline := none, suspectSince := none, parityGood := true } :=
  freshTable_get _ _ _ n

theorem State.mem_removeEntry {s : State} {k : FrameKind} {e : OutEntry} :
    e ∈ (s.removeEntry k).obs.queue ↔ e ∈ s.obs.queue ∧ e.kind ≠ k := by
  refine List.mem_filter.trans (and_congr Iff.rfl ?_)
  unfold OutEntry.isKind
  rw [Bool.not_eq_true', decide_eq_false_iff_not]

/-- The node in CATCHUP before its first cycle begins (R98). -/
def State.inCatchup (s : State) (c : NodeConfig) : State :=
  { s with
    dir := fillSlots c.activeSlots (fun _ => { DirEntry.blank with wanted := true }) s.dir,
    mbu := s.startMembership c s.mbu.provisional,
    rpe := { s.rpe with wanted := List.range c.activeSlots ++ s.rpe.beyond c.activeSlots, unresolved := 0 },
    scb := .start c,
    nct := { s.nct with node := .catchup, phase := .none },
    ntq := s.ntq.arrive (.opDone .join .ok none) }

theorem NodeConfig.le_activeSlots (c : NodeConfig) : 64 ≤ c.activeSlots :=
  Nat.le_mul_of_pos_right 64 (Nat.two_pow_pos _)

/-- A node without a cycle begins the first one at slot 0, whose ASK entry is placed (R115). -/
theorem State.enterCatchup_eq {s : State} {c : NodeConfig} (hc : s.hasConfig c) (hpfail : s.nct.pfailLatch = false)
    (hdue : s.rpe.due = none) (hcycle : s.rpe.cycle = none) (hask : ∀ e ∈ s.obs.queue, e.kind ≠ .ask) :
    ∃ build, s.enterCatchup = { s.inCatchup c with
      rpe := { (s.inCatchup c).rpe with cycle := some {
        first := 0, last := 15, try_ := 1, phase := .queued, sent := none, deadline := none, asked := [] } },
      obs := {
        queue := s.obs.queue ++ [{ kind := .ask, ref := .askTry 1, attempts := 0, queued := s.nct.now }],
        build := build } } := by
  have hslots := c.le_activeSlots
  have hactive : (s.inCatchup c).active = true := by
    unfold State.active
    rw [show (s.inCatchup c).nct.pfailLatch = false from hpfail]
    rfl
  have hhead : (s.inCatchup c).rpe.wanted.head? = some 0 := by
    show (List.range c.activeSlots ++ s.rpe.beyond c.activeSlots).head? = some 0
    rw [List.head?_append, List.head?_range, if_neg (by omega)]
    rfl
  have hwanted : (s.inCatchup c).rpe.wanted ≠ [] := fun hnil => by
    rw [hnil] at hhead
    cases hhead
  have hbegins : (s.inCatchup c).cycleBegins (s.inCatchup c).rpe.wanted = some 0 :=
    (if_pos ⟨hactive, nofun, .inl hcycle⟩).trans hhead
  have hends : (s.inCatchup c).cycleEnds (s.inCatchup c).rpe.wanted = false := by
    unfold State.cycleEnds
    rw [show (s.inCatchup c).rpe.cycle = none from hcycle]
    exact Bool.and_false _
  have hafter : (s.inCatchup c).cycleAfter c (s.inCatchup c).rpe.wanted = some {
      first := 0, last := 15, try_ := 1, phase := .queued, sent := none, deadline := none, asked := [] } := by
    unfold State.cycleAfter
    rw [hbegins]
    simp only
    rw [show min (0 + 15) (c.activeSlots - 1) = 15 by omega]
  have hqueue : (s.inCatchup c).queueAfter (s.inCatchup c).rpe.wanted s.obs.queue =
      s.obs.queue ++ [{ kind := .ask, ref := .askTry 1, attempts := 0, queued := s.nct.now }] := by
    unfold State.queueAfter
    rw [hbegins, hends]
    exact if_pos ⟨rfl, hask⟩
  obtain ⟨build, -, hsettled⟩ := State.settle_eq (s := s.inCatchup c) (c := c) hc hdue
  refine ⟨build, (State.useConfig_good hc _).trans (hsettled.trans ?_)⟩
  rw [if_neg fun ⟨_, _, hnil⟩ => hwanted hnil, if_neg fun ⟨_, _, hnil⟩ => hwanted hnil, hafter,
    show (s.inCatchup c).obs.queue = s.obs.queue from rfl, hqueue]

/-- Settles O42: the HELLO's handler founds a group, or enters CATCHUP and begins the first cycle. -/
theorem ownHelloFoundsOrEntersCatchup : Obligations.OwnHelloFoundsOrEntersCatchup := by
  intro p c s hc hpfail h hholds ref beyond
  obtain ⟨-, hnode, -, -, -, -, hdue⟩ := id h
  have hhandled : ∀ alone, ((s.slotsPast (some .hello)).andThen fun t =>
      t.ownAccepted { sender := s.nct.station, payload := .hello p } alone) =
      if alone then ((s.slotsPast (some .hello)).removeEntry .hello).found
      else ((s.slotsPast (some .hello)).removeEntry .hello).enterCatchup := fun alone =>
    (State.andThen_running (s := s.slotsPast (some .hello)) hnode _).trans
      (State.ownAccepted_held (s := s.slotsPast (some .hello))
        (f := { sender := s.nct.station, payload := .hello p }) hholds alone)
  refine ⟨fun hprovisional => ?founds, fun hcycle hask => ?enters⟩
  case founds =>
    have halone : s.outcome { sender := s.nct.station, payload := .hello p } false false = .alone := by
      refine State.outcome_alone ?_
      show StationMask.stations s.mbu.provisional = []
      rw [hprovisional]
      decide
    have hfound : (s.slotsPast (some .hello)).ownOutcome { sender := s.nct.station, payload := .hello p } .alone = _ :=
      (hhandled true).trans ((State.useConfig_good (s := (s.slotsPast (some .hello)).removeEntry .hello) hc _).trans
        (State.notifyAll_eq _ _))
    have hrow := exec_vetoSlot_ownHello hc.levelGood h halone (.inr rfl) hfound nofun rfl rfl hdue
    refine ⟨_, hrow, rfl, fun n hn => fillSlots_get hn _ _, fun n => ?_, rfl, rfl, rfl, rfl, rfl, rfl,
      fun e => State.mem_removeEntry (s := s.slotsPast (some .hello)), rfl, rfl, rfl, rfl, rfl⟩
    refine (State.startMembership_entry s c 0 n).trans (if_congr Iff.rfl rfl (if_neg fun ⟨_, hbit⟩ => ?_))
    exact absurd hbit (by simp)
  case enters =>
    obtain ⟨build, hentered⟩ := State.enterCatchup_eq (s := (s.slotsPast (some .hello)).removeEntry .hello) hc hpfail
      hdue hcycle fun e he => Obs.holds_false.1 hask e (State.mem_removeEntry (s := s.slotsPast (some .hello)).1 he).1
    have hrow := exec_vetoSlot_ownHello (heard := true) hc.levelGood h rfl (.inl rfl) ((hhandled false).trans hentered)
      nofun rfl rfl hdue
    refine ⟨_, hrow, rfl, fun n hn => fillSlots_get hn _ _, fun n hn => ?_, rfl, rfl, rfl, rfl, rfl, ?_, rfl, rfl, rfl,
      rfl, rfl, rfl⟩
    · exact (State.startMembership_entry s c s.mbu.provisional n).trans
        (if_congr Iff.rfl rfl (if_congr (and_iff_right hn) rfl rfl))
    · exact List.mem_append_right _ (List.mem_singleton_self _)

end Sys2Proof.Machine
end

section
/-!
SUPPORT. The end of a frame: the stop condition after the slots, and the truncation (R3, R4, R9, R13, R14, R34, R85, R86,
R101, R107, R137, R140).
-/

set_option Elab.async false

namespace Sys2Proof.Machine

/-! ### The stop condition after the slots (R4, R13, R85, R107) -/

theorem State.abortJoin_pbi (s : State) : s.abortJoin.pbi = s.pbi := by
  unfold State.abortJoin
  split_ifs
  · rfl
  · rfl

theorem State.abortLeave_pbi (s : State) : s.abortLeave.pbi = s.pbi := by
  unfold State.abortLeave
  split_ifs
  · rfl
  · rfl

/-- A halt lets the lines go, and keeps the last-sender flag. -/
theorem State.halt_lastSender {s : State} (h : s.nct.node ≠ .halted) (cause : HaltCause) :
    (s.halt cause).pbi.lastSender = s.pbi.lastSender := by
  have hpbi : (s.halt cause).pbi = s.haltRelease.pbi := by
    unfold State.halt
    rw [State.andThen_running h, State.endOp_eq]
    exact (State.abortLeave_pbi _).trans (State.abortJoin_pbi _)
  rw [hpbi]
  show s.pbi.abortOwn.lastSender = _
  rw [Pbi.abortOwn_frame]

theorem State.stop_received {s : State} (h : s.pbi.shift = .slotsDone none) (header : Option Byte) :
    s.stop header = { s with pbi := { s.pbi.goHigh with shift := .idle } } := by
  unfold State.stop
  simp only [h]

theorem State.stop_sent {s : State} {k : FrameKind} (h : s.pbi.shift = .slotsDone (some k)) (header : Option Byte) :
    s.stop header = State.ownStop { s with pbi := { s.pbi.goHigh with shift := .idle } } k := by
  unfold State.stop
  simp only [h]

/-- Settles O43: the receiver's stop, the sender's, and the sender's in a power-fail leave. -/
theorem stopConditionCompletesTheFrame : Obligations.StopConditionCompletesTheFrame := by
  refine ⟨fun header s hr hs => State.driving_onBus_quiet hr (State.stop_received hs header) (.inl rfl),
    fun header k s hr hs hphase => ?sender, fun header k s hr hs hphase => ?pfail⟩
  case sender =>
    refine State.driving_onBus_quiet hr ((State.stop_sent hs header).trans ?_) (.inl rfl)
    refine (if_neg (by exact hphase)).trans ?_
    by_cases hmoves : (s.active && decide (k ≠ .hello)) = true
    · rw [if_pos hmoves]
      exact if_pos hmoves
    · rw [if_neg hmoves]
      exact if_neg hmoves
  case pfail =>
    have hspec := State.halt_spec
      (s := { s with pbi := { s.pbi.goHigh with shift := .idle, lastSender := true } }) hr.2 .pfail
    obtain ⟨hnct, -⟩ := id hspec
    refine ⟨_, State.driving_onBus_quiet hr ((State.stop_sent hs header).trans (if_pos (by exact hphase)))
      (.inr (.inl (by rw [hnct]))), hspec,
      State.halt_lastSender (s := { s with pbi := { s.pbi.goHigh with shift := .idle, lastSender := true } }) hr.2 .pfail⟩

/-! ### Truncation (R3, R9, R14) -/

/-- The lines of a frame that has ended by a cause: a start condition begins the next frame. -/
def Pbi.cutBy (p : Pbi) (cause : TruncationCause) : Pbi :=
  if cause = .start then
    { ({ p.releaseReceiver with shift := .idle } : Pbi).goActive with shift := .receiving }
  else { p.releaseReceiver with shift := .idle }

theorem Pbi.cutBy_shift (p : Pbi) (cause : TruncationCause) :
    (p.cutBy cause).shift = if cause = .start then .receiving else .idle := by
  unfold Pbi.cutBy
  split_ifs
  · rfl
  · rfl

theorem Pbi.cutBy_holdPck (p : Pbi) (cause : TruncationCause) : (p.cutBy cause).holdPck = false := by
  unfold Pbi.cutBy
  split_ifs
  · rfl
  · rfl

/-- The node at the end of a frame, which is logged and discarded; its access is still to be cut. -/
def State.frameCut (s : State) (header : Option Byte) : State :=
  { s with
    elg := if s.nct.node.taking then s.elg.take {
        kind := .frameTruncated, time := s.nct.now,
        fields := {
          slot := none, station := header.map fun h => (headerStation h).toNat, word := none, bit := none } }
      else s.elg,
    pbi := { s.pbi.releaseReceiver with shift := .idle },
    fck := { s.fck with inbound := none } }

/-- The node with the time and the lines brought up to the end of a frame. -/
def State.atCut (s : State) (now : Time) (subBits : Nat) (pfailWait : Option Nat) (pbi : Pbi) (timer : Option Nat) :
    State :=
  { s with
    nct := { s.nct with now := now, subBits := subBits, pfailWait := pfailWait }, pbi := pbi,
    scb := { s.scb with timer := timer } }

/-- Whatever cut a frame: time is brought up to it, the node deals with the frame and its access, and a start condition
begins the next frame. -/
theorem State.frameEnds_cut {s : State} (hr : s.running) (hs : s.pbi.shift.inFrame = true) (cause : TruncationCause)
    (header : Option Byte) :
    ∃ now subBits pfailWait pbi timer, (cause ≠ .start → pbi.lines = .high) ∧
      (cause = .stop → pbi.busFreeTimer = 0) ∧ (cause = .idle → 12 ≤ pbi.busFreeTimer) ∧
      ∀ z, ((s.atCut now subBits pfailWait pbi timer).frameCut header).cutAccess.andThen
            (fun u => u.ownTruncated s.pbi.shift.ownFrame) = z →
        (z.nct.node ≠ .halted → z.fck.purpose ≠ some .build → z.pbi = { pbi.releaseReceiver with shift := .idle } →
          ∃ build, s.frameEnds cause header = { z with obs := { z.obs with build := build }, pbi := pbi.cutBy cause }) ∧
        (z.nct.node = .halted → s.frameEnds cause header = z) := by
  obtain ⟨nct, pbi, scb, hnct, hscb, hshift, hlines, hstop, hidle, hends⟩ := State.frameEnds_eq hr hs cause header
  refine ⟨nct.now, nct.subBits, nct.pfailWait, pbi, scb.timer, hlines, hstop, hidle, fun z hz => ?_⟩
  have hcut : State.truncate { s with nct := nct, pbi := pbi, scb := scb } header = z := by
    rw [hnct, hscb, State.truncate_eq, ← hz]
    simp only
    rw [hshift]
    rfl
  simp only [hcut] at hends
  refine ⟨fun hn hf hpbi => ?_, fun hn => ?_⟩
  · by_cases hstart : cause = .start
    · refine ⟨none, hends.trans ((if_pos hstart).trans ((State.startAfter_eq hn hf).trans ?_))⟩
      unfold Pbi.cutBy
      rw [if_pos hstart, hpbi]
    · refine ⟨z.obs.build, hends.trans ((if_neg hstart).trans ?_)⟩
      unfold Pbi.cutBy
      rw [if_neg hstart, ← hpbi]
  · by_cases hstart : cause = .start
    · exact hends.trans ((if_pos hstart).trans (State.andThen_halted hn _))
    · exact hends.trans (if_neg hstart)

/-- A truncation leaves the lines as its cause says, nothing of the frame, and the report. -/
def State.truncated (s t : State) (cause : TruncationCause) (header : Option Byte) : Prop :=
  t.elg = (if s.nct.node.taking then s.elg.take {
      kind := .frameTruncated, time := t.nct.now,
      fields := {
        slot := none, station := header.map fun h => (headerStation h).toNat, word := none, bit := none } }
    else s.elg) ∧
  t.fck = { inbound := none, purpose := none } ∧
  t.pbi.shift = (if cause = .start then .receiving else .idle) ∧
  t.pbi.lines = (if cause = .start then .active else .high) ∧ t.pbi.holdPck = false ∧
  t.pbi.pullHeard = false ∧ t.pbi.pullVeto = false ∧
  (cause = .stop → t.pbi.busFreeTimer = 0) ∧ (cause = .idle → 12 ≤ t.pbi.busFreeTimer) ∧
  t.nct = { s.nct with now := t.nct.now, subBits := t.nct.subBits, pfailWait := t.nct.pfailWait } ∧
  t.dir = s.dir ∧ t.dst = s.dst ∧ t.mbu = s.mbu ∧ t.rpe = s.rpe ∧ t.wch = s.wch ∧ t.lpt = s.lpt

/-- A check or build without a give-up due is let go. -/
theorem State.cutAccess_done {s : State} {p : Purpose} (hg : p ≠ .giveUp) (hn : s.nct.node ≠ .halted)
    (h : s.fck.purpose = none ∨ (s.fck.purpose = some p ∧ s.rpe.due = none)) :
    ∃ sar, s.cutAccess = { s with fck := { s.fck with purpose := none }, sar := sar } ∧
      ((s.fck.purpose = none ∧ sar = s.sar) ∨
        (s.fck.purpose = some p ∧ s.rpe.due = none ∧ sar = s.sar.letGo .fck)) := by
  rcases h with hfree | ⟨hp, hdue⟩
  · refine ⟨s.sar, (State.cutAccess_free hfree).trans ?_, .inl ⟨hfree, rfl⟩⟩
    rw [← hfree]
  · exact ⟨_, State.cutAccess_ends hp hg hdue hn, .inr ⟨hp, hdue, rfl⟩⟩

section Cut

variable {s : State} {cause : TruncationCause} {header : Option Byte} {now : Time} {subBits : Nat}
  {pfailWait timer : Option Nat} {pbi : Pbi}

/-- What the lines say after a truncation whose access is let go. -/
theorem State.truncated_cut (hlines : cause ≠ .start → pbi.lines = .high) (hstop : cause = .stop → pbi.busFreeTimer = 0)
    (hidle : cause = .idle → 12 ≤ pbi.busFreeTimer) (sar : Sar) (obs : Obs) (opu : Opu) (ntq : Ntq) :
    s.truncated { (s.atCut now subBits pfailWait pbi timer).frameCut header with
      fck := { inbound := none, purpose := none }, sar := sar, obs := obs, opu := opu, ntq := ntq,
      pbi := pbi.cutBy cause } cause header := by
  unfold State.truncated
  by_cases hstart : cause = .start
  · rw [if_pos hstart, if_pos hstart]
    subst hstart
    exact ⟨rfl, rfl, rfl, rfl, rfl, rfl, rfl, nofun, nofun, rfl, rfl, rfl, rfl, rfl, rfl, rfl⟩
  · have hcut : pbi.cutBy cause = { pbi.releaseReceiver with shift := .idle } := if_neg hstart
    rw [if_neg hstart, if_neg hstart, hcut]
    exact ⟨rfl, rfl, rfl, hlines hstart, rfl, rfl, rfl, hstop, hidle, rfl, rfl, rfl, rfl, rfl, rfl, rfl⟩

end Cut

theorem Shift.inFrame_of_ownFrame {h : Shift} {f : Frame} (ho : h.ownFrame = some f) : h.inFrame = true := by
  cases h with
  | sending _ | sendingPaused _ => rfl
  | idle | receiving | paused | slotsDone _ => cases ho

/-- A truncation after which the node runs on, with its access let go and `z` left of its own frame. -/
theorem exec_truncation_ends {s : State} (hr : s.running) (hs : s.pbi.shift.inFrame = true) {p : Purpose}
    (hp : p ≠ .giveUp) (hfck : s.fck.purpose = none ∨ (s.fck.purpose = some p ∧ s.rpe.due = none))
    {obs : Obs} {opu : Opu} {ntq : Ntq}
    (hown : ∀ x : State, x.nct.node = s.nct.node → x.nct.phase = s.nct.phase → x.obs = s.obs → x.opu = s.opu →
      x.ntq = s.ntq → x.ownTruncated s.pbi.shift.ownFrame = { x with obs := obs, opu := opu, ntq := ntq })
    (hq : ntq.notices = s.ntq.notices ∨ s.levelGood) (cause : TruncationCause) (header : Option Byte) :
    ∃ t, exec (.truncation cause header) s = .next t ∧ s.truncated t cause header ∧
      ((s.fck.purpose = none ∧ t.sar = s.sar) ∨
        (s.fck.purpose = some p ∧ s.rpe.due = none ∧ t.sar = s.sar.letGo .fck)) ∧
      t.obs.queue = obs.queue ∧ t.opu = opu ∧ t.ntq = ntq := by
  obtain ⟨now, subBits, pfailWait, pbi, timer, hlines, hstop, hidle, hends⟩ := State.frameEnds_cut hr hs cause header
  obtain ⟨sar, hcut, haccess⟩ := State.cutAccess_done
    (s := (s.atCut now subBits pfailWait pbi timer).frameCut header) hp hr.2 hfck
  have hz := (congrArg (fun x : State => x.andThen fun u => u.ownTruncated s.pbi.shift.ownFrame) hcut).trans
    ((State.andThen_running (by exact hr.2) _).trans (hown _ rfl rfl rfl rfl rfl))
  obtain ⟨hnext, -⟩ := hends _ hz
  obtain ⟨build, hframe⟩ := hnext hr.2 nofun rfl
  exact ⟨_, State.driving_onBus_quiet hr hframe (hq.imp id .inr),
    State.truncated_cut hlines hstop hidle sar { obs with build := build } opu ntq, haccess, rfl, rfl, rfl⟩

theorem State.pfailEnd_spec (s : State) (h : s.nct.node ≠ .halted) : s.haltedFrom s.pfailEnd .pfail [] :=
  State.halt_spec (s := s.removeEntry .leave) h .pfail

/-- The truncation of a power-fail LEAVE halts the node. -/
theorem exec_truncation_pfail {s : State} (hr : s.running) {f : Frame} (hown : s.pbi.shift.ownFrame = some f)
    (hphase : s.nct.phase = .pfailLeave)
    (hfck : s.fck.purpose = none ∨ (s.fck.purpose = some .ownFrame ∧ s.rpe.due = none)) (cause : TruncationCause)
    (header : Option Byte) :
    ∃ t, exec (.truncation cause header) s = .next t ∧
      State.haltedFrom
        { s with nct := { s.nct with now := t.nct.now, subBits := t.nct.subBits, pfailWait := t.nct.pfailWait } }
        t .pfail (if s.nct.node.taking then [(.frameTruncated, {
          slot := none, station := header.map fun h => (headerStation h).toNat, word := none,
          bit := none })] else []) := by
  obtain ⟨now, subBits, pfailWait, pbi, timer, -, -, -, hends⟩ :=
    State.frameEnds_cut hr (Shift.inFrame_of_ownFrame hown) cause header
  obtain ⟨sar, hcut, -⟩ := State.cutAccess_done
    (s := (s.atCut now subBits pfailWait pbi timer).frameCut header) (p := .ownFrame) nofun hr.2 hfck
  generalize hw : ({ (s.atCut now subBits pfailWait pbi timer).frameCut header with
    fck := { ((s.atCut now subBits pfailWait pbi timer).frameCut header).fck with purpose := none },
    sar := sar } : State) = w at hcut
  have hnode : w.nct.node ≠ .halted := by
    rw [← hw]
    exact hr.2
  have hz : (((s.atCut now subBits pfailWait pbi timer).frameCut header).cutAccess.andThen
      fun u => u.ownTruncated s.pbi.shift.ownFrame) = w.pfailEnd := by
    rw [hcut, State.andThen_running hnode, hown]
    exact if_pos (by rw [← hw]; exact hphase)
  obtain ⟨hnct, helg, hrest⟩ := w.pfailEnd_spec hnode
  obtain ⟨-, hnext⟩ := hends _ hz
  have hhalted : w.pfailEnd.nct.node = .halted := by rw [hnct]
  refine ⟨_, State.driving_onBus_quiet hr (hnext hhalted) (.inr (.inl hhalted)), ?_, ?_, ?_⟩
  · rw [hnct, ← hw]
    rfl
  · refine helg.trans ?_
    rw [hnct, ← hw]
    show (if s.nct.node.taking then _ else _) = _
    split_ifs
    · rfl
    · rfl
  · subst hw
    exact hrest

/-- Settles O44: each frame in progress, with its access let go, awaited, or the node halted. -/
theorem truncationDiscardsTheFrame : Obligations.TruncationDiscardsTheFrame := by
  refine ⟨fun header s => ⟨rfl, rfl⟩, fun cause header s hr => ?_⟩
  intro logged ended access
  refine ⟨fun hshift hfck => ?receiver, fun d hshift hp hk hd => ?awaited, fun f hshift hfck =>
    ⟨fun hphase hstays => ?stays, fun o hphase hleaving hop hholds ho hl => ?gone, fun hphase => ?pfail⟩⟩
  case receiver =>
    have hin : s.pbi.shift.inFrame = true ∧ s.pbi.shift.ownFrame = none := by
      rcases hshift with h | h
      · rw [h]
        exact ⟨rfl, rfl⟩
      · rw [h]
        exact ⟨rfl, rfl⟩
    obtain ⟨hin, hnone⟩ := hin
    exact exec_truncation_ends hr hin (p := .check) nofun hfck (obs := s.obs) (opu := s.opu) (ntq := s.ntq)
      (fun x _ _ hobs hopu hntq => by rw [hnone, ← hobs, ← hopu, ← hntq]; rfl) (.inl rfl) cause header
  case awaited =>
    have hnone : s.pbi.shift.ownFrame = none := by rw [hshift]; rfl
    obtain ⟨now, subBits, pfailWait, pbi, timer, -, -, -, hends⟩ :=
      State.frameEnds_cut hr (by rw [hshift]; rfl) cause header
    have hcut := State.cutAccess_awaited (s := (s.atCut now subBits pfailWait pbi timer).frameCut header) (p := .check)
      hp nofun hd hk
    have hz := (congrArg (fun x : State => x.andThen fun u => u.ownTruncated s.pbi.shift.ownFrame) hcut).trans
      ((State.andThen_running (by exact hr.2) _).trans (by rw [hnone]))
    obtain ⟨hnext, -⟩ := hends _ hz
    obtain ⟨build, hframe⟩ := hnext hr.2 nofun rfl
    refine ⟨_, State.driving_onBus_quiet hr hframe (.inl rfl), rfl, pbi.cutBy_shift cause,
      pbi.cutBy_holdPck cause, rfl, rfl, rfl, rfl, rfl, rfl, rfl, rfl, rfl, rfl, rfl⟩
  case stays =>
    have hown : s.pbi.shift.ownFrame = some f := hshift.elim (fun h => by rw [h]; rfl) fun h => by rw [h]; rfl
    refine exec_truncation_ends hr (Shift.inFrame_of_ownFrame hown) (p := .ownFrame) nofun hfck (obs := s.obs)
      (fun x hnode hphase' hobs hopu hntq => ?_) (.inl rfl) cause header
    rw [hown, ← hobs, ← hopu, ← hntq]
    refine (if_neg (by rw [hphase']; exact hphase)).trans (State.ownCut_stays (by rw [hnode]; exact hstays))
  case gone =>
    have hown : s.pbi.shift.ownFrame = some f := hshift.elim (fun h => by rw [h]; rfl) fun h => by rw [h]; rfl
    refine exec_truncation_ends hr (Shift.inFrame_of_ownFrame hown) (p := .ownFrame) nofun hfck
      (obs := (s.removeEntry f.kind).obs) (fun x hnode hphase' hobs hopu hntq => ?_) (.inr hl) cause header
    rw [hown, ← hopu, ← hntq]
    refine (if_neg (by rw [hphase']; exact hphase)).trans ?_
    refine (State.ownCut_gone (by rw [hnode]; exact hleaving) hop (by rw [hobs]; exact hholds)
      (by rw [hopu]; exact ho)).trans ?_
    unfold State.removeEntry
    rw [hobs]
  case pfail =>
    have hown : s.pbi.shift.ownFrame = some f := hshift.elim (fun h => by rw [h]; rfl) fun h => by rw [h]; rfl
    exact exec_truncation_pfail hr hown hphase hfck cause header

end Sys2Proof.Machine
end

section
/-!
SUPPORT. The store arbiter, stuck lines, and the deadlines of a joining and of a participating node (R16, R34, R77, R85,
R92, R96).
-/

set_option Elab.async false

namespace Sys2Proof.Machine

/-! ### The store arbiter (R34) -/

/-- A request while another holds the store waits. -/
theorem Sar.request_waits {a : Sar} {c d : Claimant} (h : a.grant = some d) (hd : d ≠ c) :
    a.request c = { a with
      fckWaits := a.fckWaits || decide (c = .fck), lptWaits := a.lptWaits || decide (c = .lpt),
      scbWaits := a.scbWaits || decide (c = .scb) } := by
  obtain ⟨grant, fckWaits, lptWaits, scbWaits⟩ := a
  obtain rfl : grant = some d := h
  unfold Sar.request
  rw [if_neg fun hsame => hd (Option.some.inj hsame), if_neg (by nofun)]
  cases c with
  | fck | lpt | scb => simp

/-- A waiting request that is withdrawn no longer waits. -/
theorem Sar.letGo_waiting {a : Sar} {c : Claimant} (h : a.grant ≠ some c) :
    a.letGo c = { a with
      fckWaits := a.fckWaits && decide (c ≠ .fck), lptWaits := a.lptWaits && decide (c ≠ .lpt),
      scbWaits := a.scbWaits && decide (c ≠ .scb) } := by
  unfold Sar.letGo
  rw [if_neg h]
  cases c with
  | fck | lpt | scb => simp

/-- Settles O56: each clause is one branch of the arbiter's two functions. -/
theorem arbiterGrantsByRank : Obligations.ArbiterGrantsByRank :=
  ⟨fun _ _ => ⟨rfl, rfl⟩, Sar.request_idle, fun _ _ _ h hd => Sar.request_waits h hd, fun _ _ h => Sar.letGo_held h,
    fun _ _ h => Sar.letGo_waiting h⟩

/-! ### Stuck lines (R16) -/

theorem Pbi.hold_shift (p : Pbi) (l : Line) : (p.hold l).shift = p.shift := by
  unfold Pbi.hold
  split
  all_goals rfl

theorem Pbi.elapse_shift (p : Pbi) (bits : Nat) : (p.elapse bits).shift = p.shift := by
  unfold Pbi.elapse
  split
  all_goals rfl

/-- The line that is held low counts every bit time. -/
theorem Pbi.stuckTimer_elapse_hold (p : Pbi) (l : Line) (bits : Nat) :
    ((p.hold l).elapse bits).stuckTimer l = (p.hold l).stuckTimer l + bits := by
  unfold Pbi.hold
  split
  all_goals rfl

/-- Bit times at a running node. -/
theorem State.elapse_atCut {s : State} (hr : s.running) (bits : Nat) :
    ∃ now subBits pfailWait timer, s.elapse bits = s.atCut now subBits pfailWait (s.pbi.elapse bits) timer := by
  obtain ⟨hout, hnode⟩ := hr
  have hpassed := State.elapse_out hout bits
  simp only [if_neg hnode] at hpassed
  exact ⟨_, _, _, _, hpassed⟩

/-- The first event of a stuck line: time is brought up to its 2048th bit, and the episode begins with its report and
its notice. -/
theorem State.stuck_begins {s : State} (hr : s.running) (he : s.pbi.stuckEpisode = false) (l : Line) :
    ∃ now subBits pfailWait pbi timer, pbi.stuckEpisode = true ∧ 2048 ≤ pbi.stuckTimer l ∧ pbi.shift = s.pbi.shift ∧
      s.stuck l = ((s.atCut now subBits pfailWait pbi timer).report .busStuck .none).notify .busStuck := by
  obtain ⟨now, subBits, pfailWait, timer, hpassed⟩ := State.elapse_atCut (s := { s with pbi := s.pbi.hold l }) hr
    (Config.stuckBits - (s.pbi.hold l).stuckTimer l)
  refine ⟨now, subBits, pfailWait,
    { (s.pbi.hold l).elapse (Config.stuckBits - (s.pbi.hold l).stuckTimer l) with stuckEpisode := true }, timer, rfl, ?_,
    (Pbi.elapse_shift _ _).trans (Pbi.hold_shift _ _), ?_⟩
  · have hcount := s.pbi.stuckTimer_elapse_hold l (Config.stuckBits - (s.pbi.hold l).stuckTimer l)
    have hbits : Config.stuckBits = 2048 := rfl
    have hsame : ∀ p : Pbi, ({ p with stuckEpisode := true } : Pbi).stuckTimer l = p.stuckTimer l := fun p => by
      cases l with
      | pck | pdt => rfl
    rw [hsame, hcount]
    omega
  · unfold State.stuck
    rw [if_neg (by rw [he]; nofun)]
    simp only
    rw [hpassed]
    rfl

theorem State.internalFault_spec {s : State} (h : s.nct.node ≠ .halted) (fields : ErrorFields) :
    s.haltedFrom (s.internalFault fields) .internalFault [(.internalFault, fields)] :=
  State.report_halt_spec h _ _ _

/-- Settles O45: the episode's first event, with the test of the enables, and those after it. -/
theorem stuckLineReportsOnce : Obligations.StuckLineReportsOnce := by
  refine ⟨fun l c s hr he hc hp hq => ?fault, fun l s hr he hl => ?begins, fun l s hr he => ?again, fun s hr he => ?ends⟩
  case fault =>
    obtain ⟨now, subBits, pfailWait, pbi, timer, -, -, -, hstuck⟩ := State.stuck_begins hr he l
    obtain ⟨-, hnode⟩ := id hr
    have hfault := State.driveNirq_fault (s := ((s.atCut now subBits pfailWait pbi timer).report .busStuck .none).notify
      .busStuck) hq hnode ⟨.busStuck, (Ntq.arrive_mem s.ntq .busStuck).resolve_left hq, nofun⟩ hc hp
    obtain ⟨hnct, helg, -⟩ := State.internalFault_spec (s := ((s.atCut now subBits pfailWait pbi timer).report .busStuck
      .none).notify .busStuck) hnode .none
    have hrow : exec (.busStuck l) s = .next _ := congrArg s.driving ((State.onBus_running hr _).trans hstuck)
    refine ⟨_, hrow.trans (congrArg Host.Outcome.next hfault), ?_, ?_, ?_⟩
    · exact congrArg Nct.node hnct
    · exact congrArg Nct.haltCause hnct
    · refine helg.trans ?_
      rw [hnct]
      rfl
  case begins =>
    obtain ⟨now, subBits, pfailWait, pbi, timer, hepisode, hcount, hshift, hstuck⟩ := State.stuck_begins hr he l
    exact ⟨_, State.driving_onBus_quiet hr hstuck (.inr (.inr hl)), hepisode, hcount, rfl, rfl, hshift, rfl, rfl, rfl,
      rfl, rfl, rfl, rfl, rfl, rfl⟩
  case again => exact State.driving_onBus_quiet hr (if_pos he) (.inl rfl)
  case ends =>
    refine congrArg Host.Outcome.next ((State.onBus_running hr _).trans (if_pos ?_))
    rw [he]
    rfl

/-! ### Deadlines (R77, R85, R96) -/

/-- Time is brought up to a deadline that has not come: local time reads it, at the beginning of its millisecond. -/
theorem State.reach_atCut {s : State} (hr : s.running) (hbits : s.nct.subBits < bitsPerMs s.nct.rate) (d : Time) :
    ∃ subBits pfailWait pbi timer, s.reach d =
      s.atCut (if (s.nct.now - d).toNat < 2147483648 then s.nct.now else d) subBits pfailWait pbi timer := by
  by_cases hpassed : (s.nct.now - d).toNat < 2147483648
  · rw [if_pos hpassed, State.reach_now hpassed]
    exact ⟨_, _, _, _, rfl⟩
  · rw [if_neg hpassed]
    have hreached : reached s.nct.now d = false := decide_eq_false hpassed
    have hreach : s.reach d = s.elapseMs (d - s.nct.now).toNat := if_neg (by rw [hreached]; nofun)
    have hms : (d - s.nct.now).toNat ≠ 0 := fun hzero => hpassed (by
      have hsame : d - s.nct.now = 0 := BitVec.eq_of_toNat_eq hzero
      bv_omega)
    have hmillis : (s.nct.subBits + ((d - s.nct.now).toNat * bitsPerMs s.nct.rate - s.nct.subBits)) /
        bitsPerMs s.nct.rate = (d - s.nct.now).toNat := by
      have hle : s.nct.subBits ≤ (d - s.nct.now).toNat * bitsPerMs s.nct.rate :=
        hbits.le.trans (Nat.le_mul_of_pos_left _ (Nat.pos_of_ne_zero hms))
      rw [Nat.add_sub_cancel' hle, Nat.mul_div_cancel _ (Nat.zero_lt_of_lt hbits)]
    obtain ⟨hout, hnode⟩ := hr
    have helapsed := State.elapse_out hout ((d - s.nct.now).toNat * bitsPerMs s.nct.rate - s.nct.subBits)
    have hnow : after s.nct.now (d - s.nct.now).toNat = d := by
      unfold after
      rw [BitVec.ofNat_toNat, BitVec.setWidth_eq]
      bv_omega
    rw [hmillis, hnow] at helapsed
    exact ⟨_, _, _, _, hreach.trans ((if_neg hms).trans helapsed)⟩

/-- The decision timer starts one grace from now, unless it runs or a DROP entry stands (R77). -/
theorem State.startDecision_eq {s : State} {c : NodeConfig} (hc : s.hasConfig c) :
    s.startDecision = { s with mbu := { s.mbu with
      decision := if s.mbu.decision ≠ none ∨ s.obs.holds .drop = true then s.mbu.decision
        else some (s.nct.now + BitVec.ofNat 32 c.beat) } } := by
  unfold State.startDecision
  by_cases hruns : s.mbu.decision ≠ none ∨ s.obs.holds .drop = true
  · rw [if_pos (by simpa [Option.isSome_iff_ne_none] using hruns), if_pos hruns]
  · rw [if_neg (by simpa [Option.isSome_iff_ne_none] using hruns), if_neg hruns]
    exact State.useConfig_good hc _

/-- Settles O46: the joining node's HELLO, the request for a BEAT, and the suspicion. -/
theorem deadlinesPlaceEntriesAndSuspect : Obligations.DeadlinesPlaceEntriesAndSuspect := by
  refine ⟨fun d s hout hnode hd hbits hempty => ?listen, fun r c s hout ha hc href => ⟨fun hasked => ?asked,
    fun hasked hpassed => ?beat⟩, fun n d c s hcan hout ha hother hc hparity hpresent hd hpassed => ?suspect⟩
  case listen =>
    obtain ⟨subBits, pfailWait, pbi, timer, hreach⟩ := State.reach_atCut ⟨hout, by rw [hnode]; nofun⟩ hbits d
    have hends : s.listenEnds = State.place { s.reach d with
        nct := { (s.reach d).nct with node := .announcing, listenDeadline := none } } .hello .none := by
      unfold State.listenEnds
      rw [hnode, hd]
    rw [hreach] at hends
    have hplaced := hends.trans (State.place_of_free .none (by
      show ∀ e ∈ s.obs.queue, _
      rw [hempty]
      nofun))
    refine ⟨_, congrArg Host.Outcome.next ((State.live_out hout _).trans hplaced), rfl, rfl, rfl, ?_, rfl, rfl, rfl, rfl,
      rfl, rfl, rfl, rfl, rfl, rfl⟩
    exact congrArg (fun q => q ++ _) hempty
  case asked =>
    have hdue : s.beatDue = s := by
      unfold State.beatDue
      rw [href, hasked, Bool.not_true, Bool.and_false]
      rfl
    exact congrArg Host.Outcome.next ((State.live_out hout _).trans hdue)
  case beat =>
    have hdue : s.beatDue = State.place { s with mbu := { s.mbu with beatAsked := true } } .beat .none := by
      unfold State.beatDue
      rw [href, hasked, ha]
      have hreach : s.reach (after r c.beat) = s := State.reach_now hpassed
      refine (State.useConfig_good hc _).trans ?_
      simp only
      rw [hreach]
    refine congrArg Host.Outcome.next ((State.live_out hout _).trans (hdue.trans ((State.place_eq rfl _).trans ?_)))
    by_cases hholds : s.obs.holds .beat = true
    · rw [if_pos hholds, if_pos hholds]
    · rw [if_neg hholds, if_neg hholds]
  case suspect =>
    obtain ⟨-, -, htable⟩ := hcan
    have hpasses : s.deadlinePasses n.toNat = State.startDecision ((s.setMember n.toNat
        ((s.mbu.entry n.toNat).suspected s.nct.now)).notify (.memberChanged n.toNat .suspect)) := by
      unfold State.deadlinePasses
      rw [if_pos (by rw [ha, decide_eq_true (Station.toNat_ne hother)]; rfl), State.useMember_good hparity]
      simp only [hpresent, hd]
      rw [State.reach_now hpassed]
    have hrow := congrArg s.driving ((State.live_out hout _).trans
      (hpasses.trans (State.startDecision_eq (by exact hc))))
    refine ⟨_, hrow.trans (State.driving_quiet (.inr (.inr hc.levelGood))), ?_, fun m hm => ?_, rfl, rfl⟩
    · refine (Mbu.entry_putEntry htable n.toNat n.toNat _).trans ((if_pos rfl).trans ?_)
      unfold MemberEntry.suspected
      rw [← hd]
    · exact (Mbu.entry_putEntry htable n.toNat m _).trans (if_neg hm)

end Sys2Proof.Machine
end

section
/-!
SUPPORT. The decision, the answer wait and the give-up, the scrub walk, and the watch ages (R79, R81, R100, R104,
R113–R115, R119, R121, R122, R156–R158, R174).
-/

set_option Elab.async false

namespace Sys2Proof.Machine

/-! ### The decision (R79, R81) -/

theorem State.decisionDue_eq {s : State} (ha : s.active = true) {d : Time} (hd : s.mbu.decision = some d)
    (hpassed : passed s.nct.now d) : s.decisionDue = s.takeDecision := by
  unfold State.decisionDue
  rw [hd]
  simp only
  rw [State.reach_now hpassed]
  exact if_pos ha

theorem State.participating_of_active {s : State} (h : s.active = true) : s.nct.node.participating = true :=
  (Bool.and_eq_true _ _ ▸ h).1

/-- Settles O47: with quorum the DROP of the suspects is placed, without it the node isolates itself. -/
theorem decisionDropsOrIsolates : Obligations.DecisionDropsOrIsolates := by
  intro d s hcan hr ha hm hd hpassed
  obtain ⟨hdir, -⟩ := hcan
  obtain ⟨hout, -⟩ := hr
  have hdue := (State.live_out hout State.decisionDue).trans (State.decisionDue_eq ha hd hpassed)
  refine ⟨fun hq hholds => ?_, fun hq hl => ?_⟩
  · exact (congrArg s.driving (hdue.trans (State.takeDecision_quorum hm hq hholds))).trans
      (State.driving_quiet (.inl rfl))
  · have hrow := Rows.decision hl
    exact ⟨_, hrow.trans (congrArg Host.Outcome.next hdue),
      State.takeDecision_isolates (State.participating_of_active ha) hdir hm hq⟩

/-! ### The answer wait and the give-up (R119, R121, R122) -/

/-- Settles O48: the next try is placed, or the give-up falls due. -/
theorem answerWaitQueuesTheNextTry : Obligations.AnswerWaitQueuesTheNextTry := by
  intro c d s hout ha hcycle hphase hdeadline hdue hpassed
  have hends : s.waitEnds = s.tryEnds c := by
    unfold State.waitEnds
    rw [hcycle]
    simp only [hphase, hdeadline]
    rw [State.reach_now hpassed, ha, hdue]
    rfl
  have hrow : exec .answerWaitExpiry s = .next (s.tryEnds c) :=
    congrArg Host.Outcome.next ((State.live_out hout _).trans hends)
  refine ⟨fun htry hask => ?next, fun htry hfree => ?asks, fun htry hbusy => ?waits⟩
  case next => exact hrow.trans (congrArg Host.Outcome.next (State.tryEnds_next htry hask))
  case asks =>
    refine hrow.trans (congrArg Host.Outcome.next ?_)
    unfold State.tryEnds State.giveUpDue
    rw [if_neg (Nat.not_lt.2 htry)]
    simp only [hfree, Option.isNone_none, if_true]
    exact State.askFck_free (by exact hfree) .giveUp
  case waits =>
    obtain ⟨p, hp⟩ := Option.ne_none_iff_exists'.1 hbusy
    exact hrow.trans (congrArg Host.Outcome.next (State.tryEnds_last htry hp))

/-- Settles O49: the held access ends with the give-up. -/
theorem giveUpMarksUnresolved : Obligations.GiveUpMarksUnresolved := by
  intro d c s hcan hr hf hk hd hg hc
  obtain ⟨hdir, -⟩ := hcan
  obtain ⟨hout, hnode⟩ := hr
  obtain ⟨hgiven, nct, dir, rpe, obs, ntq, hend⟩ := State.endAccess_due hf hk hdir hg hnode hc hd
  have hheld : s.giveUpHeld = s.endAccess := if_pos (by rw [hf, State.granted, hk]; rfl)
  have hrow := (Rows.giveUp hc.levelGood).trans (congrArg Host.Outcome.next ((State.live_out hout _).trans hheld))
  rw [hend] at hrow hgiven
  exact ⟨_, hrow, hgiven, rfl, rfl, rfl, rfl, rfl, rfl, rfl, rfl, rfl, rfl, rfl⟩

/-! ### The scrub walk (R157, R158) -/

section Step

variable {s : State} {n slots : Nat} (hk : s.sar.grant = some .scb) (hturn : s.scb.turn = some n)

include hk hturn

/-- The turn goes on to the next slot, whose step asks for the store. -/
theorem State.passedOver_goesOn (h : n + 1 < slots) :
    s.passedOver slots = { s with
      scb := { s.scb with pointer := if s.scb.pointer + 1 < slots then s.scb.pointer + 1 else 0, turn := some (n + 1) },
      sar := s.sar.handOver.request .scb } := by
  unfold State.passedOver State.letGoStore State.requestStore
  simp only [hturn, if_pos h, Sar.letGo_held hk]
  rfl

/-- The turn ends with the last slot that is active. -/
theorem State.passedOver_ends (h : slots ≤ n + 1) :
    s.passedOver slots = { s with
      scb := { pointer := if s.scb.pointer + 1 < slots then s.scb.pointer + 1 else 0, turn := none, timer := some 0 },
      sar := s.sar.handOver } := by
  unfold State.passedOver State.letGoStore Scb.endTurn
  simp only [hturn, if_neg (Nat.not_lt.2 h), Sar.letGo_held hk]
  rfl

/-- The turn ends with a slot whose words were read. -/
theorem State.scrubbed_ends :
    s.scrubbed slots = { s with
      scb := { pointer := if s.scb.pointer + 1 < slots then s.scb.pointer + 1 else 0, turn := none, timer := some 0 },
      sar := s.sar.handOver } := by
  unfold State.scrubbed State.letGoStore Scb.endTurn
  simp only [hturn, Sar.letGo_held hk]
  rfl

end Step

/-- Settles O50: the turn begins, and a step passes over its slot or finds its words clean. -/
theorem scrubTurnsAndStepsWalkTheSlots : Obligations.ScrubTurnsAndStepsWalkTheSlots := by
  constructor
  · intro n c s hout hc hwalks htimer hinterval
    have hbegins : s.turnBegins = { s with
        scb := { s.scb with timer := none, turn := some 0 }, sar := s.sar.request .scb } := by
      unfold State.turnBegins
      rw [htimer]
      refine (if_pos hwalks).trans ((State.useConfig_good hc _).trans ?_)
      rw [Nat.sub_eq_zero_of_le hinterval]
      rfl
    exact congrArg Host.Outcome.next ((State.live_out hout _).trans hbegins)
  · intro c passed s hr hc hk hturn hparity next
    obtain ⟨hout, hnode⟩ := hr
    have hgranted := (State.live_out hout _).trans (State.scrubStep_granted hc hk hparity)
    refine ⟨fun hhealth hmore => ?goesOn, fun hhealth hlast => ?ends, fun row hhealth hrow hclean => ?sound⟩
    case goesOn =>
      exact (congrArg s.driving (hgranted.trans ((if_neg hhealth).trans (State.passedOver_goesOn hk hturn hmore)))).trans
        (State.driving_quiet (.inl rfl))
    case ends =>
      exact (congrArg s.driving (hgranted.trans ((if_neg hhealth).trans (State.passedOver_ends hk hturn hlast)))).trans
        (State.driving_quiet (.inl rfl))
    case sound =>
      rw [if_pos hhealth, State.readSlot_clean hrow hclean, State.andThen_running hnode,
        State.scrubbed_ends hk hturn] at hgranted
      exact (congrArg s.driving hgranted).trans (State.driving_quiet (.inl rfl))

/-! ### The watch ages (R174) -/

/-- Settles O52: a deadline that has fired stands, and one that has not raises STALE. -/
theorem ageExpiryRaisesStaleOnce : Obligations.AgeExpiryRaisesStaleOnce := by
  intro index w a s hout ha hl hentry hage
  obtain ⟨slot, age, limit⟩ := w
  obtain rfl : age = some a := hage
  refine ⟨fun hfired => ?_, fun hfired hpassed => ?_⟩
  · have hstands : s.ageEnds index.val = s := by
      unfold State.ageEnds
      rw [hentry]
      simp only [hfired, Bool.not_true, Bool.and_false, Bool.false_eq_true, if_false]
    exact (congrArg s.driving ((State.live_out hout _).trans hstands)).trans (State.driving_quiet (.inl rfl))
  · have hraised : s.ageEnds index.val = { s with
        wch := s.wch.set index.val (some { slot := slot, age := some { a with fired := true }, limit := limit }),
        ntq := s.ntq.arrive (.stale index.val slot) } := by
      unfold State.ageEnds
      rw [hentry]
      simp only [hfired, ha, Bool.not_false, Bool.and_true, if_true]
      rw [State.reach_now hpassed]
      rfl
    exact (congrArg s.driving ((State.live_out hout _).trans hraised)).trans (State.driving_quiet (.inr (.inr hl)))

end Sys2Proof.Machine
end

section
/-!
SUPPORT. A scrub step of a GOOD slot with disturbed words (R29, R36, R37, R112–R115, R120, R130, R157, R158, R160–R163).
-/

set_option Elab.async false

namespace Sys2Proof.Machine

/-- No bit of a word is disturbed. -/
theorem flippedBits_eq_nil {flips : BitVec 22} (h : flippedBits flips = []) : flips = 0 := by
  refine BitVec.eq_of_getLsbD_eq fun i hi => ?_
  have hbit := List.filter_eq_nil_iff.1 h i (List.mem_range.2 hi)
  rw [Bool.not_eq_true] at hbit
  rw [hbit]
  exact BitVec.getLsbD_zero.symm

/-- Settles O51: the decoder's cases, and the step's read with what it writes back, strikes or retires. -/
theorem disturbedWordsAreCorrectedStruckOrRetired : Obligations.DisturbedWordsAreCorrectedStruckOrRetired := by
  refine ⟨fun x => ?decoded, ?step⟩
  case decoded =>
    intro bits
    exact ⟨fun h => Cell.decode_clean (flippedBits_eq_nil h), fun bit h => Cell.decode_one h, fun h => Cell.decode_two h,
      fun h => Cell.decode_many h⟩
  case step =>
    intro c row s hcan hr hc hk hparity hhealth hrow hlength hturn slot scb
    obtain ⟨hdir, hcells, htable⟩ := hcan
    obtain ⟨hout, hnode⟩ := hr
    obtain ⟨n, hn⟩ := Option.ne_none_iff_exists'.1 hturn
    obtain ⟨u, hthrough, hclean, hbad⟩ := State.readSlot_spec hcells hrow hlength
    have hstep := (Rows.scrubStep hc.levelGood).trans (congrArg Host.Outcome.next ((State.live_out hout _).trans
      ((State.scrubStep_granted hc hk hparity).trans (if_pos hhealth))))
    obtain ⟨hu, hucells, -⟩ := id hthrough
    obtain ⟨cells, elg, rfl⟩ : ∃ cells elg, u = { s with dst := { s.dst with cells := cells }, elg := elg } := ⟨_, _, hu⟩
    refine ⟨_, hthrough, fun hno => ?_, fun w hw => ?_⟩
    · rw [hclean hno] at hstep
      exact hstep.trans (congrArg Host.Outcome.next
        ((State.andThen_running (s := { s with dst := { s.dst with cells := cells }, elg := elg }) hnode _).trans
          (State.scrubbed_ends hk hn)))
    · rw [hbad w hw] at hstep
      obtain ⟨hdamaged, hrunning, node, dir, rpe, obs, dst, ntq, elg', hframe⟩ := State.damage_spec (slot := slot)
        (row := row) (w := w) (s := { s with dst := { s.dst with cells := cells }, elg := elg }) (c := c)
        ⟨hdir, hucells, htable⟩ hnode hc hparity
      rw [hframe] at hdamaged hrunning
      have hend := (congrArg (fun x : State => x.andThen fun y => y.scrubbed c.activeSlots) hframe).trans
        ((State.andThen_running hrunning _).trans (State.scrubbed_ends hk hn))
      exact ⟨_, hstep.trans (congrArg Host.Outcome.next hend), hdamaged, rfl, rfl, rfl⟩

end Sys2Proof.Machine
end
